-- ==== Sys2Proof/Word.lean ====
section
/-! DEFINITION. Word types and their plainest arithmetic: the machine's 64-bit scalar word, its narrower parts and the
integer readings of R108. -/

namespace Sys2Proof

/-- A scalar register, an address or a timeline value (R32). -/
abbrev Word := BitVec 64

/-- A 32-bit word: a header, a slot word, a literal (R66). -/
abbrev Word32 := BitVec 32

/-- A byte of memory, of the scratchpad or of an instruction side. -/
abbrev Byte := BitVec 8

/-- The 1024 bits of a vector row (R34). -/
abbrev RowBits := BitVec 1024

/-- An FP flag set in the bit order of fsr (R40): IV, DZ, OF, UF, NX from bit 4 down. -/
abbrev Flags := BitVec 5

/-- The integer congruent to `x` modulo 2^64, as a register pattern: Wrap(n64, x) of R109. -/
def wrapWord (x : Int) : Word := BitVec.ofInt 64 x

end Sys2Proof
end

