-- ==== Sys2Proof/Syntax.lean ====
section
/-! DEFINITION. The syntax of the XN96's steps: one constructor of `Instr` per row of spec/opcode_table.json. The first 163
are the instructions of the eight slots, with their fields as R76 to R82 lay them out; the others are the events of the
device, which have no encoding and whose arguments name the unit, the register or the data that the event concerns. -/

namespace Sys2Proof

/-- A scalar register number within its cluster (R78). -/
abbrev SReg := BitVec 5

/-- A vector row number, v0 to v127. -/
abbrev VReg := BitVec 7

/-- A predicate number, p0 to p11. -/
abbrev PReg := Fin 12

/-- A logical core number 0 to 95 (R14). -/
abbrev CoreId := Fin 96

/-- A chase number 0 to 11 (R13). -/
abbrev ChaseId := Fin 12

/-- A partition number 0 to 23 (R435). -/
abbrev PartId := Fin 24

/-- A galley engine index (R17). -/
abbrev EngineId := Fin 1024

/-- A channel number (R17). -/
abbrev ChanId := Fin 256

/-- A function of the host port: 0 the physical function, k virtual function k (R342). -/
abbrev FuncId := Fin 97

/-- A copy context cx0 to cx3 (R63). -/
abbrev CtxId := Fin 4

/-- A key slot (R446). -/
abbrev KeySlotId := Fin 32

/-- The cluster of a scalar register (R80). -/
inductive Cluster where
  | a | b
  deriving DecidableEq, Repr

/-- The slot of a scalar ALU instruction: SA or SB, which share one map (R84). -/
inductive SSlot where
  | sa | sb
  deriving DecidableEq, Repr

/-- The slot of a memory instruction: MA or MB, which share one map (R86). -/
inductive MSlot where
  | ma | mb
  deriving DecidableEq, Repr

/-- The predicate field (R75). -/
inductive Pred where
  | always
  | whenSet (p : PReg)
  | whenClear (p : PReg)
  deriving DecidableEq, Repr

/-- The type codes of R77, in the order of their codes. -/
inductive ITy where
  | i64 | i32 | i16 | i8 | n64 | n32 | n16 | n8
  deriving DecidableEq, Repr

/-- The rounding modes of R103, in the order of their codes. -/
inductive RMode where
  | rne | rtz | rdn | rup
  deriving DecidableEq, Repr

/-- The conditions of CMP (R166). -/
inductive Cond where
  | eq | ne | lt | ge | gt | le | tst
  deriving DecidableEq, Repr

/-- The conditions of CMPI (R166). -/
inductive CondI where
  | eq | ne | lt | ge | ltn | gen | tst
  deriving DecidableEq, Repr

/-- The conditions of FCMP (R174). -/
inductive FCond where
  | eq | ne | lt | ge | gt | le | un
  deriving DecidableEq, Repr

/-- The sign operations of FSGN (R175). -/
inductive SgnOp where
  | cp | neg | xor
  deriving DecidableEq, Repr

/-- The conversion kinds of FCVT (R176), in the order of their codes. -/
inductive CvtKind where
  | i64Fp32 | i32Fp32 | n64Fp32 | n32Fp32 | fp32I64 | fp32N64 | bf16Fp32 | fp16Fp32 | fp32Bf16 | fp32Fp16
  deriving DecidableEq, Repr

/-- The index reading of LEA (R164). -/
inductive LeaTy where
  | i64 | i32 | n32
  deriving DecidableEq, Repr

/-- The scopes of R264, in the order of their codes. -/
inductive Scope where
  | core | chase | dev | sys
  deriving DecidableEq, Repr

/-- The pairs a FENCE orders (R267). -/
inductive FenceKind where
  | rr | rw | wr | ww | all
  deriving DecidableEq, Repr

/-- The operations of AMO (R291). -/
inductive AmoOp where
  | swap | add | and | or | xor | min | max | maxn
  deriving DecidableEq, Repr

/-- The order bits of AMO and CAS (R269, R291). -/
inductive AmoOrd where
  | rlx | acq | rel | ar
  deriving DecidableEq, Repr

/-- The hints of PREF (R293). -/
inductive PrefHint where
  | rd | wr | l2
  deriving DecidableEq, Repr

/-- The granules of CLEAN and INVAL (R293). -/
inductive Granule where
  | line | sb | tile
  deriving DecidableEq, Repr

/-- The five timelines (R337). -/
inductive Tline where
  | tl (k : CtxId)
  | tlg
  deriving DecidableEq, Repr

/-- The row formats a VBCAST or VLDS may name: tags 1 to 9 and 13 (R192, R289). -/
inductive LaneTag where
  | fp32 | bf16 | fp16 | tf8 | tf6 | i32 | i16 | i8 | i4 | idx
  deriving DecidableEq, Repr

/-- The tags VTAG may name (R205). -/
inductive NewTag where
  | raw | lane (t : LaneTag) | mask
  deriving DecidableEq, Repr

/-- The targets of VCVT (R199), in the order of their codes. -/
inductive CvtDst where
  | fp32 | bf16 | fp16 | tf8 | tf6 | i32 | i16 | i8
  deriving DecidableEq, Repr

/-- The operations of VBND (R206). -/
inductive BndOp where
  | set | add | chk
  deriving DecidableEq, Repr

/-- MX.WSWAP's selection (R216). -/
inductive SwapSel where
  | toggle | w0 | w1
  deriving DecidableEq, Repr

/-- The drain formats of MX.MODE (R216). -/
inductive DrainFmt where
  | fp32 | bf16 | fp16
  deriving DecidableEq, Repr

/-- A count field of LOOP: a register of either cluster (R386). -/
structure CReg where
  c : Cluster
  r : SReg
  deriving DecidableEq, Repr

/-- An engine-command operand: a register field, or a literal reference to the word, or the pair of words, at index k
(R321). -/
inductive EArg where
  | reg (r : SReg)
  | lit (k : Fin 3)
  deriving DecidableEq, Repr

/-- What a supervisor core's RV64 access does (R279): a load, a store, an atomic of R291's operations, or a fence. -/
inductive SupOp where
  | load (addr : Nat) (size : Nat)
  | store (addr : Nat) (bytes : List Byte)
  | amo (op : AmoOp) (addr : Nat) (v : Word)
  | fence
  deriving DecidableEq, Repr

/-- A trap or event ring (R469). -/
inductive RingId where
  | chase (c : ChaseId)
  | device
  deriving DecidableEq, Repr

/-- One step of the part: a slot instruction with its fields, or an event. -/
inductive Instr where
  -- SA and SB (R84)
  | add (s : SSlot) (p : Pred) (d a b : SReg) (sat : Bool) (t : ITy)
  | sub (s : SSlot) (p : Pred) (d a b : SReg) (sat : Bool) (t : ITy)
  | mul (s : SSlot) (p : Pred) (d a b : SReg) (sat : Bool) (t : ITy)
  | mulh (s : SSlot) (p : Pred) (d a b : SReg) (t : ITy)
  | mulhn (s : SSlot) (p : Pred) (d a b : SReg) (t : ITy)
  | and (s : SSlot) (p : Pred) (d a b : SReg)
  | or (s : SSlot) (p : Pred) (d a b : SReg)
  | xor (s : SSlot) (p : Pred) (d a b : SReg)
  | andn (s : SSlot) (p : Pred) (d a b : SReg)
  | shl (s : SSlot) (p : Pred) (d a b : SReg) (t : ITy)
  | shr (s : SSlot) (p : Pred) (d a b : SReg) (t : ITy)
  | sra (s : SSlot) (p : Pred) (d a b : SReg) (t : ITy)
  | min (s : SSlot) (p : Pred) (d a b : SReg) (t : ITy)
  | max (s : SSlot) (p : Pred) (d a b : SReg) (t : ITy)
  | minn (s : SSlot) (p : Pred) (d a b : SReg) (t : ITy)
  | maxn (s : SSlot) (p : Pred) (d a b : SReg) (t : ITy)
  | addi (s : SSlot) (p : Pred) (d a : SReg) (i : BitVec 11)
  | andi (s : SSlot) (p : Pred) (d a : SReg) (i : BitVec 11)
  | ori (s : SSlot) (p : Pred) (d a : SReg) (i : BitVec 11)
  | xori (s : SSlot) (p : Pred) (d a : SReg) (i : BitVec 11)
  | shli (s : SSlot) (p : Pred) (d a : SReg) (t : ITy) (n : BitVec 6)
  | shri (s : SSlot) (p : Pred) (d a : SReg) (t : ITy) (n : BitVec 6)
  | srai (s : SSlot) (p : Pred) (d a : SReg) (t : ITy) (n : BitVec 6)
  | cmpi (s : SSlot) (p : Pred) (d : PReg) (a : SReg) (c : CondI) (i : BitVec 9)
  | clz (s : SSlot) (p : Pred) (d a : SReg) (t : ITy)
  | ctz (s : SSlot) (p : Pred) (d a : SReg) (t : ITy)
  | popc (s : SSlot) (p : Pred) (d a : SReg) (t : ITy)
  | ext (s : SSlot) (p : Pred) (d a b : SReg)
  | extn (s : SSlot) (p : Pred) (d a b : SReg)
  | ins (s : SSlot) (p : Pred) (d a b : SReg)
  | sel (s : SSlot) (p : Pred) (d a b : SReg) (ps : PReg)
  | lea (s : SSlot) (p : Pred) (d a b : SReg) (sh : BitVec 3) (t : LeaTy)
  | movi (s : SSlot) (p : Pred) (d : SReg) (i : BitVec 16)
  | movhi (s : SSlot) (p : Pred) (d : SReg) (i : BitVec 16)
  | moviSl (s : SSlot) (p : Pred) (d : SReg) (lsel : Fin 3) (wide : Bool)
  | cmv (s : SSlot) (p : Pred) (d a : SReg)
  | cmp (s : SSlot) (p : Pred) (d : PReg) (a b : SReg) (c : Cond) (t : ITy)
  | pset (s : SSlot) (p : Pred) (d pa pb : PReg) (tt : BitVec 4)
  | rdsr (s : SSlot) (p : Pred) (d : SReg) (n : BitVec 11)
  | wrsr (s : SSlot) (p : Pred) (a : SReg) (n : BitVec 11)
  | fadd (s : SSlot) (p : Pred) (d a b : SReg) (m : RMode)
  | fsub (s : SSlot) (p : Pred) (d a b : SReg) (m : RMode)
  | fmul (s : SSlot) (p : Pred) (d a b : SReg) (m : RMode)
  | fma (s : SSlot) (p : Pred) (d a b : SReg) (m : RMode)
  | fnma (s : SSlot) (p : Pred) (d a b : SReg) (m : RMode)
  | fmin (s : SSlot) (p : Pred) (d a b : SReg)
  | fmax (s : SSlot) (p : Pred) (d a b : SReg)
  | fcmp (s : SSlot) (p : Pred) (d : PReg) (a b : SReg) (c : FCond)
  | fcvt (s : SSlot) (p : Pred) (d a : SReg) (k : CvtKind) (m : RMode)
  | fsgn (s : SSlot) (p : Pred) (d a b : SReg) (o : SgnOp)
  | div (p : Pred) (d a b : SReg) (t : ITy)
  | divn (p : Pred) (d a b : SReg) (t : ITy)
  | rem (p : Pred) (d a b : SReg) (t : ITy)
  | remn (p : Pred) (d a b : SReg) (t : ITy)
  | fdiv (p : Pred) (d a b : SReg) (m : RMode)
  | fsqrt (p : Pred) (d a : SReg) (m : RMode)
  -- CTL (R85)
  | br (p : Pred) (t : BitVec 14)
  | bri (p : Pred) (r : CReg)
  | call (p : Pred) (t : BitVec 14)
  | ret (p : Pred)
  | brSide (p : Pred) (t : BitVec 14)
  | loop (p : Pred) (l : Fin 4) (r : CReg) (e : BitVec 13)
  | loopi (p : Pred) (l : Fin 4) (n : BitVec 6) (e : BitVec 13)
  | done (p : Pred)
  | abort (p : Pred) (code : BitVec 16)
  | trap (p : Pred) (code : BitVec 16)
  | escal (p : Pred)
  | wait (p : Pred) (ld st cp mx : BitVec 5)
  | waittl (p : Pred) (r : CReg) (t : Tline)
  | ifence (p : Pred)
  | bar (p : Pred) (r : CReg) (d : PReg)
  | maskw (p : Pred) (r : CReg) (d : PReg)
  | cpLin (p : Pred) (k : CtxId) (c : Cluster) (x y : SReg) (z : EArg) (nc : Bool)
  | cpTensor (p : Pred) (k : CtxId) (c : Cluster) (x y z : SReg) (nc : Bool)
  | cpFill (p : Pred) (k : CtxId) (c : Cluster) (x y z : SReg) (nc : Bool)
  | cpIsp (p : Pred) (k : CtxId) (c : Cluster) (x y z : SReg)
  | geBcast (p : Pred) (c : Cluster) (x y z : SReg)
  | geCall (p : Pred) (c : Cluster) (x : SReg) (y z : EArg)
  | geFence (p : Pred) (c : Cluster) (x : SReg)
  | geOpen (p : Pred) (c : Cluster) (x y z : SReg)
  | geClose (p : Pred) (c : Cluster) (x z : SReg)
  | launch (p : Pred) (c : Cluster) (x : SReg) (y : EArg) (z : SReg)
  | heapPush (p : Pred) (c : Cluster) (x y : SReg)
  | heapPop (p : Pred) (c : Cluster) (x y : SReg)
  -- MA and MB (R86)
  | ld (s : MSlot) (p : Pred) (r b : SReg) (t : ITy) (d : BitVec 8)
  | st (s : MSlot) (p : Pred) (r b : SReg) (t : ITy) (d : BitVec 8)
  | lda (s : MSlot) (p : Pred) (r b : SReg) (t : ITy) (sc : Scope) (d : BitVec 6)
  | stl (s : MSlot) (p : Pred) (r b : SReg) (t : ITy) (sc : Scope) (d : BitVec 6)
  | ldm (s : MSlot) (p : Pred) (r b : SReg) (d : BitVec 8)
  | vld (s : MSlot) (p : Pred) (v : VReg) (b : SReg) (d : BitVec 9)
  | vst (s : MSlot) (p : Pred) (v : VReg) (b : SReg) (d : BitVec 9)
  | vlds (s : MSlot) (p : Pred) (v : VReg) (b sr : SReg) (f : LaneTag)
  | vgath (s : MSlot) (p : Pred) (v : VReg) (b : SReg) (i : VReg) (f : BitVec 2)
  | vscat (s : MSlot) (p : Pred) (v : VReg) (b : SReg) (i : VReg) (f : BitVec 2)
  | amo (s : MSlot) (p : Pred) (r b rs : SReg) (o : AmoOp) (e : AmoOrd) (sys : Bool)
  | cas (s : MSlot) (p : Pred) (r b rs : SReg) (e : AmoOrd) (sys : Bool)
  | fence (s : MSlot) (p : Pred) (k : FenceKind) (sc : Scope)
  | drain (s : MSlot) (p : Pred) (sc : Scope)
  | pref (s : MSlot) (p : Pred) (b : SReg) (h : PrefHint) (d : BitVec 8)
  | clean (s : MSlot) (p : Pred) (b : SReg) (g : Granule) (d : BitVec 8)
  | inval (s : MSlot) (p : Pred) (b : SReg) (g : Granule) (d : BitVec 8)
  -- VEC (R87)
  | vadd (p : Pred) (d a b : VReg)
  | vsub (p : Pred) (d a b : VReg)
  | vmul (p : Pred) (d a b : VReg)
  | vfma (p : Pred) (d a b : VReg)
  | vfms (p : Pred) (d a b : VReg)
  | vmin (p : Pred) (d a b : VReg)
  | vmax (p : Pred) (d a b : VReg)
  | vabs (p : Pred) (d a : VReg)
  | vneg (p : Pred) (d a : VReg)
  | vand (p : Pred) (d a b : VReg)
  | vor (p : Pred) (d a b : VReg)
  | vxor (p : Pred) (d a b : VReg)
  | vnot (p : Pred) (d a : VReg)
  | vshl (p : Pred) (d a b : VReg)
  | vshr (p : Pred) (d a b : VReg)
  | vsra (p : Pred) (d a b : VReg)
  | vcmp (p : Pred) (d a b : VReg)
  | vsel (p : Pred) (d a b : VReg)
  | vbcast (p : Pred) (d : VReg) (t : LaneTag) (c : Cluster) (r : SReg)
  | vext (p : Pred) (d : SReg) (a : VReg) (j : BitVec 7)
  | vins (p : Pred) (d : VReg) (j : BitVec 7) (c : Cluster) (r : SReg)
  | vexp2 (p : Pred) (d a : VReg)
  | vlog2 (p : Pred) (d a : VReg)
  | vrcp (p : Pred) (d a : VReg)
  | vrsq (p : Pred) (d a : VReg)
  | vtanh (p : Pred) (d a : VReg)
  | vrsum (p : Pred) (d a : VReg)
  | vrmax (p : Pred) (d a : VReg)
  | vrmin (p : Pred) (d a : VReg)
  | vcvt (p : Pred) (d a : VReg) (part : BitVec 2) (m : RMode) (t : CvtDst)
  | vscale (p : Pred) (d a : VReg) (c : Cluster) (r : SReg)
  | vquant (p : Pred) (d a : VReg) (c : Cluster) (r : SReg)
  | vnib (p : Pred) (d a : VReg) (uns ilv half : Bool)
  | vbperm (p : Pred) (d a b : VReg)
  | vtag (p : Pred) (d a : VReg) (t : NewTag)
  | vbnd (p : Pred) (d a : VReg) (o : BndOp) (k : BitVec 5)
  -- MAT (R88)
  | mxMac (p : Pred) (d s : VReg) (n : BitVec 7)
  | mxMaca (p : Pred) (d s : VReg) (n : BitVec 7)
  | mxWload (p : Pred) (w : Bool) (s : VReg) (n : BitVec 7)
  | mxWswap (p : Pred) (f : SwapSel)
  | mxDrain (p : Pred) (d s : VReg) (n : BitVec 7)
  | mxClr (p : Pred) (d : VReg) (n : BitVec 7)
  | mxSscale (p : Pred) (v : VReg)
  | mxSscaleB (p : Pred) (a : SReg)
  | mxWscale (p : Pred) (w : Bool) (a : SReg)
  | mxMode (p : Pred) (f : DrainFmt) (h nsc : Bool)
  -- XPS (R89)
  | xpPerm (p : Pred) (d a b : VReg)
  | xpShuf (p : Pred) (d a b : VReg)
  | xpRot (p : Pred) (d a : VReg) (c : Cluster) (r : SReg)
  | xpSlide (p : Pred) (d a : VReg) (c : Cluster) (r : SReg)
  | xpSplat (p : Pred) (d a : VReg) (c : Cluster) (r : SReg)
  | xsSort (p : Pred) (d a b : VReg)
  | xsMerge (p : Pred) (l : Fin 4) (c : Cluster) (r : SReg) (a : VReg)
  | xsMergeL (p : Pred) (l k : Fin 4)
  | xsClr (p : Pred) (l : Fin 4)
  | xsRdc (p : Pred) (d : SReg) (l : Fin 4) (j : BitVec 6)
  | xsKth (p : Pred) (d : SReg) (a : VReg) (k : BitVec 6)
  | xsPenal (p : Pred) (l : Fin 4) (c : Cluster) (r : SReg) (a : VReg) (n : BitVec 6)
  | xsMask (p : Pred) (l : Fin 4) (c : Cluster) (r : SReg)
  | xsRand (p : Pred) (d : SReg) (k : BitVec 6)
  | xsPick (p : Pred) (d : SReg) (l : Fin 4)
  | xsVerify (p : Pred) (d : SReg) (l : Fin 4) (a : VReg) (m : BitVec 6)
  -- bundle level (R68, R57)
  | pause
  | opsel (op : BitVec 3)
  -- core events
  | settlingComplete (c : CoreId)
  | escalationRelaunch (c : CoreId)
  | watchdogTrap (c : CoreId)
  | stalledWait (c : CoreId)
  | barTimeout (c : CoreId)
  | maskwTimeout (c : CoreId)
  | loadDataArrival (c : CoreId) (v : Word) (poison : Bool)
  | pageWalkComplete (c : CoreId) (va : Word)
  | storePerform (c : CoreId) (k : Nat)
  | sealWrite (da : Nat)
  | copyComplete (c : CoreId) (k : CtxId)
  | copyStop (c : CoreId) (k : CtxId)
  | cpIspComplete (c : CoreId) (k : CtxId)
  -- galley events
  | galleyDispatch (c : CoreId)
  | geBcastWrite (e : EngineId)
  | geFencePass (h : ChanId)
  | geOpenComplete (c : CoreId)
  | geCloseComplete (c : CoreId)
  | fill (e : EngineId)
  | copy (e : EngineId)
  | csum (e : EngineId)
  | gemvI8 (e : EngineId)
  | gemvI4 (e : EngineId)
  | gemvTf8 (e : EngineId)
  | kvapp (e : EngineId)
  | qk (e : EngineId)
  | av (e : EngineId)
  | park (e : EngineId)
  | unpark (e : EngineId)
  -- memory dies and repair
  | selfRefreshEntry (h : ChanId)
  | selfRefreshExit (h : ChanId)
  | rowRepair (da : Nat) (readable due : Bool)
  | patrolScrub (da : Nat) (uncorrectable : Bool)
  | coreRetest (c : CoreId)
  | engineRetest (h : ChanId) (g : Fin 4)
  | coreRetire (c : CoreId)
  -- host port
  | hostMemRead (da : Nat) (size : Nat)
  | hostMemWrite (da : Nat) (bytes : List Byte)
  | biSnoopResponse (line : Nat) (dirty : Option (List Byte))
  | hostSnoopTimeout (line : Nat)
  | commandSlotWrite (f : FuncId) (off : Nat) (bytes : List Byte)
  | slotConsume (f : FuncId)
  | slotFence (f : FuncId)
  | cwctlEnable (f : FuncId)
  | cwctlDisable (f : FuncId)
  | peerApertureWrite (f : FuncId) (off : Nat) (bytes : List Byte)
  | peerApertureRead (f : FuncId) (off : Nat) (size : Nat)
  | hostWindowTimeout (c : CoreId)
  -- storage port
  | ssdMemRead (da : Nat) (size : Nat)
  | ssdMemWrite (da : Nat) (bytes : List Byte)
  | ssdMetadataAccess (da : Nat) (write : Option (List Byte))
  | ssdMsix (q : Fin 64)
  | storageTimeout (c : CoreId)
  | storageLinkDown
  -- supervisor register writes with an effect of their own
  | xlinvPartition (h : ChaseId) (part : BitVec 5)
  | xlinvPage (h : ChaseId) (part : BitVec 5) (vpage : BitVec 52)
  | xlinvAll (h : ChaseId)
  | xlinvComplete
  | cxresContext (h : ChaseId) (core : BitVec 7) (ctx : CtxId)
  | cxresResidency (h : ChaseId) (core : BitVec 7)
  | stripeEnable (w : Fin 256) (w0 : Word)
  | stripeTeardown (w : Fin 256) (w0 : Word)
  | stripeTeardownComplete (w : Fin 256)
  | controlStoreWrite (e : EngineId) (idx : BitVec 8) (word : BitVec 128)
  | friskWrite (by_ : BitVec 9) (t : Fin 6) (mid : BitVec 9) (n : Fin 8) (word : Word)
  | jcanJob (q : PartId) (job : Fin 16)
  | jcanGraph (q : PartId) (job : Fin 16) (gix : Fin 4)
  | jcanLaunch (q : PartId) (job : Fin 16) (gix : Fin 4) (lix : BitVec 6)
  | pcoreWrite (q : PartId) (hi : Bool) (v : Word)
  | gpregWrite (q : PartId) (n : BitVec 6) (v : Word)
  | mseqWrite (q : PartId) (m : Fin 16) (v : Word)
  | hbudWrite (q : PartId) (v : Word)
  | opcapWrite (q : PartId) (v : Word)
  | sleepRequest
  | sleepEntered
  | wakeRequest
  | wakeComplete
  | keyNew (k : KeySlotId)
  | keyAdvance (k : KeySlotId)
  | keyRekey (k : KeySlotId) (rlen : BitVec 24)
  | rekeyComplete (k : KeySlotId)
  | keyRetire (k : KeySlotId)
  | keyErase (k : KeySlotId)
  | eventAck (h : ChaseId) (seq : Word32)
  | eventDeadline (seq : Word32)
  | trctlResume (c : CoreId)
  | trctlSave (c : CoreId)
  | trctlEnd (c : CoreId)
  | ringConsume (r : RingId) (v : Word)
  | registerWrite (mid : BitVec 9) (addr : Nat) (v : Word)
  -- scheduler
  | inputRecheck (q : PartId)
  | taskDispatch (h : ChaseId) (q : PartId)
  | taskStart (c : CoreId)
  | agingExpiry (task : Nat)
  | agedPreemptRequest (h : ChaseId) (q : PartId)
  | preempt (c : CoreId)
  | donePublish (c : CoreId)
  | launchAnswer (c : CoreId)
  | heapAnswer (c : CoreId)
  -- power, boot and attestation
  | voltageTrim (c : CoreId) (slack : BitVec 8) (mv : BitVec 10)
  | powerUp
  | deviceReset (sigOk : Bool) (secVer : Nat)
  | spdmGetVersion
  | spdmGetCapabilities
  | spdmNegotiateAlgorithms
  | spdmGetDigests
  | spdmGetCertificate
  | spdmChallenge (nonce : BitVec 256)
  | spdmGetMeasurements (idx : BitVec 8)
  | measurementExtend (v : BitVec 384)
  | storageLinkUp
  | logicDiePowerLoss
  | supervisorAccess (h : ChaseId) (op : SupOp)
  | coreRetestEnd (c : CoreId) (badCols : List (Fin 32))
  | engineRetestEnd (e : EngineId) (failed : Bool)
  | correctedCountRestart
  | droopEvent (c : CoreId)
  deriving DecidableEq, Repr

end Sys2Proof
end

