-- ==== Sys2Proof/WellFormed.lean ====
section
/-! DEFINITION. Which slot instructions are well formed: the conditions on fields that the types of `Instr` do not carry,
each from the rule named. An event carries no encoding and is always well formed. -/

namespace Sys2Proof

/-- The type is unsigned (R77). -/
def ITy.isN : ITy → Bool
  | .n64 | .n32 | .n16 | .n8 => true
  | _ => false

/-- A conversion kind whose result is always exact, so that its mode field must be 00 (R176). -/
def CvtKind.isExact : CvtKind → Bool
  | .fp32Bf16 | .fp32Fp16 => true
  | _ => false

/-- A special-register number that R37 lists. -/
def srExists (n : BitVec 11) : Bool := n.ule 0x14#11 || (0x40#11).ule n && n.ule 0x7F#11

/-- A special register that R37 marks RW: fsr, thr or pfile. -/
def srWritable (n : BitVec 11) : Bool := n == 0x000#11 || n == 0x006#11 || n == 0x00B#11

/-- A row range of `n` rows from `v` that stays at or below v127 (R216). -/
def rowsFit (v : VReg) (n : BitVec 7) : Bool := v.toNat + n.toNat ≤ 128

/-- A beat count: 1 to 64 (R82). -/
def beatCount (n : BitVec 7) : Bool := (1#7).ule n && n.ule 64#7

/-- The field conditions of a slot instruction; every event is well formed. -/
def Instr.wf : Instr → Bool
  | .mulh _ _ _ _ _ t | .sra _ _ _ _ _ t | .min _ _ _ _ _ t | .max _ _ _ _ _ t => !t.isN
  | .mulhn _ _ _ _ _ t | .shr _ _ _ _ _ t | .minn _ _ _ _ _ t | .maxn _ _ _ _ _ t => t.isN
  | .shri _ _ _ _ t _ => t.isN
  | .srai _ _ _ _ t _ => !t.isN
  | .clz _ _ _ _ t | .ctz _ _ _ _ t | .popc _ _ _ _ t => t.isN
  | .moviSl _ _ _ l w => !w || l.val < 2
  | .rdsr _ _ _ n => srExists n
  | .wrsr _ _ _ n => srWritable n
  | .fcvt _ _ _ _ k m => !k.isExact || m == .rne
  | .div _ _ _ _ t | .rem _ _ _ _ t => !t.isN
  | .divn _ _ _ _ t | .remn _ _ _ _ t => t.isN
  | .loopi _ _ n _ => n != 0
  | .geCall _ _ _ y z => (match y with | .lit k => k.val < 2 | .reg _ => true) &&
      (match z with | .lit k => k.val < 2 | .reg _ => true)
  | .launch _ _ _ y _ => (match y with | .lit k => k.val < 2 | .reg _ => true)
  | .st _ _ _ _ t _ => !t.isN
  | .stl _ _ _ _ t _ _ => !t.isN
  | .mxMac _ d s n | .mxMaca _ d s n | .mxDrain _ d s n => beatCount n && rowsFit d n && rowsFit s n
  | .mxWload _ _ s n => (1#7).ule n && n.ule 32#7 && rowsFit s n
  | .mxClr _ d n => beatCount n && rowsFit d n
  | .vbnd _ d _ o k => match o with | .chk => d == 0 && k == 0 | _ => true
  | .xsPenal _ _ _ _ a n => !(a == 127#7 && (32#6).ult n)
  | .xsRand _ d _ => d != 31#5
  | .xsVerify _ _ _ a m => a != 127#7 && (1#6).ule m && m.ule 32#6
  | _ => true

end Sys2Proof
end

