-- ==== Sys2Proof/Decode.lean ====
section
/-! DEFINITION. The bundle format and the eight opcode maps of 03_bundle_encoding.md: the decoder, total on any words and
rejecting by the kinds of R90 in the order of R91, and after it the encoder of a well-formed slot instruction. -/

namespace Sys2Proof

/-- The eight issue slots, in the order of their numbers (R30). -/
inductive Slot where
  | ctl | sa | sb | ma | mb | vec | mat | xps
  deriving DecidableEq, Repr

/-- The number of a slot (R30). -/
def Slot.num : Slot → Nat
  | .ctl => 0 | .sa => 1 | .sb => 2 | .ma => 3 | .mb => 4 | .vec => 5 | .mat => 6 | .xps => 7

/-- The slots in ascending order. -/
def Slot.all : List Slot := [.ctl, .sa, .sb, .ma, .mb, .vec, .mat, .xps]

/-- The two kinds of decode fault (R90). -/
inductive DecodeFault where
  | illegalInstruction
  | illegalBundle
  deriving DecidableEq, Repr

/-- What a slot word's decoding depends on besides its own bits: the header's literal count, and the offset and length of the
bundle, which R386 needs. -/
structure DCtx where
  litc : Nat
  off : Nat
  len : Nat
  deriving DecidableEq, Repr

/-- Predicate numbers 0 to 11; 12 to 15 are reserved operand values (R78). -/
def preg? (x : BitVec 4) : Option PReg :=
  if h : x.toNat < 12 then some ⟨x.toNat, h⟩ else none

/-- The predicate field (R75). -/
def pred? (x : BitVec 5) : Option Pred :=
  let n := x.toNat
  if n = 0 then some .always
  else if h : 1 ≤ n ∧ n ≤ 12 then some (.whenSet ⟨n - 1, by omega⟩)
  else if h : 17 ≤ n ∧ n ≤ 28 then some (.whenClear ⟨n - 17, by omega⟩)
  else none

/-- The type code of R77. -/
def ityOf (x : BitVec 3) : ITy :=
  match x with
  | 0#3 => .i64 | 1#3 => .i32 | 2#3 => .i16 | 3#3 => .i8
  | 4#3 => .n64 | 5#3 => .n32 | 6#3 => .n16 | _ => .n8

/-- The rounding-mode code of R77. -/
def rmodeOf (x : BitVec 2) : RMode :=
  match x with
  | 0#2 => .rne | 1#2 => .rtz | 2#2 => .rdn | _ => .rup

/-- The cluster bit (R80). -/
def clusterOf (x : BitVec 1) : Cluster := if x = 0#1 then .a else .b

/-- A bit as a Boolean. -/
def flag (x : BitVec 1) : Bool := x = 1#1

/-- A signed type code; an unsigned one is undefined. -/
def sty? (x : BitVec 3) : Option ITy := if (ityOf x).isN then none else some (ityOf x)

/-- An unsigned type code; a signed one is undefined. -/
def uty? (x : BitVec 3) : Option ITy := if (ityOf x).isN then some (ityOf x) else none

/-- A condition of CMP (R166). -/
def cond? (x : BitVec 3) : Option Cond :=
  match x with
  | 0#3 => some .eq | 1#3 => some .ne | 2#3 => some .lt | 3#3 => some .ge
  | 4#3 => some .gt | 5#3 => some .le | 6#3 => some .tst | _ => none

/-- A condition of CMPI (R166). -/
def condI? (x : BitVec 3) : Option CondI :=
  match x with
  | 0#3 => some .eq | 1#3 => some .ne | 2#3 => some .lt | 3#3 => some .ge
  | 4#3 => some .ltn | 5#3 => some .gen | 6#3 => some .tst | _ => none

/-- A condition of FCMP (R174). -/
def fcond? (x : BitVec 3) : Option FCond :=
  match x with
  | 0#3 => some .eq | 1#3 => some .ne | 2#3 => some .lt | 3#3 => some .ge
  | 4#3 => some .gt | 5#3 => some .le | 6#3 => some .un | _ => none

/-- An index reading of LEA (R164). -/
def leaTy? (x : BitVec 3) : Option LeaTy :=
  match x with
  | 0#3 => some .i64 | 1#3 => some .i32 | 5#3 => some .n32 | _ => none

/-- A conversion kind of FCVT (R176). -/
def cvtKind? (x : BitVec 4) : Option CvtKind :=
  match x with
  | 0#4 => some .i64Fp32 | 1#4 => some .i32Fp32 | 2#4 => some .n64Fp32 | 3#4 => some .n32Fp32
  | 4#4 => some .fp32I64 | 5#4 => some .fp32N64 | 6#4 => some .bf16Fp32 | 7#4 => some .fp16Fp32
  | 8#4 => some .fp32Bf16 | 9#4 => some .fp32Fp16 | _ => none

/-- The function field of FCVT: a kind and its mode, which is 00 for an exact kind (R176). -/
def cvtFn? (k : BitVec 4) (m : BitVec 2) : Option (CvtKind × RMode) :=
  match cvtKind? k with
  | some k => if k.isExact && rmodeOf m != .rne then none else some (k, rmodeOf m)
  | none => none

/-- A sign operation of FSGN (R175). -/
def sgnOp? (x : BitVec 4) : Option SgnOp :=
  match x with
  | 0#4 => some .cp | 1#4 => some .neg | 2#4 => some .xor | _ => none

/-- A timeline of WAITTL (R337). -/
def tline? (x : BitVec 3) : Option Tline :=
  match x with
  | 0#3 => some (.tl 0) | 1#3 => some (.tl 1) | 2#3 => some (.tl 2) | 3#3 => some (.tl 3)
  | 4#3 => some .tlg | _ => none

/-- A scope code (R286). -/
def scopeOf (x : BitVec 2) : Scope :=
  match x with
  | 0#2 => .core | 1#2 => .chase | 2#2 => .dev | _ => .sys

/-- A kind of FENCE (R292). -/
def fenceKind? (x : BitVec 3) : Option FenceKind :=
  match x with
  | 0#3 => some .rr | 1#3 => some .rw | 2#3 => some .wr | 3#3 => some .ww | 4#3 => some .all | _ => none

/-- An operation of AMO (R291). -/
def amoOpOf (x : BitVec 3) : AmoOp :=
  match x with
  | 0#3 => .swap | 1#3 => .add | 2#3 => .and | 3#3 => .or
  | 4#3 => .xor | 5#3 => .min | 6#3 => .max | _ => .maxn

/-- An order of AMO and CAS (R291). -/
def amoOrdOf (x : BitVec 2) : AmoOrd :=
  match x with
  | 0#2 => .rlx | 1#2 => .acq | 2#2 => .rel | _ => .ar

/-- A hint of PREF (R293). -/
def prefHint? (x : BitVec 3) : Option PrefHint :=
  match x with
  | 0#3 => some .rd | 1#3 => some .wr | 2#3 => some .l2 | _ => none

/-- A granule of CLEAN and INVAL (R293). -/
def granule? (x : BitVec 3) : Option Granule :=
  match x with
  | 0#3 => some .line | 1#3 => some .sb | 2#3 => some .tile | _ => none

/-- A row tag that VBCAST and VLDS accept: 1 to 9 or 13 (R192, R289). -/
def laneTag? (x : BitVec 4) : Option LaneTag :=
  match x with
  | 1#4 => some .fp32 | 2#4 => some .bf16 | 3#4 => some .fp16 | 4#4 => some .tf8 | 5#4 => some .tf6
  | 6#4 => some .i32 | 7#4 => some .i16 | 8#4 => some .i8 | 9#4 => some .i4 | 13#4 => some .idx
  | _ => none

/-- A row tag that VTAG accepts: 0 to 9, 12 or 13 (R205). -/
def newTag? (x : BitVec 4) : Option NewTag :=
  if x = 0#4 then some .raw
  else if x = 12#4 then some .mask
  else match laneTag? x with
    | some t => some (.lane t)
    | none => none

/-- A target of VCVT (R199). -/
def cvtDstOf (x : BitVec 3) : CvtDst :=
  match x with
  | 0#3 => .fp32 | 1#3 => .bf16 | 2#3 => .fp16 | 3#3 => .tf8
  | 4#3 => .tf6 | 5#3 => .i32 | 6#3 => .i16 | _ => .i8

/-- An operation of VBND (R206). -/
def bndOp? (x : BitVec 2) : Option BndOp :=
  match x with
  | 0#2 => some .set | 1#2 => some .add | 2#2 => some .chk | _ => none

/-- A selection of MX.WSWAP (R216). -/
def swapSel? (x : BitVec 2) : Option SwapSel :=
  match x with
  | 0#2 => some .toggle | 1#2 => some .w0 | 2#2 => some .w1 | _ => none

/-- A drain format of MX.MODE (R216). -/
def drainFmt? (x : BitVec 2) : Option DrainFmt :=
  match x with
  | 0#2 => some .fp32 | 1#2 => some .bf16 | 2#2 => some .fp16 | _ => none

/-- The literal index of MOVI's SL form: lsel = 3, and lsel = 2 with wide = 1, are reserved (R79). -/
def lsel? (l : BitVec 2) (w : BitVec 1) : Option (Fin 3) :=
  if h : l.toNat < 3 then (if flag w && l.toNat = 2 then none else some ⟨l.toNat, h⟩) else none

/-- An engine-command operand field whose literal bit is `lit`: a register, or a literal index in bits [1:0] with bits [4:2]
zero (R321). A reference whose index cannot lie below any literal count is answered by `earLit`. -/
def ear? (lit : Bool) (x : BitVec 5) : Option EArg :=
  if lit then
    (if h : x.toNat < 3 then some (.lit ⟨x.toNat, h⟩) else none)
  else some (.reg x)

/-- The field of a literal reference keeps its zero bits (R321). -/
def earBits (lit : Bool) (x : BitVec 5) : Bool := !lit || x.ult 4#5

/-- The highest literal index that the field names lies below the literal count (R72); `n` is the number of words named. -/
def earCovered (litc n : Nat) (lit : Bool) (x : BitVec 5) : Bool := !lit || decide (x.toNat + n ≤ litc)

/-- Finish a slot word's decoding in the order of R91: the function field, the predicate field, the operand bits and
values, then the literal references. -/
def finish {α β : Type} (fn : Option α) (p : BitVec 5) (ops : Option β) (lits : Bool) (k : Pred → α → β → Instr) :
    Except DecodeFault Instr :=
  match fn with
  | none => .error .illegalInstruction
  | some f =>
    match pred? p with
    | none => .error .illegalInstruction
    | some p =>
      match ops with
      | none => .error .illegalBundle
      | some o => if lits then .ok (k p f o) else .error .illegalBundle

/-- A condition as an option. -/
def must (b : Bool) : Option Unit := if b then some () else none

/-- A value kept only under a condition. -/
def keep {α : Type} (b : Bool) (x : α) : Option α := if b then some x else none

/-- Both of two optional values. -/
def both {α β : Type} (x : Option α) (y : Option β) : Option (α × β) :=
  match x, y with
  | some a, some b => some (a, b)
  | _, _ => none

/-- The SA and SB map (R84). -/
def decodeScalar (c : DCtx) (s : SSlot) (w : Word32) : Except DecodeFault Instr :=
  let op := w.extractLsb' 26 6
  let p := w.extractLsb' 21 5
  let d := w.extractLsb' 16 5
  let a := w.extractLsb' 11 5
  let b := w.extractLsb' 6 5
  let fn := w.extractLsb' 0 6
  let ty := w.extractLsb' 0 3
  let fnHi := w.extractLsb' 3 3
  let i11 := w.extractLsb' 0 11
  let mode := rmodeOf (w.extractLsb' 0 2)
  let pd := preg? (w.extractLsb' 17 4)
  let satTy : Option (Bool × ITy) := keep (w.extractLsb' 4 2 == 0#2) (flag (w.extractLsb' 3 1), ityOf ty)
  let aTy : Option ITy := keep (fnHi == 0#3) (ityOf ty)
  let sTy : Option ITy := if fnHi = 0#3 then sty? ty else none
  let uTy : Option ITy := if fnHi = 0#3 then uty? ty else none
  let none6 : Option Unit := must (fn == 0#6)
  let rm : Option RMode := keep (w.extractLsb' 2 4 == 0#4) mode
  let immTy (f : BitVec 3 → Option ITy) : Option ITy := f (w.extractLsb' 6 3)
  let immOk : Option Unit := must (w.extractLsb' 9 2 == 0#2)
  let n6 := w.extractLsb' 0 6
  let ok : Option Unit := some ()
  match op with
  | 0x00#6 => finish satTy p ok true fun p f _ => .add s p d a b f.1 f.2
  | 0x01#6 => finish satTy p ok true fun p f _ => .sub s p d a b f.1 f.2
  | 0x02#6 => finish satTy p ok true fun p f _ => .mul s p d a b f.1 f.2
  | 0x03#6 => finish sTy p ok true fun p f _ => .mulh s p d a b f
  | 0x04#6 => finish uTy p ok true fun p f _ => .mulhn s p d a b f
  | 0x05#6 => finish none6 p ok true fun p _ _ => .and s p d a b
  | 0x06#6 => finish none6 p ok true fun p _ _ => .or s p d a b
  | 0x07#6 => finish none6 p ok true fun p _ _ => .xor s p d a b
  | 0x08#6 => finish none6 p ok true fun p _ _ => .andn s p d a b
  | 0x09#6 => finish aTy p ok true fun p f _ => .shl s p d a b f
  | 0x0A#6 => finish uTy p ok true fun p f _ => .shr s p d a b f
  | 0x0B#6 => finish sTy p ok true fun p f _ => .sra s p d a b f
  | 0x0C#6 => finish sTy p ok true fun p f _ => .min s p d a b f
  | 0x0D#6 => finish sTy p ok true fun p f _ => .max s p d a b f
  | 0x0E#6 => finish uTy p ok true fun p f _ => .minn s p d a b f
  | 0x0F#6 => finish uTy p ok true fun p f _ => .maxn s p d a b f
  | 0x10#6 => finish ok p ok true fun p _ _ => .addi s p d a i11
  | 0x11#6 => finish ok p ok true fun p _ _ => .andi s p d a i11
  | 0x12#6 => finish ok p ok true fun p _ _ => .ori s p d a i11
  | 0x13#6 => finish ok p ok true fun p _ _ => .xori s p d a i11
  | 0x14#6 => finish (immTy fun t => some (ityOf t)) p immOk true fun p f _ => .shli s p d a f n6
  | 0x15#6 => finish (immTy uty?) p immOk true fun p f _ => .shri s p d a f n6
  | 0x16#6 => finish (immTy sty?) p immOk true fun p f _ => .srai s p d a f n6
  | 0x17#6 => finish (condI? (w.extractLsb' 9 3)) p pd true fun p f o =>
      .cmpi s p o (w.extractLsb' 12 5) f (w.extractLsb' 0 9)
  | 0x18#6 => finish uTy p (must (b == 0#5)) true fun p f _ => .clz s p d a f
  | 0x19#6 => finish uTy p (must (b == 0#5)) true fun p f _ => .ctz s p d a f
  | 0x1A#6 => finish uTy p (must (b == 0#5)) true fun p f _ => .popc s p d a f
  | 0x1B#6 => finish none6 p ok true fun p _ _ => .ext s p d a b
  | 0x1C#6 => finish none6 p ok true fun p _ _ => .extn s p d a b
  | 0x1D#6 => finish none6 p ok true fun p _ _ => .ins s p d a b
  | 0x1E#6 => finish (must (w.extractLsb' 4 2 == 0#2)) p (preg? (w.extractLsb' 0 4)) true fun p _ o =>
      .sel s p d a b o
  | 0x1F#6 => finish (leaTy? ty) p ok true fun p f _ => .lea s p d a b fnHi f
  | 0x20#6 => finish ok p ok true fun p _ _ => .movi s p d (w.extractLsb' 0 16)
  | 0x21#6 => finish ok p ok true fun p _ _ => .movhi s p d (w.extractLsb' 0 16)
  | 0x22#6 =>
    let l := lsel? (w.extractLsb' 14 2) (w.extractLsb' 13 1)
    let wide := flag (w.extractLsb' 13 1)
    let top := (w.extractLsb' 14 2).toNat + (if wide then 2 else 1)
    finish ok p (both l (must (w.extractLsb' 0 13 == 0#13))) (decide (top ≤ c.litc)) fun p _ o =>
      .moviSl s p d o.1 wide
  | 0x23#6 => finish none6 p (must (b == 0#5)) true fun p _ _ => .cmv s p d a
  | 0x24#6 => finish (cond? (w.extractLsb' 3 3)) p (both pd (must (w.extractLsb' 16 1 == 0#1))) true fun p f o =>
      .cmp s p o.1 a b f (ityOf ty)
  | 0x25#6 => finish ok p
      (both (both pd (both (preg? (w.extractLsb' 13 4)) (preg? (w.extractLsb' 9 4)))) (must (w.extractLsb' 0 5 == 0#5)))
      true fun p _ o => .pset s p o.1.1 o.1.2.1 o.1.2.2 (w.extractLsb' 5 4)
  | 0x26#6 => finish (must (srExists i11)) p (must (a == 0#5)) true fun p _ _ => .rdsr s p d i11
  | 0x27#6 => finish (must (srWritable i11)) p (must (d == 0#5)) true fun p _ _ => .wrsr s p a i11
  | 0x28#6 => finish rm p ok true fun p f _ => .fadd s p d a b f
  | 0x29#6 => finish rm p ok true fun p f _ => .fsub s p d a b f
  | 0x2A#6 => finish rm p ok true fun p f _ => .fmul s p d a b f
  | 0x2B#6 => finish rm p ok true fun p f _ => .fma s p d a b f
  | 0x2C#6 => finish rm p ok true fun p f _ => .fnma s p d a b f
  | 0x2D#6 => finish none6 p ok true fun p _ _ => .fmin s p d a b
  | 0x2E#6 => finish none6 p ok true fun p _ _ => .fmax s p d a b
  | 0x2F#6 => finish (both (fcond? (w.extractLsb' 3 3)) (must (ty == 0#3))) p
      (both pd (must (w.extractLsb' 16 1 == 0#1))) true fun p f o => .fcmp s p o.1 a b f.1
  | 0x30#6 => finish (cvtFn? (w.extractLsb' 2 4) (w.extractLsb' 0 2)) p (must (b == 0#5)) true fun p f _ =>
      .fcvt s p d a f.1 f.2
  | 0x31#6 => finish (both (sgnOp? (w.extractLsb' 2 4)) (must (w.extractLsb' 0 2 == 0#2))) p ok true fun p f _ =>
      .fsgn s p d a b f.1
  | 0x32#6 => if s = .sb then finish sTy p ok true fun p f _ => .div p d a b f else .error .illegalInstruction
  | 0x33#6 => if s = .sb then finish uTy p ok true fun p f _ => .divn p d a b f else .error .illegalInstruction
  | 0x34#6 => if s = .sb then finish sTy p ok true fun p f _ => .rem p d a b f else .error .illegalInstruction
  | 0x35#6 => if s = .sb then finish uTy p ok true fun p f _ => .remn p d a b f else .error .illegalInstruction
  | 0x36#6 => if s = .sb then finish rm p ok true fun p f _ => .fdiv p d a b f else .error .illegalInstruction
  | 0x37#6 => if s = .sb then finish rm p (must (b == 0#5)) true fun p f _ => .fsqrt p d a f
      else .error .illegalInstruction
  | _ => .error .illegalInstruction

/-- The LOOP form's limits: 4 × end at least the bundle's length, and E at most 0xFFFC (R386). -/
def loopEndOk (c : DCtx) (e : BitVec 13) : Bool := decide (c.len ≤ 4 * e.toNat) && decide (c.off + 4 * e.toNat ≤ 0xFFFC)

/-- The CTL map (R85). -/
def decodeCtl (c : DCtx) (w : Word32) : Except DecodeFault Instr :=
  let op := w.extractLsb' 26 6
  let p := w.extractLsb' 21 5
  let ok : Option Unit := some ()
  let c0 : Option Unit := must (w.extractLsb' 0 21 == 0#21)
  let tgt := w.extractLsb' 0 14
  let ct : Option Unit := must (w.extractLsb' 14 7 == 0#7)
  let cr : CReg := ⟨clusterOf (w.extractLsb' 20 1), w.extractLsb' 15 5⟩
  let ci : Option Unit := must (w.extractLsb' 16 5 == 0#5)
  let cl := clusterOf (w.extractLsb' 18 1)
  let k := (w.extractLsb' 19 2).toFin
  let k0 := w.extractLsb' 19 2 == 0#2
  let x := w.extractLsb' 13 5
  let y := w.extractLsb' 8 5
  let z := w.extractLsb' 3 5
  let nc := flag (w.extractLsb' 0 1)
  let l1 := flag (w.extractLsb' 1 1)
  let l0 := flag (w.extractLsb' 0 1)
  let f3 := w.extractLsb' 0 3
  let e13 := w.extractLsb' 0 13
  match op with
  | 0x00#6 => finish ok p ct true fun p _ _ => .br p tgt
  | 0x01#6 => finish ok p (must (w.extractLsb' 0 15 == 0#15)) true fun p _ _ => .bri p cr
  | 0x02#6 => finish ok p ct true fun p _ _ => .call p tgt
  | 0x03#6 => finish ok p c0 true fun p _ _ => .ret p
  | 0x04#6 => finish ok p ct true fun p _ _ => .brSide p tgt
  | 0x05#6 => finish ok p (must (loopEndOk c e13)) true fun p _ _ =>
      .loop p (w.extractLsb' 19 2).toFin ⟨clusterOf (w.extractLsb' 18 1), w.extractLsb' 13 5⟩ e13
  | 0x06#6 => finish ok p (must (loopEndOk c e13 && w.extractLsb' 13 6 != 0#6)) true fun p _ _ =>
      .loopi p (w.extractLsb' 19 2).toFin (w.extractLsb' 13 6) e13
  | 0x08#6 => finish ok p c0 true fun p _ _ => .done p
  | 0x09#6 => finish ok p ci true fun p _ _ => .abort p (w.extractLsb' 0 16)
  | 0x0A#6 => finish ok p ci true fun p _ _ => .trap p (w.extractLsb' 0 16)
  | 0x0B#6 => finish ok p c0 true fun p _ _ => .escal p
  | 0x0C#6 => finish ok p (must (w.extractLsb' 20 1 == 0#1)) true fun p _ _ =>
      .wait p (w.extractLsb' 15 5) (w.extractLsb' 10 5) (w.extractLsb' 5 5) (w.extractLsb' 0 5)
  | 0x0D#6 => finish (tline? f3) p (must (w.extractLsb' 3 12 == 0#12)) true fun p f _ => .waittl p cr f
  | 0x0E#6 => finish ok p c0 true fun p _ _ => .ifence p
  | 0x0F#6 => finish ok p (both (preg? (w.extractLsb' 0 4)) (must (w.extractLsb' 4 11 == 0#11))) true fun p _ o =>
      .bar p cr o.1
  | 0x10#6 => finish ok p (both (preg? (w.extractLsb' 0 4)) (must (w.extractLsb' 4 11 == 0#11))) true fun p _ o =>
      .maskw p cr o.1
  | 0x18#6 => finish (must (w.extractLsb' 2 1 == 0#1)) p (must (earBits l1 z)) (earCovered c.litc 1 l1 z)
      fun p _ _ => .cpLin p k cl x y ((ear? l1 z).getD (.reg z)) nc
  | 0x19#6 => finish (must (w.extractLsb' 1 2 == 0#2)) p ok true fun p _ _ => .cpTensor p k cl x y z nc
  | 0x1A#6 => finish (must (w.extractLsb' 1 2 == 0#2)) p ok true fun p _ _ => .cpFill p k cl x y z nc
  | 0x1B#6 => finish (must (f3 == 0#3)) p ok true fun p _ _ => .cpIsp p k cl x y z
  | 0x20#6 => finish (must (f3 == 0#3)) p (must k0) true fun p _ _ => .geBcast p cl x y z
  | 0x21#6 => finish (must (w.extractLsb' 2 1 == 0#1)) p (must (k0 && earBits l1 y && earBits l0 z))
      (earCovered c.litc 2 l1 y && earCovered c.litc 2 l0 z)
      fun p _ _ => .geCall p cl x ((ear? l1 y).getD (.reg y)) ((ear? l0 z).getD (.reg z))
  | 0x22#6 => finish (must (f3 == 0#3)) p (must (k0 && y == 0#5 && z == 0#5)) true fun p _ _ => .geFence p cl x
  | 0x23#6 => finish (must (f3 == 0#3)) p (must k0) true fun p _ _ => .geOpen p cl x y z
  | 0x24#6 => finish (must (f3 == 0#3)) p (must (k0 && y == 0#5)) true fun p _ _ => .geClose p cl x z
  | 0x28#6 => finish (must (w.extractLsb' 2 1 == 0#1 && w.extractLsb' 0 1 == 0#1)) p (must (k0 && earBits l1 y))
      (earCovered c.litc 2 l1 y) fun p _ _ => .launch p cl x ((ear? l1 y).getD (.reg y)) z
  | 0x29#6 => finish (must (f3 == 0#3)) p (must (k0 && z == 0#5)) true fun p _ _ => .heapPush p cl x y
  | 0x2A#6 => finish (must (f3 == 0#3)) p (must (k0 && z == 0#5)) true fun p _ _ => .heapPop p cl x y
  | _ => .error .illegalInstruction

/-- The MA and MB map (R86). -/
def decodeMem (s : MSlot) (w : Word32) : Except DecodeFault Instr :=
  let op := w.extractLsb' 26 6
  let p := w.extractLsb' 21 5
  let ok : Option Unit := some ()
  let r := w.extractLsb' 16 5
  let b := w.extractLsb' 11 5
  let ty := w.extractLsb' 8 3
  let d8 := w.extractLsb' 0 8
  let v := w.extractLsb' 14 7
  let vb := w.extractLsb' 9 5
  let sc := scopeOf (w.extractLsb' 6 2)
  let ord := amoOrdOf (w.extractLsb' 1 2)
  let sys := flag (w.extractLsb' 0 1)
  let f8 : Option Unit := must (w.extractLsb' 8 13 == 0#13 && w.extractLsb' 5 3 == 0#3)
  match op with
  | 0x00#6 => finish ok p ok true fun p _ _ => .ld s p r b (ityOf ty) d8
  | 0x01#6 => finish (sty? ty) p ok true fun p f _ => .st s p r b f d8
  | 0x02#6 => finish ok p ok true fun p _ _ => .lda s p r b (ityOf ty) sc (w.extractLsb' 0 6)
  | 0x03#6 => finish (sty? ty) p ok true fun p f _ => .stl s p r b f sc (w.extractLsb' 0 6)
  | 0x04#6 => finish (must (ty == 0#3)) p ok true fun p _ _ => .ldm s p r b d8
  | 0x08#6 => finish ok p ok true fun p _ _ => .vld s p v vb (w.extractLsb' 0 9)
  | 0x09#6 => finish ok p ok true fun p _ _ => .vst s p v vb (w.extractLsb' 0 9)
  | 0x0A#6 => finish ok p (laneTag? (w.extractLsb' 0 4)) true fun p _ o => .vlds s p v vb (w.extractLsb' 4 5) o
  | 0x0B#6 => finish ok p ok true fun p _ _ => .vgath s p v vb (w.extractLsb' 2 7) (w.extractLsb' 0 2)
  | 0x0C#6 => finish ok p ok true fun p _ _ => .vscat s p v vb (w.extractLsb' 2 7) (w.extractLsb' 0 2)
  | 0x10#6 => finish ok p ok true fun p _ _ => .amo s p r b (w.extractLsb' 6 5) (amoOpOf (w.extractLsb' 3 3)) ord sys
  | 0x11#6 => finish (must (w.extractLsb' 3 3 == 0#3)) p ok true fun p _ _ => .cas s p r b (w.extractLsb' 6 5) ord sys
  | 0x18#6 => finish (fenceKind? (w.extractLsb' 2 3)) p f8 true fun p f _ => .fence s p f (scopeOf (w.extractLsb' 0 2))
  | 0x19#6 => finish ok p (both f8 (must (w.extractLsb' 2 3 == 0#3))) true fun p _ _ =>
      .drain s p (scopeOf (w.extractLsb' 0 2))
  | 0x1A#6 => finish (prefHint? ty) p (must (r == 0#5)) true fun p f _ => .pref s p b f d8
  | 0x1B#6 => finish (granule? ty) p (must (r == 0#5)) true fun p f _ => .clean s p b f d8
  | 0x1C#6 => finish (granule? ty) p (must (r == 0#5)) true fun p f _ => .inval s p b f d8
  | _ => .error .illegalInstruction

/-- The VEC map (R87). -/
def decodeVec (w : Word32) : Except DecodeFault Instr :=
  let op := w.extractLsb' 26 6
  let p := w.extractLsb' 21 5
  let ok : Option Unit := some ()
  let d := w.extractLsb' 14 7
  let a := w.extractLsb' 7 7
  let b := w.extractLsb' 0 7
  let un : Option Unit := must (b == 0#7)
  let cl := clusterOf (w.extractLsb' 6 1)
  let r := w.extractLsb' 1 5
  let vs0 := w.extractLsb' 0 1 == 0#1
  match op with
  | 0x00#6 => finish ok p ok true fun p _ _ => .vadd p d a b
  | 0x01#6 => finish ok p ok true fun p _ _ => .vsub p d a b
  | 0x02#6 => finish ok p ok true fun p _ _ => .vmul p d a b
  | 0x03#6 => finish ok p ok true fun p _ _ => .vfma p d a b
  | 0x04#6 => finish ok p ok true fun p _ _ => .vfms p d a b
  | 0x05#6 => finish ok p ok true fun p _ _ => .vmin p d a b
  | 0x06#6 => finish ok p ok true fun p _ _ => .vmax p d a b
  | 0x07#6 => finish ok p un true fun p _ _ => .vabs p d a
  | 0x08#6 => finish ok p un true fun p _ _ => .vneg p d a
  | 0x09#6 => finish ok p ok true fun p _ _ => .vand p d a b
  | 0x0A#6 => finish ok p ok true fun p _ _ => .vor p d a b
  | 0x0B#6 => finish ok p ok true fun p _ _ => .vxor p d a b
  | 0x0C#6 => finish ok p un true fun p _ _ => .vnot p d a
  | 0x0D#6 => finish ok p ok true fun p _ _ => .vshl p d a b
  | 0x0E#6 => finish ok p ok true fun p _ _ => .vshr p d a b
  | 0x0F#6 => finish ok p ok true fun p _ _ => .vsra p d a b
  | 0x10#6 => finish ok p ok true fun p _ _ => .vcmp p d a b
  | 0x11#6 => finish ok p ok true fun p _ _ => .vsel p d a b
  | 0x12#6 => finish (laneTag? (w.extractLsb' 7 4)) p (must (vs0 && w.extractLsb' 11 3 == 0#3)) true fun p f _ =>
      .vbcast p d f cl r
  | 0x13#6 => finish ok p (must (vs0 && flag (w.extractLsb' 6 1))) true fun p _ _ => .vext p r a d
  | 0x14#6 => finish ok p (must vs0) true fun p _ _ => .vins p d a cl r
  | 0x18#6 => finish ok p un true fun p _ _ => .vexp2 p d a
  | 0x19#6 => finish ok p un true fun p _ _ => .vlog2 p d a
  | 0x1A#6 => finish ok p un true fun p _ _ => .vrcp p d a
  | 0x1B#6 => finish ok p un true fun p _ _ => .vrsq p d a
  | 0x1C#6 => finish ok p un true fun p _ _ => .vtanh p d a
  | 0x20#6 => finish ok p un true fun p _ _ => .vrsum p d a
  | 0x21#6 => finish ok p un true fun p _ _ => .vrmax p d a
  | 0x22#6 => finish ok p un true fun p _ _ => .vrmin p d a
  | 0x28#6 => finish ok p ok true fun p _ _ =>
      .vcvt p d a (w.extractLsb' 5 2) (rmodeOf (w.extractLsb' 3 2)) (cvtDstOf (w.extractLsb' 0 3))
  | 0x29#6 => finish ok p (must vs0) true fun p _ _ => .vscale p d a cl r
  | 0x2A#6 => finish ok p (must vs0) true fun p _ _ => .vquant p d a cl r
  | 0x2B#6 => finish (must (w.extractLsb' 2 1 == 0#1)) p (must (w.extractLsb' 4 3 == 0#3)) true fun p _ _ =>
      .vnib p d a (flag (w.extractLsb' 3 1)) (flag (w.extractLsb' 1 1)) (flag (w.extractLsb' 0 1))
  | 0x2C#6 => finish ok p ok true fun p _ _ => .vbperm p d a b
  | 0x2D#6 => finish ok p (both (newTag? (w.extractLsb' 0 4)) (must (w.extractLsb' 4 3 == 0#3))) true fun p _ o =>
      .vtag p d a o.1
  | 0x2E#6 => finish (bndOp? (w.extractLsb' 5 2)) p
      (must (w.extractLsb' 5 2 != 2#2 || (d == 0#7 && w.extractLsb' 0 5 == 0#5))) true fun p f _ =>
      .vbnd p d a f (w.extractLsb' 0 5)
  | _ => .error .illegalInstruction

/-- The MAT map (R88). -/
def decodeMat (w : Word32) : Except DecodeFault Instr :=
  let op := w.extractLsb' 26 6
  let p := w.extractLsb' 21 5
  let ok : Option Unit := some ()
  let d := w.extractLsb' 14 7
  let s := w.extractLsb' 7 7
  let n := w.extractLsb' 0 7
  let ra := w.extractLsb' 9 5
  let f9 := w.extractLsb' 0 9
  let xb : Option Unit := must (beatCount n && rowsFit d n && rowsFit s n)
  match op with
  | 0x00#6 => finish ok p xb true fun p _ _ => .mxMac p d s n
  | 0x01#6 => finish ok p xb true fun p _ _ => .mxMaca p d s n
  | 0x02#6 => finish (must (!((33#7).ule n && n.ule 64#7))) p
      (must (w.extractLsb' 14 6 == 0#6 && ((1#7).ule n && n.ule 32#7 && rowsFit s n))) true fun p _ _ =>
      .mxWload p (flag (w.extractLsb' 20 1)) s n
  | 0x03#6 => finish (swapSel? (w.extractLsb' 0 2)) p
      (must (w.extractLsb' 2 7 == 0#7 && d == 0#7 && ra == 0#5)) true fun p f _ => .mxWswap p f
  | 0x04#6 => finish ok p xb true fun p _ _ => .mxDrain p d s n
  | 0x05#6 => finish ok p
      (must (w.extractLsb' 7 2 == 0#2 && ra == 0#5 && (beatCount n && rowsFit d n))) true fun p _ _ => .mxClr p d n
  | 0x06#6 =>
    if flag (w.extractLsb' 0 1) then
      finish ok p (must (w.extractLsb' 1 8 == 0#8 && d == 0#7)) true fun p _ _ => .mxSscaleB p ra
    else finish ok p (must (w.extractLsb' 1 8 == 0#8 && ra == 0#5)) true fun p _ _ => .mxSscale p d
  | 0x07#6 => finish ok p (must (w.extractLsb' 1 8 == 0#8 && d == 0#7)) true fun p _ _ =>
      .mxWscale p (flag (w.extractLsb' 0 1)) ra
  | 0x08#6 => finish (drainFmt? (w.extractLsb' 2 2)) p
      (must (w.extractLsb' 4 5 == 0#5 && d == 0#7 && ra == 0#5)) true fun p f _ =>
      .mxMode p f (flag (w.extractLsb' 1 1)) (flag (f9.extractLsb' 0 1))
  | _ => .error .illegalInstruction

/-- The XPS map (R89). -/
def decodeXps (w : Word32) : Except DecodeFault Instr :=
  let op := w.extractLsb' 26 6
  let p := w.extractLsb' 21 5
  let ok : Option Unit := some ()
  let d := w.extractLsb' 14 7
  let a := w.extractLsb' 7 7
  let b := w.extractLsb' 0 7
  let cl := clusterOf (w.extractLsb' 6 1)
  let r := w.extractLsb' 1 5
  let vs0 : Option Unit := must (w.extractLsb' 0 1 == 0#1)
  let l := (w.extractLsb' 19 2).toFin
  let c := w.extractLsb' 18 1
  let cB := flag c
  let rs := w.extractLsb' 13 5
  let va := w.extractLsb' 6 7
  let f := w.extractLsb' 0 6
  match op with
  | 0x00#6 => finish ok p ok true fun p _ _ => .xpPerm p d a b
  | 0x01#6 => finish ok p ok true fun p _ _ => .xpShuf p d a b
  | 0x02#6 => finish ok p vs0 true fun p _ _ => .xpRot p d a cl r
  | 0x03#6 => finish ok p vs0 true fun p _ _ => .xpSlide p d a cl r
  | 0x04#6 => finish ok p vs0 true fun p _ _ => .xpSplat p d a cl r
  | 0x08#6 => finish ok p ok true fun p _ _ => .xsSort p d a b
  | 0x09#6 =>
    if flag (w.extractLsb' 0 1) then
      finish ok p (must (c == 0#1 && rs == 0#5 && va == 0#7 && w.extractLsb' 3 3 == 0#3)) true fun p _ _ =>
        .xsMergeL p l (w.extractLsb' 1 2).toFin
    else finish ok p (must (f == 0#6)) true fun p _ _ => .xsMerge p l (clusterOf c) rs va
  | 0x0A#6 => finish ok p (must (c == 0#1 && rs == 0#5 && va == 0#7 && f == 0#6)) true fun p _ _ => .xsClr p l
  | 0x0B#6 => finish ok p (must (cB && va == 0#7)) true fun p _ _ => .xsRdc p rs l f
  | 0x0C#6 => finish ok p (must (cB && w.extractLsb' 19 2 == 0#2)) true fun p _ _ => .xsKth p rs va f
  | 0x10#6 => finish ok p (must (!(va == 127#7 && (32#6).ult f))) true fun p _ _ =>
      .xsPenal p l (clusterOf c) rs va f
  | 0x11#6 => finish ok p (must (va == 0#7 && f == 0#6)) true fun p _ _ => .xsMask p l (clusterOf c) rs
  | 0x12#6 => finish ok p (must (cB && w.extractLsb' 19 2 == 0#2 && va == 0#7 && rs != 31#5)) true fun p _ _ =>
      .xsRand p rs f
  | 0x13#6 => finish ok p (must (cB && va == 0#7 && f == 0#6)) true fun p _ _ => .xsPick p rs l
  | 0x14#6 => finish ok p (must (cB && va != 127#7 && (1#6).ule f && f.ule 32#6)) true fun p _ _ =>
      .xsVerify p rs l va f
  | _ => .error .illegalInstruction

/-- The instruction that a word is in a slot, or its fault (R84 to R91). -/
def decodeSlot (c : DCtx) (k : Slot) (w : Word32) : Except DecodeFault Instr :=
  match k with
  | .ctl => decodeCtl c w
  | .sa => decodeScalar c .sa w
  | .sb => decodeScalar c .sb w
  | .ma => decodeMem .ma w
  | .mb => decodeMem .mb w
  | .vec => decodeVec w
  | .mat => decodeMat w
  | .xps => decodeXps w

/-- A register or predicate that the same-destination rule counts (R47, R48). -/
inductive Dest where
  | scalar (c : Cluster) (r : SReg)
  | row (v : VReg)
  | pred (p : PReg)
  | thr
  deriving DecidableEq, Repr

/-- The cluster of a scalar slot (R30). -/
def SSlot.cluster : SSlot → Cluster
  | .sa => .a
  | .sb => .b

/-- The cluster of a memory slot (R30). -/
def MSlot.cluster : MSlot → Cluster
  | .ma => .a
  | .mb => .b

/-- A scalar destination; a0 and b0 are never counted (R33). -/
def scalarDest (c : Cluster) (r : SReg) : List Dest := if r = 0 then [] else [.scalar c r]

/-- Every predicate. -/
def allPreds : List PReg := List.finRange 12

/-- The destinations that an instruction's encoding names (R48). fsr, the rows of MX steps, lists, timelines and landing
areas are not counted. -/
def Instr.dests : Instr → List Dest
  | .add s _ d _ _ _ _ | .sub s _ d _ _ _ _ | .mul s _ d _ _ _ _ => scalarDest s.cluster d
  | .mulh s _ d _ _ _ | .mulhn s _ d _ _ _ => scalarDest s.cluster d
  | .and s _ d _ _ | .or s _ d _ _ | .xor s _ d _ _ | .andn s _ d _ _ => scalarDest s.cluster d
  | .shl s _ d _ _ _ | .shr s _ d _ _ _ | .sra s _ d _ _ _ => scalarDest s.cluster d
  | .min s _ d _ _ _ | .max s _ d _ _ _ | .minn s _ d _ _ _ | .maxn s _ d _ _ _ => scalarDest s.cluster d
  | .addi s _ d _ _ | .andi s _ d _ _ | .ori s _ d _ _ | .xori s _ d _ _ => scalarDest s.cluster d
  | .shli s _ d _ _ _ | .shri s _ d _ _ _ | .srai s _ d _ _ _ => scalarDest s.cluster d
  | .cmpi _ _ d _ _ _ => [.pred d]
  | .clz s _ d _ _ | .ctz s _ d _ _ | .popc s _ d _ _ => scalarDest s.cluster d
  | .ext s _ d _ _ | .extn s _ d _ _ | .ins s _ d _ _ => scalarDest s.cluster d
  | .sel s _ d _ _ _ => scalarDest s.cluster d
  | .lea s _ d _ _ _ _ => scalarDest s.cluster d
  | .movi s _ d _ | .movhi s _ d _ => scalarDest s.cluster d
  | .moviSl s _ d _ _ => scalarDest s.cluster d
  | .cmv s _ d _ => scalarDest s.cluster d
  | .cmp _ _ d _ _ _ _ => [.pred d]
  | .pset _ _ d _ _ _ => [.pred d]
  | .rdsr s _ d _ => scalarDest s.cluster d
  | .wrsr _ _ _ n =>
    if n = 0x00B#11 then allPreds.map .pred else if n = 0x006#11 then [.thr] else []
  | .fadd s _ d _ _ _ | .fsub s _ d _ _ _ | .fmul s _ d _ _ _ | .fma s _ d _ _ _ | .fnma s _ d _ _ _ =>
    scalarDest s.cluster d
  | .fmin s _ d _ _ | .fmax s _ d _ _ => scalarDest s.cluster d
  | .fcmp _ _ d _ _ _ => [.pred d]
  | .fcvt s _ d _ _ _ => scalarDest s.cluster d
  | .fsgn s _ d _ _ _ => scalarDest s.cluster d
  | .div _ d _ _ _ | .divn _ d _ _ _ | .rem _ d _ _ _ | .remn _ d _ _ _ => scalarDest .b d
  | .fdiv _ d _ _ _ => scalarDest .b d
  | .fsqrt _ d _ _ => scalarDest .b d
  | .bar _ _ d | .maskw _ _ d => [.pred d]
  | .ld s _ r _ _ _ => scalarDest s.cluster r
  | .lda s _ r _ _ _ _ => scalarDest s.cluster r
  | .ldm s _ r _ _ => scalarDest s.cluster r
  | .vld _ _ v _ _ => [.row v]
  | .vlds _ _ v _ _ _ => [.row v]
  | .vgath _ _ v _ _ _ => [.row v]
  | .amo s _ r _ _ _ _ _ => scalarDest s.cluster r
  | .cas s _ r _ _ _ _ => scalarDest s.cluster r
  | .vadd _ d _ _ | .vsub _ d _ _ | .vmul _ d _ _ | .vfma _ d _ _ | .vfms _ d _ _ | .vmin _ d _ _ | .vmax _ d _ _ =>
    [.row d]
  | .vabs _ d _ | .vneg _ d _ | .vnot _ d _ => [.row d]
  | .vand _ d _ _ | .vor _ d _ _ | .vxor _ d _ _ => [.row d]
  | .vshl _ d _ _ | .vshr _ d _ _ | .vsra _ d _ _ | .vcmp _ d _ _ | .vsel _ d _ _ => [.row d]
  | .vbcast _ d _ _ _ => [.row d]
  | .vext _ d _ _ => scalarDest .b d
  | .vins _ d _ _ _ => [.row d]
  | .vexp2 _ d _ | .vlog2 _ d _ | .vrcp _ d _ | .vrsq _ d _ | .vtanh _ d _ => [.row d]
  | .vrsum _ d _ | .vrmax _ d _ | .vrmin _ d _ => [.row d]
  | .vcvt _ d _ _ _ _ => [.row d]
  | .vscale _ d _ _ _ | .vquant _ d _ _ _ => [.row d]
  | .vnib _ d _ _ _ _ => [.row d]
  | .vbperm _ d _ _ => [.row d]
  | .vtag _ d _ _ => [.row d]
  | .vbnd _ d _ o _ => match o with | .chk => [] | _ => [.row d]
  | .xpPerm _ d _ _ | .xpShuf _ d _ _ => [.row d]
  | .xpRot _ d _ _ _ | .xpSlide _ d _ _ _ | .xpSplat _ d _ _ _ => [.row d]
  | .xsSort _ d _ _ => [.row d]
  | .xsRdc _ d _ _ => scalarDest .b d
  | .xsKth _ d _ _ => scalarDest .b d
  | .xsRand _ d _ => scalarDest .b d
  | .xsPick _ d _ => scalarDest .b d
  | .xsVerify _ d _ _ _ => scalarDest .b d
  | _ => []

/-- A decoded bundle: its header fields, its length in bytes, its slot instructions in ascending slot order and its
literal words (R66, R67). -/
structure Bundle where
  opsel : Option (BitVec 3)
  safe : Bool
  escr : Bool
  len : Nat
  slots : List (Slot × Instr)
  lits : List Word32
  deriving DecidableEq, Repr

/-- A decode fault and the slot it names; 0xF names the header (R90). -/
structure DecodeReport where
  kind : DecodeFault
  slot : Nat
  deriving DecidableEq, Repr

/-- The number that names the header in a trap record (R459). -/
def headerSlot : Nat := 0xF

/-- The present slots of a header, in ascending order. -/
def presentSlots (h : Word32) : List Slot := Slot.all.filter fun k => h.getLsbD (24 + k.num)

/-- The literal count of a header. -/
def headerLitc (h : Word32) : Nat := (h.extractLsb' 16 2).toNat

/-- The length in bytes of the bundle that a header opens (R66). -/
def bundleLen (h : Word32) : Nat := 4 + 4 * (presentSlots h).length + 4 * headerLitc h

/-- The slot words, checked in ascending slot order (R91). -/
def decodeSlots (c : DCtx) : List (Slot × Word32) → Except DecodeReport (List (Slot × Instr))
  | [] => .ok []
  | (k, w) :: rest =>
    match decodeSlot c k w with
    | .error e => .error ⟨e, k.num⟩
    | .ok i =>
      match decodeSlots c rest with
      | .error e => .error e
      | .ok l => .ok ((k, i) :: l)

/-- The number of the first slot that names a destination of a lower slot (R47). -/
def sameDest : List (Slot × Instr) → List Dest → Option Nat
  | [], _ => none
  | (k, i) :: rest, seen =>
    if i.dests.any (fun d => seen.contains d) then some k.num else sameDest rest (i.dests ++ seen)

/-- Decode the bundle at byte offset `off` of a side whose words `fetch` reads, with the checks of R90 in the order of
R91. -/
def decodeBundle (fetch : Nat → Word32) (off : Nat) : Except DecodeReport Bundle :=
  let h := fetch off
  let ks := presentSlots h
  let len := bundleLen h
  let op := h.extractLsb' 20 4
  if 0x10000 < off + len then .error ⟨.illegalBundle, headerSlot⟩
  else if h.extractLsb' 0 16 ≠ 0#16 ∨ ((0#4).ult op ∧ op.ult 8#4) then .error ⟨.illegalBundle, headerSlot⟩
  else
    let words := (List.range ks.length).map fun i => fetch (off + 4 + 4 * i)
    let lits := (List.range (headerLitc h)).map fun i => fetch (off + 4 + 4 * ks.length + 4 * i)
    match decodeSlots ⟨headerLitc h, off, len⟩ (ks.zip words) with
    | .error e => .error e
    | .ok l =>
      match sameDest l [] with
      | some k => .error ⟨.illegalBundle, k⟩
      | none => .ok
        { opsel := if op = 0#4 then none else some (op.extractLsb' 0 3)
          safe := h.getLsbD 19, escr := h.getLsbD 18, len := len, slots := l, lits := lits }

/-- The first answer of a list of decodings. -/
def firstOk : List (Except DecodeFault Instr) → Option Instr
  | [] => none
  | .ok i :: _ => some i
  | .error _ :: rest => firstOk rest

/-- The slots in the order in which a slot word standing alone is tried: a word does not say which slot it stands in, and the
opcode spaces overlap. -/
def aloneOrder : List Slot := [.sb, .ctl, .ma, .vec, .mat, .xps]

/-- The bundle context of a word that stands alone: the only slot word of a bundle with three literal words at offset 0. -/
def aloneCtx : DCtx := ⟨3, 0, 20⟩

/-- The slot in which a word standing alone is read: the first of `aloneOrder` that decodes it. -/
def aloneSlot (w : Word32) : Option Slot :=
  aloneOrder.find? fun k => match decodeSlot aloneCtx k w with
    | .ok _ => true
    | .error _ => false

/-- The instruction read from one slot word standing alone (see `aloneSlot`). Bits above the first 32 are not read. -/
def decodeTableWord (_nbits w : Nat) : Option Instr :=
  firstOk (aloneOrder.map fun k => decodeSlot aloneCtx k (BitVec.ofNat 32 w))

/-! ## The encoder -/

/-- The code of a predicate field (R75). -/
def Pred.code : Pred → BitVec 5
  | .always => 0
  | .whenSet p => BitVec.ofNat 5 (p.val + 1)
  | .whenClear p => BitVec.ofNat 5 (p.val + 17)

/-- The number of a predicate in a 4-bit field. -/
def pcode (p : PReg) : BitVec 4 := BitVec.ofNat 4 p.val

/-- A Boolean as a bit. -/
def bit (b : Bool) : BitVec 1 := if b then 1 else 0

/-- The code of a type (R77). -/
def ITy.code : ITy → BitVec 3
  | .i64 => 0 | .i32 => 1 | .i16 => 2 | .i8 => 3 | .n64 => 4 | .n32 => 5 | .n16 => 6 | .n8 => 7

/-- The code of a rounding mode (R77). -/
def RMode.code : RMode → BitVec 2
  | .rne => 0 | .rtz => 1 | .rdn => 2 | .rup => 3

/-- The code of a condition of CMP (R166). -/
def Cond.code : Cond → BitVec 3
  | .eq => 0 | .ne => 1 | .lt => 2 | .ge => 3 | .gt => 4 | .le => 5 | .tst => 6

/-- The code of a condition of CMPI (R166). -/
def CondI.code : CondI → BitVec 3
  | .eq => 0 | .ne => 1 | .lt => 2 | .ge => 3 | .ltn => 4 | .gen => 5 | .tst => 6

/-- The code of a condition of FCMP (R174). -/
def FCond.code : FCond → BitVec 3
  | .eq => 0 | .ne => 1 | .lt => 2 | .ge => 3 | .gt => 4 | .le => 5 | .un => 6

/-- The code of a sign operation (R175). -/
def SgnOp.code : SgnOp → BitVec 4
  | .cp => 0 | .neg => 1 | .xor => 2

/-- The code of a conversion kind (R176). -/
def CvtKind.code : CvtKind → BitVec 4
  | .i64Fp32 => 0 | .i32Fp32 => 1 | .n64Fp32 => 2 | .n32Fp32 => 3 | .fp32I64 => 4 | .fp32N64 => 5
  | .bf16Fp32 => 6 | .fp16Fp32 => 7 | .fp32Bf16 => 8 | .fp32Fp16 => 9

/-- The code of LEA's index reading (R164). -/
def LeaTy.code : LeaTy → BitVec 3
  | .i64 => 0 | .i32 => 1 | .n32 => 5

/-- The code of a scope (R286). -/
def Scope.code : Scope → BitVec 2
  | .core => 0 | .chase => 1 | .dev => 2 | .sys => 3

/-- The code of a kind of FENCE (R292). -/
def FenceKind.code : FenceKind → BitVec 3
  | .rr => 0 | .rw => 1 | .wr => 2 | .ww => 3 | .all => 4

/-- The code of an operation of AMO (R291). -/
def AmoOp.code : AmoOp → BitVec 3
  | .swap => 0 | .add => 1 | .and => 2 | .or => 3 | .xor => 4 | .min => 5 | .max => 6 | .maxn => 7

/-- The code of an order of AMO and CAS (R291). -/
def AmoOrd.code : AmoOrd → BitVec 2
  | .rlx => 0 | .acq => 1 | .rel => 2 | .ar => 3

/-- The code of a hint of PREF (R293). -/
def PrefHint.code : PrefHint → BitVec 3
  | .rd => 0 | .wr => 1 | .l2 => 2

/-- The code of a granule (R293). -/
def Granule.code : Granule → BitVec 3
  | .line => 0 | .sb => 1 | .tile => 2

/-- The code of a timeline (R337). -/
def Tline.code : Tline → BitVec 3
  | .tl k => BitVec.ofNat 3 k.val
  | .tlg => 4

/-- The tag of a lane format (R34). -/
def LaneTag.code : LaneTag → BitVec 4
  | .fp32 => 1 | .bf16 => 2 | .fp16 => 3 | .tf8 => 4 | .tf6 => 5 | .i32 => 6 | .i16 => 7 | .i8 => 8 | .i4 => 9
  | .idx => 13

/-- The tag that VTAG names (R205). -/
def NewTag.code : NewTag → BitVec 4
  | .raw => 0
  | .lane t => t.code
  | .mask => 12

/-- The code of a target of VCVT (R199). -/
def CvtDst.code : CvtDst → BitVec 3
  | .fp32 => 0 | .bf16 => 1 | .fp16 => 2 | .tf8 => 3 | .tf6 => 4 | .i32 => 5 | .i16 => 6 | .i8 => 7

/-- The code of an operation of VBND (R206). -/
def BndOp.code : BndOp → BitVec 2
  | .set => 0 | .add => 1 | .chk => 2

/-- The code of a bank selection (R216). -/
def SwapSel.code : SwapSel → BitVec 2
  | .toggle => 0 | .w0 => 1 | .w1 => 2

/-- The code of a drain format (R216). -/
def DrainFmt.code : DrainFmt → BitVec 2
  | .fp32 => 0 | .bf16 => 1 | .fp16 => 2

/-- The cluster bit (R80). -/
def Cluster.code : Cluster → BitVec 1
  | .a => 0 | .b => 1

/-- The register field of an engine-command operand. -/
def EArg.field : EArg → BitVec 5
  | .reg r => r
  | .lit k => BitVec.ofNat 5 k.val

/-- The operand is a literal reference. -/
def EArg.isLit : EArg → Bool
  | .reg _ => false
  | .lit _ => true

/-- A slot word from its opcode, predicate and operand field (R74). -/
def slotWord (op : BitVec 6) (p : Pred) (operands : BitVec 21) : Word32 := op ++ (p.code ++ operands)

/-- The operand field of the SR form (R76). -/
def opsSR (d a b : BitVec 5) (fn : BitVec 6) : BitVec 21 := d ++ (a ++ (b ++ fn))

/-- The SR form with a type code (R77). -/
def fnTy (t : ITy) : BitVec 6 := (0#3) ++ t.code

/-- The SR form with sat and a type code (R153). -/
def fnSat (s : Bool) (t : ITy) : BitVec 6 := (0#2) ++ (bit s ++ t.code)

/-- The SR form with a rounding mode (R77). -/
def fnRm (m : RMode) : BitVec 6 := (0#4) ++ m.code

/-- The operand field of the SI form (R76). -/
def opsSI (d a : BitVec 5) (i : BitVec 11) : BitVec 21 := d ++ (a ++ i)

/-- The immediate of a shift (R158). -/
def shImm (t : ITy) (n : BitVec 6) : BitVec 11 := (0#2) ++ (t.code ++ n)

/-- The operand field of the SC form (R76). -/
def opsSC (d : PReg) (a b : BitVec 5) (c t : BitVec 3) : BitVec 21 := pcode d ++ ((0#1) ++ (a ++ (b ++ (c ++ t))))

/-- The operand field of the CR form (R80). -/
def opsCR (r : CReg) (f : BitVec 15) : BitVec 21 := r.c.code ++ (r.r ++ f)

/-- The operand field of the CE form (R80). -/
def opsCE (k : BitVec 2) (c : Cluster) (x y z : BitVec 5) (f : BitVec 3) : BitVec 21 :=
  k ++ (c.code ++ (x ++ (y ++ (z ++ f))))

/-- The operand field of the MS and AT forms (R81). -/
def opsMS (r b : BitVec 5) (t : BitVec 3) (d : BitVec 8) : BitVec 21 := r ++ (b ++ (t ++ d))

/-- The operand field of the VV and XB forms (R82). -/
def opsVV (d a b : BitVec 7) : BitVec 21 := d ++ (a ++ b)

/-- The operand field of the VS form (R82). -/
def opsVS (d a : BitVec 7) (c : Cluster) (r : BitVec 5) : BitVec 21 := d ++ (a ++ (c.code ++ (r ++ 0#1)))

/-- The operand field of the XC form (R82). -/
def opsXC (d : BitVec 7) (a : BitVec 5) (f : BitVec 9) : BitVec 21 := d ++ (a ++ f)

/-- The operand field of the PL form (R82). -/
def opsPL (l : Fin 4) (c : Cluster) (r : BitVec 5) (v : BitVec 7) (f : BitVec 6) : BitVec 21 :=
  BitVec.ofFin l ++ (c.code ++ (r ++ (v ++ f)))

/-- The context field of the CE form. -/
def ctxCode (k : CtxId) : BitVec 2 := BitVec.ofFin k

/-- The slot word of a slot instruction; none for an event (R74 to R89). -/
def encode : Instr → Option Word32
  | .add _ p d a b s t => some (slotWord 0x00 p (opsSR d a b (fnSat s t)))
  | .sub _ p d a b s t => some (slotWord 0x01 p (opsSR d a b (fnSat s t)))
  | .mul _ p d a b s t => some (slotWord 0x02 p (opsSR d a b (fnSat s t)))
  | .mulh _ p d a b t => some (slotWord 0x03 p (opsSR d a b (fnTy t)))
  | .mulhn _ p d a b t => some (slotWord 0x04 p (opsSR d a b (fnTy t)))
  | .and _ p d a b => some (slotWord 0x05 p (opsSR d a b 0))
  | .or _ p d a b => some (slotWord 0x06 p (opsSR d a b 0))
  | .xor _ p d a b => some (slotWord 0x07 p (opsSR d a b 0))
  | .andn _ p d a b => some (slotWord 0x08 p (opsSR d a b 0))
  | .shl _ p d a b t => some (slotWord 0x09 p (opsSR d a b (fnTy t)))
  | .shr _ p d a b t => some (slotWord 0x0A p (opsSR d a b (fnTy t)))
  | .sra _ p d a b t => some (slotWord 0x0B p (opsSR d a b (fnTy t)))
  | .min _ p d a b t => some (slotWord 0x0C p (opsSR d a b (fnTy t)))
  | .max _ p d a b t => some (slotWord 0x0D p (opsSR d a b (fnTy t)))
  | .minn _ p d a b t => some (slotWord 0x0E p (opsSR d a b (fnTy t)))
  | .maxn _ p d a b t => some (slotWord 0x0F p (opsSR d a b (fnTy t)))
  | .addi _ p d a i => some (slotWord 0x10 p (opsSI d a i))
  | .andi _ p d a i => some (slotWord 0x11 p (opsSI d a i))
  | .ori _ p d a i => some (slotWord 0x12 p (opsSI d a i))
  | .xori _ p d a i => some (slotWord 0x13 p (opsSI d a i))
  | .shli _ p d a t n => some (slotWord 0x14 p (opsSI d a (shImm t n)))
  | .shri _ p d a t n => some (slotWord 0x15 p (opsSI d a (shImm t n)))
  | .srai _ p d a t n => some (slotWord 0x16 p (opsSI d a (shImm t n)))
  | .cmpi _ p d a c i => some (slotWord 0x17 p (pcode d ++ (a ++ (c.code ++ i))))
  | .clz _ p d a t => some (slotWord 0x18 p (opsSR d a 0 (fnTy t)))
  | .ctz _ p d a t => some (slotWord 0x19 p (opsSR d a 0 (fnTy t)))
  | .popc _ p d a t => some (slotWord 0x1A p (opsSR d a 0 (fnTy t)))
  | .ext _ p d a b => some (slotWord 0x1B p (opsSR d a b 0))
  | .extn _ p d a b => some (slotWord 0x1C p (opsSR d a b 0))
  | .ins _ p d a b => some (slotWord 0x1D p (opsSR d a b 0))
  | .sel _ p d a b ps => some (slotWord 0x1E p (opsSR d a b ((0#2) ++ pcode ps)))
  | .lea _ p d a b s t => some (slotWord 0x1F p (opsSR d a b (s ++ t.code)))
  | .movi _ p d i => some (slotWord 0x20 p (d ++ i))
  | .movhi _ p d i => some (slotWord 0x21 p (d ++ i))
  | .moviSl _ p d l w => some (slotWord 0x22 p (d ++ (BitVec.ofNat 2 l.val ++ (bit w ++ 0#13))))
  | .cmv _ p d a => some (slotWord 0x23 p (opsSR d a 0 0))
  | .cmp _ p d a b c t => some (slotWord 0x24 p (opsSC d a b c.code t.code))
  | .pset _ p d x y t => some (slotWord 0x25 p (pcode d ++ (pcode x ++ (pcode y ++ (t ++ 0#5)))))
  | .rdsr _ p d n => some (slotWord 0x26 p (opsSI d 0 n))
  | .wrsr _ p a n => some (slotWord 0x27 p (opsSI 0 a n))
  | .fadd _ p d a b m => some (slotWord 0x28 p (opsSR d a b (fnRm m)))
  | .fsub _ p d a b m => some (slotWord 0x29 p (opsSR d a b (fnRm m)))
  | .fmul _ p d a b m => some (slotWord 0x2A p (opsSR d a b (fnRm m)))
  | .fma _ p d a b m => some (slotWord 0x2B p (opsSR d a b (fnRm m)))
  | .fnma _ p d a b m => some (slotWord 0x2C p (opsSR d a b (fnRm m)))
  | .fmin _ p d a b => some (slotWord 0x2D p (opsSR d a b 0))
  | .fmax _ p d a b => some (slotWord 0x2E p (opsSR d a b 0))
  | .fcmp _ p d a b c => some (slotWord 0x2F p (opsSC d a b c.code 0))
  | .fcvt _ p d a k m => some (slotWord 0x30 p (opsSR d a 0 (k.code ++ m.code)))
  | .fsgn _ p d a b o => some (slotWord 0x31 p (opsSR d a b (o.code ++ 0#2)))
  | .div p d a b t => some (slotWord 0x32 p (opsSR d a b (fnTy t)))
  | .divn p d a b t => some (slotWord 0x33 p (opsSR d a b (fnTy t)))
  | .rem p d a b t => some (slotWord 0x34 p (opsSR d a b (fnTy t)))
  | .remn p d a b t => some (slotWord 0x35 p (opsSR d a b (fnTy t)))
  | .fdiv p d a b m => some (slotWord 0x36 p (opsSR d a b (fnRm m)))
  | .fsqrt p d a m => some (slotWord 0x37 p (opsSR d a 0 (fnRm m)))
  | .br p t => some (slotWord 0x00 p ((0#7) ++ t))
  | .bri p r => some (slotWord 0x01 p (opsCR r 0))
  | .call p t => some (slotWord 0x02 p ((0#7) ++ t))
  | .ret p => some (slotWord 0x03 p 0)
  | .brSide p t => some (slotWord 0x04 p ((0#7) ++ t))
  | .loop p l r e => some (slotWord 0x05 p (BitVec.ofFin (w := 2) l ++ (r.c.code ++ (r.r ++ e))))
  | .loopi p l n e => some (slotWord 0x06 p (BitVec.ofFin (w := 2) l ++ (n ++ e)))
  | .done p => some (slotWord 0x08 p 0)
  | .abort p c => some (slotWord 0x09 p ((0#5) ++ c))
  | .trap p c => some (slotWord 0x0A p ((0#5) ++ c))
  | .escal p => some (slotWord 0x0B p 0)
  | .wait p ld st cp mx => some (slotWord 0x0C p ((0#1) ++ (ld ++ (st ++ (cp ++ mx)))))
  | .waittl p r t => some (slotWord 0x0D p (opsCR r ((0#12) ++ t.code)))
  | .ifence p => some (slotWord 0x0E p 0)
  | .bar p r d => some (slotWord 0x0F p (opsCR r ((0#11) ++ pcode d)))
  | .maskw p r d => some (slotWord 0x10 p (opsCR r ((0#11) ++ pcode d)))
  | .cpLin p k c x y z nc => some (slotWord 0x18 p (opsCE (ctxCode k) c x y z.field ((0#1) ++ (bit z.isLit ++ bit nc))))
  | .cpTensor p k c x y z nc => some (slotWord 0x19 p (opsCE (ctxCode k) c x y z ((0#2) ++ bit nc)))
  | .cpFill p k c x y z nc => some (slotWord 0x1A p (opsCE (ctxCode k) c x y z ((0#2) ++ bit nc)))
  | .cpIsp p k c x y z => some (slotWord 0x1B p (opsCE (ctxCode k) c x y z 0))
  | .geBcast p c x y z => some (slotWord 0x20 p (opsCE 0 c x y z 0))
  | .geCall p c x y z => some (slotWord 0x21 p (opsCE 0 c x y.field z.field ((0#1) ++ (bit y.isLit ++ bit z.isLit))))
  | .geFence p c x => some (slotWord 0x22 p (opsCE 0 c x 0 0 0))
  | .geOpen p c x y z => some (slotWord 0x23 p (opsCE 0 c x y z 0))
  | .geClose p c x z => some (slotWord 0x24 p (opsCE 0 c x 0 z 0))
  | .launch p c x y z => some (slotWord 0x28 p (opsCE 0 c x y.field z ((0#1) ++ (bit y.isLit ++ 0#1))))
  | .heapPush p c x y => some (slotWord 0x29 p (opsCE 0 c x y 0 0))
  | .heapPop p c x y => some (slotWord 0x2A p (opsCE 0 c x y 0 0))
  | .ld _ p r b t d => some (slotWord 0x00 p (opsMS r b t.code d))
  | .st _ p r b t d => some (slotWord 0x01 p (opsMS r b t.code d))
  | .lda _ p r b t sc d => some (slotWord 0x02 p (opsMS r b t.code (sc.code ++ d)))
  | .stl _ p r b t sc d => some (slotWord 0x03 p (opsMS r b t.code (sc.code ++ d)))
  | .ldm _ p r b d => some (slotWord 0x04 p (opsMS r b 0 d))
  | .vld _ p v b d => some (slotWord 0x08 p (v ++ (b ++ d)))
  | .vst _ p v b d => some (slotWord 0x09 p (v ++ (b ++ d)))
  | .vlds _ p v b sr f => some (slotWord 0x0A p (v ++ (b ++ (sr ++ f.code))))
  | .vgath _ p v b i f => some (slotWord 0x0B p (v ++ (b ++ (i ++ f))))
  | .vscat _ p v b i f => some (slotWord 0x0C p (v ++ (b ++ (i ++ f))))
  | .amo _ p r b rs o e g => some (slotWord 0x10 p (opsSR r b rs (o.code ++ (e.code ++ bit g))))
  | .cas _ p r b rs e g => some (slotWord 0x11 p (opsSR r b rs ((0#3) ++ (e.code ++ bit g))))
  | .fence _ p k sc => some (slotWord 0x18 p ((0#16) ++ (k.code ++ sc.code)))
  | .drain _ p sc => some (slotWord 0x19 p ((0#19) ++ sc.code))
  | .pref _ p b h d => some (slotWord 0x1A p (opsMS 0 b h.code d))
  | .clean _ p b g d => some (slotWord 0x1B p (opsMS 0 b g.code d))
  | .inval _ p b g d => some (slotWord 0x1C p (opsMS 0 b g.code d))
  | .vadd p d a b => some (slotWord 0x00 p (opsVV d a b))
  | .vsub p d a b => some (slotWord 0x01 p (opsVV d a b))
  | .vmul p d a b => some (slotWord 0x02 p (opsVV d a b))
  | .vfma p d a b => some (slotWord 0x03 p (opsVV d a b))
  | .vfms p d a b => some (slotWord 0x04 p (opsVV d a b))
  | .vmin p d a b => some (slotWord 0x05 p (opsVV d a b))
  | .vmax p d a b => some (slotWord 0x06 p (opsVV d a b))
  | .vabs p d a => some (slotWord 0x07 p (opsVV d a 0))
  | .vneg p d a => some (slotWord 0x08 p (opsVV d a 0))
  | .vand p d a b => some (slotWord 0x09 p (opsVV d a b))
  | .vor p d a b => some (slotWord 0x0A p (opsVV d a b))
  | .vxor p d a b => some (slotWord 0x0B p (opsVV d a b))
  | .vnot p d a => some (slotWord 0x0C p (opsVV d a 0))
  | .vshl p d a b => some (slotWord 0x0D p (opsVV d a b))
  | .vshr p d a b => some (slotWord 0x0E p (opsVV d a b))
  | .vsra p d a b => some (slotWord 0x0F p (opsVV d a b))
  | .vcmp p d a b => some (slotWord 0x10 p (opsVV d a b))
  | .vsel p d a b => some (slotWord 0x11 p (opsVV d a b))
  | .vbcast p d t c r => some (slotWord 0x12 p (opsVS d ((0#3) ++ t.code) c r))
  | .vext p r a j => some (slotWord 0x13 p (opsVS j a .b r))
  | .vins p d j c r => some (slotWord 0x14 p (opsVS d j c r))
  | .vexp2 p d a => some (slotWord 0x18 p (opsVV d a 0))
  | .vlog2 p d a => some (slotWord 0x19 p (opsVV d a 0))
  | .vrcp p d a => some (slotWord 0x1A p (opsVV d a 0))
  | .vrsq p d a => some (slotWord 0x1B p (opsVV d a 0))
  | .vtanh p d a => some (slotWord 0x1C p (opsVV d a 0))
  | .vrsum p d a => some (slotWord 0x20 p (opsVV d a 0))
  | .vrmax p d a => some (slotWord 0x21 p (opsVV d a 0))
  | .vrmin p d a => some (slotWord 0x22 p (opsVV d a 0))
  | .vcvt p d a n m t => some (slotWord 0x28 p (opsVV d a (n ++ (m.code ++ t.code))))
  | .vscale p d a c r => some (slotWord 0x29 p (opsVS d a c r))
  | .vquant p d a c r => some (slotWord 0x2A p (opsVS d a c r))
  | .vnib p d a u o h => some (slotWord 0x2B p (opsVV d a ((0#3) ++ (bit u ++ ((0#1) ++ (bit o ++ bit h))))))
  | .vbperm p d a b => some (slotWord 0x2C p (opsVV d a b))
  | .vtag p d a t => some (slotWord 0x2D p (opsVV d a ((0#3) ++ t.code)))
  | .vbnd p d a o k => some (slotWord 0x2E p (opsVV d a (o.code ++ k)))
  | .mxMac p d s n => some (slotWord 0x00 p (opsVV d s n))
  | .mxMaca p d s n => some (slotWord 0x01 p (opsVV d s n))
  | .mxWload p w s n => some (slotWord 0x02 p (bit w ++ ((0#6) ++ (s ++ n))))
  | .mxWswap p f => some (slotWord 0x03 p ((0#19) ++ f.code))
  | .mxDrain p d s n => some (slotWord 0x04 p (opsVV d s n))
  | .mxClr p d n => some (slotWord 0x05 p (opsVV d 0 n))
  | .mxSscale p v => some (slotWord 0x06 p (opsXC v 0 0))
  | .mxSscaleB p a => some (slotWord 0x06 p (opsXC 0 a 1))
  | .mxWscale p w a => some (slotWord 0x07 p (opsXC 0 a ((0#8) ++ bit w)))
  | .mxMode p f h n => some (slotWord 0x08 p (opsXC 0 0 ((0#5) ++ (f.code ++ (bit h ++ bit n)))))
  | .xpPerm p d a b => some (slotWord 0x00 p (opsVV d a b))
  | .xpShuf p d a b => some (slotWord 0x01 p (opsVV d a b))
  | .xpRot p d a c r => some (slotWord 0x02 p (opsVS d a c r))
  | .xpSlide p d a c r => some (slotWord 0x03 p (opsVS d a c r))
  | .xpSplat p d a c r => some (slotWord 0x04 p (opsVS d a c r))
  | .xsSort p d a b => some (slotWord 0x08 p (opsVV d a b))
  | .xsMerge p l c r a => some (slotWord 0x09 p (opsPL l c r a 0))
  | .xsMergeL p l k => some (slotWord 0x09 p (opsPL l .a 0 0 ((0#3) ++ (BitVec.ofFin (w := 2) k ++ 1#1))))
  | .xsClr p l => some (slotWord 0x0A p (opsPL l .a 0 0 0))
  | .xsRdc p d l j => some (slotWord 0x0B p (opsPL l .b d 0 j))
  | .xsKth p d a k => some (slotWord 0x0C p (opsPL 0 .b d a k))
  | .xsPenal p l c r a n => some (slotWord 0x10 p (opsPL l c r a n))
  | .xsMask p l c r => some (slotWord 0x11 p (opsPL l c r 0 0))
  | .xsRand p d k => some (slotWord 0x12 p (opsPL 0 .b d 0 k))
  | .xsPick p d l => some (slotWord 0x13 p (opsPL l .b d 0 0))
  | .xsVerify p d l a m => some (slotWord 0x14 p (opsPL l .b d a m))
  | _ => none

/-- The slot in which an instruction stands (R30); none for an event. -/
def Instr.slot? : Instr → Option Slot
  | .add s .. | .sub s .. | .mul s .. | .mulh s .. | .mulhn s .. | .and s .. | .or s .. | .xor s .. | .andn s ..
  | .shl s .. | .shr s .. | .sra s .. | .min s .. | .max s .. | .minn s .. | .maxn s .. | .addi s .. | .andi s ..
  | .ori s .. | .xori s .. | .shli s .. | .shri s .. | .srai s .. | .cmpi s .. | .clz s .. | .ctz s .. | .popc s ..
  | .ext s .. | .extn s .. | .ins s .. | .sel s .. | .lea s .. | .movi s .. | .movhi s .. | .moviSl s .. | .cmv s ..
  | .cmp s .. | .pset s .. | .rdsr s .. | .wrsr s .. | .fadd s .. | .fsub s .. | .fmul s .. | .fma s .. | .fnma s ..
  | .fmin s .. | .fmax s .. | .fcmp s .. | .fcvt s .. | .fsgn s .. =>
    some (match s with | .sa => .sa | .sb => .sb)
  | .div .. | .divn .. | .rem .. | .remn .. | .fdiv .. | .fsqrt .. => some .sb
  | .br .. | .bri .. | .call .. | .ret .. | .brSide .. | .loop .. | .loopi .. | .done .. | .abort .. | .trap .. | .escal ..
  | .wait .. | .waittl .. | .ifence .. | .bar .. | .maskw .. | .cpLin .. | .cpTensor .. | .cpFill .. | .cpIsp ..
  | .geBcast .. | .geCall .. | .geFence .. | .geOpen .. | .geClose .. | .launch .. | .heapPush .. | .heapPop .. => some .ctl
  | .ld s .. | .st s .. | .lda s .. | .stl s .. | .ldm s .. | .vld s .. | .vst s .. | .vlds s .. | .vgath s .. | .vscat s ..
  | .amo s .. | .cas s .. | .fence s .. | .drain s .. | .pref s .. | .clean s .. | .inval s .. =>
    some (match s with | .ma => .ma | .mb => .mb)
  | .vadd .. | .vsub .. | .vmul .. | .vfma .. | .vfms .. | .vmin .. | .vmax .. | .vabs .. | .vneg .. | .vand .. | .vor ..
  | .vxor .. | .vnot .. | .vshl .. | .vshr .. | .vsra .. | .vcmp .. | .vsel .. | .vbcast .. | .vext .. | .vins .. | .vexp2 ..
  | .vlog2 .. | .vrcp .. | .vrsq .. | .vtanh .. | .vrsum .. | .vrmax .. | .vrmin .. | .vcvt .. | .vscale .. | .vquant ..
  | .vnib .. | .vbperm .. | .vtag .. | .vbnd .. => some .vec
  | .mxMac .. | .mxMaca .. | .mxWload .. | .mxWswap .. | .mxDrain .. | .mxClr .. | .mxSscale .. | .mxSscaleB .. | .mxWscale ..
  | .mxMode .. => some .mat
  | .xpPerm .. | .xpShuf .. | .xpRot .. | .xpSlide .. | .xpSplat .. | .xsSort .. | .xsMerge .. | .xsMergeL .. | .xsClr ..
  | .xsRdc .. | .xsKth .. | .xsPenal .. | .xsMask .. | .xsRand .. | .xsPick .. | .xsVerify .. => some .xps
  | _ => none

/-- What a slot instruction needs of the bundle it stands in: its literal references lie below the header's count (R72, R321), and
a loop's body ends within the limits of R386. -/
def Instr.fits (c : DCtx) : Instr → Bool
  | .moviSl _ _ _ l w => decide (l.val + (if w then 2 else 1) ≤ c.litc)
  | .loop _ _ _ e | .loopi _ _ _ e => loopEndOk c e
  | .cpLin _ _ _ _ _ z _ => (match z with | .lit k => decide (k.val + 1 ≤ c.litc) | .reg _ => true)
  | .geCall _ _ _ y z => (match y with | .lit k => decide (k.val + 2 ≤ c.litc) | .reg _ => true) &&
      (match z with | .lit k => decide (k.val + 2 ≤ c.litc) | .reg _ => true)
  | .launch _ _ _ y _ => (match y with | .lit k => decide (k.val + 2 ≤ c.litc) | .reg _ => true)
  | _ => true

/-- The instruction is an event of the machine: it stands in no slot and in no header. -/
def Instr.isEvent (i : Instr) : Bool := i.slot?.isNone && (match i with | .pause | .opsel _ => false | _ => true)

end Sys2Proof
end

