-- ==== Sys2Proof/Machine/Flags.lean ====
section
/-! DEFINITION. Number formats, rounding and the flags they raise: every helper of R122 (Value, RoundTo, RoundToInt, Wrap,
Sat, ScaleProduct, MaxMag, Ulp, AddBound, MulBound, FlushIn, FlushOut) with the definition that 04_number_formats.md gives it.
A real value is held exactly, as a dyadic number, or, where the exact value is a quotient, a root or a special function, as a
dyadic number with a sticky mark that says the exact value lies strictly above it and below the next multiple of its unit. -/

namespace Sys2Proof.Machine

/-- The flag IV of R40. -/
def fIV : Flags := 16
/-- The flag DZ of R40. -/
def fDZ : Flags := 8
/-- The flag OF of R40. -/
def fOF : Flags := 4
/-- The flag UF of R40. -/
def fUF : Flags := 2
/-- The flag NX of R40. -/
def fNX : Flags := 1

/-- A flag if a condition holds. -/
def flagIf (b : Bool) (f : Flags) : Flags := if b then f else 0

/-- A value of an operand or of an exact result: NaN (signalling or quiet), an infinity, or (−1)^neg × m × 2^e, with `st` set
when the exact magnitude lies strictly between m × 2^e and (m+1) × 2^e. -/
inductive Num where
  | nan (sig : Bool)
  | inf (neg : Bool)
  | fin (neg : Bool) (m : Nat) (e : Int) (st : Bool)
  deriving DecidableEq, Repr

/-- The value +0. -/
def Num.zero : Num := .fin false 0 0 false

/-- An exact natural number as a value. -/
def Num.ofNat (n : Nat) : Num := .fin false n 0 false

/-- An exact integer as a value. -/
def Num.ofInt (x : Int) : Num := .fin (decide (x < 0)) x.natAbs 0 false

/-- 2^e as a value. -/
def Num.pow2 (e : Int) : Num := .fin false 1 e false

/-- The value is a NaN. -/
def Num.isNan : Num → Bool
  | .nan _ => true
  | _ => false

/-- The value is a signalling NaN. -/
def Num.isSig : Num → Bool
  | .nan s => s
  | _ => false

/-- The value is an infinity. -/
def Num.isInf : Num → Bool
  | .inf _ => true
  | _ => false

/-- The value is finite. -/
def Num.isFin : Num → Bool
  | .fin .. => true
  | _ => false

/-- The value is a zero of either sign. -/
def Num.isZero : Num → Bool
  | .fin _ m _ st => m == 0 && !st
  | _ => false

/-- The sign of a value (false for a NaN). -/
def Num.sign : Num → Bool
  | .nan _ => false
  | .inf n => n
  | .fin n _ _ _ => n

/-- The value with the sign given. -/
def Num.setSign (s : Bool) : Num → Num
  | .nan q => .nan q
  | .inf _ => .inf s
  | .fin _ m e st => .fin s m e st

/-- The magnitude of a value. -/
def Num.abs (x : Num) : Num := x.setSign false

/-- The negation of a value. -/
def Num.neg (x : Num) : Num := x.setSign (!x.sign)

/-- A value halved, exactly. -/
def Num.half : Num → Num
  | .fin n m e st => .fin n m (e - 1) st
  | x => x

/-- The floating formats of R120. -/
inductive Fmt where
  | fp32 | bf16 | fp16 | tf8 | tf6
  deriving DecidableEq, Repr

/-- Exponent width of an IEEE format (R104); 0 for the tapered formats. -/
def Fmt.ew : Fmt → Nat
  | .fp32 => 8 | .bf16 => 8 | .fp16 => 5 | .tf8 => 0 | .tf6 => 0

/-- Fraction width of an IEEE format (R104); the magnitude width w of a tapered format (R111). -/
def Fmt.fw : Fmt → Nat
  | .fp32 => 23 | .bf16 => 7 | .fp16 => 10 | .tf8 => 7 | .tf6 => 5

/-- The format is tapered (R111). -/
def Fmt.isTf : Fmt → Bool
  | .tf8 | .tf6 => true
  | _ => false

/-- The bias of an IEEE format with exponent width `ew`. -/
def ieeeBias (ew : Nat) : Int := 2 ^ (ew - 1) - 1

/-- The value of an IEEE encoding (R104, R105). -/
def ieeeValue (ew fw : Nat) (x : Nat) : Num :=
  let s := x.testBit (ew + fw)
  let ex := (x >>> fw) % 2 ^ ew
  let f := x % 2 ^ fw
  if ex = 2 ^ ew - 1 then
    if f = 0 then .inf s else .nan (!f.testBit (fw - 1))
  else if ex = 0 then .fin s f (1 - ieeeBias ew - fw) false
  else .fin s (2 ^ fw + f) (ex - ieeeBias ew - fw) false

/-- How many of the bits i−1, i−2, … of `m` equal `r` before the first that differs (the run of R111). -/
def runLen (m : Nat) (r : Bool) : Nat → Nat
  | 0 => 0
  | i + 1 => if m.testBit i = r then runLen m r i + 1 else 0

/-- The magnitude of a tapered code of `w` magnitude bits, as mantissa and exponent (R111); (0, 0) for the zero code. -/
def tfMag (w m : Nat) : Nat × Int :=
  if m = 0 then (0, 0) else
    let r := m.testBit (w - 1)
    let L := runLen m r w
    let k : Int := if r then (L : Int) - 1 else -(L : Int)
    let q := w - L - 1
    let e : Int := if 1 ≤ q ∧ m.testBit (q - 1) then 1 else 0
    (2 ^ (q - 1) + m % 2 ^ (q - 1), 2 * k + e - ((q - 1 : Nat) : Int))

/-- The value of a tapered code (R111, R114). A code wider than the format is malformed: a NaN that raises IV. -/
def tfValue (w c : Nat) : Num :=
  if 2 ^ (w + 1) ≤ c then .nan true
  else
    let m := c % 2 ^ w
    if m = 0 then (if c = 0 then .zero else .nan false)
    else .fin (c.testBit w) (tfMag w m).1 (tfMag w m).2 false

/-- Value(fmt, bits) of R122 for the floating formats. -/
def value (f : Fmt) (x : Nat) : Num :=
  if f.isTf then tfValue f.fw x else ieeeValue f.ew f.fw x

/-- Where an exact value lies between a multiple of the unit and the next. -/
inductive Rem where
  | exact | below | tie | above
  deriving DecidableEq, Repr

/-- Whether `mode` moves a magnitude up from the lower neighbour (R103); `odd` says that the lower neighbour's encoding has
least significant bit 1. -/
def roundsUp (mode : RMode) (neg odd : Bool) : Rem → Bool
  | .exact => false
  | r => match mode with
    | .rne => r = .above || (r = .tie && odd)
    | .rtz => false
    | .rdn => neg
    | .rup => !neg

/-- The multiple of 2^sh at or below a magnitude, and where the magnitude lies above it. -/
def splitAt (m : Nat) (st : Bool) (sh : Int) : Nat × Rem :=
  if sh ≤ 0 then (m <<< (-sh).toNat, if st then .below else .exact)
  else
    let k := sh.toNat
    let r := m % 2 ^ k
    (m >>> k,
      if r = 0 ∧ !st then .exact
      else if r < 2 ^ (k - 1) then .below
      else if r = 2 ^ (k - 1) ∧ !st then .tie
      else .above)

/-- The quotient after rounding under `mode` at the unit 2^(sh). -/
def roundAt (mode : RMode) (neg : Bool) (m : Nat) (st : Bool) (sh : Int) : Nat × Rem :=
  let (q, r) := splitAt m st sh
  (if roundsUp mode neg (q % 2 = 1) r then q + 1 else q, r)

/-- RoundTo to an IEEE format (R106): the encoding and the flags. -/
def ieeeRound (ew fw : Nat) (mode : RMode) (x : Num) : Nat × Flags :=
  let infBits := (2 ^ ew - 1) * 2 ^ fw
  let maxBits := infBits - 1
  let sgn (n : Bool) : Nat := if n then 2 ^ (ew + fw) else 0
  match x with
  | .nan s => (infBits + 2 ^ (fw - 1), flagIf s fIV)
  | .inf n => (sgn n + infBits, 0)
  | .fin n 0 e false => (sgn n + 0 * e.toNat, 0)
  | .fin n m0 e0 st =>
    let m := if m0 = 0 then 1 else m0
    let e := if m0 = 0 then e0 - 2 else e0
    let emin := 1 - ieeeBias ew
    let E := e + m.log2
    let q := max (E - fw) (emin - fw)
    let (M, r) := roundAt mode n m st (q - e)
    let (M0, _) := roundAt mode n m st (E - fw - e)
    let tiny := decide (E < emin) && !(M0 == 2 ^ (fw + 1) && decide (E + 1 = emin))
    let inexact := decide (r ≠ .exact)
    if ieeeBias ew < q + M.log2 then
      let toInf := match mode with
        | .rne => true | .rtz => false | .rdn => n | .rup => !n
      (sgn n + (if toInf then infBits else maxBits), fOF ||| fNX)
    else
      (sgn n + (q - (emin - fw)).toNat * 2 ^ fw + M, flagIf inexact fNX ||| flagIf (tiny && inexact) fUF)

/-- A magnitude m × 2^e (with sticky mark) compared with an exact magnitude m' × 2^e'. -/
def cmpMag (m : Nat) (e : Int) (st : Bool) (m' : Nat) (e' : Int) : Ordering :=
  let lo := min e e'
  let x := m <<< (e - lo).toNat
  let y := m' <<< (e' - lo).toNat
  if x < y then .lt else if y < x then .gt else if st then .gt else .eq

/-- The largest magnitude code of the lowest `i` bits, added to `c`, whose value does not exceed the given magnitude. -/
def tfFloor (w m : Nat) (e : Int) (st : Bool) : Nat → Nat → Nat
  | 0, c => c
  | i + 1, c =>
    let c' := c + 2 ^ i
    let v := tfMag w c'
    tfFloor w m e st i (if cmpMag m e st v.1 v.2 = .lt then c else c')

/-- Twice the midpoint of two codes' magnitudes, as mantissa and exponent. -/
def tfMid (w c : Nat) : Nat × Int :=
  let a := tfMag w c
  let b := tfMag w (c + 1)
  let lo := min a.2 b.2
  (a.1 <<< (a.2 - lo).toNat + b.1 <<< (b.2 - lo).toNat, lo - 1)

/-- RoundTo(TFn, mode, x) of R115. -/
def tfRound (w : Nat) (mode : RMode) (x : Num) : Nat × Flags :=
  match x with
  | .nan s => (2 ^ w, flagIf s fIV)
  | .inf n => ((if n then 2 ^ w else 0) + (2 ^ w - 1), fOF ||| fNX)
  | .fin n m e st =>
    let top := tfMag w (2 ^ w - 1)
    if cmpMag m e st top.1 top.2 = .gt then ((if n then 2 ^ w else 0) + (2 ^ w - 1), fOF ||| fNX)
    else
      let c := tfFloor w m e st w 0
      let v := tfMag w c
      let r : Rem := if cmpMag m e st v.1 v.2 = .eq then .exact
        else match cmpMag m e st (tfMid w c).1 (tfMid w c).2 with
          | .lt => .below | .eq => .tie | .gt => .above
      let c' := if roundsUp mode n (c % 2 = 1) r then c + 1 else c
      let least := tfMag w 1
      let tiny := (m ≠ 0 || st) && decide (cmpMag m e st least.1 least.2 = .lt)
      ((if n && c' ≠ 0 then 2 ^ w else 0) + c', flagIf (decide (r ≠ .exact)) fNX ||| flagIf tiny fUF)

/-- RoundTo(fmt, mode, x) of R122. -/
def roundTo (f : Fmt) (mode : RMode) (x : Num) : Nat × Flags :=
  if f.isTf then tfRound f.fw mode x else ieeeRound f.ew f.fw mode x


end Sys2Proof.Machine
namespace Sys2Proof

/-- The width in bits of an integer type (R77). -/
def ITy.width : ITy → Nat
  | .i64 | .n64 => 64
  | .i32 | .n32 => 32
  | .i16 | .n16 => 16
  | .i8 | .n8 => 8

/-- The type is signed (R77). -/
def ITy.signed : ITy → Bool
  | .i64 | .i32 | .i16 | .i8 => true
  | _ => false

end Sys2Proof

namespace Sys2Proof.Machine

/-- Value of the low `w` bits of a pattern, as a signed or unsigned integer (R108). -/
def intValue (w : Nat) (signed : Bool) (x : Nat) : Int :=
  let y := x % 2 ^ w
  if signed && y.testBit (w - 1) then (y : Int) - 2 ^ w else y

/-- Wrap(ty, x) of R109, for an integer type of width `w`. -/
def wrapInt (w : Nat) (signed : Bool) (x : Int) : Int := intValue w signed (x % 2 ^ w).toNat

/-- The least integer of a type. -/
def intMin (w : Nat) (signed : Bool) : Int := if signed then -(2 ^ (w - 1)) else 0

/-- The largest integer of a type. -/
def intMax (w : Nat) (signed : Bool) : Int := if signed then 2 ^ (w - 1) - 1 else 2 ^ w - 1

/-- Sat(ty, x) of R109. -/
def satInt (w : Nat) (signed : Bool) (x : Int) : Int := max (intMin w signed) (min (intMax w signed) x)

/-- The integer that `mode` selects from a finite value (R103), and whether it differs from the value. -/
def selectInt (mode : RMode) (neg : Bool) (m : Nat) (e : Int) (st : Bool) : Int × Bool :=
  let (q, r) := roundAt mode neg m st (-e)
  (if neg then -(q : Int) else q, decide (r ≠ .exact))

/-- RoundToInt(ty, mode, x) of R109. -/
def roundToInt (w : Nat) (signed : Bool) (mode : RMode) (x : Num) : Int × Flags :=
  match x with
  | .nan _ => (0, fIV)
  | .inf n => (if n then intMin w signed else intMax w signed, fIV)
  | .fin n m e st =>
    let (z, inexact) := selectInt mode n m e st
    if satInt w signed z = z then (z, flagIf inexact fNX) else (satInt w signed z, fIV)

/-- The exact sum of two exact values; an exact zero of opposite signs takes the sign R106 gives under `mode`. Invalid cases
give a quiet NaN with IV. -/
def nadd (mode : RMode) (x y : Num) : Num × Flags :=
  match x, y with
  | .nan s, .nan s' => (.nan false, flagIf (s || s') fIV)
  | .nan s, _ => (.nan false, flagIf s fIV)
  | _, .nan s => (.nan false, flagIf s fIV)
  | .inf a, .inf b => if a = b then (.inf a, 0) else (.nan false, fIV)
  | .inf a, _ => (.inf a, 0)
  | _, .inf b => (.inf b, 0)
  | .fin a m e _, .fin b m' e' _ =>
    if m = 0 ∧ m' = 0 then (.fin (if a = b then a else decide (mode = .rdn)) 0 0 false, 0)
    else
      let lo := min e e'
      let u : Int := (if a then -1 else 1) * (m <<< (e - lo).toNat : Nat)
      let v : Int := (if b then -1 else 1) * (m' <<< (e' - lo).toNat : Nat)
      let z := u + v
      if z = 0 then (.fin (decide (mode = .rdn)) 0 0 false, 0)
      else (.fin (decide (z < 0)) z.natAbs lo false, 0)

/-- The exact product of two exact values. ∞ × 0 gives a quiet NaN with IV. -/
def nmul (x y : Num) : Num × Flags :=
  match x, y with
  | .nan s, .nan s' => (.nan false, flagIf (s || s') fIV)
  | .nan s, _ => (.nan false, flagIf s fIV)
  | _, .nan s => (.nan false, flagIf s fIV)
  | .inf a, .inf b => (.inf (a != b), 0)
  | .inf a, .fin b m _ st => if m = 0 ∧ !st then (.nan false, fIV) else (.inf (a != b), 0)
  | .fin a m _ st, .inf b => if m = 0 ∧ !st then (.nan false, fIV) else (.inf (a != b), 0)
  | .fin a m e st, .fin b m' e' st' =>
    if m = 0 ∧ !st ∨ m' = 0 ∧ !st' then (.fin (a != b) 0 0 false, 0)
    else (.fin (a != b) (m * m') (e + e') (st || st'), 0)

/-- a × b + c, exact, with the invalid cases of R172: 0 × ∞ raises IV even when the addend is a quiet NaN. -/
def nfma (mode : RMode) (a b c : Num) : Num × Flags :=
  let (p, f) := nmul a b
  let (z, g) := nadd mode p c
  (z, f ||| g)

/-- The number of extra quotient bits kept below a quotient's leading bits. -/
def guardBits : Nat := 128

/-- The quotient of two values (R177, R202): x/±0 of a finite non-zero x is an infinity with DZ. -/
def ndiv (x y : Num) : Num × Flags :=
  match x, y with
  | .nan s, .nan s' => (.nan false, flagIf (s || s') fIV)
  | .nan s, _ => (.nan false, flagIf s fIV)
  | _, .nan s => (.nan false, flagIf s fIV)
  | .inf _, .inf _ => (.nan false, fIV)
  | .inf a, .fin b .. => (.inf (a != b), 0)
  | .fin a .., .inf b => (.fin (a != b) 0 0 false, 0)
  | .fin a m e _, .fin b m' e' _ =>
    if m' = 0 then (if m = 0 then (.nan false, fIV) else (.inf (a != b), fDZ))
    else if m = 0 then (.fin (a != b) 0 0 false, 0)
    else
      let k := guardBits + m'.log2
      let n := m <<< k
      (.fin (a != b) (n / m') (e - e' - k) (decide (n % m' ≠ 0)), 0)

/-- The integer square root, one bit at a time from bit `i`−1 down. -/
def isqrtFrom (n : Nat) : Nat → Nat → Nat
  | 0, r => r
  | i + 1, r => isqrtFrom n i (if (r + 2 ^ i) * (r + 2 ^ i) ≤ n then r + 2 ^ i else r)

/-- ⌊√n⌋. -/
def isqrt (n : Nat) : Nat := isqrtFrom n (n.log2 / 2 + 1) 0

/-- The square root of a value (R177): a zero keeps its sign, a negative value is invalid. -/
def nsqrt (x : Num) : Num × Flags :=
  match x with
  | .nan s => (.nan false, flagIf s fIV)
  | .inf n => if n then (.nan false, fIV) else (.inf false, 0)
  | .fin n m e _ =>
    if m = 0 then (.fin n 0 0 false, 0)
    else if n then (.nan false, fIV)
    else
      let k := 2 * guardBits + (e % 2).toNat
      let r := isqrt (m <<< k)
      (.fin false r ((e - k) / 2) (decide (r * r ≠ m <<< k)), 0)

/-- Compare two values that are not NaN, +0 equal to −0. -/
def ncmp (x y : Num) : Ordering :=
  match x, y with
  | .inf a, .inf b => if a = b then .eq else if a then .lt else .gt
  | .inf a, _ => if a then .lt else .gt
  | _, .inf b => if b then .gt else .lt
  | .fin a m e st, .fin b m' e' _ =>
    if x.isZero && y.isZero then .eq
    else if x.isZero then (if b then .gt else .lt)
    else if y.isZero then (if a then .lt else .gt)
    else if a != b then (if a then .lt else .gt)
    else if a then (cmpMag m e st m' e').swap else cmpMag m e st m' e'
  | _, _ => .eq

/-- Compare for selection: as `ncmp`, with −0 less than +0 (R173, R185). -/
def ncmpZ (x y : Num) : Ordering :=
  if x.isZero && y.isZero then
    (if x.sign = y.sign then .eq else if x.sign then .lt else .gt)
  else ncmp x y

/-- The larger of two magnitudes that are not NaN. -/
def nmax (x y : Num) : Num := if ncmp x y = .lt then y else x

/-- The larger of two magnitudes, an infinity or a NaN of either counting as +∞. -/
def nmaxInf (x y : Num) : Num :=
  if x.isNan || y.isNan then .inf false else nmax x y

/-- MaxMag(fmt) of R122. -/
def maxMag (f : Fmt) : Num :=
  if f.isTf then .fin false (tfMag f.fw (2 ^ f.fw - 1)).1 (tfMag f.fw (2 ^ f.fw - 1)).2 false
  else value f ((2 ^ f.ew - 1) * 2 ^ f.fw - 1)

/-- MinMag(fmt) of R122. -/
def minMag (f : Fmt) : Num := value f 1

/-- Ulp(fmt, y) of R123. -/
def ulp (f : Fmt) (y : Num) : Num :=
  match y with
  | .fin _ m e st =>
    if f.isTf then
      let w := f.fw
      let c := tfFloor w m e st w 0
      let c' := if c = 2 ^ w - 1 then c - 1 else c
      let a := tfMag w c'
      let b := tfMag w (c' + 1)
      (nadd .rne (.fin false b.1 b.2 false) (.fin true a.1 a.2 false)).1
    else
      let emin := 1 - ieeeBias f.ew
      let E : Int := if m = 0 then emin else e + m.log2
      .pow2 (max E emin - f.fw)
  | _ => .inf false

/-- HalfUlp(fmt, y) of R122. -/
def halfUlp (f : Fmt) (y : Num) : Num := (ulp f y).half

/-- The bound +∞ of R124. -/
def ebInf : BitVec 16 := 0x7C00

/-- RoundTo(FP16, RUP, x) of a non-negative value as a bound, infinity giving +∞ (R124, R133). A propagated term that is no number, as
the product of a zero and an infinite bound, has no value in R134 and R137: it gives +∞ too (DESIGN CHOICE, log entry 79). -/
def boundOf (x : Num) : BitVec 16 :=
  match x with
  | .fin .. => BitVec.ofNat 16 (ieeeRound 5 10 .rup x.abs).1
  | _ => ebInf

/-- The value of a bound. -/
def ebValue (eb : BitVec 16) : Num := ieeeValue 5 10 eb.toNat

/-- AddBound(eb, x) of R124. -/
def addBound (eb : BitVec 16) (x : Num) : BitVec 16 := boundOf (nadd .rup (ebValue eb) x.abs).1

/-- MulBound(eb, s) of R124, with the value of s. An infinite bound times a zero s is an infinite bound: R124 says only that the
result is never NaN (DESIGN CHOICE, log entry 79). -/
def mulBound (eb : BitVec 16) (s : Num) : BitVec 16 :=
  if s.isFin then boundOf (nmul (ebValue eb) s.abs).1 else ebInf

/-- The larger of two bounds. -/
def maxBound (a b : BitVec 16) : BitVec 16 := if a.ult b then b else a

/-- ScaleProduct(sa, sw) of R119: the FP32 encoding and the flags. -/
def scaleProduct (sa sw : BitVec 16) : Nat × Flags :=
  let (p, f) := nmul (value .bf16 sa.toNat) (value .bf16 sw.toNat)
  let (r, g) := roundTo .fp32 .rne p
  (r, f ||| g)

/-- FlushIn of R122: a subnormal FP32 or BF16 input is read as a zero of its sign (R107). -/
def flushIn (f : Fmt) (x : Nat) : Num :=
  if !f.isTf && (x >>> f.fw) % 2 ^ f.ew = 0 then .fin (x.testBit (f.ew + f.fw)) 0 0 false else value f x

/-- FlushOut of R122 for FP32: a subnormal result becomes a zero of its sign, reported as UF and NX (R107). -/
def flushOut (r : Nat × Flags) : Nat × Flags :=
  if (r.1 >>> 23) % 256 = 0 ∧ r.1 % 2 ^ 23 ≠ 0 then ((r.1 >>> 31) <<< 31, r.2 ||| fUF ||| fNX) else r

/-- The canonical NaN of an IEEE format (R104, R105), or the NaN code of a tapered one (R114). -/
def canonNan (f : Fmt) : Nat := (roundTo f .rne (.nan false)).1

end Sys2Proof.Machine
end

