-- ==== Sys2Proof/Machine/Gcm.lean ====
section
/-! DEFINITION. AES-256-GCM as R442 names it (FIPS 197 and NIST SP 800-38D, 96-bit IV, 128-bit tag). The model needs it only
where stored ciphertext or a stored tag is itself observed: through the paging windows and the metadata aperture (R444). -/

namespace Sys2Proof.Machine

/-- Multiply by x in GF(2^8). -/
def gfDouble (x : Byte) : Byte := (x <<< 1) ^^^ (if x.msb then 0x1B else 0)

/-- Multiply in GF(2^8), over the low `n` bits of the second factor. -/
def gfMulN (x y : Byte) : Nat → Byte
  | 0 => 0
  | n + 1 => gfMulN x y n ^^^ (if y.getLsbD n then Nat.repeat gfDouble n x else 0)

/-- Multiply in GF(2^8). -/
def gfMul (x y : Byte) : Byte := gfMulN x y 8

/-- x^254, the inverse in GF(2^8), 0 for 0. -/
def gfInv (x : Byte) : Byte :=
  let x2 := gfMul x x
  let x4 := gfMul x2 x2
  let x8 := gfMul x4 x4
  let x16 := gfMul x8 x8
  let x32 := gfMul x16 x16
  let x64 := gfMul x32 x32
  let x128 := gfMul x64 x64
  gfMul x128 (gfMul x64 (gfMul x32 (gfMul x16 (gfMul x8 (gfMul x4 x2)))))

/-- The AES S-box. -/
def aesSub (x : Byte) : Byte :=
  let y := gfInv x
  y ^^^ y.rotateLeft 1 ^^^ y.rotateLeft 2 ^^^ y.rotateLeft 3 ^^^ y.rotateLeft 4 ^^^ 0x63

/-- Four bytes of a word, most significant first, each substituted. -/
def aesSubWord (w : Word32) : Word32 :=
  aesSub (w.extractLsb' 24 8) ++ aesSub (w.extractLsb' 16 8) ++ aesSub (w.extractLsb' 8 8) ++ aesSub (w.extractLsb' 0 8)

/-- The round constant of key-schedule step `i`. -/
def aesRcon (i : Nat) : Word32 := (Nat.repeat gfDouble (i - 1) (1 : Byte)).setWidth 32 <<< 24

/-- The AES-256 key schedule: `n` words after the first eight, newest first. -/
def aesExpand (key : BitVec 256) : Nat → List Word32
  | 0 => (List.range 8).map fun i => key.extractLsb' (32 * i) 32
  | n + 1 =>
    let ws := aesExpand key n
    let t := ws.headD 0
    let i := n + 8
    let t' := if i % 8 = 0 then aesSubWord (t.rotateLeft 8) ^^^ aesRcon (i / 8)
      else if i % 8 = 4 then aesSubWord t else t
    (ws.getD 7 0 ^^^ t') :: ws

/-- The round keys of AES-256, first first, each four words. -/
def aesKeys (key : BitVec 256) : List Word32 := (aesExpand key 52).reverse

/-- ShiftRows as the source of each byte of a column-major state. -/
def aesShift (s : List Byte) : List Byte :=
  (List.range 16).map fun i => s.getD ((i + 4 * (i % 4)) % 16) 0

/-- MixColumns. -/
def aesMix (s : List Byte) : List Byte :=
  (List.range 16).map fun i =>
    let c := 4 * (i / 4)
    let g (k : Nat) := s.getD (c + (i + k) % 4) 0
    gfMul 2 (g 0) ^^^ gfMul 3 (g 1) ^^^ g 2 ^^^ g 3

/-- The sixteen bytes of round key `r`. -/
def aesRoundKey (ks : List Word32) (r : Nat) : List Byte :=
  (List.range 16).map fun i => (ks.getD (4 * r + i / 4) 0).extractLsb' (24 - 8 * (i % 4)) 8

/-- Bytewise exclusive or. -/
def xorBytes (x y : List Byte) : List Byte := List.zipWith (· ^^^ ·) x y

/-- AES-256 of one block of sixteen bytes. -/
def aesBlock (ks : List Word32) (b : List Byte) : List Byte :=
  let s := (List.range 13).foldl
    (fun s r => xorBytes (aesMix (aesShift (s.map aesSub))) (aesRoundKey ks (r + 1)))
    (xorBytes b (aesRoundKey ks 0))
  xorBytes (aesShift (s.map aesSub)) (aesRoundKey ks 14)

/-- Sixteen bytes as a 128-bit value, first byte most significant. -/
def blockBits (b : List Byte) : BitVec 128 := b.foldl (fun x y => (x <<< 8) ||| y.setWidth 128) 0

/-- A 128-bit value as sixteen bytes, most significant first. -/
def blockBytes (x : BitVec 128) : List Byte := (List.range 16).map fun i => x.extractLsb' (120 - 8 * i) 8

/-- Multiply in GF(2^128) with GCM's bit order; `n` bits of the first factor remain. -/
def ghashMul (x : BitVec 128) : Nat → BitVec 128 → BitVec 128 → BitVec 128
  | 0, z, _ => z
  | n + 1, z, v =>
    let z' := if x.getLsbD n then z ^^^ v else z
    let v' := if v.getLsbD 0 then (v >>> 1) ^^^ (0xE1#128 <<< 120) else v >>> 1
    ghashMul x n z' v'

/-- GHASH over blocks. -/
def ghash (h : BitVec 128) (bs : List (BitVec 128)) : BitVec 128 :=
  bs.foldl (fun y b => ghashMul (y ^^^ b) 128 0 h) 0

/-- The blocks of a byte string, the last padded with zeros; `n` bounds their number. -/
def toBlocks : Nat → List Byte → List (BitVec 128)
  | 0, _ => []
  | n + 1, bs => if bs.isEmpty then [] else
    blockBits ((bs.take 16) ++ List.replicate (16 - (bs.take 16).length) 0) :: toBlocks n (bs.drop 16)

/-- The counter block with counter `i`. -/
def gcmCounter (iv : BitVec 96) (i : Nat) : List Byte := blockBytes (iv ++ BitVec.ofNat 32 i)

/-- The keystream of a message of `n` blocks. -/
def gcmStream (ks : List Word32) (iv : BitVec 96) (n : Nat) : List Byte :=
  (List.range n).flatMap fun i => aesBlock ks (gcmCounter iv (i + 2))

/-- Encryption and decryption alike: the data combined with the keystream. -/
def gcmCrypt (key : BitVec 256) (iv : BitVec 96) (data : List Byte) : List Byte :=
  xorBytes data (gcmStream (aesKeys key) iv (data.length / 16 + 1))

/-- The 128-bit tag of a ciphertext and its additional data. -/
def gcmTag (key : BitVec 256) (iv : BitVec 96) (aad c : List Byte) : BitVec 128 :=
  let ks := aesKeys key
  let h := blockBits (aesBlock ks (List.replicate 16 0))
  let lens : BitVec 128 := BitVec.ofNat 64 (8 * aad.length) ++ BitVec.ofNat 64 (8 * c.length)
  ghash h (toBlocks (aad.length + 1) aad ++ toBlocks (c.length + 1) c ++ [lens]) ^^^
    blockBits (aesBlock ks (gcmCounter iv 1))

end Sys2Proof.Machine
end

