-- ==== Sys2Proof/Config.lean ====
section
/-! DEFINITION. What an implementation fixes and what the spec leaves open. The opaque constants have no body: nothing can be
proved about their values. -/

namespace Sys2Proof.Config

/-- The `n`-th free value of width `w`: a value the spec leaves open (log entry 11). -/
opaque freeBits : (w : Nat) → Nat → BitVec w

/-- The key material that the key manager's random source gives the `n`-th fresh key (R446; log entry 7). -/
opaque freshKey : Nat → BitVec 256

/-- What a core's droop and current monitors choose before a tick, by core and number of the tick since reset (R425; log entry 46). -/
opaque pressure : Nat → Nat → BitVec 8

/-- The identity key that the boot ROM derives from the fused secret (R453; log entry 14). -/
opaque identityKey : BitVec 384

/-- The attestation key that it derives from the identity key and the measurement of Make-ready (R453; log entry 14). -/
opaque attestationKey : BitVec 384 → BitVec 384 → BitVec 384

/-- The SHA-384 digest that measurement `i` is of what the list gives, in a layout that the spec does not fix (R453; log entry 14); number
5 extends measurement 4. -/
opaque digest : Nat → List Nat → BitVec 384

/-- Compositor cores of the part (R14). -/
def cores : Nat := 96

/-- Chases of the part (R13). -/
def chases : Nat := 12

/-- Galley engines of the XZN-961T (R17). -/
def engines : Nat := 1024

/-- Channels of the XZN-961T (R17). -/
def channels : Nat := 256

/-- Bytes of the linear view of the processing memory (R237). -/
def linearBytes : Nat := 2 ^ 40

/-- Bytes of a tile (R295). -/
def tileBytes : Nat := 4096

/-- Bytes of the data scratchpad (R62). -/
def spadBytes : Nat := 2 ^ 20

end Sys2Proof.Config
end

