-- ==== Sys2Proof/Machine/SMap.lean ====
section
/-! DEFINITION. Sparse storage by key in one canonical form: a list of (key, value) pairs with strictly rising keys and no
entry equal to the default that an unlisted key reads as. -/

namespace Sys2Proof.Machine

/-- Read a key; an unlisted key reads as the default `d`. -/
def sget {α : Type} (d : α) : List (Nat × α) → Nat → α
  | [], _ => d
  | (j, v) :: t, k => if j = k then v else sget d t k

/-- The list without a key. -/
def serase {α : Type} (k : Nat) : List (Nat × α) → List (Nat × α)
  | [] => []
  | (j, v) :: t => if j = k then serase k t else (j, v) :: serase k t

/-- Insert before the first larger key. -/
def sinsert {α : Type} (k : Nat) (v : α) : List (Nat × α) → List (Nat × α)
  | [] => [(k, v)]
  | (j, w) :: t => if k < j then (k, v) :: (j, w) :: t else (j, w) :: sinsert k v t

/-- Write a key; writing the default removes the entry. -/
def sset {α : Type} [DecidableEq α] (d : α) (m : List (Nat × α)) (k : Nat) (v : α) : List (Nat × α) :=
  if v = d then serase k m else sinsert k v (serase k m)

/-- The canonical form: keys strictly rising, no entry equal to the default. -/
abbrev swf {α : Type} (d : α) (m : List (Nat × α)) : Prop :=
  m.Pairwise (fun x y => x.1 < y.1) ∧ ∀ x ∈ m, x.2 ≠ d

end Sys2Proof.Machine
end

