-- ==== Sys2Proof/Machine/State.lean ====
section
/-! DEFINITION. The whole machine state of the XN96 as plain data, its state after reset, and the reasons a step can stop. -/

namespace Sys2Proof.Machine

/-! ## The compositor core -/

/-- A vector row with its metadata word (R34, R35). -/
structure Row where
  bits : RowBits := 0
  tag : BitVec 4 := 0
  eb : BitVec 16 := 0
  deriving DecidableEq, Repr

/-- A hardware loop: active, remaining count, start S and end E (R386). -/
structure LoopSt where
  active : Bool := false
  count : Word32 := 0
  s : BitVec 16 := 0
  e : BitVec 16 := 0
  deriving DecidableEq, Repr

/-- A weight-bank format (R208, R461). -/
inductive BankFmt where
  | none | tf8 | tf6 | int8 | bf16 | fp16 | poison
  deriving DecidableEq, Repr

/-- A weight bank: 32 columns, format, largest bound ew, largest magnitude W as FP32 bits, weight-square scale ws (R208). -/
structure Bank where
  cols : Vector RowBits 32 := Vector.replicate 32 0
  fmt : BankFmt := .none
  ew : BitVec 16 := 0
  w : Word32 := 0
  ws : BitVec 16 := 0x3F80
  deriving DecidableEq, Repr

/-- What the beat sequencer is doing (R461). -/
inductive SeqKind where
  | idle | mac | maca | wload | drain | clr
  deriving DecidableEq, Repr

/-- The beat sequencer: the MX instruction whose MAT slot is busy, its next step, and what MX.WLOAD has read (R461). -/
structure Seq where
  kind : SeqKind := .idle
  vd : Nat := 0
  vs : Nat := 0
  n : Nat := 0
  next : Nat := 0
  bank : Bool := false
  h : Bool := false
  dfmt : DrainFmt := .fp32
  tag : BitVec 4 := 0
  poison : Bool := false
  eb : BitVec 16 := 0
  w : Word32 := 0
  cols : List RowBits := []
  /-- the tick of the bundle that loaded the sequencer (R463), and the origin of what MX.WLOAD has read poisoned (R462) -/
  itick : Word := 0
  org : Option Nat := none
  deriving DecidableEq, Repr

/-- An entry of a candidate list: score as FP32 bits, and token index (R228). -/
structure Cand where
  score : Word32
  id : Word32
  deriving DecidableEq, Repr

/-- A candidate list: its non-empty entries in rank order, at most 64, and its poison flag (R230). -/
structure CList where
  ents : List Cand := []
  poison : Bool := false
  deriving DecidableEq, Repr

/-- What an in-flight result writes when it lands (R463). -/
inductive Payload where
  /-- a scalar register -/
  | scalar (c : Cluster) (r : SReg) (v : Word)
  /-- a predicate -/
  | pred (p : PReg) (v : Bool)
  /-- a row -/
  | row (v : VReg) (x : Row)
  /-- a matrix beat before accumulation: column sums, scale product, bound after MulBound, accumulate (R460); and the bank it
  carries, which R214 needs -/
  | beat (v : VReg) (acc : Bool) (sums : Vector Word32 32) (sp : Word32) (eb : BitVec 16) (bank : Bool)
  /-- a candidate list -/
  | list (l : Fin 4) (x : CList)
  deriving DecidableEq, Repr

/-- Where the data of a load that has not reached the core comes from (R45, R249, R352): it has come; processing memory or a
register, whose value is already read; the host or the storage window, whose value arrives with the event and is read as the
type given. -/
inductive Late where
  | no
  | mem
  | host (t : Option ITy)
  | stor (t : Option ITy)
  /-- a register at a device address, read when the core's earlier DEV stores have reached their targets (R247, R294) -/
  | conf (t : Option ITy) (da : Nat)
  deriving DecidableEq, Repr

/-- What the ordering rules need to know of a load in flight: an AMO or CAS, whose result WAIT does not count as a load (R336); a
DEV access (R247); and whether later loads, or later stores, wait for it (R267, R269). -/
structure LoadMark where
  atom : Bool := false
  dev : Bool := false
  thenLoads : Bool := false
  thenStores : Bool := false
  /-- the child launches whose LAUNCH came after it (R395) -/
  kids : List Nat := []
  /-- its virtual address, which a memory error names (R475) -/
  va : Nat := 0
  /-- it reads before the store of its bundle at its own address (R294) -/
  early : Bool := false
  deriving DecidableEq, Repr

/-- A result in flight (R42, R463). `late` tells whether a load's data has reached the core; `org` is the address of the
bundle that loaded it, which a deferred data trap names (R54). -/
structure Entry where
  pay : Payload
  poison : Bool
  r : Nat
  F : Flags
  slot : Nat
  itick : Word
  late : Late
  org : Nat
  mark : LoadMark
  deriving DecidableEq, Repr

/-- A store that has committed and is not yet performed (R266 to R271): its device-side bytes at virtual and linear
addresses. A CLEAN or INVAL writes no byte: `lines` are the lines that it waits for (R284, R293). `fenced` holds later stores
back, `thenLoads` later loads (R267). -/
structure PendStore where
  va : Nat
  bytes : List (Nat × Byte)
  md : Option (BitVec 4 × BitVec 16)
  release : Bool
  fenced : Bool
  dev : Bool
  thenLoads : Bool := false
  lines : List Nat := []
  /-- the child launches whose LAUNCH came after it (R395) -/
  kids : List Nat := []
  /-- the tick and the slot of its bundle, which order it among the core's loads (R272) -/
  itick : Word := 0
  slot : Nat := 0
  deriving DecidableEq, Repr

/-- A stripe descriptor (R314). -/
structure Stripe where
  w0 : Word := 0
  w1 : Word := 0
  w2 : Word := 0
  /-- the W0 that a teardown has stored and that stands once v reads 0 (R315) -/
  pend : Option Word := none
  deriving DecidableEq, Repr

/-- A TLB entry (R254): the partition, the page, its type, its rights; and what the walker records of the page's targets: whether
some window of the master's frisket entry reaches into the page with the read right, or with what a store needs, and the stripe
descriptors of the windows that the page lies in, which say where it has a target (R237, R256; log entry 82). -/
structure TlbEnt where
  part : Nat
  vbase : Nat
  size : Nat
  dbase : Nat
  mtype : BitVec 2
  r : Bool
  w : Bool
  fr : Bool := true
  fw : Bool := true
  /-- the right to write whole tiles, which needs no read right (R439) -/
  fo : Bool := true
  stripes : List (Nat × Stripe) := []
  deriving DecidableEq, Repr

/-- The form of a copy command (R325 to R328). -/
inductive CopyKind where
  | lin
  | tensor (desc : List Byte)
  | fill (pat : Word) (tag : BitVec 4)
  | isp (side : Bool)
  deriving DecidableEq, Repr

/-- What an interrupted copy has put into a destination unit: the unit (a scratchpad line, or 2^20 plus a tile), the tag of the first
byte, the largest bound, poison, escalated flag (R324). -/
structure Carry where
  unit : Nat
  tag : BitVec 4
  eb : BitVec 16
  pois : Bool
  esc : Bool
  deriving DecidableEq, Repr

/-- A copy command: its timeline number, operands, and, once a fault has stopped it, its progress index (R258). -/
structure CopyCmd where
  num : Nat
  kind : CopyKind
  dst : Nat
  src : Nat
  len : Nat
  nc : Bool
  start : Nat := 0
  stopped : Bool := false
  carry : List Carry := []
  deriving DecidableEq, Repr

/-- A copy context: issue count I and the commands that have taken a number and not completed (R317, R318). -/
structure CopyCtx where
  icount : Nat := 0
  cmds : List CopyCmd := []
  tl : Nat := 0
  deriving DecidableEq, Repr

/-- The engines of a galley command (R330). -/
structure Group where
  e0 : Nat
  count : Nat
  step : Nat
  deriving DecidableEq, Repr

/-- A galley command's operation (R331 to R334). -/
inductive GKind where
  | bcast (src len off : Nat) (tag : BitVec 4)
  | call (entry : Nat) (a0 a1 a2 a3 : Word32) (land : Nat)
  | fence
  | opn (start len st : Nat)
  | cls (start st : Nat)
  deriving DecidableEq, Repr

/-- How one engine of a call has ended: its cause and flags (R332). -/
structure GEnd where
  j : Nat
  cause : Nat
  F : Flags
  deriving DecidableEq, Repr

/-- A galley command: number, group, operation, whether it has been dispatched, the engines (or channels) that have ended it,
and what a broadcast has read: bytes, tag, bound. -/
structure GCmd where
  num : Nat
  grp : Group
  kind : GKind
  dispatched : Bool := false
  ends : List GEnd := []
  data : List Byte := []
  dtag : BitVec 4 := 0
  deb : BitVec 16 := 0
  /-- the core that issued it was lost: its landing writes are discarded (R339) -/
  mute : Bool := false
  deriving DecidableEq, Repr

/-- The galley context gx (R319, R311): `regions` are (start, length) of its open regions. -/
structure GalleyCtx where
  icount : Nat := 0
  tl : Nat := 0
  cmds : List GCmd := []
  regions : List (Nat × Nat) := []
  deriving DecidableEq, Repr

/-- An instruction side: its bytes and the tag of the code image it holds (R58, R368). -/
structure Side where
  bytes : List (Nat × Byte) := []
  tag : Option Word32 := none
  deriving DecidableEq, Repr

/-- A request to the scheduler, a barrier or the heap that a frozen bundle has made (R392 to R397). -/
inductive Req where
  | bar (id n tmo : Nat)
  | maskw (m : Nat) (q : Word32)
  | launch (desc : Nat) (nx ny nz : Nat) (done : Nat)
  | push (e : Word) (st : Nat)
  | pop (o m : Nat)
  deriving DecidableEq, Repr

/-- Its answer. -/
inductive Ans where
  | flag (b : Bool)
  | accepted
  | limit
  | served
  deriving DecidableEq, Repr

/-- Why a core is frozen in a bundle's first tick (R45, R375). -/
inductive Wait where
  | waittl | wait | ifence | region | drain | bar | maskw | launch | heap | ctxFull | settle | late | store
  deriving DecidableEq, Repr

/-- What a core is doing (R366, R467). -/
inductive CoreSt where
  | free
  | staging
  | running
  /-- a marked bundle has committed, or a marked bundle is frozen on a wait, and the core is to be pre-empted (R373) -/
  | preempting
  | ending
  /-- an escalation has abandoned the task, and its engine commands complete (R145) -/
  | escalating
  /-- a trap is taken, and the core waits for the data of its loads in flight (R458) -/
  | trapping
  /-- a trap is held for the supervisor (R467) -/
  | held
  /-- engine commands settle after a cancellation or a failure (R339) -/
  | settling
  | retest
  | lost
  deriving DecidableEq, Repr

/-- What TRSTAT and the resume of a held image need (R462, R467). -/
structure Held where
  seq : Word32
  cause : BitVec 8
  /-- form 01: the bundle at pc was nullified and is issued afresh -/
  reissue : Bool
  deriving DecidableEq, Repr

/-- A trap or event record (R466). -/
structure TrapRec where
  cause : BitVec 8
  detail : BitVec 8 := 0
  slot : BitVec 4 := 15
  region : Bool := false
  held : Bool := false
  seq : Word32 := 0
  mid : BitVec 9 := 0
  part : BitVec 5 := 31
  taskid : Word32 := 0
  pc : BitVec 17 := 0
  tick : Word := 0
  addr : Word := 0
  aux : Word := 0
  aux2 : Word := 0
  rpt : Word32 := 0
  deriving DecidableEq, Repr

/-- The conditions of a WAIT that its core still has to meet (R336); none is 31. -/
structure WaitCond where
  ld : Nat
  st : Nat
  cp : Nat
  mx : Nat
  deriving DecidableEq, Repr

/-- A compositor core. -/
structure Core where
  a : Vector Word 32 := Vector.replicate 32 0
  b : Vector Word 32 := Vector.replicate 32 0
  aPois : BitVec 32 := 0
  bPois : BitVec 32 := 0
  v : Vector Row 128 := Vector.replicate 128 {}
  p : BitVec 12 := 0
  pPois : BitVec 12 := 0
  lc : Vector LoopSt 4 := Vector.replicate 4 {}
  /-- active loops, innermost first (R381) -/
  order : List (Fin 4) := []
  w0 : Bank := {}
  w1 : Bank := {}
  sel : Bool := false
  ss : Vector (BitVec 16) 64 := Vector.replicate 64 0x3F80
  nsc : Bool := false
  h : Bool := false
  dfmt : DrainFmt := .fp32
  seq : Seq := {}
  cl : Vector CList 4 := Vector.replicate 4 {}
  fsr : Flags := 0
  tick : Word := 0
  taskid : Word32 := 0
  tilex : BitVec 16 := 0
  tiley : BitVec 16 := 0
  tilez : BitVec 16 := 0
  thr : BitVec 16 := 0x7BFF
  opc : BitVec 3 := 6
  side : Bool := false
  pc : Nat := 0
  /-- return stack, last pushed first (R381) -/
  rstack : List Nat := []
  bubble : Nat := 0
  /-- the written mark of R60 on the inactive side -/
  mark : Bool := false
  wdog : Nat := 0
  infl : List Entry := []
  idiv : Nat := 0
  fdiv : Nat := 0
  cx : Vector CopyCtx 4 := Vector.replicate 4 {}
  gx : GalleyCtx := {}
  spad : List (Nat × Byte) := []
  /-- the metadata word of each 128-byte scratchpad line: tag in [19:16], bound in [15:0] (R283) -/
  smeta : List (Nat × BitVec 20) := []
  recto : Side := {}
  verso : Side := {}
  tlb : List TlbEnt := []
  stores : List PendStore := []
  /-- the poisoned destinations still marked, with the bundle that loaded them (R54, porig of R462) -/
  porig : List (Nat × Nat) := []
  /-- the same of poisoned candidate lists, weight banks and special registers, which an image does not hold (R230, R218, R462) -/
  lorig : List (Nat × Nat) := []
  /-- special registers whose parity error has been found, until they are written (R473, R474) -/
  lostSr : List Nat := []
  st : CoreSt := .free
  /-- the partition whose task has the core (R376) -/
  home : Option PartId := none
  task : Option Nat := none
  relaunch : Bool := false
  sov : Bool := false
  held : Option Held := none
  /-- the record of the trap that waits for late data, and whether its bundle was nullified (R458) -/
  trap : Option (TrapRec × Bool) := none
  /-- the record of the escalation that abandoned the task (R146) -/
  escRec : Option TrapRec := none
  cancelled : Bool := false
  trseq : Word32 := 0
  trcause : BitVec 8 := 0
  wait : Option Wait := none
  /-- the slot whose wait freezes the core -/
  waitSlot : Nat := 0
  waitc : Option WaitCond := none
  req : Option Req := none
  ans : Option Ans := none
  /-- the job of the task whose work the core still settles (R277, R339) -/
  owes : Option (PartId × Fin 16) := none
  /-- a pre-emption, or a cancel, has been requested (R373, R364) -/
  preq : Bool := false
  creq : Bool := false
  /-- a residency or write-back copy of the core is stopped (R259) -/
  resStop : Bool := false
  /-- residency copies still to be made in staging, or write-backs in ending -/
  resLeft : List CopyCmd := []
  /-- the effective operating point, and whether a transition has not settled (R421 to R424) -/
  eff : BitVec 3 := 0
  settling : Bool := false
  dr : BitVec 4 := 0
  slack : BitVec 8 := 0
  vtrim : BitVec 10 := 0
  stretch : Bool := false
  slktgtEn : Bool := true
  slktgt : BitVec 8 := 0x18
  /-- the pressure level that the monitors have chosen for the tick (R425), and the model's own count of ticks since reset -/
  press : BitVec 2 := 0
  ticks : Nat := 0
  l1 : Word32 := 0
  l2 : Word32 := 0
  deriving DecidableEq, Repr

/-! ## Memory, engines and channels -/

/-- How a tile's stored bits came to be: never since power-up; sealed by the device under a key (the plaintext is what `mem`
holds); or written through a paging window, with the stored tag (log entry 7). -/
inductive Seal where
  | unsealed
  | sealed (key : Nat)
  | raw (gtag : BitVec 128)
  deriving DecidableEq, Repr

/-- A tile's metadata record (R441). `sealPois` and `sealEsc` are the flags as they stood when the tag was made: a flag changed since
fails the tag. -/
structure TileRec where
  sl : Seal := .unsealed
  version : Word32 := 0
  keygen : BitVec 8 := 0
  ftag : BitVec 4 := 0
  poison : Bool := true
  sealPois : Bool := false
  esc : Bool := false
  sealEsc : Bool := false
  eb : BitVec 16 := 0
  /-- record bits that only an aperture write can set: [7:4] of ftag, [7:2] of flags, bytes 0x19 to 0x1F -/
  rest : BitVec 66 := 0
  deriving DecidableEq, Repr

/-- How a write changes the tag and bound of the units it touches (R139, R324, R303). -/
inductive MetaUpd where
  /-- scalar stores, atomics, host and SSD writes: both unchanged -/
  | keep
  /-- the tag set; the bound raised to the largest of old and new, or unchanged for a tag that stores no bound -/
  | store (tag : BitVec 4) (eb : Option (BitVec 16))
  /-- a copy: tag and bound set for a whole unit, bound raised for a part; poisoned source data poisons the unit; the
  escalated flag copied -/
  | copy (tag : BitVec 4) (eb : BitVec 16) (poison esc : Bool)
  /-- a fill: tag set and bound zero (R324) -/
  | fill (tag : BitVec 4)
  /-- the escalated flag set and nothing else (R147) -/
  | mark
  deriving DecidableEq, Repr

/-- An ordinary write of bytes of one tile that may not have reached the memory yet (R28): the key slot, whether it is of the whole
tile, the (linear address, byte) pairs, what it does to tag and bound, and what the later writes merged into it do (`more`). `behind` counts the fences before it in the channel's queue,
which hold it from the calls before them (R309); `sent` counts the fences ahead of it once GE.OPEN has sent it to the channel (R27);
`seen` counts the passes that have left it out (log entry 83). -/
structure LateWrite where
  slot : Nat
  whole : Bool
  bs : List (Nat × Byte)
  m : MetaUpd
  more : List MetaUpd := []
  behind : Nat
  sent : Option Nat := none
  seen : Nat := 0
  deriving DecidableEq, Repr

/-- A tile as the memory holds it, record and bytes, and the ordinary writes of it that have not reached the memory yet, in their
order (R28, R263). -/
structure Stale where
  tile : Nat
  record : TileRec
  cells : List (Nat × Byte)
  writes : List LateWrite
  deriving DecidableEq, Repr

/-- What PARK saves in a park row (R312), and the key, generation and version that seal it (R442, R445). -/
structure ParkRow where
  buf : List (Nat × Byte)
  btag : BitVec 4
  beb : BitVec 16
  acc : Vector Word32 64
  eacc : BitVec 16
  F : Flags
  key : Option Nat
  gen : BitVec 8
  version : Word32
  deriving DecidableEq, Repr

/-- A galley engine (R297). -/
structure Engine where
  control : List (Nat × BitVec 128) := []
  /-- the entry table: the micro-address of each entry number -/
  entries : List (Nat × BitVec 8) := []
  buf : List (Nat × Byte) := []
  btag : BitVec 4 := 0
  beb : BitVec 16 := 0
  acc : Vector Word32 64 := Vector.replicate 64 0
  eacc : BitVec 16 := 0
  live : Bool := false
  F : Flags := 0
  /-- the park row, when valid: what PARK saved -/
  park : Option ParkRow := none
  /-- what the entry to self-refresh saved; a program's own park row stays beside it (R313; log entry 93) -/
  sleepRow : Option ParkRow := none
  /-- the version of the engine's last park-row seal, and the generation it was made under (R445) -/
  parkVer : Word32 := 0
  parkGen : BitVec 8 := 0
  /-- the restore at self-refresh exit failed: the next call ends with cause 0xA (R313) -/
  badPark : Bool := false
  /-- the engine index is absent (R483) -/
  absent : Bool := false
  testing : Bool := false
  deriving DecidableEq, Repr

/-- What waits in a channel's sequencer: a call or broadcast for one engine, or a fence (R308, R309), each by its calling
core and tlg number. -/
inductive ChanItem where
  | work (core : CoreId) (num : Nat) (e : EngineId)
  | fence (core : CoreId) (num : Nat)
  deriving DecidableEq, Repr

/-- A channel sequencer (R308, R313). -/
structure Chan where
  queue : List ChanItem := []
  selfRefresh : Bool := false
  spareUsed : Bool := false
  sub : BitVec 2 := 0
  ret : BitVec 5 := 0
  deriving DecidableEq, Repr

/-- A key slot (R446, R447): the serial numbers of its current and previous keys. -/
structure KeySlot where
  key : Option Nat := none
  prev : Option Nat := none
  gen : BitVec 8 := 0
  busy : Bool := false
  done : BitVec 24 := 0
  fails : BitVec 24 := 0
  rbase : Nat := 0
  rlen : Nat := 0
  deriving DecidableEq, Repr

/-! ## Records and rings -/

/-- A ring with the records refused for lack of room, in order of first refusal (R469, R470). -/
structure Ring where
  base : Nat := 0
  lsz : BitVec 4 := 0
  ovf : Bool := false
  wix : BitVec 24 := 0
  rix : BitVec 24 := 0
  pend : List TrapRec := []
  /-- records that have their place in the ring and whose writing waits for an open region, a fence or self-refresh (R29, R309, R313) -/
  stuck : List TrapRec := []
  deriving DecidableEq, Repr

/-! ## Tasks, launches, graphs and jobs -/

/-- A tile entry of a task descriptor (R357). -/
structure TileEnt where
  va : Word
  sx : Word32
  sy : Word32
  sz : Word32
  bytes : Nat
  spoff : Nat
  gpn : BitVec 6
  wb : Bool
  gpw : Bool
  tlper : Bool
  nc : Bool
  tlva : Word
  wait : Word
  deriving DecidableEq, Repr

/-- A task descriptor (R356). -/
structure Desc where
  taskid : Word32
  eside : Bool
  eoff : BitVec 16
  esc : Bool
  xside : Bool
  xoff : BitVec 16
  sov : Bool
  opc : BitVec 3
  thr : BitVec 16
  cva : Word
  clen : Nat
  ctag : Word32
  ins : List TileEnt
  outs : List TileEnt
  deriving DecidableEq, Repr

/-- A launch of a graph (R361, R362, R395). -/
structure Launch where
  dva : Nat
  nx : Nat
  ny : Nat
  nz : Nat
  preds : BitVec 64
  released : Bool := false
  ended : Bool := false
  /-- tasks of the released launch not done, cancelled or failed -/
  left : Nat := 0
  /-- the task that launched a child, and its completion word -/
  parent : Option Nat := none
  /-- a child's number, which the accesses that its parent issued before it carry until they are performed -/
  tag : Nat := 0
  /-- the launch that the parent task belongs to -/
  plix : Option Nat := none
  /-- the chase of the core that launched a child -/
  chase : ChaseId := 0
  /-- a task of the launch was cancelled or failed -/
  spoilt : Bool := false
  doneVa : Nat := 0
  discarded : Bool := false
  deriving DecidableEq, Repr

/-- A job slot (R361, R363): its graphs, its level, the command slot that started it. -/
structure Job where
  live : Bool := false
  cancelling : Bool := false
  pri : BitVec 2 := 0
  graphs : List (List Launch) := []
  func : FuncId := 0
  slot : Nat := 0
  utag : Word32 := 0
  seq : Word32 := 0
  phase : Bool := false
  failed : Option (Word32 × BitVec 8) := none
  wasCancelled : Bool := false
  deriving DecidableEq, Repr

/-- The state of a task instance (R366); a task that ends leaves the table. -/
inductive TaskSt where
  | pending | ready | staging | running | ending
  deriving DecidableEq, Repr

/-- A saved context image (R461, R471): the core's state, the context slot of the partition that holds it, none in Make-ready's reserved
memory (log entry 17), and the records of the slot's tiles as the save has left them, which tell whether the slot has been written since. -/
structure SavedImage where
  core : Core
  slot : Option Nat
  recs : List TileRec := []
  deriving DecidableEq, Repr

/-- A task instance (R366). `stamp` orders ready times; `age` counts the aging intervals waited (R370). -/
structure Task where
  q : PartId
  job : Fin 16
  gix : Nat
  lix : Nat
  ell : Nat
  tilex : BitVec 16
  tiley : BitVec 16
  tilez : BitVec 16
  desc : Desc
  st : TaskSt
  waits : List (Nat × Word)
  level : BitVec 2
  stamp : Nat := 0
  age : Nat := 0
  chase : Option ChaseId := none
  relaunch : Bool := false
  core : Option CoreId := none
  image : Option SavedImage := none
  deriving DecidableEq, Repr

/-- An entry of the admission heap (R396). -/
structure HeapEnt where
  d : Word32
  t : BitVec 16
  id : BitVec 16
  s : Nat
  deriving DecidableEq, Repr

/-- The registers and objects of a partition. -/
structure Part where
  pcore : BitVec 96 := 0
  psch : Word := 0x05008000
  opcap : BitVec 3 := 6
  gtab : Word := 0
  ptroot : Word := 0
  pevown : BitVec 18 := 0
  ctxa : Word := 0
  stall : BitVec 16 := 0x64
  mseq : Vector Word32 16 := Vector.replicate 16 0
  bud : BitVec 16 := 0x200
  heap : List HeapEnt := []
  hseq : Nat := 0
  gp : Vector Word 64 := Vector.replicate 64 0
  jobs : Vector Job 16 := Vector.replicate 16 {}
  /-- the round-robin pointer of each chase's scheduler over the partition's cores (R372) -/
  rr : Vector (Fin 8) 12 := Vector.replicate 12 0
  deriving DecidableEq, Repr

/-- A barrier generation: participants, arrived cores (R392). -/
structure Barrier where
  n : Nat := 0
  arrived : List CoreId := []
  deriving DecidableEq, Repr

/-- A function of the host port (R342 to R348). -/
structure Func where
  part : Option PartId := none
  cwbase : Word := 0
  cqbase : Word := 0
  pacfg : Word := 0
  en : Bool := false
  e : Word32 := 0
  h : BitVec 6 := 0
  ph : Bool := false
  rdy : Bool := false
  /-- slot indices consumed whose record is not yet written -/
  owed : List Nat := []
  /-- FENCE slots consumed and not answered: index, utag, seq, phase, and the records they wait for (R345) -/
  fences : List (Nat × Word32 × Word32 × Bool × List Nat) := []
  /-- the publishing values that the host has written, by slot index, since the window was enabled (R344) -/
  pubs : List (Nat × Word32) := []
  deriving DecidableEq, Repr

/-- A completion record that waits to be written: its function, its index and its 32 bytes (R347). -/
structure HeldRecord where
  f : FuncId
  h : Nat
  bytes : List Byte
  deriving DecidableEq, Repr

/-- An access of the host (R340 to R348, R429, R469): to host physical addresses by CXL.mem, to BAR0 of a function, to a function's peer
aperture, to the device-wide ring, to configuration space. -/
inductive HostAcc where
  | memRead (hpa n : Nat)
  | memWrite (hpa : Nat) (bs : List Byte)
  | slotWrite (f : FuncId) (off : Nat) (bs : List Byte)
  | window (f : FuncId) (on : Bool)
  | peerWrite (f : FuncId) (off : Nat) (bs : List Byte)
  | peerRead (f : FuncId) (off n : Nat)
  | ring (v : Word)
  | reg (mid addr : Nat) (v : Word)
  deriving DecidableEq, Repr

/-- An HDM decoder: a host physical range and the device addresses that it maps onto (R340; log entry 94). -/
structure Hdm where
  v : Bool := false
  hpa : Word := 0
  da : Nat := 0
  len : Nat := 0
  deriving DecidableEq, Repr

/-- A chase: XLSTAT, and the supervisor's local memory and the result of its last access (R255, R451). -/
structure Chase where
  xlbusy : Bool := false
  /-- the second-level TLB (R254) -/
  tlb2 : List TlbEnt := []
  lmem : List (Nat × Byte) := []
  supData : Option Word := none
  supFault : Bool := false
  crepPos : BitVec 32 := 0x76543210
  crepRet : BitVec 9 := 0
  deriving DecidableEq, Repr

/-! ## The bundle being issued -/

/-- A nullifying fault found in the bundle being issued, with its rank (R455). -/
structure Fault1 where
  rank : Nat
  slot : Nat
  cause : BitVec 8
  detail : BitVec 8
  addr : Nat := 0
  aux : Word := 0
  deriving DecidableEq, Repr

/-- A transfer of control that the bundle makes (R382). -/
inductive Transfer where
  | seq
  | jump (pc : Nat)
  | call (pc : Nat)
  | ret
  | side (pc : Nat)
  /-- LOOP with a count of 0: to the bundle after the body that ends at E (R386) -/
  | skip (e : Nat)
  deriving DecidableEq, Repr

/-- How the bundle ends its task, if it does. -/
inductive TaskEnd where
  | done
  | abort (code : BitVec 16)
  | trap (code : BitVec 16)
  deriving DecidableEq, Repr

/-- The bundle being issued: the core as its operand reads see it, its literals and header marks, and what its slots have
found and asked for so far. -/
structure Issue where
  pre : Core := {}
  lits : List Word32 := []
  off : Nat := 0
  len : Nat := 0
  safe : Bool := false
  escr : Bool := false
  faults : List Fault1 := []
  hold : Option Wait := none
  holdSlot : Nat := 0
  xfer : Transfer := .seq
  fin : Option TaskEnd := none
  /-- WRSR of fsr and of pfile, which take effect at the end of the tick (R170) -/
  wfsr : Option Flags := none
  wpfile : Option (BitVec 12) := none
  /-- bytes that MA's and MB's store parts write in this bundle, for R294 -/
  maStore : List Nat := []
  clrMark : Bool := false
  opsel : Option (BitVec 3) := none
  /-- a request that the bundle makes when it freezes for the first time (R392 to R397) -/
  newReq : Option Req := none
  /-- the kinds of the bundle's fences, which its own accesses follow whatever their slots (R292) -/
  fences : List FenceKind := []
  /-- the slot that runs now -/
  now : Nat := 0
  deriving DecidableEq, Repr

/-- An entry of the agenda: an event that happens, or a core that takes its turn (log entry 1). -/
inductive Act where
  | ev (i : Instr)
  | core (c : CoreId)
  deriving DecidableEq, Repr

/-- An error that stands in a storage cell or on a link and that no check has met yet (R473, R474; log entry 20). -/
inductive SoftErr where
  /-- an uncorrectable error of a DRAM row or of its metadata record -/
  | dram (tile : Nat)
  /-- a burst of a DRAM row that fails its CRC after the retries -/
  | burst (tile : Nat)
  /-- a burst of the next write of a DRAM row that fails its CRC after the retries -/
  | wburst (tile : Nat)
  /-- a correctable error of a DRAM row, of a core's SRAM, of an engine's SRAM -/
  | weak (tile : Nat)
  | weakCore (c : CoreId)
  | weakEngine (e : EngineId)
  /-- an uncorrectable error of a scratchpad line, of a register, predicate or row (by its origin key), of an instruction side, of a
  candidate list, of a weight bank -/
  | line (c : CoreId) (line : Nat)
  | reg (c : CoreId) (key : Nat)
  | side (c : CoreId) (v : Bool)
  | list (c : CoreId) (l : Fin 4)
  | bank (c : CoreId) (b : Bool)
  /-- an uncorrectable error of a galley engine's buffer or accumulators, or of its control store -/
  | engine (e : Nat)
  | control (e : Nat)
  /-- a parity error of a special register of a core, by its number -/
  | special (c : CoreId) (n : Nat)
  /-- an uncorrectable error of an engine's park row -/
  | park (e : Nat)
  /-- a correctable error of a task table, a FRISKET table or the key manager -/
  | weakTable
  /-- an uncorrectable error of a window word of a FRISKET table (by its key), of a key slot, of a task table's entry -/
  | window (n : Nat)
  | keySlot (k : Nat)
  | task (i : Nat)
  deriving DecidableEq, Repr

/-- Sleep states of SLPCTL (R429). -/
inductive Slp where
  | running | entering | asleep | waking
  deriving DecidableEq, Repr

/-- The machine. -/
structure State where
  /-- the part is an XZN-965H: stacks 0 to 7 only; no step changes it (R1, R2, R18) -/
  half : Bool := false
  cores : Vector Core 96 := Vector.replicate 96 {}
  /-- plaintext bytes of the processing memory by linear device address (log entry 6) -/
  mem : List Host.Cell := []
  recs : List (Nat × TileRec) := []
  /-- 64-byte lines marked poisoned in memory, apart from their tile's flag (R249; log entry 90) -/
  poisLines : List Nat := []
  /-- tiles with ordinary writes that may not have reached the memory, which only a galley pass can tell (R28) -/
  stale : List Stale := []
  engines : List (Nat × Engine) := []
  chans : List (Nat × Chan) := []
  stripes : List (Nat × Stripe) := []
  friskets : List (Nat × Word) := []
  keys : Vector KeySlot 32 := Vector.replicate 32 {}
  krbase : Word := 0
  nextKey : Nat := 0
  devown : BitVec 18 := 0
  evdl : BitVec 16 := 100
  /-- the latest event sequence number (R450) -/
  evseq : Word32 := 0
  /-- MSI-X messages of the physical function sent for events that the host owns (R450) -/
  msix : Nat := 0
  /-- events whose owner field is 10 or 11 and that no supervisor has acknowledged (R450) -/
  unacked : List (ChaseId × TrapRec) := []
  rings : Vector Ring 12 := Vector.replicate 12 {}
  devRing : Ring := {}
  parts : Vector Part 24 := Vector.replicate 24 {}
  chases : Vector Chase 12 := Vector.replicate 12 {}
  bars : List (Nat × Barrier) := []
  tasks : List (Nat × Task) := []
  nextTask : Nat := 0
  stamp : Nat := 0
  /-- XLINV writes that wait for busy to clear (R255) -/
  xlwait : List (ChaseId × Word) := []
  funcs : List (Nat × Func) := []
  /-- the host port's HDM decoders (R340) -/
  hdm : Vector Hdm 8 := Vector.replicate 8 {}
  /-- accesses of the host that arrived in sleep, oldest first: they are held until the wake completes (R431) -/
  hostHeld : List HostAcc := []
  /-- the lines of processing memory that the host holds (R248); for one held under a striping window, the line number of that device
  address (R245) -/
  hostLines : List Nat := []
  hostVia : List (Nat × Nat) := []
  /-- what the last read of the host has given it; and what every read has, newest first: none for CXL poison -/
  hostData : List Byte := []
  hostPoison : Bool := false
  hostReplies : List (Option (List Byte)) := []
  ssdData : List Byte := []
  ssdPoison : Bool := false
  /-- stores sent to the host window and to the storage window, newest first -/
  hostOut : List (Nat × List Byte) := []
  ssdOut : List (Nat × List Byte) := []
  linkDown : Bool := false
  spint : Word := 0
  slp : Slp := .running
  /-- a sleep or wake request that takes effect when the current step completes (R432) -/
  slpNext : Bool := false
  ccol : List (Nat × BitVec 14) := []
  /-- corrected errors counted per unit: channel h, 0x1000 plus a core's number, 0x2000 plus an engine's index (R475) -/
  corr : List (Nat × Nat) := []
  /-- spare DRAM rows that repairs have used, per bank (R479, R484) -/
  rowSpares : List (Nat × Nat) := []
  /-- window words, key slots and task table entries that a check has found unreadable, until they are rewritten (R474) -/
  lostWords : List Nat := []
  lostKeys : List Nat := []
  lostTasks : List Nat := []
  soft : List SoftErr := []
  /-- DRAM rows in which an uncorrectable error has been found, until a whole write or a repair (R484, R486) -/
  badRows : List Nat := []
  /-- how often a DRAM row has shown an error, since the count's last restart (R479) -/
  rowErrs : List (Nat × Nat) := []
  /-- completion records whose writing an open region, a fence or self-refresh holds up, oldest first (R29, R309, R313) -/
  heldRecords : List HeldRecord := []
  /-- the logic die is without power, outside sleep (R510) -/
  off : Bool := false
  booted : Bool := false
  bootFail : Bool := false
  secMin : Nat := 0
  /-- the identity and the attestation key, measurements 1 and 2, and what Make-ready has extended measurement 4 with (R453) -/
  idKey : BitVec 384 := 0
  attKey : BitVec 384 := 0
  meas1 : BitVec 384 := 0
  meas2 : BitVec 384 := 0
  meas4 : Option (BitVec 384) := none
  spdm : Option (Nat × Nat) := none
  /-- the model's own: core whose bundle is being issued, the issue record, free-value counter, agenda, turn (log entry 1) -/
  cur : CoreId := 0
  iss : Issue := {}
  fresh : Nat := 0
  agenda : List Act := []
  turn : CoreId := 0
  deriving DecidableEq, Repr

/-- The machine right after reset (R297, R314, R317, R438, R467, R469, R510; log entries 2, 6, 12). -/
def State.reset : State := {}

/-- The reasons a step can stop with a fault. No meaning of this model ends in one: whatever the spec calls a fault is a
trap, an event or a record, which the machine takes and goes on from. -/
inductive Fault where
  /-- Raised by nothing in this model. -/
  | none
  deriving DecidableEq, Repr

/-- The reasons a step can be refused. -/
inductive Refusal where
  /-- Raised by an arm of `exec` whose instruction has no meaning yet; safe. -/
  | notModelled (mnemonic : String)
  deriving DecidableEq, Repr

end Sys2Proof.Machine
end

