-- ==== Sys2Proof/Machine/Mem.lean ====
section
/-! DEFINITION. The named operations over memory below the frisket check: bytes, tile records, sealing (R441 to R445, R448),
imposition (R316), the frisket lookup (R437 to R439) and the device address map (R237). Nothing here raises an event; the
callers in Access.lean and Ops.lean do. -/

namespace Sys2Proof.Machine

/-! ## Bytes and words -/

/-- `n` little-endian bytes of a number (R9). -/
def leBytes : Nat → Nat → List Byte
  | 0, _ => []
  | n + 1, v => BitVec.ofNat 8 v :: leBytes n (v / 256)

/-- The number that little-endian bytes spell (R9). -/
def ofLe : List Byte → Nat
  | [] => 0
  | b :: bs => b.toNat + 256 * ofLe bs

/-- `n` bytes of a sparse byte store from a key on. -/
def sbytes (m : List (Nat × Byte)) (a : Nat) : Nat → List Byte
  | 0 => []
  | n + 1 => sget 0 m a :: sbytes m (a + 1) n

/-- Write bytes into a sparse byte store from a key on. -/
def sputBytes (m : List (Nat × Byte)) (a : Nat) : List Byte → List (Nat × Byte)
  | [] => m
  | b :: bs => sputBytes (sset 0 m a b) (a + 1) bs

/-- Write bytes at given keys, in order. -/
def sputAll (m : List (Nat × Byte)) : List (Nat × Byte) → List (Nat × Byte)
  | [] => m
  | (a, b) :: t => sputAll (sset 0 m a b) t

/-- Write a pair of data at the addresses from `a` on, as (address, byte) pairs. -/
def addrBytes (a : Nat) : List Byte → List (Nat × Byte)
  | [] => []
  | b :: bs => (a, b) :: addrBytes (a + 1) bs

/-! ## The device address map -/

/-- What a device address names (R237). -/
inductive Target where
  | linear | window | aperture | storage | config | host | none
  deriving DecidableEq, Repr

/-- The target of a device address, of whichever stacks are populated (R237). -/
def targetOf (da : Nat) : Target :=
  if da < 0x0100_0000_0000 then .linear
  else if da < 0x0200_0000_0000 then .window
  else if da < 0x0202_0000_0000 then .aperture
  else if 0x0800_0000_0000 ≤ da ∧ da < 0x0801_0000_0000 then .storage
  else if 0x0F00_0000_0000 ≤ da ∧ da < 0x0F00_1000_0000 then .config
  else if 0x8000_0000_0000 ≤ da ∧ da < 0x1_0000_0000_0000 then .host
  else .none

/-- A bit field of a word, as a number. -/
def bits (w : Word) (hi lo : Nat) : Nat := (w >>> lo).toNat % 2 ^ (hi - lo + 1)

/-- ⌈x / y⌉. -/
def cdiv (x y : Nat) : Nat := (x + y - 1) / y

/-- The linear address of local byte L of engine e's bank group (R295). -/
def engineLinear (e L : Nat) : Nat :=
  let u := L / 4096
  (e / 64 % 16) * 2 ^ 36 + (e / 8 % 8) * 2 ^ 33 + (u / 4 % 2 ^ 16) * 2 ^ 17 + (u % 4) * 2 ^ 15 +
    (e % 4) * 2 ^ 13 + (e / 4 % 2) * 2 ^ 12 + L % 4096

/-- The engine whose bank group holds a linear address (R295). -/
def linearEngine (da : Nat) : Nat :=
  (da / 2 ^ 36 % 16) * 64 + (da / 2 ^ 33 % 8) * 8 + (da / 2 ^ 12 % 2) * 4 + da / 2 ^ 13 % 4

/-- The local byte address within its bank group of a linear address (R295). -/
def linearLocal (da : Nat) : Nat :=
  (da / 2 ^ 17 % 2 ^ 16 * 4 + da / 2 ^ 15 % 4) * 4096 + da % 4096

/-- The channel of an engine: its index without the bank-group bits (R17). -/
def engineChan (e : Nat) : Nat := e / 4

/-- A window of the striping range is mapped: v set (R314). -/
def Stripe.valid (d : Stripe) : Bool := d.w0.getLsbD 63

/-- CT of R315. -/
def Stripe.ct (d : Stripe) : Nat := cdiv (bits d.w0 31 16 * 64 * bits d.w0 43 32) 4096

/-- Impose(w, x) of R316. -/
def Stripe.impose (d : Stripe) (x : Nat) : Option Nat :=
  let rb := 64 * bits d.w0 43 32
  if !d.valid || rb = 0 || bits d.w0 31 16 = 0 || bits d.w1 26 16 = 0 then none else
    let m := x / rb
    if bits d.w2 31 0 ≤ m then none else
      let rpc := bits d.w0 31 16
      let c := m / rpc
      let e := bits d.w1 41 32 + c % bits d.w1 26 16 * bits d.w1 9 0
      some (engineLinear e
        (bits d.w2 49 32 * 4096 + c / bits d.w1 26 16 * d.ct * 4096 + m % rpc * rb + x % rb))

/-- The bytes of the linear view whose stacks are populated (R2, R237). -/
def State.memTop (s : State) : Nat := if s.half then Config.linearBytes / 2 else Config.linearBytes

/-- The linear address of a byte of the linear view or of a striping window; none where there is no target (R316, R20). -/
def State.linearOf (s : State) (da : Nat) : Option Nat :=
  match targetOf da with
  | .linear => if da < s.memTop then some da else none
  | .window =>
    let x := da - 0x0100_0000_0000
    (sget {} s.stripes (x / 2 ^ 32)).impose (x % 2 ^ 32)
  | _ => none

/-- The device address has a target (R237, R257). -/
def State.hasTarget (s : State) (da : Nat) : Bool :=
  match targetOf da with
  | .linear | .window => (s.linearOf da).isSome
  | .aperture | .none => false
  | _ => true

/-! ## Frisket tables -/

/-- The key of window word `n` of a master's entry at a target, in the sparse store of all six tables (R437). -/
def friskKey (t mid n : Nat) : Nat := (t * 512 + mid) * 8 + n

/-- The range base B of a target (R437). -/
def friskBase : Nat → Nat
  | 2 => 0x0800_0000_0000
  | 3 => 0x8000_0000_0000
  | 4 => 0x0F00_0000_0000
  | 5 => 0x0F00_0800_0000
  | _ => 0

/-- The unit G of a window word (R438). -/
def friskUnit (w : Word) : Nat :=
  match bits w 54 53 with
  | 0 => 4
  | 1 => 4096
  | _ => 2 ^ 21

/-- A window word covers `n` bytes from an address, relative to base `b0` (R438). -/
def windowCovers (w : Word) (b0 da n : Nat) : Bool :=
  w.getLsbD 63 && decide (b0 + bits w 25 0 * friskUnit w ≤ da) &&
    decide (da + n ≤ b0 + (bits w 52 27 + 1) * friskUnit w)

/-- A window word carries the rights needed. -/
def windowAllows (w : Word) (r wr : Bool) : Bool := (!r || w.getLsbD 62) && (!wr || w.getLsbD 61)

/-- The lowest-numbered window that covers the bytes and carries the rights (R439), from number `8 - k` on. -/
def friskFind (s : State) (t mid b0 da n : Nat) (r w : Bool) : Nat → Option Word
  | 0 => none
  | k + 1 =>
    let x := sget 0 s.friskets (friskKey t mid (7 - k))
    if windowCovers x b0 da n && windowAllows x r w then some x else friskFind s t mid b0 da n r w k

/-- The target number at which a master's access to a device address is checked (R437). -/
def friskTarget (mid da : Nat) : Nat :=
  match targetOf da with
  | .storage => 2
  | .host => 3
  | .config => if 0x0F00_0800_0000 ≤ da then 5 else 4
  | _ => if mid = 0x0F0 then 2 else 0

/-- The key slot that a window names. -/
def windowSlot (w : Word) : Nat := bits w 59 55

/-- A word of a master's entry at a target has been found unreadable, and is not rewritten yet (R474). -/
def State.entryLost (s : State) (t mid : Nat) : Bool := s.lostWords.any fun n => n / 8 == t * 512 + mid

/-- A window at a target depends on a key slot whose state has been found unreadable (R438, R474). -/
def State.slotLost (s : State) (t mid : Nat) (w : Word) : Bool :=
  (decide (t ≤ 1) || mid == 0x0F0) && s.lostKeys.contains (windowSlot w)

/-- The window of a master's entry at a target that admits an access, of addresses relative to a base (R439). An entry that has been
lost admits nothing, nor does a window that depends on a lost key slot (R474). -/
def State.friskAt (s : State) (t mid b0 da n : Nat) (r w : Bool) : Option Word :=
  if s.entryLost t mid then none
  else match friskFind s t mid b0 da n r w 8 with
    | some x => if s.slotLost t mid x then none else some x
    | none => none

/-- The window that admits an access (R439). At target 2 the SSD's entry is relative to base 0 (R437). -/
def State.frisk (s : State) (mid da n : Nat) (r w : Bool) : Option Word :=
  let t := friskTarget mid da
  s.friskAt t mid (if mid = 0x0F0 then 0 else friskBase t) da n r w

/-- The window is a paging window (R444). -/
def windowPaging (w : Word) : Bool := w.getLsbD 60

/-- A window word reaches into the `n` bytes from an address, relative to base `b0`. -/
def windowTouches (w : Word) (b0 da n : Nat) : Bool :=
  w.getLsbD 63 && decide (b0 + bits w 25 0 * friskUnit w < da + n) &&
    decide (da < b0 + (bits w 52 27 + 1) * friskUnit w)

/-- The rights of a core to a page that the walker records (R254): some window of its entry reaches into the page with them. No
window gives a core the instruction stores or a supervisor's memory (R61, R451). Whether a window covers the very bytes is the
target's own check (R256, R351; log entry 82). -/
def State.pageRight (s : State) (mid lo n : Nat) (r w : Bool) : Bool :=
  let t := friskTarget mid lo
  t != 5 && !s.entryLost t mid && (List.range 8).any fun k =>
    let x := sget 0 s.friskets (friskKey t mid k)
    windowTouches x (friskBase t) lo n && windowAllows x r w && !s.slotLost t mid x

/-- Configuration-space access rights: a supervisor reaches target 4 whatever its table holds (R438). At target 5 it reaches its
own local memory, and no master but a supervisor reaches one; the supervisor of a core's chase may read its sides, and only it may
write them (R451). A core's loads never reach a side (R61). -/
def State.friskConfig (s : State) (mid da n : Nat) (r w : Bool) : Bool :=
  let sup := decide (0x060 ≤ mid ∧ mid ≤ 0x06B)
  if da < 0x0F00_0800_0000 then sup || (s.frisk mid da n r w).isSome
  else if da < 0x0F00_0C00_0000 then
    let own := sup && mid - 0x060 == (da - 0x0F00_0800_0000) / 0x10_0000
    if w then own else own || (decide (96 ≤ mid) && (s.frisk mid da n r w).isSome)
  else
    let own := 0x0F00_0C00_0000 + 0x8_0000 * (mid - 0x060)
    sup && (decide (own ≤ da ∧ da + n ≤ own + 0x8_0000) || (s.frisk mid da n r w).isSome)

/-! ## Sealing -/

/-- The record of a tile. -/
def State.tileRec (s : State) (t : Nat) : TileRec := sget {} s.recs t

/-- Replace the record of a tile. -/
def State.setRec (s : State) (t : Nat) (r : TileRec) : State := { s with recs := sset {} s.recs t r }

/-- A key slot. -/
def State.keySlot (s : State) (k : Nat) : KeySlot := s.keys.toList.getD k {}

/-- The key that a slot uses for a tile's generation: g's, or g − 1's while it is held; any other generation uses g's
(R448). -/
def KeySlot.keyFor (k : KeySlot) (gen : BitVec 8) : Option Nat :=
  if gen = k.gen then k.key
  else if gen = k.gen - 1 ∧ k.prev.isSome then k.prev
  else k.key

/-- Bytes 0x10 to 0x1F of a record (R441). -/
def TileRec.meta16 (r : TileRec) : List Byte :=
  leBytes 4 r.version.toNat ++
  [r.keygen, (r.rest.extractLsb' 0 4) ++ r.ftag,
    (r.rest.extractLsb' 4 6) ++ ((if r.esc then 1#1 else 0#1) ++ (if r.poison then 1#1 else 0#1))] ++
  leBytes 2 r.eb.toNat ++ leBytes 7 (r.rest.extractLsb' 10 56).toNat

/-- The 96-bit IV of a tile (R442). -/
def TileRec.iv (r : TileRec) (t : Nat) : BitVec 96 :=
  BitVec.ofNat 48 (t * 4096) ++ (r.version ++ (r.keygen ++ 0#8))

/-- The stored bytes of a tile, as `mem` holds them. -/
def State.tileBytes (s : State) (t : Nat) : List Byte := sbytes s.mem (t * 4096) 4096

/-- The tag that a tile's stored ciphertext has under a key. -/
def State.rawTag (s : State) (t : Nat) (k : Nat) : BitVec 128 :=
  gcmTag (Config.freshKey k) ((s.tileRec t).iv t) (s.tileRec t).meta16 (s.tileBytes t)

/-- How a fill of a tile under a key slot goes: delivered in clear, poisoned without a check, or a tag mismatch (R443,
R448). A tile that no seal operation has written has no tag to match (R510). -/
inductive FillResult where
  | clear | poisoned | mismatch
  deriving DecidableEq, Repr

/-- An uncorrectable error stands in a DRAM row, or on the burst that is to read it. -/
def State.rowBad (s : State) (t : Nat) : Bool := s.soft.contains (SoftErr.dram t) || s.soft.contains (SoftErr.burst t)

/-- The check of a fill or a tile pass (R443). A row whose error no check has met yet delivers nothing as valid either (R474). -/
def State.fillCheck (s : State) (slot t : Nat) : FillResult :=
  let r := s.tileRec t
  if r.poison || s.rowBad t then .poisoned else
    match (s.keySlot slot).keyFor r.keygen with
    | none => .mismatch
    | some k => match r.sl with
      | .unsealed => .mismatch
      | .sealed k' => if k = k' ∧ r.sealPois = r.poison ∧ r.sealEsc = r.esc then .clear else .mismatch
      | .raw g => if s.rawTag t k = g then .clear else .mismatch

/-- The plaintext of a tile whose check passes. -/
def State.plain (s : State) (slot t : Nat) : List Byte :=
  let r := s.tileRec t
  match r.sl with
  | .raw _ => gcmCrypt (Config.freshKey (((s.keySlot slot).keyFor r.keygen).getD 0)) (r.iv t) (s.tileBytes t)
  | _ => s.tileBytes t

/-- Bring a tile stored as raw ciphertext back to the plaintext form, once its check has passed. -/
def State.unraw (s : State) (slot t : Nat) : State :=
  let r := s.tileRec t
  match r.sl with
  | .raw _ => { s with
      mem := sputBytes s.mem (t * 4096) (s.plain slot t)
      recs := sset {} s.recs t { r with
        sl := .sealed (((s.keySlot slot).keyFor r.keygen).getD 0), sealPois := r.poison, sealEsc := r.esc } }
  | _ => s

/-- Put a sealed tile into the form that a paging window reads: its ciphertext and its tag, which is the one that its sealing made,
whatever has happened to its flags since (R441, R444). -/
def State.toRaw (s : State) (t : Nat) : State :=
  let r := s.tileRec t
  match r.sl with
  | .sealed k =>
    let c := gcmCrypt (Config.freshKey k) (r.iv t) (s.tileBytes t)
    { s with
      mem := sputBytes s.mem (t * 4096) c
      recs := sset {} s.recs t { r with
        sl := .raw (gcmTag (Config.freshKey k) (r.iv t) { r with poison := r.sealPois, esc := r.sealEsc }.meta16 c) } }
  | .unsealed => s.setRec t { r with sl := .raw 0 }
  | .raw _ => s

/-- The record fields after a write of the whole tile (`whole`) or of part of it. -/
def TileRec.update (r : TileRec) (whole : Bool) : MetaUpd → TileRec
  | .keep => { r with esc := false }
  | .store tag eb =>
    { r with ftag := tag, esc := false, eb := match eb with | some e => maxBound r.eb e | none => r.eb }
  | .copy tag eb p e =>
    { r with
      ftag := tag
      eb := if whole then eb else maxBound r.eb eb
      poison := if whole then p else r.poison || p
      esc := if whole then e else false }
  | .fill tag => { r with ftag := tag, eb := 0, esc := false }
  | .mark => { r with esc := true }

/-- The outcome of a seal operation: performed, performed after a failed check, or refused because the tile's version is at
its limit (R443, R445). -/
inductive SealOut where
  | done | bad | exhausted
  deriving DecidableEq, Repr

/-- The lines of a tile that a cache holds with ownership: those of the host; the device's own caches write through (R445; log entry
84). -/
def State.ownedLines (s : State) (t : Nat) : Nat := (s.hostLines.filter fun l => l / 64 == t).length

/-- Under the slot's generation the tile's version has no room for one write more beside the write-backs that owned lines may need
(R445). -/
def State.exhausted (s : State) (slot t : Nat) : Bool :=
  let r := s.tileRec t
  decide (r.keygen = (s.keySlot slot).gen) && decide (2 ^ 32 - 1 ≤ r.version.toNat + s.ownedLines t)

/-- One seal operation: write bytes of one tile under a key slot (R443, R445). `bs` gives (linear address, byte) pairs within
the tile, `whole` says that they cover it. A slot that holds no key seals nothing that a fill could deliver, so the tile is
left poisoned. Only a write of the whole tile clears the marks of its lines (R477). A row that showed an error is written anew. -/
def State.sealWrite (s : State) (slot t : Nat) (whole : Bool) (bs : List (Nat × Byte)) (m : MetaUpd) : State × SealOut :=
  if s.exhausted slot t then (s, .exhausted) else
    let k := s.keySlot slot
    let chk : FillResult := if whole then .clear else s.fillCheck slot t
    let s1 := if whole then s else match chk with
      | .clear => s.unraw slot t
      | _ => { s with mem := sputBytes s.mem (t * 4096) (List.replicate 4096 0) }
    let r0 := s.tileRec t
    let ver : Word32 := if r0.keygen = k.gen then r0.version + 1 else 0
    let r1 := { r0 with
      sl := match k.key with | some i => .sealed i | none => .unsealed
      version := ver, keygen := k.gen
      poison := !whole && chk != FillResult.clear
      rest := 0 }
    let r2 := r1.update whole m
    let r3 := if k.key.isNone then { r2 with poison := true } else r2
    ({ s1 with
        mem := sputAll s1.mem bs, recs := sset {} s1.recs t { r3 with sealPois := r3.poison, sealEsc := r3.esc }
        badRows := s1.badRows.filter (· != t)
        poisLines := if whole then s1.poisLines.filter fun l => l / 64 != t else s1.poisLines },
      if chk = .mismatch then .bad else .done)

/-! ## What a galley pass may still read -/

/-- The channel that holds a tile. -/
def tileChan (t : Nat) : Nat := engineChan (linearEngine (t * 4096))

/-- Fences in a channel's queue. -/
def Chan.fences (q : Chan) : Nat := (q.queue.filter fun x => match x with | .fence .. => true | .work .. => false).length

/-- The fences in the queue of a tile's channel. -/
def State.fencesAt (s : State) (t : Nat) : Nat := (sget {} s.chans (tileChan t)).fences

/-- The channel of a tile is in self-refresh: ordinary accesses to it are held (R313). -/
def State.tileAsleep (s : State) (t : Nat) : Bool := (sget {} s.chans (tileChan t)).selfRefresh

/-- A read of a tile waits: its channel is in self-refresh, or holds a fence that has not been passed (R309, R313). A store of a core is
visible at once; what it means for the calls before a fence is in `State.passTile`. -/
def State.tileWaits (s : State) (t : Nat) : Bool := s.tileAsleep t || decide (0 < s.fencesAt t)

/-- What may still be outstanding of a tile. -/
def State.staleOf (s : State) (t : Nat) : Option Stale := s.stale.find? fun x => x.tile == t

/-- Nothing is outstanding of a tile any more: every write of it has reached the memory, or an engine or a new seal has replaced it. -/
def State.dropStale (s : State) (t : Nat) : State := { s with stale := s.stale.filter fun x => x.tile != t }

/-- Replace what is outstanding of a tile. -/
def State.setStale (s : State) (x : Stale) : State := { s with stale := s.stale.map fun y => if y.tile == x.tile then x else y }

/-- The cells of a tile. -/
def State.tileCells (s : State) (t : Nat) : List (Nat × Byte) := s.mem.filter fun x => x.1 / 4096 == t

/-- Note an ordinary write of a tile that the galley's passes may not see yet, with the tile as it stands before the first such
write (R28). -/
def State.keepOld (s : State) (t : Nat) (w : LateWrite) : State :=
  match s.staleOf t with
  | some x => s.setStale { x with writes := x.writes ++ [w] }
  | none => { s with stale := s.stale ++ [⟨t, s.tileRec t, s.tileCells t, [w]⟩] }

/-- The tag that a write gives its tile. -/
def MetaUpd.tag? : MetaUpd → Option (BitVec 4)
  | .keep | .mark => none
  | .store t _ | .copy t .. | .fill t => some t

/-- Two writes of a tile reach the memory in their order: they share a line (R263, R308), one is of the whole tile, a fill or a mark,
they go under different key slots, or they give the tile different tags. -/
def LateWrite.follows (x y : LateWrite) : Bool :=
  let resets (w : LateWrite) := w.whole || (w.m :: w.more).any fun m => match m with | .fill _ | .mark => true | _ => false
  let tags (w : LateWrite) := (w.m :: w.more).filterMap MetaUpd.tag?
  resets x || resets y || x.slot != y.slot || ((tags x).any fun a => (tags y).any (a != ·)) ||
    x.bs.any fun b => y.bs.any fun c => b.1 / 64 == c.1 / 64

/-- Split the outstanding writes of a tile into those that reach the memory now, being wanted or standing before one that they must
precede, and the others. -/
def landing (want : Nat × LateWrite → Bool) : List (Nat × LateWrite) → List LateWrite × List LateWrite
  | [] => ([], [])
  | x :: xs =>
    let r := landing want xs
    if want x || r.1.any x.2.follows then (x.2 :: r.1, r.2) else (r.1, x.2 :: r.2)

/-- The writes of a tile with their places. -/
def Stale.numbered (x : Stale) : List (Nat × LateWrite) := (List.range x.writes.length).zip x.writes

/-- The tile as the memory holds it. -/
def State.rewind (s : State) (x : Stale) : State :=
  { s with mem := sputBytes s.mem (x.tile * 4096) (sbytes x.cells (x.tile * 4096) 4096), recs := sset {} s.recs x.tile x.record }

/-- What further writes that are merged into a seal operation do to the record that it seals (R443). -/
def TileRec.noted (r : TileRec) (ms : List MetaUpd) : TileRec :=
  let x := ms.foldl (fun r m => r.update false m) r
  { x with sealPois := x.poison, sealEsc := x.esc }

/-- One seal operation of an ordinary write, and of what is merged into it (R443). -/
def State.sealLate (s : State) (t : Nat) (w : LateWrite) : State × SealOut :=
  let (s1, o) := s.sealWrite w.slot t w.whole w.bs w.m
  (if w.more.isEmpty || o == .exhausted then s1 else s1.setRec t ((s1.tileRec t).noted w.more), o)

/-- Outstanding writes of a tile reach the memory, each as its own seal operation (R443). -/
def State.redo (s : State) (t : Nat) (ws : List LateWrite) : State := ws.foldl (fun s w => (s.sealLate t w).1) s

/-- What is outstanding of a tile once the memory holds it as a state says. -/
def Stale.over (x : Stale) (v : State) (ws : List LateWrite) : Stale := ⟨x.tile, v.tileRec x.tile, v.tileCells x.tile, ws⟩

/-- Some outstanding writes of a tile reach the memory: the state, and the state with the tile as the memory then holds it. -/
def State.land (s : State) (x : Stale) (now later : List LateWrite) : State × State :=
  match later with
  | [] => (s.dropStale x.tile, s.dropStale x.tile)
  | _ :: _ => let v := (s.rewind x).redo x.tile now; (s.setStale (x.over v later), v)

/-- A fence of a channel is passed: one fence less stands before the outstanding writes of its tiles, and those that a GE.OPEN sent
before it have reached the memory (R27, R309). -/
def State.fenceStale (s : State) (h : Nat) : State :=
  (s.stale.filter fun x => tileChan x.tile == h).foldl (fun s x =>
    let r := landing (fun w => w.2.sent == some 0) x.numbered
    (s.land x r.1 (r.2.map fun w => { w with behind := w.behind - 1, sent := w.sent.map (· - 1) })).1) s

/-- GE.OPEN has sent every earlier write of some tiles to their channels (R27). -/
def State.sendStale (s : State) (sel : Nat → Bool) : State :=
  { s with stale := s.stale.map fun x =>
      if sel x.tile then { x with writes := x.writes.map fun w => { w with sent := w.sent <|> some (s.fencesAt x.tile) } } else x }

end Sys2Proof.Machine
end

