-- ==== Sys2Proof/Machine/Ops.lean ====
section
/-! DEFINITION. The named operations over cores, partitions, records and rings, and taking a trap and returning from one as
one shared pair of operations (R454 to R472). -/

namespace Sys2Proof.Machine

/-! ## Parts of the state -/

/-- A core. -/
def State.core (s : State) (c : CoreId) : Core := s.cores.get c

/-- Replace a core. -/
def State.setCore (s : State) (c : CoreId) (k : Core) : State := { s with cores := s.cores.set c.val k c.isLt }

/-- Change a core. -/
def State.modCore (s : State) (c : CoreId) (f : Core → Core) : State := s.setCore c (f (s.core c))

/-- A partition. -/
def State.part (s : State) (q : PartId) : Part := s.parts.get q

/-- Replace a partition. -/
def State.setPart (s : State) (q : PartId) (x : Part) : State := { s with parts := s.parts.set q.val x q.isLt }

/-- Change a partition. -/
def State.modPart (s : State) (q : PartId) (f : Part → Part) : State := s.setPart q (f (s.part q))

/-- A chase. -/
def State.chase (s : State) (h : ChaseId) : Chase := s.chases.get h

/-- Replace a chase. -/
def State.setChase (s : State) (h : ChaseId) (x : Chase) : State := { s with chases := s.chases.set h.val x h.isLt }

/-- A galley engine. -/
def State.engine (s : State) (e : Nat) : Engine := sget {} s.engines e

/-- Replace a galley engine. -/
def State.setEngine (s : State) (e : Nat) (x : Engine) : State := { s with engines := sset {} s.engines e x }

/-- A channel sequencer. -/
def State.chan (s : State) (h : Nat) : Chan := sget {} s.chans h

/-- Replace a channel sequencer. -/
def State.setChan (s : State) (h : Nat) (x : Chan) : State := { s with chans := sset {} s.chans h x }

/-- A function of the host port. -/
def State.func (s : State) (f : FuncId) : Func := sget {} s.funcs f.val

/-- Replace a function of the host port. -/
def State.setFunc (s : State) (f : FuncId) (x : Func) : State := { s with funcs := sset {} s.funcs f.val x }

/-- A copy context of a core. -/
def Core.ctx (k : Core) (i : CtxId) : CopyCtx := k.cx.get i

/-- Replace a copy context of a core. -/
def Core.setCtx (k : Core) (i : CtxId) (x : CopyCtx) : Core := { k with cx := k.cx.set i.val x i.isLt }

/-- The chase of a core (R14). -/
def chaseOf (c : CoreId) : ChaseId := ⟨c.val / 8, by have := c.isLt; omega⟩

/-- The partition that a core belongs to (R376, R435): that of the task it runs, which keeps a core that a resizing has removed
until it is free, else the one whose registers give it the core. -/
def State.partOf (s : State) (c : CoreId) : Option PartId :=
  (s.core c).home <|> (List.finRange 24).find? fun q => (s.part q).pcore.getLsbD c.val

/-- The partition's registers that a core sees; those of reset when it belongs to none. -/
def State.corePart (s : State) (c : CoreId) : Part :=
  match s.partOf c with
  | some q => s.part q
  | none => {}

/-- The next free value (log entry 11). -/
def State.takeFree (s : State) (w : Nat) : State × BitVec w :=
  ({ s with fresh := s.fresh + 1 }, Config.freeBits w s.fresh)

/-- The active side of a core. -/
def Core.activeSide (k : Core) : Side := if k.side then k.verso else k.recto

/-- Replace a side: 0 recto, 1 verso. -/
def Core.setSide (k : Core) (v : Bool) (x : Side) : Core := if v then { k with verso := x } else { k with recto := x }

/-- A side of a core. -/
def Core.sideAt (k : Core) (v : Bool) : Side := if v then k.verso else k.recto

/-- The word at a byte offset of a core's active side (R58, R66). -/
def Core.fetchWord (k : Core) (off : Nat) : Word32 := BitVec.ofNat 32 (ofLe (sbytes k.activeSide.bytes off 4))

/-- The 17-bit address of a bundle: side and offset (R466). A sequential fetch that has run off the end of its side stands at offset
0x10000, which the 16-bit field holds as 0 (R58, R90; DESIGN CHOICE, log entry 86). -/
def Core.addr (k : Core) : BitVec 17 := (if k.side then 1#1 else 0#1) ++ BitVec.ofNat 16 k.pc

/-! ## Open regions, and accesses that stall -/

/-- A linear address lies in a tile of a region (R311). -/
def State.regionHas (s : State) (reg : Nat × Nat) (a : Nat) : Bool :=
  match targetOf reg.1 with
  | .linear => decide (reg.1 ≤ a / 4096 * 4096) && decide (a < reg.1 + reg.2)
  | _ => (List.range (reg.2 / 64)).any fun i =>
      match s.linearOf (reg.1 + 64 * i) with | some x => x / 4096 == a / 4096 | none => false

/-- A core's galley context holds open a region with the tile of a linear address. -/
def State.ownRegion (s : State) (c : CoreId) (a : Nat) : Bool := (s.core c).gx.regions.any fun r => s.regionHas r a

/-- The regions that the saved image of a task keeps open (R472). -/
def Task.regions (t : Task) : List (Nat × Nat) := match t.image with | some i => i.core.gx.regions | none => []

/-- Some galley context, or a saved image, holds the tile of a linear address open (R29). -/
def State.anyRegion (s : State) (a : Nat) : Bool :=
  (List.finRange 96).any (fun c => s.ownRegion c a) || s.tasks.any fun t => t.2.regions.any fun r => s.regionHas r a

/-- The (address, length) pieces of a range, cut at 64-byte lines; `fuel` bounds their number. -/
def linePieces : Nat → Nat → Nat → List (Nat × Nat)
  | 0, _, _ => []
  | fuel + 1, a, n =>
    if n = 0 then [] else
      let m := min n (64 - a % 64)
      (a, m) :: linePieces fuel (a + m) (n - m)

/-- Some line of a range of device addresses lies in an open region, or in a channel in self-refresh or behind a fence (R29, R309,
R313). -/
def State.rangeStalls (s : State) (da n : Nat) : Bool :=
  (linePieces (n / 64 + 2) da n).any fun x => match s.linearOf x.1 with
    | some a => s.anyRegion a || s.tileWaits (a / 4096)
    | none => false

/-! ## Records and rings -/

/-- The 64 bytes of a record (R466). -/
def TrapRec.bytes (r : TrapRec) : List Byte :=
  leBytes 4 (r.cause.toNat + r.detail.toNat * 2 ^ 8 + r.slot.toNat * 2 ^ 16 + (if r.region then 2 ^ 20 else 0) +
    (if r.held then 2 ^ 21 else 0)) ++
  leBytes 4 r.seq.toNat ++ leBytes 4 (r.mid.toNat + r.part.toNat * 2 ^ 9) ++ leBytes 4 r.taskid.toNat ++
  leBytes 8 r.pc.toNat ++ leBytes 8 r.tick.toNat ++ leBytes 8 r.addr.toNat ++ leBytes 8 r.aux.toNat ++
  leBytes 8 r.aux2.toNat ++ leBytes 4 r.rpt.toNat ++ leBytes 4 0

/-- A ring. -/
def State.ring (s : State) : RingId → Ring
  | .chase c => s.rings.get c
  | .device => s.devRing

/-- Replace a ring. -/
def State.setRing (s : State) (i : RingId) (r : Ring) : State :=
  match i with
  | .chase c => { s with rings := s.rings.set c.val r c.isLt }
  | .device => { s with devRing := r }

/-- The number of entries of a ring (R469). -/
def Ring.size (r : Ring) : Nat := 2 ^ (r.lsz.toNat + 4)

/-- The ring has room (R470); a record whose writing waits has its place. -/
def Ring.room (r : Ring) : Bool := decide ((r.wix - r.rix).toNat + r.stuck.length < r.size)

/-- The machine external interrupt of a chase's supervisor is raised: its ring holds records that it has not consumed (R469). What the
supervisor does then is its program's (log entry 13). -/
def State.supInterrupt (s : State) (h : ChaseId) : Bool := (s.ring (.chase h)).wix != (s.ring (.chase h)).rix

/-- An ordinary seal operation on part of a tile, or on all of it: what it replaces stays readable to galley passes (R28, R443). -/
def State.sealPart (s : State) (slot t : Nat) (bs : List (Nat × Byte)) (m : MetaUpd) (whole : Bool := false)
    (more : List MetaUpd := []) : State × SealOut :=
  if s.exhausted slot t then (s, .exhausted)
  else
    let w : LateWrite := { slot := slot, whole := whole, bs := bs, m := m, more := more, behind := s.fencesAt t }
    (s.keepOld t w).sealLate t w

/-- The device address of a line that the host holds: that under which the home agent has granted it (R245). -/
def State.heldAt (s : State) (l : Nat) : Nat := let x := sget 0 s.hostVia l; 64 * (if x = 0 then l else x)

/-- The host holds a line no more. -/
def State.dropHost (s : State) (l : Nat) : State :=
  { s with hostLines := s.hostLines.filter (· != l), hostVia := sset 0 s.hostVia l 0 }

/-- The host gives up a line before the device's own units read or write it (R248): its copy is clean, or dirty with data that the
host has chosen, which is written back first. A host that may not write the line holds it clean (log entry 84). A write-back finds a
version: the line was granted only with one left for it (R445). -/
def State.recallLine (s : State) (l : Nat) : State :=
  if !s.hostLines.contains l then s
  else
    let (s0, x) := s.takeFree 513
    let s1 := s0.dropHost l
    match s1.frisk 0x080 (s.heldAt l) 64 true true with
    | some w =>
      if x.getLsbD 512 && s1.fillCheck (windowSlot w) (l / 64) == FillResult.clear then
        (s1.sealPart (windowSlot w) (l / 64) (addrBytes (64 * l) (leBytes 64 (x.toNat % 2 ^ 512))) .keep).1
      else s1
    | none => s1

/-- The home agent grants the host a line under a device address: only while the tile has a version for its write-back too (R245,
R445). -/
def State.grantLine (s : State) (l da : Nat) : State :=
  match s.frisk 0x080 da 64 true false with
  | some w =>
    if s.exhausted (windowSlot w) (l / 64) then s
    else { s with
      hostLines := (s.hostLines ++ [l]).eraseDups, hostVia := sset 0 s.hostVia l (if da / 64 = l then 0 else da / 64) }
  | none => s

/-- CLEAN or INVAL of a line that the host holds (R293): a dirty copy is written back, and the copy stays valid. -/
def State.cleanLine (s : State) (l : Nat) : State := if s.hostLines.contains l then (s.recallLine l).grantLine l (s.heldAt l) else s

/-- The host gives up the lines of a range of device addresses. -/
def State.recallRange (s : State) (da n : Nat) : State :=
  if s.hostLines.isEmpty || n == 0 then s
  else ((List.range ((da + n - 1) / 64 - da / 64 + 1)).filterMap fun i =>
    (s.linearOf (da / 64 * 64 + 64 * i)).map (· / 64)).foldl State.recallLine s

/-- The event unit writes a record of 64 bytes at a device address (R436, R470): the cause and the detail of the event that its refusal,
a failed check or a tile without a version makes, if one does (R439, R443, R445). -/
def State.ringWrite (s : State) (da : Nat) (bs : List Byte) : State × Option (BitVec 8 × BitVec 8) :=
  let s0 := s.recallRange da bs.length
  match s0.frisk 0x0F1 da bs.length true true, s0.linearOf da with
  | some w, some a =>
    let (s1, o) := s0.sealPart (windowSlot w) (a / 4096) (addrBytes a bs) .keep
    (s1, match o with | .done => none | .bad => some (0x21, 0) | .exhausted => some (0x21, 1))
  | _, _ => (s0, some (0x20, 0))

/-- The device address of a ring's next record (R470). -/
def Ring.place (r : Ring) : Nat := r.base + 64 * (r.wix.toNat % r.size)

/-- Write a record at its place in a ring: the 64 bytes, then wix (R470). -/
def State.ringPut (s : State) (i : RingId) (t : TrapRec) : State × Option (BitVec 8 × BitVec 8) :=
  let r := s.ring i
  let (s1, o) := s.ringWrite r.place t.bytes
  (s1.setRing i { s1.ring i with wix := r.wix + 1 }, o)

/-- Enter a record into a ring that has room. One whose writing stalls has its place and waits, and those after it with it (R29,
R309, R313). -/
def State.ringEnter (s : State) (i : RingId) (t : TrapRec) : State × Option (BitVec 8 × BitVec 8) :=
  let r := s.ring i
  if r.stuck.isEmpty && !s.rangeStalls r.place 64 then s.ringPut i t else (s.setRing i { r with stuck := r.stuck ++ [t] }, none)

/-- The writing of a ring's next record would raise an event of the event unit itself (R439, R443, R445). -/
def State.ringShut (s : State) (i : RingId) : Bool := (s.ringWrite (s.ring i).place (List.replicate 64 0)).2.isSome

/-- Two records of one source and cause (R470). -/
def TrapRec.sameSource (x y : TrapRec) : Bool := x.mid == y.mid && x.cause == y.cause

/-- Add one to the coalesced record of a source and cause. -/
def bumpCoalesced (t : TrapRec) : List TrapRec → List TrapRec
  | [] => []
  | x :: xs => if x.sameSource t && x.rpt != 0 then { x with rpt := x.rpt + 1 } :: xs else x :: bumpCoalesced t xs

/-- Keep a refused record pending: the first of its source and cause as it is, later ones coalesced (R470). -/
def Ring.refuse (r : Ring) (t : TrapRec) : Ring :=
  { r with
    ovf := true
    pend :=
      if r.pend.any (fun x => x.sameSource t && x.rpt != 0) then bumpCoalesced t r.pend
      else if r.pend.any (·.sameSource t) then r.pend ++ [{ t with rpt := 1 }]
      else r.pend ++ [t] }

/-- Deliver a record to a ring, apart from the event that a refusal of its write makes (R470). -/
def State.postQuiet (s : State) (i : RingId) (t : TrapRec) : State :=
  let r := s.ring i
  if r.pend.isEmpty && r.room then (s.ringEnter i t).1 else s.setRing i (r.refuse t)

/-- Deliver an event that belongs to no partition and arose in no chase, by `put` (R449, R450). -/
def State.deviceEvent (put : State → RingId → TrapRec → State) (s : State) (field : Nat) (t : TrapRec) : State :=
  let s1 : State := { s with evseq := s.evseq + 1 }
  let t1 := { t with seq := s.evseq + 1 }
  match s.devown.extractLsb' (2 * field) 2 with
  | 0#2 => put s1 (.chase 0) t1
  | 1#2 => put { s1 with msix := s1.msix + 1 } .device t1
  | _ => { (put s1 (.chase 0) t1) with unacked := s1.unacked ++ [(0, t1)] }

/-- What the event unit reports of its own write of a record at a place: a permission event for a refusal, whose record is dropped
(R439), or a sealing event, which names the tile (R443, R445). A failure of that event's own record raises no further one (log entry
87). -/
def State.tellRing (s : State) (da : Nat) : Option (BitVec 8 × BitVec 8) → State
  | none => s
  | some (cause, detail) =>
    let addr := if cause = 0x20 then da else (s.linearOf da).getD da / 4096 * 4096
    s.deviceEvent State.postQuiet (if cause = 0x20 then 0 else 1)
      { cause := cause, detail := detail, mid := 0x0F1, addr := BitVec.ofNat 64 addr }

/-- Enter a record into a ring that has room, and report what the event unit meets (R439, R443, R445, R470). -/
def State.ringTold (s : State) (i : RingId) (t : TrapRec) : State :=
  let (s1, o) := s.ringEnter i t
  s1.tellRing (s.ring i).place o

/-- Deliver a record to a ring (R470). -/
def State.post (s : State) (i : RingId) (t : TrapRec) : State :=
  let r := s.ring i
  if r.pend.isEmpty && r.room then s.ringTold i t else s.setRing i (r.refuse t)

/-- Enter the pending records of a ring as far as room allows; `n` bounds their number (R470). -/
def State.ringDrain (s : State) (i : RingId) : Nat → State
  | 0 => s
  | n + 1 =>
    let r := s.ring i
    match r.pend with
    | [] => s
    | t :: ts => if r.room then ((s.setRing i { r with pend := ts }).ringTold i t).ringDrain i n else s

/-- Write the records of a ring that waited with their places, as far as none stalls any more; `n` bounds their number. -/
def State.ringFlush (s : State) (i : RingId) : Nat → State
  | 0 => s
  | n + 1 =>
    let r := s.ring i
    match r.stuck with
    | [] => s
    | t :: ts =>
      if s.rangeStalls r.place 64 then s
      else
        let (s1, o) := (s.setRing i { r with stuck := ts }).ringPut i t
        (s1.tellRing r.place o).ringFlush i n

/-- A record with the next event sequence number (R450). -/
def State.number (s : State) (t : TrapRec) : State × TrapRec :=
  ({ s with evseq := s.evseq + 1 }, { t with seq := s.evseq + 1 })

/-- The event classes of R449, in the order of their fields. -/
inductive EvClass where
  | perm | seal | hcoh | galley | stor | hport | pwr | cfg | mem
  deriving DecidableEq, Repr

/-- The number of a class's field. -/
def EvClass.idx : EvClass → Nat
  | .perm => 0 | .seal => 1 | .hcoh => 2 | .galley => 3 | .stor => 4 | .hport => 5 | .pwr => 6 | .cfg => 7 | .mem => 8

/-- The partition that an event naming a master ID belongs to (R449). -/
def State.eventPart (s : State) (mid : Nat) : Option PartId :=
  if h : mid < 96 then s.partOf ⟨mid, h⟩
  else if h : 0x081 ≤ mid ∧ mid ≤ 0x0E0 then (s.func ⟨mid - 0x080, by omega⟩).part
  else none

/-- The chase where an event that names a master arose; chase 0 when none (R449). -/
def eventChase (mid : Nat) : ChaseId :=
  if h : mid < 96 then chaseOf ⟨mid, h⟩
  else if h : 0x060 ≤ mid ∧ mid ≤ 0x06B then ⟨mid - 0x060, by omega⟩
  else if h : 0x06C ≤ mid ∧ mid ≤ 0x077 then ⟨mid - 0x06C, by omega⟩
  else if h : 0x0E4 ≤ mid ∧ mid ≤ 0x0EF then ⟨mid - 0x0E4, by omega⟩
  else 0

/-- Deliver an event that arose in a chase to its owner: the supervisor's chase ring, the device-wide ring, or the supervisor
first with a deadline (R449, R450, R469). -/
def State.eventAt (s : State) (h : ChaseId) (cl : EvClass) (t : TrapRec) : State :=
  let q := s.eventPart t.mid.toNat
  let own := match q with
    | some q => (s.part q).pevown
    | none => s.devown
  let t1 := { t with part := match q with | some q => BitVec.ofNat 5 q.val | none => 31 }
  let (s1, t2) := s.number t1
  match own.extractLsb' (2 * cl.idx) 2 with
  | 0#2 => s1.post (.chase h) t2
  | 1#2 => ({ s1 with msix := s1.msix + 1 } : State).post .device t2
  | _ => ({ s1 with unacked := s1.unacked ++ [(h, t2)] } : State).post (.chase h) t2

/-- Deliver an event that names a master ID. -/
def State.event (s : State) (cl : EvClass) (t : TrapRec) : State := s.eventAt (eventChase t.mid.toNat) cl t

/-- A permission event: a refusal at a target (R439). -/
def State.permEvent (s : State) (mid da : Nat) : State :=
  s.event .perm { cause := 0x20, mid := BitVec.ofNat 9 mid, addr := BitVec.ofNat 64 da }

/-- A sealing event: detail 0 a tag failure, 1 version exhausted (R457). -/
def State.sealEvent (s : State) (mid da : Nat) (detail : BitVec 8) : State :=
  s.event .seal { cause := 0x21, detail := detail, mid := BitVec.ofNat 9 mid, addr := BitVec.ofNat 64 da }

/-- A configuration error (R457): its record names the writer, and no address (R466). -/
def State.cfgError (s : State) (mid : Nat) : State := s.event .cfg { cause := 0x26, mid := BitVec.ofNat 9 mid }

/-- A memory error or a retirement: aux[15:0] names the unit (R475); no master. -/
def State.memEvent (s : State) (detail : BitVec 8) (addr unit : Nat) : State :=
  s.event .mem { cause := 0x27, detail := detail, mid := 0x0FF, addr := BitVec.ofNat 64 addr, aux := BitVec.ofNat 64 unit }

/-- A memory error or a retirement of a galley engine, which names the engine's own ID (R436, R449, R475). -/
def State.engEvent (s : State) (detail : BitVec 8) (e : Nat) : State :=
  s.event .mem
    { cause := 0x27, detail := detail, mid := BitVec.ofNat 9 (0x100 + engineChan e), aux := BitVec.ofNat 64 e }

/-- A memory error or a retirement of a core (R475). -/
def State.coreEvent (s : State) (detail : BitVec 8) (addr : Nat) (c : CoreId) : State :=
  s.eventAt (chaseOf c) .mem
    { cause := 0x27, detail := detail, mid := 0x0FF, addr := BitVec.ofNat 64 addr, aux := BitVec.ofNat 64 c.val }

/-! ## Taking a trap and returning from it -/

/-- The record of a trap of the task on a core, taken at its pc (R466). -/
def State.trapRec (s : State) (c : CoreId) (cause detail : BitVec 8) (slot : Nat) (region : Bool) (addr : Nat)
    (aux aux2 : Word) : TrapRec :=
  let k := s.core c
  { cause := cause, detail := detail, slot := BitVec.ofNat 4 slot, region := region
    mid := BitVec.ofNat 9 c.val
    part := match s.partOf c with | some q => BitVec.ofNat 5 q.val | none => 31
    taskid := k.taskid, pc := k.addr, tick := k.tick
    addr := BitVec.ofNat 64 addr, aux := aux, aux2 := aux2 }

/-- Every load in flight has its data (R458). -/
def Core.dataHere (k : Core) : Bool := k.infl.all (·.late == .no)

/-- The partition whose task has a core has lost the core (R376). -/
def State.coreGone (s : State) (c : CoreId) : Bool :=
  match (s.core c).home with
  | some q => !(s.part q).pcore.getLsbD c.val
  | none => false

/-- Taking a trap (R458, R465, R467), once every load in flight has its data: the record goes to the chase's ring and the core is
held with its image. `s` is the state whose core is the image (for a nullifying trap, the state before the bundle); `t` is the
record; `reissue` says that the bundle at pc was nullified. A watchdog trap and a stalled wait satisfy a pending pre-emption
request (R374, R375), but for that of a core which the partition has lost (R376). -/
def State.takeTrap (s : State) (c : CoreId) (t : TrapRec) (reissue : Bool) : State :=
  let (s1, t1) := s.number { t with held := true }
  let s2 := s1.post (.chase (chaseOf c)) t1
  s2.modCore c fun k => { k with
    st := .held
    held := some ⟨t1.seq, t.cause, reissue⟩
    trap := none
    trseq := t1.seq
    trcause := t.cause
    cancelled := false
    wait := none
    req := none
    ans := none
    preq := k.preq && ((t.cause != 0x0A && t.cause != 0x0F) || s.coreGone c) }

/-- An informational record: the core is not held (R465). -/
def State.inform (s : State) (h : ChaseId) (t : TrapRec) : State :=
  let (s1, t1) := s.number t
  s1.post (.chase h) t1

/-- The effective operating point: the lower of the selected point and the cap (R423). -/
def effPoint (sel cap : BitVec 3) : BitVec 3 := if cap.ult sel then cap else sel

/-- The nominal voltage of an operating point in mV (R420). -/
def nominalMv (op : BitVec 3) : Nat := [450, 480, 510, 530, 555, 575, 600, 660].getD op.toNat 0

/-- A core goes to an effective point: at a new one the voltage starts from its nominal one, and the slack is to be measured afresh
(R421, R428). -/
def Core.setEff (k : Core) (e : BitVec 3) : Core :=
  if e = k.eff then k else { k with eff := e, vtrim := BitVec.ofNat 10 (nominalMv e), stretch := false }

/-- Return from a trap: resume of the held image on the same core (R467, R472, R424). After a watchdog trap the count starts
again; a device that enters sleep requests the task's pre-emption (R430). -/
def State.resumeTrap (s : State) (c : CoreId) : State :=
  let cap := (s.corePart c).opcap
  s.modCore c fun k => { k.setEff (effPoint k.opc cap) with
    st := .running
    held := none
    wdog := if k.trcause = 0x0A then 0 else k.wdog
    preq := k.preq || s.slp == .entering
    settling := false }

end Sys2Proof.Machine
end

