-- ==== Sys2Proof/Machine/Access.lean ====
section
/-! DEFINITION. Translation (R236, R250 to R257), the checks of an access before it reaches its target (R257, R282), and
reads and writes of memory at their target, with the events they raise (R439, R443). -/

namespace Sys2Proof.Machine

/-- A fault of an access: rank, cause, detail and aux (R455). -/
structure AccFault where
  rank : Nat
  cause : BitVec 8
  detail : BitVec 8
  aux : Word := 0
  deriving DecidableEq, Repr

/-- A translation fault (R257). -/
def xlatFault (detail : BitVec 8) (level : Nat := 0) : AccFault := ⟨5, 0x04, detail, BitVec.ofNat 64 level⟩

/-- A permission fault (R257). -/
def permFault (detail : BitVec 8) : AccFault := ⟨6, 0x05, detail, 0⟩

/-- An alignment fault. -/
def alignFault : AccFault := ⟨7, 0x06, 0, 0⟩

/-- A format trap (R455). -/
def formatFault (detail : BitVec 8) : AccFault := ⟨8, 0x07, detail, 0⟩

/-- An illegal-schedule fault (R456). -/
def schedFault (detail : BitVec 8) : AccFault := ⟨4, 0x03, detail, 0⟩

/-- A deferred data trap naming the poisoned destination and the bundle that loaded it, whose address is the low 17 bits of the
origin (R54, R466). -/
def deferFault (detail : BitVec 8) (kind dst org : Nat) : AccFault :=
  ⟨3, 0x08, detail, BitVec.ofNat 64 (dst + kind * 2 ^ 8 + org % 2 ^ 17 * 2 ^ 32)⟩

/-! ## Reads and writes at the target -/

/-- Set a tile's poison flag (R443, R474): every earlier write of the tile has reached the memory by then. -/
def State.poisonTile (s : State) (t : Nat) : State := (s.dropStale t).setRec t { s.tileRec t with poison := true }

/-- A fill whose tag does not match: the tile is poisoned and a sealing event is raised (R443). -/
def State.tagFailed (s : State) (mid t : Nat) : State := (s.poisonTile t).sealEvent mid (t * 4096) 0

/-- Count a corrected error of a unit: more than 16 raise its event, once (R475). -/
def State.countCorrected (s : State) (unit : Nat) (tell : State → State) : State :=
  let n := sget 0 s.corr unit + 1
  let s1 := { s with corr := sset 0 s.corr unit n }
  if n = 17 then tell s1 else s1

/-- A DRAM row has shown an error that its repair counts (R479). -/
def State.rowShown (s : State) (t : Nat) : State := { s with rowErrs := sset 0 s.rowErrs t (sget 0 s.rowErrs t + 1) }

/-- What an access of a DRAM row meets of an error that stands in it or on its burst: an uncorrectable one sets the tile's poison
flag and raises one event, a correctable one is corrected and counted (R473 to R475). -/
def State.rowRead (s : State) (t : Nat) : State :=
  let met (x : SoftErr) : State := { s with soft := s.soft.filter (· != x) }
  let h := tileChan t
  if s.soft.contains (SoftErr.dram t) then
    ({ ((met (.dram t)).poisonTile t).rowShown t with badRows := (t :: s.badRows).eraseDups } : State).memEvent 0x01 (t * 4096) h
  else if s.soft.contains (SoftErr.burst t) then ((met (.burst t)).poisonTile t).memEvent 0x02 (t * 4096) h
  else if s.soft.contains (SoftErr.weak t) then
    (met (.weak t)).countCorrected h fun s => (s.rowShown t).memEvent 0x03 (t * 4096) h
  else s

/-- What a write of a DRAM row meets of a link error on its burst: the tile's poison flag is set, with one event (R474, R475). -/
def State.rowWritten (s : State) (t : Nat) : State :=
  if s.soft.contains (SoftErr.wburst t) then
    ((({ s with soft := s.soft.filter (· != SoftErr.wburst t) } : State).poisonTile t).memEvent 0x02 (t * 4096) (tileChan t))
  else s

/-- A fill of bytes of one tile, by a master at a device address, under the key slot of the window that has admitted its access (R443):
none is poisoned data. An address that has no target any more gives poisoned data, and no event (R237; log entry 97). -/
def State.fillAs (s : State) (mid slot da n : Nat) : State × Option (List Byte) :=
  match s.linearOf da with
  | none => (s, none)
  | some a =>
    let t := a / 4096
    let s1 := s.rowRead t
    match s1.fillCheck slot t with
    | .poisoned => (s1, none)
    | .mismatch => ((s1.tagFailed mid t), none)
    | .clear => (s1, if s1.poisLines.contains (a / 64) then none else some (((s1.plain slot t).drop (a % 4096)).take n))

/-- A fill of bytes of one line by a master at a device address: a refusal is reported (R439, R443). -/
def State.fill (s : State) (mid da n : Nat) : State × Option (List Byte) :=
  match s.linearOf da, s.frisk mid da n true false with
  | none, _ => (s, none)
  | some _, none => (s.permEvent mid da, none)
  | some _, some w => s.fillAs mid (windowSlot w) da n

/-- Read bytes from processing memory as a master under a key slot, line by line (R443); none if any line is poisoned. -/
def State.readPieces (s : State) (mid slot : Nat) : List (Nat × Nat) → State × Option (List Byte)
  | [] => (s, some [])
  | (a, n) :: t =>
    let (s1, x) := s.fillAs mid slot a n
    let (s2, y) := s1.readPieces mid slot t
    (s2, match x, y with | some x, some y => some (x ++ y) | _, _ => none)

/-- Read `n` bytes from processing memory at a device address, as a master: one window must cover them all (R439). -/
def State.readMem (s : State) (mid da n : Nat) : State × Option (List Byte) :=
  match s.frisk mid da n true false with
  | none => if (s.linearOf da).isSome then (s.permEvent mid da, none) else (s, none)
  | some w => s.readPieces mid (windowSlot w) (linePieces (n / 64 + 2) da n)

/-- Put a byte in front of the runs that it continues. -/
def consRun (x : Nat × Byte) : List (Nat × List Byte) → List (Nat × List Byte)
  | (a, bs) :: rest => if x.1 + 1 = a ∧ a % 4096 ≠ 0 then (x.1, x.2 :: bs) :: rest else (x.1, [x.2]) :: (a, bs) :: rest
  | [] => [(x.1, [x.2])]

/-- The runs of consecutive device addresses within one page that (device address, byte) pairs make. -/
def runsOf (bs : List (Nat × Byte)) : List (Nat × List Byte) := bs.foldr consRun []

/-- The check of a partial write's runs at the memory target: one window must cover every byte of a run and carry both rights. The
key slot, tile, linear address and byte of what is admitted; a refused run is dropped with its event (R439). -/
def State.admitted (s : State) (mid : Nat) : List (Nat × List Byte) → State × List (Nat × Nat × Nat × Byte)
  | [] => (s, [])
  | (da, bs) :: rest =>
    match s.frisk mid da bs.length true true with
    | none => (s.permEvent mid da).admitted mid rest
    | some w =>
      let mine := (addrBytes da bs).filterMap fun x => (s.linearOf x.1).map fun a => (windowSlot w, a / 4096, a, x.2)
      let (s1, more) := s.admitted mid rest
      (s1, mine ++ more)

/-- One seal operation per tile and key slot of a write that is not of whole tiles (R443, R445). The part in a tile whose version is
exhausted is dropped with its event. -/
def State.sealParts (s : State) (mid : Nat) (xs : List (Nat × Nat × Nat × Byte)) (m : MetaUpd) : List (Nat × Nat) → State
  | [] => s
  | (slot, t) :: rest =>
    let lin := (xs.filter fun x => x.1 == slot && x.2.1 == t).map fun x => x.2.2
    let (s1, o) := (s.rowRead t).sealPart slot t lin m
    (match o with
      | .done => s1.rowWritten t
      | .bad => (s1.sealEvent mid (t * 4096) 0).rowWritten t
      | .exhausted => s1.sealEvent mid (t * 4096) 1).sealParts mid xs m rest

/-- Write (device address, byte) pairs to processing memory as a master: a partial write of each tile they touch (R439, R443). -/
def State.writeMem (s : State) (mid : Nat) (bs : List (Nat × Byte)) (m : MetaUpd) : State :=
  let (s1, xs) := s.admitted mid (runsOf bs)
  s1.sealParts mid xs m (xs.map fun x => (x.1, x.2.1)).eraseDups

/-! ## Page tables -/

/-- The stripe descriptors of the striping windows that a page lies in, as they stand (R254). -/
def State.pageStripes (s : State) (da n : Nat) : List (Nat × Stripe) :=
  let first := (da - 0x0100_0000_0000) / 2 ^ 32
  s.stripes.filter fun x => targetOf da == .window && decide (first ≤ x.1) && decide (x.1 ≤ first + n / 2 ^ 32)

/-- The page size of a size code (R252). -/
def pageSize (code : Nat) : Nat :=
  if code ≤ 8 then 2 ^ (12 + code) else if code ≤ 12 then 2 ^ (22 + 2 * (code - 9)) else 2 ^ (30 + 2 * (code - 13))

/-- The level to which a size code belongs (R252). -/
def pageLevel (code : Nat) : Nat := if code ≤ 8 then 3 else if code ≤ 12 then 2 else 1

/-- What stands for a walk that meets a line of an open region, of a channel in self-refresh or behind a fence: its read stalls (R29,
R309, R313). It outranks nothing and is
never reported. -/
def walkStall : AccFault := ⟨10, 0, 0, 0⟩

/-- The fault stands for a stall. -/
def AccFault.stalls (f : AccFault) : Bool := f.rank == 10

/-- Walk from a table at a level; `n` = 4 − level (R250, R251, R253). A line that the host holds is recalled first (R248, R276). -/
def State.walk (s : State) (mid va : Nat) (ta : Nat) (part : Nat) : Nat → State × Except AccFault TlbEnt
  | 0 => (s, .error (xlatFault 2))
  | n + 1 =>
    let level := 3 - n
    let pa := ta + 8 * (va / 2 ^ (12 + 9 * n) % 512)
    if targetOf ta ≠ .linear ∨ s.memTop ≤ ta then (s, .error (xlatFault 2))
    else if s.anyRegion pa || s.tileWaits (pa / 4096) then (s, .error walkStall)
    else
      let (s1, d) := (s.recallRange pa 8).readMem mid pa 8
      match d with
      | none => (s1, .error (xlatFault 3))
      | some bs =>
        let e : Word := BitVec.ofNat 64 (ofLe bs)
        if !e.getLsbD 0 then (s1, .error (xlatFault 1 level))
        else if bits e 63 60 ≠ 0 ∨ bits e 55 48 ≠ 0 ∨ bits e 11 6 ≠ 0 ∨ bits e 5 4 = 3 then (s1, .error (xlatFault 2))
        else
          let addr := bits e 47 12 * 4096
          let code := bits e 59 56
          if e.getLsbD 1 then
            let sz := pageSize code
            if level = 0 ∨ pageLevel code ≠ level ∨ addr % sz ≠ 0 then (s1, .error (xlatFault 2))
            else (s1, .ok
              { part := part, vbase := va / sz * sz, size := sz, dbase := addr, mtype := BitVec.ofNat 2 (bits e 5 4)
                r := e.getLsbD 2, w := e.getLsbD 3, stripes := s1.pageStripes addr sz })
          else if code ≠ 0 then (s1, .error (xlatFault 2))
          else s1.walk mid va addr part n

/-- The entry of a TLB that holds an address (R254). -/
def tlbHit (l : List TlbEnt) (part va : Nat) : Option TlbEnt :=
  l.find? fun e => e.part == part && decide (e.vbase ≤ va) && decide (va < e.vbase + e.size)

/-- The entry of a core's TLB that holds an address (R254). -/
def Core.tlbFind (k : Core) (part va : Nat) : Option TlbEnt := tlbHit k.tlb part va

/-- The number that stands for a core's partition in TLB entries; 24 for none. -/
def State.partNum (s : State) (c : CoreId) : Nat := match s.partOf c with | some q => q.val | none => 24

/-- Change a chase. -/
def State.modChase (s : State) (h : ChaseId) (f : Chase → Chase) : State := s.setChase h (f (s.chase h))

/-- A translation by a chase's second-level TLB, or by a walk, which fills it (R254). -/
def State.walkFor (s : State) (h : ChaseId) (root part va : Nat) : State × Except AccFault TlbEnt :=
  match tlbHit (s.chase h).tlb2 part va with
  | some e => (s, .ok e)
  | none =>
    let (s1, x) := s.walk (0x06C + h.val) va root part 4
    match x with
    | .error f => (s1, .error f)
    | .ok e => (s1.modChase h fun k => { k with tlb2 := (e :: k.tlb2).take 8192 }, .ok e)

/-- A TLB entry with the rights that a core's frisket entry gives to its page (R254). A store to memory writes part of a tile and so
needs both rights (R439). -/
def State.withRights (s : State) (c : CoreId) (e : TlbEnt) : TlbEnt :=
  { e with
    fr := s.pageRight c.val e.dbase e.size true false
    fw := s.pageRight c.val e.dbase e.size (friskTarget c.val e.dbase == 0) true
    fo := s.pageRight c.val e.dbase e.size false true }

/-- Translate an address of the translated range for a core, filling its TLB on a miss (R236, R250 to R257). -/
def State.translate (s : State) (c : CoreId) (va : Nat) : State × Except AccFault TlbEnt :=
  if 2 ^ 48 ≤ va then (s, .error (xlatFault 0)) else
    let part := s.partNum c
    match (s.core c).tlbFind part va with
    | some e => (s, .ok e)
    | none =>
      let (s1, x) := s.walkFor (chaseOf c) (bits (s.corePart c).ptroot 47 12 * 4096) part va
      match x with
      | .error f => (s1, .error f)
      | .ok e =>
        let e1 := s1.withRights c e
        (s1.modCore c fun k => { k with tlb := (e1 :: k.tlb).take 256 }, .ok e1)

/-! ## Checks of an access -/

/-- How an instruction uses memory types (R247, R282, R323). -/
inductive TypeUse where
  | scalar | vector | atomic | copy
  deriving DecidableEq, Repr

/-- The memory type of a page is one that the target allows (R237) and that the instruction accepts (R282). -/
def typeOk (u : TypeUse) (mt : BitVec 2) (t : Target) : Bool :=
  (match t with
    | .linear | .window => mt == 0 || mt == 1
    | .storage | .config => mt == 2
    | .host => mt == 1 || mt == 2
    | _ => false) &&
  (match u with
    | .scalar => true
    | .vector => mt != 2
    | .copy => mt != 2
    | .atomic => mt != 2 && t != .host)

/-- A translated piece of an access: virtual and device address, length, memory type. -/
structure Piece where
  va : Nat
  da : Nat
  n : Nat
  mtype : BitVec 2
  deriving DecidableEq, Repr

/-- A byte of a page has a target, by what the walker has recorded (R237, R254). -/
def State.pageTarget (s : State) (e : TlbEnt) (da : Nat) : Bool := { s with stripes := e.stripes }.hasTarget da

/-- The checks of one piece, in the order of R257, by what the TLB entry records. -/
def State.checkPiece (s : State) (c : CoreId) (u : TypeUse) (r w : Bool) (e : TlbEnt) (p : Piece) : Option AccFault :=
  if !s.pageTarget e p.da then some (permFault 3)
  else if !typeOk u p.mtype (targetOf p.da) then some (permFault 2)
  else if r && !(e.r && e.fr) then some (permFault 0)
  else if w && !(e.w && e.fw) then some (permFault 1)
  else match u, s.linearOf p.da with
    | .copy, _ => none
    | _, some a => if s.ownRegion c a then some (permFault 6) else none
    | _, none => none

/-- Translate and check the pieces of an access, first fault first, with the address of the faulting byte. -/
def State.checkPieces (s : State) (c : CoreId) (u : TypeUse) (r w : Bool) :
    List (Nat × Nat) → State × Except (AccFault × Nat) (List Piece)
  | [] => (s, .ok [])
  | (va, n) :: t =>
    let (s1, x) := s.translate c va
    match x with
    | .error f => (s1, .error (f, va))
    | .ok e =>
      let p : Piece := ⟨va, e.dbase + (va - e.vbase), n, e.mtype⟩
      match s1.checkPiece c u r w e p with
      | some f => (s1, .error (f, va))
      | none =>
        let (s2, y) := s1.checkPieces c u r w t
        match y with
        | .error f => (s2, .error f)
        | .ok ps => (s2, .ok (p :: ps))

/-- The first 2^20 virtual addresses are the core's own scratchpad (R236). -/
def inSpad (va : Nat) : Bool := decide (va < Config.spadBytes)

/-- Every byte of an access lies in one space of R236. -/
def oneSpace (va n : Nat) : Bool := !inSpad va || decide (va + n ≤ Config.spadBytes)

/-! ## The scratchpad -/

/-- The metadata word of the line that holds a scratchpad offset: tag in [19:16], bound in [15:0] (R283). -/
def Core.lineMeta (k : Core) (off : Nat) : BitVec 20 := sget 0 k.smeta (off / 128)

/-- The tag of a metadata word. -/
def metaTag (m : BitVec 20) : BitVec 4 := m.extractLsb' 16 4

/-- The bound of a metadata word. -/
def metaEb (m : BitVec 20) : BitVec 16 := m.extractLsb' 0 16

/-- A metadata word. -/
def mkMeta (t : BitVec 4) (e : BitVec 16) : BitVec 20 := t ++ e

/-- Replace a line's metadata word. -/
def Core.setLine (k : Core) (line : Nat) (m : BitVec 20) : Core := { k with smeta := sset 0 k.smeta line m }

/-- The lines that a scratchpad range touches. -/
def linesOf (off n : Nat) : List Nat :=
  if n = 0 then [] else (List.range ((off + n - 1) / 128 - off / 128 + 1)).map (· + off / 128)

/-- The tag Poison (R34). -/
def tagPoison : BitVec 4 := 14

/-- A line of the range is tagged Poison. -/
def Core.spadPoison (k : Core) (off n : Nat) : Bool :=
  (linesOf off n).any fun l => metaTag (sget 0 k.smeta l) == tagPoison

/-- Bytes of the scratchpad. -/
def Core.spadRead (k : Core) (off n : Nat) : List Byte := sbytes k.spad off n

/-- Write scratchpad bytes and leave every line's metadata as it is. -/
def Core.spadPut (k : Core) (off : Nat) (bs : List Byte) : Core := { k with spad := sputBytes k.spad off bs }

/-- The metadata of a line after a write of all of it or of part of it (R139, R288, R324, R477). A scalar write of a line
tagged Poison leaves the tag. -/
def lineUpdate (m : BitVec 20) (whole : Bool) : MetaUpd → BitVec 20
  | .keep => m
  | .store t e =>
    mkMeta (if !whole && metaTag m = tagPoison then tagPoison else t)
      (match e with | some e => if whole then e else maxBound (metaEb m) e | none => metaEb m)
  | .copy t e p _ =>
    mkMeta (if p then tagPoison else if !whole && metaTag m = tagPoison then tagPoison else t)
      (if whole then e else maxBound (metaEb m) e)
  | .fill t => mkMeta (if !whole && metaTag m = tagPoison then tagPoison else t) 0
  | .mark => m

/-- Update the metadata of the lines of a range. -/
def Core.spadMeta (k : Core) (off n : Nat) (m : MetaUpd) : List Nat → Core
  | [] => k
  | l :: ls =>
    let whole := decide (off ≤ 128 * l) && decide (128 * l + 128 ≤ off + n)
    (k.setLine l (lineUpdate (sget 0 k.smeta l) whole m)).spadMeta off n m ls

/-- Write scratchpad bytes with their metadata. -/
def Core.spadWrite (k : Core) (off : Nat) (bs : List Byte) (m : MetaUpd) : Core :=
  (k.spadPut off bs).spadMeta off bs.length m (linesOf off bs.length)

end Sys2Proof.Machine
end

