-- ==== Sys2Proof/Machine/Operands.lean ====
section
/-! DEFINITION. Operand forms of the slots: reading predicates, registers, literals and rows at the bundle's operand read, and
posting results, faults and holds to the bundle being issued (R42, R47, R49, R54, R152). Every read is of `iss.pre`, the core
as it stood before the bundle; every result is an in-flight entry that lands when its latency has elapsed. -/

namespace Sys2Proof.Machine

/-- The number of a scalar slot. -/
def slotS : SSlot → Nat
  | .sa => 1
  | .sb => 2

/-- The number of a memory slot. -/
def slotM : MSlot → Nat
  | .ma => 3
  | .mb => 4

/-! ## Registers -/

/-- A scalar register; a0 and b0 read zero (R33). -/
def Core.reg (k : Core) (c : Cluster) (r : SReg) : Word :=
  if r = 0 then 0 else match c with
    | .a => k.a.get r.toFin
    | .b => k.b.get r.toFin

/-- The poison mark of a scalar register; a0 and b0 carry none (R152). -/
def Core.regPois (k : Core) (c : Cluster) (r : SReg) : Bool :=
  if r = 0 then false else match c with
    | .a => k.aPois.getLsbD r.toNat
    | .b => k.bPois.getLsbD r.toNat

/-- A word of marks with bit `i` set or cleared. -/
def setBit {w : Nat} (x : BitVec w) (i : Nat) (b : Bool) : BitVec w :=
  let m : BitVec w := 1#w <<< i
  if b then x ||| m else x &&& ~~~m

/-- Write a scalar register with its mark; a write to a0 or b0 is discarded (R33, R152). -/
def Core.setReg (k : Core) (c : Cluster) (r : SReg) (v : Word) (pois : Bool) : Core :=
  if r = 0 then k else match c with
    | .a => { k with a := k.a.set r.toNat v r.isLt, aPois := setBit k.aPois r.toNat pois }
    | .b => { k with b := k.b.set r.toNat v r.isLt, bPois := setBit k.bPois r.toNat pois }

/-- Write a predicate with its mark. -/
def Core.setPred (k : Core) (p : PReg) (v pois : Bool) : Core :=
  { k with p := setBit k.p p.val v, pPois := setBit k.pPois p.val pois }

/-- A row. -/
def Core.row (k : Core) (v : VReg) : Row := k.v.get v.toFin

/-- Replace a row. -/
def Core.setRow (k : Core) (v : VReg) (x : Row) : Core := { k with v := k.v.set v.toNat x v.isLt }

/-- The row tagged Poison: contents zero, bound 0x7C00 (R142, R285). -/
def poisonRow : Row := ⟨0, tagPoison, ebInf⟩

/-- The destination code of a scalar register (R463). -/
def dstScalar (c : Cluster) (r : SReg) : Nat := r.toNat + match c with | .a => 0 | .b => 32

/-- The key under which the poisoned destinations keep the bundle that loaded them: kind and code (R463). -/
def porigKey (kind dst : Nat) : Nat := kind * 128 + dst

/-- The bundle at a core's pc as an origin of poison: its 17-bit address, below its tick, which orders origins (R54, R462). -/
def Core.here (k : Core) : Nat := k.addr.toNat + 2 ^ 17 * k.tick.toNat

/-- The origin of poison that no bundle's load has made, as a parity error's: its address reads 0x1_FFFF, and it is later than every
bundle (R462). -/
def noOrigin : Nat := 0x1FFFF + 2 ^ 17 * 2 ^ 64

/-- The keys of origins that no image holds: of a candidate list, of a weight bank, of a special register. -/
def listKey (l : Fin 4) : Nat := 0x1000 + l.val

/-- As `listKey`. -/
def bankKey (b : Bool) : Nat := 0x1004 + (if b then 1 else 0)

/-- As `listKey`. -/
def srKey (n : Nat) : Nat := 0x2000 + n

/-- The origin kept under a key; 0x1_FFFF when none is kept (R462). -/
def Core.originAt (k : Core) (key : Nat) : Nat := sget 0x1FFFF (if key < 0x1000 then k.porig else k.lorig) key

/-- The origin of a poisoned destination; 0x1_FFFF when none is kept (R462). -/
def Core.originOf (k : Core) (kind dst : Nat) : Nat := k.originAt (porigKey kind dst)

/-- The earliest of the origins that are kept under keys (R462); none when none is. -/
def Core.oldest (k : Core) (keys : List Nat) : Option Nat := ((keys.map k.originAt).filter (· != 0x1FFFF)).min?

/-- Note whether a candidate list, a weight bank or a special register is poisoned, and by which bundle. -/
def Core.noteShared (k : Core) (key : Nat) (pois : Bool) (org : Nat) : Core :=
  let rest := k.lorig.filter fun x => x.1 != key
  { k with lorig := if pois then rest ++ [(key, org)] else rest }

/-- The value of a load comes from a port, when its event happens. -/
def Late.window : Late → Bool
  | .host _ | .stor _ => true
  | _ => false

/-- A load in flight whose access is not yet performed (R266). -/
def Entry.pending (e : Entry) : Bool := e.late.window || match e.late with | .conf .. => true | _ => false

/-- The loads of a core that are not yet performed. -/
def Core.pendingLoads (k : Core) : List Entry := k.infl.filter Entry.pending

/-- A scalar operand: its value and its mark. -/
structure Opnd where
  v : Word
  pois : Bool
  deriving DecidableEq, Repr

/-- Read a scalar operand of the bundle (R47). -/
def State.opnd (s : State) (c : Cluster) (r : SReg) : Opnd := ⟨s.iss.pre.reg c r, s.iss.pre.regPois c r⟩

/-- A literal word of the bundle (R72). -/
def State.lit (s : State) (k : Nat) : Word32 := s.iss.lits.getD k 0

/-- The core whose bundle is being issued, as its slots have left it so far. -/
def State.me (s : State) : Core := s.core s.cur

/-- Change the core whose bundle is being issued. -/
def State.modMe (s : State) (f : Core → Core) : State := s.modCore s.cur f

/-! ## Faults, holds and results of the bundle -/

/-- Record a nullifying fault of a slot (R52, R55). -/
def State.fault (s : State) (slot : Nat) (f : AccFault) (addr : Nat := 0) : State :=
  { s with iss := { s.iss with faults := s.iss.faults ++ [⟨f.rank, slot, f.cause, f.detail, addr, f.aux⟩] } }

/-- Freeze the bundle's first tick (R45): the first reason is kept. -/
def State.holdFor (s : State) (w : Wait) : State :=
  match s.iss.hold with
  | some _ => s
  | none => { s with iss := { s.iss with hold := some w, holdSlot := s.iss.now } }

/-- A deferred data trap for the use of a poisoned scalar register. -/
def State.deferReg (s : State) (slot : Nat) (detail : BitVec 8) (c : Cluster) (r : SReg) : State :=
  s.fault slot (deferFault detail 1 (dstScalar c r) (s.iss.pre.originOf 1 (dstScalar c r)))

/-- A deferred data trap for the use of a poisoned row. -/
def State.deferRow (s : State) (slot : Nat) (detail : BitVec 8) (v : VReg) : State :=
  s.fault slot (deferFault detail 3 v.toNat (s.iss.pre.originOf 3 v.toNat))

/-- A deferred data trap for the use of a poisoned predicate. -/
def State.deferPred (s : State) (slot : Nat) (p : PReg) : State :=
  s.fault slot (deferFault 1 2 p.val (s.iss.pre.originOf 2 p.val))

/-- The predicate that a predicate field reads. -/
def predReg? : Pred → Option PReg
  | .always => none
  | .whenSet p => some p
  | .whenClear p => some p

/-- The value of a predicate field whose predicate is not poisoned (R75). -/
def Core.predVal (k : Core) : Pred → Bool
  | .always => true
  | .whenSet p => k.p.getLsbD p.val
  | .whenClear p => !k.p.getLsbD p.val

/-- The predicate field reads a poisoned predicate. -/
def Core.predPois (k : Core) (p : Pred) : Bool :=
  match predReg? p with
  | none => false
  | some j => k.pPois.getLsbD j.val

/-- Run a slot's effect under its predicate: nothing when it is false (R49), the deferred data trap when the predicate is
poisoned (R54, R152). -/
def State.when (s : State) (p : Pred) (slot : Nat) (eff : State → State) : State :=
  match predReg? p with
  | none => eff s
  | some j =>
    if s.iss.pre.pPois.getLsbD j.val then s.deferPred slot j
    else if s.iss.pre.predVal p then eff s else s

/-- Place a result in flight (R42). -/
def State.postEntry (s : State) (e : Entry) : State := s.modMe fun k => { k with infl := k.infl ++ [e] }

/-- The earliest bundle that loaded a poisoned value, from the keys of the operands it was formed from; the issuing bundle itself
when none of them is marked (R54, R462). -/
def State.orgOf (s : State) (keys : List Nat) : Nat :=
  (s.iss.pre.oldest keys).getD s.iss.pre.here

/-- The origin keys of scalar registers of a cluster. -/
def regKeys (c : Cluster) (rs : List SReg) : List Nat := rs.map fun r => porigKey 1 (dstScalar c r)

/-- The origin keys of rows. -/
def rowKeys (vs : List VReg) : List Nat := vs.map fun v => porigKey 3 v.toNat

/-- Place a scalar result in flight: a poisoned result has value zero and sets no flag (R152). -/
def State.postScalar (s : State) (slot : Nat) (c : Cluster) (d : SReg) (lat : Nat) (v : Word) (F : Flags) (pois : Bool)
    (keys : List Nat := []) (late : Late := .no) (mark : LoadMark := {}) : State :=
  s.postEntry ⟨.scalar c d (if pois then 0 else v), pois, lat, if pois then 0 else F, slot, s.iss.pre.tick, late,
    s.orgOf keys, mark⟩

/-- Place a predicate result in flight. -/
def State.postPred (s : State) (slot : Nat) (d : PReg) (lat : Nat) (v : Bool) (F : Flags) (pois : Bool)
    (keys : List Nat := []) : State :=
  s.postEntry ⟨.pred d (if pois then false else v), pois, lat, if pois then 0 else F, slot, s.iss.pre.tick, .no,
    s.orgOf keys, {}⟩

/-- Place a row result in flight. -/
def State.postRow (s : State) (slot : Nat) (d : VReg) (lat : Nat) (x : Row) (F : Flags) (keys : List Nat := [])
    (late : Late := .no) (mark : LoadMark := {}) : State :=
  s.postEntry ⟨.row d x, x.tag = tagPoison, lat, F, slot, s.iss.pre.tick, late, s.orgOf keys, mark⟩

/-- Place a candidate list in flight. -/
def State.postList (s : State) (slot : Nat) (l : Fin 4) (lat : Nat) (x : CList) (F : Flags) (keys : List Nat := []) : State :=
  s.postEntry ⟨.list l x, x.poison, lat, F, slot, s.iss.pre.tick, .no, s.orgOf keys, {}⟩

/-! ## Scalar operand forms -/

/-- A result of one scalar operand in the slot's own cluster (R150, R152). -/
def State.alu1 (s : State) (sl : SSlot) (p : Pred) (d a : SReg) (lat : Nat) (f : Word → Word × Flags) : State :=
  s.when p (slotS sl) fun s =>
    let x := s.opnd sl.cluster a
    s.postScalar (slotS sl) sl.cluster d lat (f x.v).1 (f x.v).2 x.pois (regKeys sl.cluster [a])

/-- A result of two scalar operands in the slot's own cluster. -/
def State.alu2 (s : State) (sl : SSlot) (p : Pred) (d a b : SReg) (lat : Nat) (f : Word → Word → Word × Flags) : State :=
  s.when p (slotS sl) fun s =>
    let x := s.opnd sl.cluster a
    let y := s.opnd sl.cluster b
    s.postScalar (slotS sl) sl.cluster d lat (f x.v y.v).1 (f x.v y.v).2 (x.pois || y.pois) (regKeys sl.cluster [a, b])

/-- A result of two scalar operands and the destination's old value. -/
def State.alu3 (s : State) (sl : SSlot) (p : Pred) (d a b : SReg) (lat : Nat) (f : Word → Word → Word → Word × Flags) :
    State :=
  s.when p (slotS sl) fun s =>
    let x := s.opnd sl.cluster a
    let y := s.opnd sl.cluster b
    let z := s.opnd sl.cluster d
    s.postScalar (slotS sl) sl.cluster d lat (f x.v y.v z.v).1 (f x.v y.v z.v).2 (x.pois || y.pois || z.pois)
      (regKeys sl.cluster [a, b, d])

/-- A predicate result of two scalar operands. -/
def State.cmp2 (s : State) (sl : SSlot) (p : Pred) (d : PReg) (a b : SReg) (lat : Nat) (f : Word → Word → Bool × Flags) :
    State :=
  s.when p (slotS sl) fun s =>
    let x := s.opnd sl.cluster a
    let y := s.opnd sl.cluster b
    s.postPred (slotS sl) d lat (f x.v y.v).1 (f x.v y.v).2 (x.pois || y.pois) (regKeys sl.cluster [a, b])

/-- A pure result raises no flag (R150). -/
def pure0 {α : Type} (x : α) : α × Flags := (x, 0)

/-- The operand as an integer of the type (R150). -/
def ival (t : ITy) (x : Word) : Int := intValue t.width t.signed x.toNat

/-! ## Rows of MAT's and memory's operands -/

/-- A row operand of the bundle. -/
def State.rowOp (s : State) (v : VReg) : Row := s.iss.pre.row v

/-- The shorthand for a meaning's outcome. -/
abbrev Res := Host.Outcome State Fault Refusal

end Sys2Proof.Machine
end

