-- ==== Sys2Proof/Machine/Control.lean ====
section
/-! DEFINITION. The control instructions of the CTL slot (R336, R337, R381 to R397). A freeze of the bundle's first tick is a
hold of the issue record: `step` then keeps the core at this bundle and issues it again. -/

namespace Sys2Proof.Machine

/-- The slot number of CTL. -/
def ctlSlot : Nat := 0

/-- Make the bundle's transfer of control (R382). -/
def State.transferTo (s : State) (x : Transfer) : State := { s with iss := { s.iss with xfer := x } }

/-- BR (R383). -/
def execBr (p : Pred) (t : BitVec 14) (s : State) : Res :=
  .next (s.when p ctlSlot fun s => s.transferTo (.jump (4 * t.toNat)))

/-- BRI (R383): a poisoned register is a branch on poisoned data, a target that is no bundle offset an alignment fault. -/
def execBri (p : Pred) (r : CReg) (s : State) : Res :=
  .next (s.when p ctlSlot fun s =>
    let x := s.opnd r.c r.r
    if x.pois then s.deferReg ctlSlot 1 r.c r.r
    else if x.v.toNat % 4 ≠ 0 ∨ 2 ^ 16 ≤ x.v.toNat then s.fault ctlSlot alignFault
    else s.transferTo (.jump x.v.toNat))

/-- CALL (R383). -/
def execCall (p : Pred) (t : BitVec 14) (s : State) : Res :=
  .next (s.when p ctlSlot fun s =>
    if s.iss.pre.rstack.length = 8 then s.fault ctlSlot (schedFault 0x0A) else s.transferTo (.call (4 * t.toNat)))

/-- RET (R383). -/
def execRet (p : Pred) (s : State) : Res :=
  .next (s.when p ctlSlot fun s =>
    if s.iss.pre.rstack.length = 0 then s.fault ctlSlot (schedFault 0x0A) else s.transferTo .ret)

/-- BR.SIDE (R384). -/
def execBrSide (p : Pred) (t : BitVec 14) (s : State) : Res :=
  .next (s.when p ctlSlot fun s =>
    let k := s.iss.pre
    if k.mark || !k.rstack.isEmpty || !k.order.isEmpty then s.fault ctlSlot (schedFault 0x06)
    else s.transferTo (.side (4 * t.toNat)))

/-- Activate a loop counter as the innermost loop, or skip the body when the count is 0 (R386). -/
def State.activateLoop (s : State) (l : Fin 4) (n : Word32) (e : BitVec 13) : State :=
  let E := s.iss.off + 4 * e.toNat
  if (s.iss.pre.lc.get l).active then s.fault ctlSlot (schedFault 0x09)
  else if n = 0 then s.transferTo (.skip E)
  else s.modMe fun k => { k with
    lc := k.lc.set l.val ⟨true, n, BitVec.ofNat 16 (s.iss.off + s.iss.len), BitVec.ofNat 16 E⟩ l.isLt
    order := l :: k.order }

/-- LOOP (R386). -/
def execLoop (p : Pred) (l : Fin 4) (r : CReg) (e : BitVec 13) (s : State) : Res :=
  .next (s.when p ctlSlot fun s =>
    let x := s.opnd r.c r.r
    if x.pois then s.deferReg ctlSlot 1 r.c r.r else s.activateLoop l (x.v.setWidth 32) e)

/-- LOOPI (R386). -/
def execLoopi (p : Pred) (l : Fin 4) (n : BitVec 6) (e : BitVec 13) (s : State) : Res :=
  .next (s.when p ctlSlot fun s => s.activateLoop l (n.setWidth 32) e)

/-- End the task with the bundle's commit. -/
def State.finish (s : State) (f : TaskEnd) : State := { s with iss := { s.iss with fin := some f } }

/-- Of two poisoned destinations, the one that the earlier bundle loaded; of one bundle's, the one marked first. -/
def olderOrigin (x : Nat × Nat) : Option (Nat × Nat) → Nat × Nat
  | none => x
  | some y => if y.2 / 2 ^ 17 < x.2 / 2 ^ 17 then y else x

/-- The poisoned destination, still marked, whose load was issued first (R54, R462). -/
def Core.earliest (k : Core) : Option (Nat × Nat) := k.porig.foldr (fun x r => some (olderOrigin x r)) none

/-- The poisoned destination, still marked, whose load was issued first, as a deferred data fault with a given detail; none when there
is none (R54, R388). -/
def Core.pendingDeferred (k : Core) (detail : BitVec 8) : Option AccFault :=
  k.earliest.map fun x => deferFault detail (x.1 / 128) (x.1 % 128) x.2

/-- Results in flight when the bundle issues, an unfinished beat sequencer among them (R70, R215). -/
def Core.busyFlight (k : Core) : Bool := !k.infl.isEmpty || k.seq.kind != SeqKind.idle

/-- DONE (R388): a pending deferred data trap first, then results in flight, then the end of the task. -/
def execDone (p : Pred) (s : State) : Res :=
  .next (s.when p ctlSlot fun s =>
    match s.iss.pre.pendingDeferred 2 with
    | some f => s.fault ctlSlot f
    | none => if s.iss.pre.busyFlight then s.fault ctlSlot (schedFault 0x0B) else s.finish .done)

/-- ABORT (R389). -/
def execAbort (p : Pred) (code : BitVec 16) (s : State) : Res :=
  .next (s.when p ctlSlot fun s => s.finish (.abort code))

/-- TRAP (R390). -/
def execTrap (p : Pred) (code : BitVec 16) (s : State) : Res :=
  .next (s.when p ctlSlot fun s => s.finish (.trap code))

/-- A failing bound check (R144) or ESCAL: rank 9, the slot and the detail. -/
def State.escalate (s : State) (slot : Nat) (detail : BitVec 8) : State :=
  { s with iss := { s.iss with faults := s.iss.faults ++ [⟨9, slot, 0x09, detail, 0, 0⟩] } }

/-- ESCAL (R391). -/
def execEscal (p : Pred) (s : State) : Res := .next (s.when p ctlSlot fun s => s.escalate ctlSlot 1)

/-! ## Waits -/

/-- Load results in flight (R284, R336): those of MA and MB, an AMO's and a CAS's apart. -/
def Core.ldCount (k : Core) : Nat := (k.infl.filter fun e => (e.slot == 3 || e.slot == 4) && !e.mark.atom).length

/-- Stores, CLEAN and INVAL that are not performed, and AMO and CAS that memory has not answered (R284, R336). -/
def Core.stCount (k : Core) : Nat := k.stores.length + (k.infl.filter fun e => e.mark.atom && e.late != .no).length

/-- Copy commands of cx0 to cx3 not completed (R336). -/
def Core.cpCount (k : Core) : Nat := (k.cx.toList.map fun c => c.cmds.length).sum

/-- MAT steps issued and not yet written (R336): results of MAT in flight, the sequencer's steps that are left, an unfinished
MX.WLOAD as one. -/
def Core.mxCount (k : Core) : Nat :=
  (k.infl.filter fun e => e.slot == 6).length +
    match k.seq.kind with
    | .idle => 0
    | .wload => 1
    | _ => k.seq.n - k.seq.next

/-- A WAIT field of 31 places no condition. -/
def waitMet (n count : Nat) : Bool := n == 31 || decide (count ≤ n)

/-- The ld and mx conditions hold (R336, first stage). -/
def Core.waitTickMet (k : Core) (w : WaitCond) : Bool := waitMet w.ld k.ldCount && waitMet w.mx k.mxCount

/-- The st and cp conditions hold (R336, second stage). -/
def Core.waitFreezeMet (k : Core) (w : WaitCond) : Bool := waitMet w.st k.stCount && waitMet w.cp k.cpCount

/-- WAIT (R336): its conditions stay with the core, which meets them before its next bundle issues. -/
def execWait (p : Pred) (ld st cp mx : BitVec 5) (s : State) : Res :=
  .next (s.when p ctlSlot fun s => s.modMe fun k => { k with waitc := some ⟨ld.toNat, st.toNat, cp.toNat, mx.toNat⟩ })

/-- The timeline and the issue count that a WAITTL names. -/
def Core.timeline (k : Core) : Tline → Nat × Nat
  | .tl i => ((k.ctx i).tl, (k.ctx i).icount)
  | .tlg => (k.gx.tl, k.gx.icount)

/-- WAITTL (R337). -/
def execWaittl (p : Pred) (r : CReg) (t : Tline) (s : State) : Res :=
  .next (s.when p ctlSlot fun s =>
    let x := s.opnd r.c r.r
    if x.pois then s.deferReg ctlSlot 4 r.c r.r
    else if (s.iss.pre.timeline t).2 < x.v.toNat then s.fault ctlSlot (schedFault 0x0C)
    else if (s.iss.pre.timeline t).1 < x.v.toNat then s.holdFor .waittl
    else s)

/-- A copy command writes the inactive side (R328). -/
def CopyCmd.isIsp (c : CopyCmd) : Bool :=
  match c.kind with
  | .isp _ => true
  | _ => false

/-- A CP.ISP of the core has taken a number and not completed (R385). -/
def Core.ispBusy (k : Core) : Bool := k.cx.toList.any fun x => x.cmds.any (·.isIsp)

/-- IFENCE (R385). -/
def execIfence (p : Pred) (s : State) : Res :=
  .next (s.when p ctlSlot fun s =>
    if s.iss.pre.ispBusy then s.holdFor .ifence else { s with iss := { s.iss with clrMark := true } })

/-- Ask the scheduler, a barrier or the heap, once: the bundle stays frozen until the answer is there (R392 to R397). -/
def State.ask (s : State) (w : Wait) (r : Req) : State :=
  if s.iss.pre.req.isSome then s.holdFor w else { s.holdFor w with iss := { (s.holdFor w).iss with newReq := some r } }

/-- BAR (R392): the fields of its register, the drain at chase scope, the arrival, and the flag that answers it. -/
def execBar (p : Pred) (r : CReg) (d : PReg) (s : State) : Res :=
  .next (s.when p ctlSlot fun s =>
    let x := s.opnd r.c r.r
    let n := bits x.v 15 8
    if x.pois then s.deferReg ctlSlot 4 r.c r.r
    else if bits x.v 63 32 ≠ 0 ∨ bits x.v 7 4 ≠ 0 ∨ n = 0 ∨ 8 < n then s.fault ctlSlot (formatFault 3)
    else match s.iss.pre.ans with
      | some (.flag b) => s.postPred ctlSlot d 1 b 0 false
      | _ =>
        if s.iss.pre.stores.isEmpty && s.iss.pre.pendingLoads.isEmpty then s.ask .bar (.bar (bits x.v 3 0) n (bits x.v 31 16)) else s.holdFor .drain)

/-- MASKW (R393). -/
def execMaskw (p : Pred) (r : CReg) (d : PReg) (s : State) : Res :=
  .next (s.when p ctlSlot fun s =>
    let x := s.opnd r.c r.r
    let q := bits x.v 63 32
    if x.pois then s.deferReg ctlSlot 4 r.c r.r
    else if bits x.v 15 4 ≠ 0 then s.fault ctlSlot (formatFault 3)
    else match s.iss.pre.ans with
      | some (.flag b) => s.postPred ctlSlot d 1 b 0 false
      | _ =>
        if q ≤ ((s.corePart s.cur).mseq.toList.getD (bits x.v 3 0) 0).toNat then s.postPred ctlSlot d 1 true 0 false
        else s.ask .maskw (.maskw (bits x.v 3 0) (BitVec.ofNat 32 q)))

/-! ## Creating and admitting work -/

/-- The operand that an argument of an engine command gives: a register, or a pair of literals, low word first (R321). -/
def State.argPair (s : State) (c : Cluster) : EArg → Opnd
  | .reg r => s.opnd c r
  | .lit k => ⟨s.lit (k.val + 1) ++ s.lit k.val, false⟩

/-- The operand that an argument gives: a register, or one literal zero-extended (R325). -/
def State.argWord (s : State) (c : Cluster) : EArg → Opnd
  | .reg r => s.opnd c r
  | .lit k => ⟨(s.lit k.val).setWidth 64, false⟩

/-- The deferred data trap of the first poisoned register among an engine command's operands, or else the command (R54,
R152). -/
def State.withRegs (s : State) (c : Cluster) (rs : List SReg) (eff : State → State) : State :=
  match rs.find? fun r => s.iss.pre.regPois c r with
  | some r => s.deferReg ctlSlot 4 c r
  | none => eff s

/-- The registers that an argument names. -/
def argRegs : EArg → List SReg
  | .reg r => [r]
  | .lit _ => []

/-- The coordinate counts of a launch are in range: each 1 to 65,535, product at most 2^24 (R361, R395). -/
def dimsOk (nx ny nz : Nat) : Bool :=
  nx != 0 && ny != 0 && nz != 0 && decide (nx < 65536) && decide (ny < 65536) && decide (nz < 65536) &&
    decide (nx * ny * nz ≤ 2 ^ 24)

/-- The running task of a core. -/
def State.taskOf (s : State) (c : CoreId) : Option Task :=
  match (s.core c).task with
  | none => none
  | some i => (s.tasks.find? fun x => x.1 == i).map (·.2)

/-- Add a child launch to the graph of a core's task; it is released when the core's accesses are performed (R395, R362). -/
def State.addChild (s : State) (c : CoreId) (desc : Nat) (nx ny nz done : Nat) : State :=
  match (s.core c).task, s.taskOf c with
  | some i, some t =>
    { (s.modPart t.q fun p =>
        let j := p.jobs.get t.job
        let gs := j.graphs.modify t.gix fun ls =>
          ls ++ [{ dva := desc, nx := nx, ny := ny, nz := nz, preds := 0, parent := some i, tag := s.stamp, plix := some t.lix
                   chase := chaseOf c, doneVa := done, discarded := (s.core c).creq }]
        { p with jobs := p.jobs.set t.job.val { j with graphs := gs } t.job.isLt }) with stamp := s.stamp + 1 }
  | _, _ => s

/-- LAUNCH (R395): range errors, then the scheduler's answer. -/
def execLaunch (p : Pred) (c : Cluster) (x : SReg) (y : EArg) (z : SReg) (s : State) : Res :=
  .next (s.when p ctlSlot fun s => s.withRegs c ([x] ++ argRegs y ++ [z]) fun s =>
    let desc := (s.opnd c x).v
    let dims := (s.argPair c y).v
    let done := (s.opnd c z).v
    let nx := bits dims 15 0
    let ny := bits dims 31 16
    let nz := bits dims 47 32
    let s1 := if desc.toNat % 1024 ≠ 0 ∨ done.toNat % 8 ≠ 0 then s.fault ctlSlot alignFault else s
    if bits desc 63 48 ≠ 0 ∨ bits dims 63 48 ≠ 0 ∨ !dimsOk nx ny nz then s1.fault ctlSlot (formatFault 3)
    else if desc.toNat % 1024 ≠ 0 ∨ done.toNat % 8 ≠ 0 then s1
    else match s.iss.pre.ans with
      | some .accepted => s.addChild s.cur desc.toNat nx ny nz done.toNat
      | some .limit => s.fault ctlSlot (schedFault 0x0D)
      | _ => s.ask .launch (.launch desc.toNat nx ny nz done.toNat))

/-- HEAP.PUSH (R396). -/
def execHeapPush (p : Pred) (c : Cluster) (x y : SReg) (s : State) : Res :=
  .next (s.when p ctlSlot fun s => s.withRegs c [x, y] fun s =>
    let e := (s.opnd c x).v
    let st := (s.opnd c y).v.toNat
    let bad := st % 8 ≠ 0 ∨ Config.spadBytes < st + 8
    let s1 := if bad then s.fault ctlSlot alignFault else s
    if bits e 31 16 = 0 then s1.fault ctlSlot (formatFault 3)
    else if bad then s1
    else match s.iss.pre.ans with
      | some .served => s
      | _ => s.ask .heap (.push e st))

/-- HEAP.POP (R396, R397). -/
def execHeapPop (p : Pred) (c : Cluster) (x y : SReg) (s : State) : Res :=
  .next (s.when p ctlSlot fun s => s.withRegs c [x, y] fun s =>
    let o := (s.opnd c x).v.toNat
    let m := (s.opnd c y).v.toNat
    let bad := o % 8 ≠ 0 ∨ Config.spadBytes < o + 8 * (1 + (if m ≤ 64 then m else 0))
    let s1 := if bad then s.fault ctlSlot alignFault else s
    if m = 0 ∨ 64 < m then s1.fault ctlSlot (formatFault 3)
    else if bad then s1
    else match s.iss.pre.ans with
      | some .served => s
      | _ => s.ask .heap (.pop o m))

end Sys2Proof.Machine
end

