-- ==== Sys2Proof/Machine/Engines.lean ====
section
/-! DEFINITION. The engine commands of the CTL slot: the copy commands (R323 to R328) and the galley commands (R330 to R334).
A command that commits takes the next number of its context and joins its queue; what it does there is in Copies.lean and
Galley.lean. -/

namespace Sys2Proof.Machine

/-! ## Operands of copies -/

/-- The space of R236 that an address lies in: 0 the scratchpad, 1 the translated range, 2 none. -/
def spaceOf (va : Nat) : Nat := if va < Config.spadBytes then 0 else if va < 2 ^ 48 then 1 else 2

/-- A range of `n` bytes leaves its space (R322). -/
def leaves (va n : Nat) : Bool := n != 0 && spaceOf va != spaceOf (va + n - 1)

/-- The checks of a byte of a copy operand, in the order of R257 and by what the TLB entry records: target, memory type, right. A
write of a part of a tile needs both rights, a write of whole tiles the write right alone (R439). -/
def State.copyRights (s : State) (e : TlbEnt) (p : Piece) (w part : Bool) : Option AccFault :=
  if !s.pageTarget e p.da then some (permFault 3)
  else if !typeOk .copy p.mtype (targetOf p.da) then some (permFault 2)
  else if w then (if e.w && (if part then e.fw else e.fo) then none else some (permFault 1))
  else if e.r && e.fr then none else some (permFault 0)

/-- Translate and check bytes of a copy operand beyond the scratchpad. -/
def State.copyPiece (s : State) (c : CoreId) (va n : Nat) (w part : Bool) : State × Except AccFault Piece :=
  let (s1, x) := s.translate c va
  match x with
  | .error f => (s1, .error f)
  | .ok e =>
    let p : Piece := ⟨va, e.dbase + (va - e.vbase), n, e.mtype⟩
    match s1.copyRights e p w part with
    | some f => (s1, .error f)
    | none => (s1, .ok p)

/-- The check at issue of the first byte of an operand (R257, R323). A walk that meets an open region stalls it (R29). -/
def State.firstByte (s : State) (va : Nat) (w part : Bool) : State :=
  if inSpad va then s else
    let (s1, x) := s.copyPiece s.cur va 1 w part
    match x with
    | .error f => if f.stalls then s1.holdFor .region else s1.fault ctlSlot f va
    | .ok _ => s1

/-- Give a command the next number of its copy context, or freeze when 16 are held (R317, R318). -/
def State.enqueueCopy (s : State) (k : CtxId) (kind : CopyKind) (dst src len : Nat) (nc : Bool) : State :=
  let x := s.iss.pre.ctx k
  if 16 ≤ x.cmds.length then s.holdFor .ctxFull
  else s.modMe fun c =>
    let y := c.ctx k
    c.setCtx k { y with icount := y.icount + 1, cmds := y.cmds ++ [⟨y.icount + 1, kind, dst, src, len, nc, 0, false, []⟩] }

/-- A write of `len` bytes from `va` on begins with part of a tile (R439). -/
def partTile (va len : Nat) : Bool := va % 4096 != 0 || decide (len < 4096)

/-- The largest length of a linear copy (R325). -/
def copyMax : Nat := 0xFFFFFFF8

/-- CP.LIN (R325). -/
def execCpLin (p : Pred) (k : CtxId) (c : Cluster) (x y : SReg) (z : EArg) (nc : Bool) (s : State) : Res :=
  .next (s.when p ctlSlot fun s => s.withRegs c ([x, y] ++ argRegs z) fun s =>
    let xd := (s.opnd c x).v.toNat
    let xs := (s.opnd c y).v.toNat
    let n := (s.argWord c z).v.toNat
    let s1 := if n = 0 then s else (s.firstByte xs false false).firstByte xd true (partTile xd n)
    let bad := decide (xd % 8 ≠ 0) || decide (xs % 8 ≠ 0) || decide (n % 8 ≠ 0) || decide (copyMax < n) || leaves xd n ||
      leaves xs n
    if bad then s1.fault ctlSlot alignFault xd else s1.enqueueCopy k .lin xd xs n nc)

/-- The descriptor of CP.TENSOR (R326). -/
structure TensorDesc where
  esize : Nat
  pk : Nat
  ndim : Nat
  cnt : List Nat
  ss : List Int
  ds : List Int
  deriving DecidableEq, Repr

/-- A little-endian field of a byte list. -/
def fieldAt (b : List Byte) (off n : Nat) : Nat := ofLe ((b.drop off).take n)

/-- The fields of a descriptor, whatever they hold (R326). -/
def tensorFields (b : List Byte) : TensorDesc :=
  let b0 := fieldAt b 0 1
  let cnt := (List.range 6).map fun i => fieldAt b (8 + 4 * i) 4
  let str (base : Nat) := (List.range 5).map fun i => intValue 64 true (fieldAt b (base + 8 * i) 8)
  ⟨b0 % 8, b0 / 16 % 4, fieldAt b 1 1 % 8, cnt, str 0x20, str 0x48⟩

/-- Read a descriptor; none when a field is reserved or out of range (R326, R322). -/
def parseTensor (b : List Byte) : Option TensorDesc :=
  let b0 := fieldAt b 0 1
  let b1 := fieldAt b 1 1
  let d := tensorFields b
  let nd := d.ndim
  let cnt := d.cnt
  if 3 < d.esize ∨ b0 / 8 % 2 ≠ 0 ∨ d.pk = 3 ∨ b0 / 64 ≠ 0 ∨ b1 / 8 ≠ 0 ∨ fieldAt b 2 6 ≠ 0 ∨ nd = 0 ∨ 6 < nd ∨ fieldAt b 0x70 16 ≠ 0 then none
  else if (List.range 6).any (fun i => decide (i < nd) == decide (cnt.getD i 0 = 0)) then none
  else if (List.range 5).any (fun i => decide (nd ≤ i + 1) && (d.ss.getD i 0 != 0 || d.ds.getD i 0 != 0)) then none
  else if d.pk ≠ 0 ∧ (d.esize ≠ 0 ∨ cnt.getD 0 0 % 4 ≠ 0) then none
  else some d

/-- Bytes of a source run and of a destination run (R326). -/
def TensorDesc.runs (d : TensorDesc) : Nat × Nat :=
  let n := d.cnt.getD 0 0
  match d.pk with
  | 1 => (n * 3 / 4, n)
  | 2 => (n, n * 3 / 4)
  | _ => (n * 2 ^ d.esize, n * 2 ^ d.esize)

/-- The number of runs. -/
def TensorDesc.count (d : TensorDesc) : Nat := ((d.cnt.take d.ndim).drop 1).foldl (· * ·) 1

/-- The byte offset of run `e`, dimension 1 varying fastest, from the counts and strides of dimensions 1 on. -/
def runOffset : List Nat → List Int → Nat → Int
  | n :: ns, t :: ts, e => (e % max n 1 : Nat) * t + runOffset ns ts (e / max n 1)
  | _, _, _ => 0

/-- The lowest and the highest offset of a run start. -/
def runSpan : List Nat → List Int → Int × Int
  | n :: ns, t :: ts =>
    let (lo, hi) := runSpan ns ts
    let far := ((n : Int) - 1) * t
    if n ≤ 1 then (lo, hi) else (lo + min 0 far, hi + max 0 far)
  | _, _ => (0, 0)

/-- Every run of an operand stays in the space of its base, and plain runs are aligned (R322, R326). -/
def TensorDesc.operandOk (d : TensorDesc) (base run : Nat) (strides : List Int) : Bool :=
  let dims := (d.cnt.take d.ndim).drop 1
  let (lo, hi) := runSpan dims strides
  let a := (base : Int) + lo
  let z := (base : Int) + hi + run - 1
  decide (0 ≤ a) && spaceOf a.toNat == spaceOf base && spaceOf z.toNat == spaceOf base &&
    (d.pk != 0 || (decide (base % 2 ^ d.esize = 0) &&
      (List.zip dims strides).all fun (nt : Nat × Int) => decide (nt.1 ≤ 1) || decide (nt.2 % 2 ^ d.esize = 0)))

/-- The operands break a rule of alignment or of range, as far as the fields of a descriptor say: one of a reserved element size says
neither, one with a count of zero only where its first runs start (R322, R326). -/
def TensorDesc.breaks (d : TensorDesc) (xs xd : Nat) : Bool :=
  if 3 < d.esize ∨ d.pk = 3 then false
  else if (d.cnt.take (max 1 d.ndim)).all (· != 0) then !d.operandOk xs d.runs.1 d.ss || !d.operandOk xd d.runs.2 d.ds
  else d.pk == 0 && (decide (xs % 2 ^ d.esize ≠ 0) || decide (xd % 2 ^ d.esize ≠ 0))

/-- CP.TENSOR (R326): the descriptor is read at the operand read. One that cannot be read or is malformed leaves the checks of both
operands, whose faults outrank its own (R55, R257). -/
def execCpTensor (p : Pred) (k : CtxId) (c : Cluster) (x y z : SReg) (nc : Bool) (s : State) : Res :=
  .next (s.when p ctlSlot fun s => s.withRegs c [x, y, z] fun s =>
    let xd := (s.opnd c x).v.toNat
    let xs := (s.opnd c y).v.toNat
    let o := (s.opnd c z).v.toNat
    let first (s : State) (part : Bool) : State := (s.firstByte xs false false).firstByte xd true part
    if o % 128 ≠ 0 ∨ Config.spadBytes < o + 128 then (first s (xd % 4096 != 0)).fault ctlSlot alignFault o else
      let b := s.iss.pre.spadRead o 128
      match parseTensor b with
      | none =>
        let s1 := (first s (xd % 4096 != 0)).fault ctlSlot (formatFault 3)
        if (tensorFields b).breaks xs xd then s1.fault ctlSlot alignFault xd else s1
      | some d =>
        let s1 := first s (partTile xd d.runs.2)
        if !d.operandOk xs d.runs.1 d.ss || !d.operandOk xd d.runs.2 d.ds then s1.fault ctlSlot alignFault xd
        else s1.enqueueCopy k (.tensor b) xd xs 0 nc)

/-- The tags that a fill or a broadcast may give (R327, R331). -/
def fillTagOk (t : Nat) : Bool := decide (t ≤ 9) || t == 12 || t == 13

/-- CP.FILL (R327). -/
def execCpFill (p : Pred) (k : CtxId) (c : Cluster) (x y z : SReg) (nc : Bool) (s : State) : Res :=
  .next (s.when p ctlSlot fun s => s.withRegs c [x, y, z] fun s =>
    let xd := (s.opnd c x).v.toNat
    let pat := (s.opnd c y).v
    let lt := (s.opnd c z).v
    let n := bits lt 31 0
    let s1 := if n = 0 then s else s.firstByte xd true (partTile xd n)
    let bad := decide (xd % 8 ≠ 0) || decide (n % 8 ≠ 0) || leaves xd n
    let s2 := if bits lt 63 36 ≠ 0 ∨ !fillTagOk (bits lt 35 32) then s1.fault ctlSlot (formatFault 3) else s1
    if bad then s2.fault ctlSlot alignFault xd
    else s2.enqueueCopy k (.fill pat (BitVec.ofNat 4 (bits lt 35 32))) xd 0 n nc)

/-- CP.ISP (R328): the self-overlay right, and the written mark of the inactive side at issue (R60). -/
def execCpIsp (p : Pred) (k : CtxId) (c : Cluster) (x y z : SReg) (s : State) : Res :=
  .next (s.when p ctlSlot fun s => s.withRegs c [x, y, z] fun s =>
    let o := (s.opnd c x).v.toNat
    let xs := (s.opnd c y).v.toNat
    let n := (s.opnd c z).v.toNat
    let s1 := s.firstByte xs false false
    let s2 := if s.iss.pre.sov then s1 else s1.fault ctlSlot (permFault 4)
    let badSrc := decide (xs % 4 ≠ 0) || leaves xs n
    let bad := badSrc || decide (o % 4 ≠ 0) || decide (n % 4 ≠ 0) || decide (n < 4) || decide (0x10000 < o + n)
    if bad then s2.fault ctlSlot alignFault (if badSrc then xs else 0)
    else if 16 ≤ (s.iss.pre.ctx k).cmds.length then s2.holdFor .ctxFull
    else
      let v := !s.iss.pre.side
      (s2.modMe fun m => { (m.setSide v { m.sideAt v with tag := none }) with mark := true }).enqueueCopy
        k (.isp v) o xs n false)

/-! ## Galley commands -/

/-- The engines that a group word names (R330). -/
def groupOf (w : Word) : Group := ⟨bits w 9 0, bits w 42 32, bits w 25 16⟩

/-- A field of a group word is out of range, or a zero field is not zero (R330). `call` allows the entry and the landing base. -/
def groupBad (w : Word) (call : Bool) : Bool :=
  let g := groupOf w
  (!call && bits w 63 44 != 0) || w.getLsbD 43 || bits w 31 26 != 0 || bits w 15 10 != 0 ||
    g.count == 0 || decide (1024 < g.count) || (decide (1 < g.count) && g.step == 0) ||
    decide (1023 < g.e0 + (g.count - 1) * g.step)

/-- The engine indices of a group, in the order of R300. -/
def Group.engines (g : Group) : List Nat := (List.range g.count).map fun j => g.e0 + j * g.step

/-- The channels that hold an engine of a group. -/
def Group.channels (g : Group) : List Nat := (g.engines.map engineChan).eraseDups

/-- Give a galley command the next number of gx, or freeze when 16 are held (R317, R318). -/
def State.enqueueGalley (s : State) (g : Group) (kind : GKind) : State :=
  if 16 ≤ s.iss.pre.gx.cmds.length then s.holdFor .ctxFull
  else s.modMe fun c => { c with gx := { c.gx with
    icount := c.gx.icount + 1, cmds := c.gx.cmds ++ [{ num := c.gx.icount + 1, grp := g, kind := kind }] } }

/-- An engine index does not exist: it has become absent, or its stack is not populated (R18, R483). -/
def State.noEngine (s : State) (e : Nat) : Bool := (s.engine e).absent || (s.half && decide (Config.engines / 2 ≤ e))

/-- A command on a group: the format trap of a bad group word, a permission fault for an absent engine that it names (R322, R483),
or else the command. -/
def State.onGroup (s : State) (w : Word) (call : Bool) (eff : State → Group → State) : State :=
  let g := groupOf w
  let bad := groupBad w call
  let absent := g.engines.any fun e => decide (e < Config.engines) && s.noEngine e
  let s1 := if bad then s.fault ctlSlot (formatFault 3) else s
  let s2 := if absent then s1.fault ctlSlot (permFault 3) else s1
  if bad || absent then s2 else eff s2 g

/-- GE.BCAST (R331). -/
def execGeBcast (p : Pred) (c : Cluster) (x y z : SReg) (s : State) : Res :=
  .next (s.when p ctlSlot fun s => s.withRegs c [x, y, z] fun s =>
    let src := (s.opnd c y).v.toNat
    let b := (s.opnd c z).v
    let len := bits b 12 0
    let off := bits b 27 16
    let tag := bits b 35 32
    let inR := decide (64 ≤ len) && decide (len ≤ 4096)
    let s1 := if bits b 63 36 ≠ 0 ∨ bits b 31 28 ≠ 0 ∨ bits b 15 13 ≠ 0 ∨ !inR ∨ !fillTagOk tag then
      s.fault ctlSlot (formatFault 3) else s
    let s2 := if len % 64 ≠ 0 ∨ off % 64 ≠ 0 ∨ src % 64 ≠ 0 ∨ Config.spadBytes ≤ src ∨
        (inR ∧ (4096 < off + len ∨ Config.spadBytes < src + len)) then s1.fault ctlSlot alignFault src else s1
    s2.onGroup (s.opnd c x).v false fun s g => s.enqueueGalley g (.bcast src len off (BitVec.ofNat 4 tag)))

/-- The bytes of a call's landing slots and status block (R332). -/
def landBytes (count : Nat) : Nat := 256 * count + 8 * (1 + cdiv count 64)

/-- GE.CALL (R332). A landing area that leaves the scratchpad is an alignment fault whatever else the group word holds (R55). -/
def execGeCall (p : Pred) (c : Cluster) (x : SReg) (y z : EArg) (s : State) : Res :=
  .next (s.when p ctlSlot fun s => s.withRegs c ([x] ++ argRegs y ++ argRegs z) fun s =>
    let w := (s.opnd c x).v
    let ya := (s.argPair c y).v
    let za := (s.argPair c z).v
    let land := 256 * bits w 63 52
    let out := decide (Config.spadBytes < land + landBytes (groupOf w).count)
    let s1 := if out then s.fault ctlSlot alignFault land else s
    s1.onGroup w true fun s g =>
      if out then s
      else s.enqueueGalley g (.call (bits w 51 44) (ya.setWidth 32) (ya.extractLsb' 32 32) (za.setWidth 32)
        (za.extractLsb' 32 32) land))

/-- GE.FENCE (R333). -/
def execGeFence (p : Pred) (c : Cluster) (x : SReg) (s : State) : Res :=
  .next (s.when p ctlSlot fun s => s.withRegs c [x] fun s =>
    s.onGroup (s.opnd c x).v false fun s g => s.enqueueGalley g .fence)

/-- The operands of GE.OPEN and GE.CLOSE break an alignment rule (R334). -/
def regionBad (start len st : Nat) : Bool :=
  decide (start % 4096 ≠ 0) || decide (len % 4096 ≠ 0) || len == 0 || decide (st % 8 ≠ 0) || decide (Config.spadBytes < st + 8)

/-- GE.OPEN (R334). -/
def execGeOpen (p : Pred) (c : Cluster) (x y z : SReg) (s : State) : Res :=
  .next (s.when p ctlSlot fun s => s.withRegs c [x, y, z] fun s =>
    let a := (s.opnd c x).v.toNat
    let n := (s.opnd c y).v.toNat
    let st := (s.opnd c z).v.toNat
    if regionBad a n st then s.fault ctlSlot alignFault a else s.enqueueGalley ⟨0, 0, 0⟩ (.opn a n st))

/-- GE.CLOSE (R334). -/
def execGeClose (p : Pred) (c : Cluster) (x z : SReg) (s : State) : Res :=
  .next (s.when p ctlSlot fun s => s.withRegs c [x, z] fun s =>
    let a := (s.opnd c x).v.toNat
    let st := (s.opnd c z).v.toNat
    if regionBad a 4096 st then s.fault ctlSlot alignFault a else s.enqueueGalley ⟨0, 0, 0⟩ (.cls a st))

end Sys2Proof.Machine
end

