-- ==== Sys2Proof/Machine/Rows.lean ====
section
/-! DEFINITION. Rows and their lanes (R34 to R36, R108, R110, R117, R120), tag checks (R36, R181), the largest magnitude and
the threshold check of a row (R132, R143), and the common shape of an instruction of the row slots. -/

namespace Sys2Proof.Machine

/-- The slot number of VEC. -/
def vecSlot : Nat := 5
/-- The slot number of MAT. -/
def matSlot : Nat := 6
/-- The slot number of XPS. -/
def xpsSlot : Nat := 7

/-- Element width of a tag in bits (R34); a Raw or Poison row is taken in bytes (R224). -/
def tagWidth (t : BitVec 4) : Nat :=
  match t.toNat with
  | 1 | 6 | 13 => 32
  | 2 | 3 | 7 => 16
  | 9 => 4
  | 12 => 1
  | _ => 8

/-- Lanes of a tag (R34). -/
def tagLanes (t : BitVec 4) : Nat := 1024 / tagWidth t

/-- The floating format of a tag (R120). -/
def tagFmt (t : BitVec 4) : Option Fmt :=
  match t.toNat with
  | 1 => some .fp32 | 2 => some .bf16 | 3 => some .fp16 | 4 => some .tf8 | 5 => some .tf6
  | _ => none

/-- Tag class F of R180. -/
def tagF (t : BitVec 4) : Bool := decide (1 ≤ t.toNat) && decide (t.toNat ≤ 5)

/-- Tag class I of R180. -/
def tagI (t : BitVec 4) : Bool := decide (6 ≤ t.toNat) && decide (t.toNat ≤ 9)

/-- Tag class X of R180. -/
def tagX (t : BitVec 4) : Bool := t == 13

/-- Tag class M of R180. -/
def tagM (t : BitVec 4) : Bool := t == 12

/-- A reserved tag (R35). -/
def tagReserved (t : BitVec 4) : Bool := t == 10 || t == 11 || t == 15

/-- The tag of a lane format (R192, R205). -/
def laneTagCode : LaneTag → BitVec 4
  | .fp32 => 1 | .bf16 => 2 | .fp16 => 3 | .tf8 => 4 | .tf6 => 5 | .i32 => 6 | .i16 => 7 | .i8 => 8 | .i4 => 9 | .idx => 13

/-- The tag that VTAG names (R205). -/
def newTagCode : NewTag → BitVec 4
  | .raw => 0
  | .lane t => laneTagCode t
  | .mask => 12

/-- Lane `i` of a row at a width (R34). -/
def laneAt (b : RowBits) (w i : Nat) : Nat := (b >>> (w * i)).toNat % 2 ^ w

/-- The lanes of a row at a width. -/
def lanesOf (b : RowBits) (w : Nat) : List Nat := (List.range (1024 / w)).map (laneAt b w)

/-- The number that lanes of a width spell, lane 0 lowest. -/
def packNat (w : Nat) : List Nat → Nat
  | [] => 0
  | x :: xs => x % 2 ^ w + 2 ^ w * packNat w xs

/-- The row contents that lanes spell (R34). -/
def packLanes (w : Nat) (xs : List Nat) : RowBits := BitVec.ofNat 1024 (packNat w xs)

/-- The lanes of a row under its tag. -/
def Row.lanes (r : Row) : List Nat := lanesOf r.bits (tagWidth r.tag)

/-- A row of a tag. -/
def mkRow (t : BitVec 4) (eb : BitVec 16) (xs : List Nat) : Row := ⟨packLanes (tagWidth t) xs, t, eb⟩

/-- The value of a lane under a tag (R108, R110, R120, R182). -/
def laneNum (t : BitVec 4) (x : Nat) : Num :=
  match tagFmt t with
  | some f => value f x
  | none => if tagX t then .ofNat x else .ofInt (intValue (tagWidth t) true x)

/-- The integer of a lane: signed, or an Index as n32 (R182). -/
def laneInt (t : BitVec 4) (x : Nat) : Int := if tagX t then x else intValue (tagWidth t) true x

/-- The values of a row's lanes. -/
def Row.nums (r : Row) : List Num := r.lanes.map (laneNum r.tag)

/-- IV when a value read is a signalling NaN, or a malformed TF6 lane (R105, R114). -/
def sigFlags (xs : List Num) : Flags := flagIf (xs.any (·.isSig)) fIV

/-- The largest magnitude of values, over the finite ones (R132). -/
def largestOf : List Num → Num
  | [] => .zero
  | x :: xs => if x.isFin then nmax x.abs (largestOf xs) else largestOf xs

/-- The largest magnitude of a floating row (R132). -/
def Row.largest (r : Row) : Num := largestOf r.nums

/-- The OR of flag sets. -/
def orFlags (fs : List Flags) : Flags := fs.foldl (· ||| ·) 0

/-! ## Bytes of a row -/

/-- The 128 bytes of a row (R288). -/
def rowBytes (b : RowBits) : List Byte := (lanesOf b 8).map (BitVec.ofNat 8)

/-- The row contents of 128 bytes (R288). -/
def bytesRow (bs : List Byte) : RowBits := packLanes 8 (bs.map (·.toNat))

/-- Four TF6 codes in three bytes (R117). -/
def tf6Pack : List Nat → List Byte
  | a :: b :: c :: d :: t =>
    leBytes 3 (a % 64 + 64 * (b % 64) + 4096 * (c % 64) + 262144 * (d % 64)) ++ tf6Pack t
  | _ => []

/-- The TF6 codes of groups of three bytes (R117). -/
def tf6Unpack : List Byte → List Nat
  | a :: b :: c :: t =>
    let g := ofLe [a, b, c]
    [g % 64, g / 64 % 64, g / 4096 % 64, g / 262144] ++ tf6Unpack t
  | _ => []

/-! ## Checks -/

/-- The tag check of rows at the operand read: a reserved tag, a tag that is not accepted, unequal tags; Poison is accepted
everywhere (R36, R181). -/
def tagCheck (ok : BitVec 4 → Bool) (rows : List Row) : Option AccFault :=
  let ts := (rows.map (·.tag)).filter (· ≠ tagPoison)
  if ts.any tagReserved then some (formatFault 0)
  else if ts.any (fun t => !ok t) || ts.any (fun t => t != ts.headD 0) then some (formatFault 1)
  else none

/-- A row is tagged Poison. -/
def Row.isPoison (r : Row) : Bool := r.tag == tagPoison

/-- The threshold check of R143: the row fails it. -/
def Row.boundFails (thr : BitVec 16) (r : Row) : Bool :=
  tagF r.tag && !r.largest.isZero && ncmp (ebValue r.eb) (nmul (ebValue thr) r.largest).1 == .gt

/-! ## The shape of a row instruction -/

/-- An instruction of a row slot that reads rows and writes a row: the tag check, the Poison result, or the result of `f`
(R36, R179, R181). -/
def State.rowInstr (s : State) (slot : Nat) (p : Pred) (d : VReg) (src : List VReg) (ok : BitVec 4 → Bool) (lat : Nat)
    (f : List Row → Row × Flags) : State :=
  s.when p slot fun s =>
    let rows := src.map s.rowOp
    match tagCheck ok rows with
    | some e => s.fault slot e
    | none =>
      if rows.any Row.isPoison then s.postRow slot d lat poisonRow 0 (rowKeys src)
      else s.postRow slot d lat (f rows).1 (f rows).2

/-- As `rowInstr`, with one row and one scalar: a poisoned scalar gives a Poison row too. -/
def State.rowScalarInstr (s : State) (slot : Nat) (p : Pred) (d a : VReg) (c : Cluster) (r : SReg) (ok : BitVec 4 → Bool)
    (lat : Nat) (f : Row → Word → Row × Flags) : State :=
  s.when p slot fun s =>
    let x := s.rowOp a
    let y := s.opnd c r
    match tagCheck ok [x] with
    | some e => s.fault slot e
    | none =>
      if x.isPoison || y.pois then s.postRow slot d lat poisonRow 0 (rowKeys [a] ++ regKeys c [r])
      else s.postRow slot d lat (f x y.v).1 (f x y.v).2

end Sys2Proof.Machine
end

