-- ==== Sys2Proof/Machine/Special.lean ====
section
/-! DEFINITION. The special functions of R195 and R196: 2^x, log2 x, 1/x, 1/√x and tanh x, each as an exact value where it is
one, else as a lower neighbour at a unit far below every rounding point, with the sticky mark (log entry 15). -/

namespace Sys2Proof.Machine

/-- Bits of the fixed-point numbers that the enclosures compute with. -/
def spBits : Nat := 256

/-- Bits of the result that an enclosure keeps below its leading digit. -/
def spKeep : Nat := 120

/-- The product over the bits of `f`, a fraction of `n` bits, of the successive square roots of 2, as fixed-point numbers;
`c` is the root for the next bit. -/
def exp2Bits (f : Nat) : Nat → Nat → Nat → Nat
  | 0, _, acc => acc
  | n + 1, c, acc =>
    let c' := isqrt (c <<< spBits)
    exp2Bits f n c' (if f.testBit n then (acc * c') >>> spBits else acc)

/-- 2^x of a finite value: x = n + f with 0 ≤ f < 1. An exponent beyond ±1000 is taken as ±1000, which every format rounds
alike. -/
def nexp2Fin (neg : Bool) (m : Nat) (e : Int) : Num :=
  let z : Int := if neg then -(m : Int) else m
  if 0 ≤ e then
    let n := if 10 < e + m.log2 then (if neg then -1000 else 1000) else z * 2 ^ e.toNat
    .pow2 (max (-1000) (min 1000 n))
  else
    let k := (-e).toNat
    let n := max (-1000) (min 1000 (z / 2 ^ k))
    let f := (z % 2 ^ k).toNat
    if f = 0 then .pow2 n
    else
      let fx := if k ≤ 192 then f <<< (192 - k) else f >>> (k - 192)
      .fin false (exp2Bits fx 192 (2 <<< spBits) (1 <<< spBits) >>> (spBits - spKeep)) (n - spKeep) true

/-- 2^x (R195, R196). -/
def nexp2 (x : Num) : Num × Flags :=
  match x with
  | .nan s => (.nan false, flagIf s fIV)
  | .inf n => (if n then .zero else .inf false, 0)
  | .fin n m e _ => (if m = 0 then .pow2 0 else nexp2Fin n m e, 0)

/-- `n` further bits of log2 y, for fixed-point 1 ≤ y < 2, after those in `acc`. -/
def log2Bits : Nat → Nat → Nat → Nat
  | 0, _, acc => acc
  | n + 1, y, acc =>
    let z := (y * y) >>> spBits
    if 2 ^ (spBits + 1) ≤ z then log2Bits n (z >>> 1) (2 * acc + 1) else log2Bits n z (2 * acc)

/-- log2 of m × 2^e, m not zero. -/
def nlog2Fin (m : Nat) (e : Int) : Num :=
  let E : Int := e + m.log2
  let y := if m.log2 ≤ spBits then m <<< (spBits - m.log2) else m >>> (m.log2 - spBits)
  if m = 2 ^ m.log2 then .ofInt E
  else
    let f := log2Bits spKeep y 0
    let z : Int := E * 2 ^ spKeep + f
    if 0 ≤ z then .fin false z.toNat (-spKeep) true else .fin true (-z - 1).toNat (-spKeep) true

/-- log2 x (R195, R196). -/
def nlog2 (x : Num) : Num × Flags :=
  match x with
  | .nan s => (.nan false, flagIf s fIV)
  | .inf n => if n then (.nan false, fIV) else (.inf false, 0)
  | .fin n m e _ => if m = 0 then (.inf true, fDZ) else if n then (.nan false, fIV) else (nlog2Fin m e, 0)

/-- 1/x (R195, R196). -/
def nrcp (x : Num) : Num × Flags := ndiv (.pow2 0) x

/-- 1/√(m × 2^e), m not zero: ⌊√⌊2^2k / m'⌋⌋ with the exponent made even. -/
def nrsqFin (m : Nat) (e : Int) : Num :=
  let m' := if e % 2 = 0 then m else 2 * m
  let e' := if e % 2 = 0 then e else e - 1
  let k := guardBits + m'.log2
  let r := isqrt (2 ^ (2 * k) / m')
  .fin false r (-(e' / 2) - k) (decide (r * r * m' ≠ 2 ^ (2 * k)))

/-- 1/√x (R195, R196). -/
def nrsq (x : Num) : Num × Flags :=
  match x with
  | .nan s => (.nan false, flagIf s fIV)
  | .inf n => if n then (.nan false, fIV) else (.zero, 0)
  | .fin n m e _ => if m = 0 then (.inf n, fDZ) else if n then (.nan false, fIV) else (nrsqFin m e, 0)

/-- The Taylor sums of sinh and cosh, term by term, for a fixed-point argument with `p` fraction bits: `t` is term number
`i`. -/
def sinhCosh (p x : Nat) : Nat → Nat → Nat → Nat → Nat → Nat × Nat
  | 0, _, _, sh, ch => (sh, ch)
  | n + 1, i, t, sh, ch =>
    let t' := ((t * x) >>> p) / (i + 1)
    if i % 2 = 0 then sinhCosh p x n (i + 1) t' (sh + t') ch else sinhCosh p x n (i + 1) t' sh (ch + t')

/-- tanh of a finite value of magnitude m × 2^e, not zero. -/
def ntanhFin (neg : Bool) (m : Nat) (e : Int) : Num :=
  let E : Int := e + m.log2
  if E < -60 then .fin neg (m * 2 ^ 64 - 1) (e - 64) true
  else if 6 ≤ E then .fin neg (2 ^ 100 - 1) (-100) true
  else
    let p : Nat := 512
    let x := if 0 ≤ e + p then m <<< (e + p).toNat else m >>> (-(e + p)).toNat
    let (sh, ch) := sinhCosh p x 400 0 (1 <<< p) 0 (1 <<< p)
    .fin neg ((sh <<< 256) / ch) (-256) true

/-- tanh x (R195, R196). -/
def ntanh (x : Num) : Num × Flags :=
  match x with
  | .nan s => (.nan false, flagIf s fIV)
  | .inf n => (.fin n 1 0 false, 0)
  | .fin n m e _ => if m = 0 then (.fin n 0 0 false, 0) else (ntanhFin n m e, 0)

/-- The special functions. -/
inductive SpecialFn where
  | exp2 | log2 | rcp | rsq | tanh
  deriving DecidableEq, Repr

/-- The value of a special function. -/
def special : SpecialFn → Num → Num × Flags
  | .exp2 => nexp2
  | .log2 => nlog2
  | .rcp => nrcp
  | .rsq => nrsq
  | .tanh => ntanh

/-- The quotient x / y of positive values, +∞ for a zero divisor. -/
def posDiv (x y : Num) : Num := if y.isZero then .inf false else (ndiv x y).1

/-- Dmax of R135, over the values of the lanes whose input and result are finite; 0 when there is no such lane. -/
def dmax (f : SpecialFn) (ea : Num) (xs : List Num) : Num :=
  let top := xs.foldl (fun a x => match a with | none => some x | some y => some (if ncmp y x = .lt then x else y)) none
  let nz := (xs.map Num.abs).filter (fun x => !x.isZero)
  let low := nz.foldl (fun a x => match a with | none => some x | some y => some (if ncmp x y = .lt then x else y)) none
  match f, top, low with
  | .tanh, _, _ => .pow2 0
  | .exp2, some x, _ => (nmul (.fin false 3 (-2) false) (nexp2 (nadd .rne x ea).1).1).1
  | .exp2, none, _ => .zero
  | _, _, none => .zero
  | g, _, some m =>
    let d := (nadd .rne m ea.neg).1
    if d.isZero || d.sign then .inf false
    else match g with
      | .log2 => posDiv (.fin false 3 (-1) false) d
      | .rcp => posDiv (.pow2 0) (nmul d d).1
      | _ => (nmul (.pow2 (-1)) (nrsq (nmul (nmul d d).1 d).1).1).1

end Sys2Proof.Machine
end

