-- ==== Sys2Proof/Machine/Vector.lean ====
section
/-! DEFINITION. The VEC slot (R129, R130, R133 to R136, R179 to R207). -/

namespace Sys2Proof.Machine

/-! ## Bounds and lanes -/

/-- The bound after a rounded result: the propagated bound, the rounding term at the largest magnitude of the lanes written,
+∞ on overflow or saturation (R133). -/
def roundedBound (e : BitVec 16) (f : Fmt) (mode : RMode) (out : List Nat) (F : Flags) : BitVec 16 :=
  if F &&& fOF ≠ 0 then ebInf
  else
    let top := largestOf (out.map (value f))
    addBound e (if mode = .rne then halfUlp f top else ulp f top)

/-- The sum of two bounds or propagated terms. -/
def bsum (x y : Num) : Num := (nadd .rup x y).1

/-- The product of two propagated terms. -/
def bmul (x y : Num) : Num := (nmul x y).1

/-- The propagated term of a product (R134). -/
def mulProp (x y : Row) : Num :=
  let a := ebValue x.eb
  let b := ebValue y.eb
  bsum (bsum (bmul x.largest b) (bmul y.largest a)) (bmul a b)

/-- Lane-wise results with their flags, rounded once each (R129). -/
def roundLanes (f : Fmt) (zs : List (Num × Flags)) : List Nat × Flags :=
  let rs := zs.map fun z => let (r, g) := roundTo f .rne z.1; (r, z.2 ||| g)
  (rs.map (·.1), orFlags (rs.map (·.2)))

/-- A floating or integer result row of lane-wise exact arithmetic: `fz` on values, `iz` on integers, `prop` the propagated
term (R184). -/
def arithRow (t : BitVec 4) (prop : Num) (zs : List (Num × Flags)) (is : List Int) : Row × Flags :=
  match tagFmt t with
  | some f =>
    let (out, F) := roundLanes f zs
    (mkRow t (roundedBound (boundOf prop) f .rne out F) out, F)
  | none => (mkRow t 0 (is.map fun z => (z % 2 ^ tagWidth t).toNat), 0)

/-- The integers of a row's lanes (R182). -/
def Row.ints (r : Row) : List Int := r.lanes.map (laneInt r.tag)

/-- Row `i` of the operands. -/
def nth (rs : List Row) (i : Nat) : Row := rs.getD i {}

/-- The sum or difference of two rows, `g` being the sign that the second takes. -/
def addRows (g : Bool) (x y : Row) : Row × Flags :=
  arithRow x.tag (bsum (ebValue x.eb) (ebValue y.eb))
    (List.zipWith (fun a b => nadd .rne a (if g then Num.neg b else b)) x.nums y.nums)
    (List.zipWith (fun a b => if g then a - b else a + b) x.ints y.ints)

/-- Tag classes F, I, X of R180. -/
def tagFIX (t : BitVec 4) : Bool := tagF t || tagI t || tagX t

/-- Tag classes F, I of R180. -/
def tagFI (t : BitVec 4) : Bool := tagF t || tagI t

/-- Tag classes F, I, X, M of R180. -/
def tagFIXM (t : BitVec 4) : Bool := tagFIX t || tagM t

/-! ## Element-wise arithmetic -/

/-- VADD (R184). -/
def execVadd (p : Pred) (d a b : VReg) (s : State) : Res :=
  .next (s.rowInstr vecSlot p d [a, b] tagFIX 2 fun rs => addRows false (nth rs 0) (nth rs 1))

/-- VSUB (R184). -/
def execVsub (p : Pred) (d a b : VReg) (s : State) : Res :=
  .next (s.rowInstr vecSlot p d [a, b] tagFIX 2 fun rs => addRows true (nth rs 0) (nth rs 1))

/-- The product of two rows (R184). -/
def mulRows (x y : Row) : Row × Flags :=
  arithRow x.tag (mulProp x y) (List.zipWith nmul x.nums y.nums) (List.zipWith (· * ·) x.ints y.ints)

/-- VMUL (R184). -/
def execVmul (p : Pred) (d a b : VReg) (s : State) : Res :=
  .next (s.rowInstr vecSlot p d [a, b] tagFI 4 fun rs => mulRows (nth rs 0) (nth rs 1))

/-- a × b + c, or c − a × b for `g`, of three rows (R184). -/
def fmaRows (g : Bool) (x y z : Row) : Row × Flags :=
  arithRow x.tag (bsum (mulProp x y) (ebValue z.eb))
    ((List.zip x.nums y.nums).zipWith (fun ab c =>
      let (m, f) := nmul ab.1 ab.2
      let (r, h) := nadd .rne c (if g then m.neg else m)
      (r, f ||| h)) z.nums)
    ((List.zip x.ints y.ints).zipWith (fun ab c => if g then c - ab.1 * ab.2 else c + ab.1 * ab.2) z.ints)

/-- VFMA (R184). -/
def execVfma (p : Pred) (d a b : VReg) (s : State) : Res :=
  .next (s.rowInstr vecSlot p d [a, b, d] tagFI 4 fun rs => fmaRows false (nth rs 0) (nth rs 1) (nth rs 2))

/-- VFMS (R184). -/
def execVfms (p : Pred) (d a b : VReg) (s : State) : Res :=
  .next (s.rowInstr vecSlot p d [a, b, d] tagFI 4 fun rs => fmaRows true (nth rs 0) (nth rs 1) (nth rs 2))

/-- The smaller or larger of two lanes, with their values (R185). -/
def pickLane (t : BitVec 4) (mx : Bool) (x y : Nat × Num) : Nat × Num :=
  if x.2.isNan && y.2.isNan then
    (match tagFmt t with | some f => canonNan f | none => 0, .nan false)
  else if x.2.isNan then y
  else if y.2.isNan then x
  else if mx then (if ncmpZ x.2 y.2 = .lt then y else x)
  else (if ncmpZ x.2 y.2 = .gt then y else x)

/-- Lanes with their values. -/
def Row.pairs (r : Row) : List (Nat × Num) := r.lanes.map fun x => (x, laneNum r.tag x)

/-- The bound of an exact lane operation: the largest bound read for a floating row, 0 for another (R133, R134, R182). -/
def exactBound (t : BitVec 4) (eb : BitVec 16) : BitVec 16 := if tagF t then eb else 0

/-- VMIN and VMAX of two rows (R185). -/
def pickRows (mx : Bool) (x y : Row) : Row × Flags :=
  (mkRow x.tag (exactBound x.tag (maxBound x.eb y.eb))
    ((List.zipWith (pickLane x.tag mx) x.pairs y.pairs).map (·.1)), sigFlags x.nums ||| sigFlags y.nums)

/-- VMIN (R185). -/
def execVmin (p : Pred) (d a b : VReg) (s : State) : Res :=
  .next (s.rowInstr vecSlot p d [a, b] tagFIX 2 fun rs => pickRows false (nth rs 0) (nth rs 1))

/-- VMAX (R185). -/
def execVmax (p : Pred) (d a b : VReg) (s : State) : Res :=
  .next (s.rowInstr vecSlot p d [a, b] tagFIX 2 fun rs => pickRows true (nth rs 0) (nth rs 1))

/-- The sign bit of a floating lane (R104, R111). -/
def signBit (f : Fmt) : Nat := f.ew + f.fw

/-- A floating lane with its sign bit cleared or inverted; the zero and NaN codes of a tapered format stay (R186). A malformed
TF6 lane reads as NaN (R182), so its eight bits stay as they are (DEDUCED, log entry 78). -/
def signLane (f : Fmt) (neg : Bool) (x : Nat) : Nat :=
  if f.isTf && ((value f x).isNan || x == 0) then x
  else if neg then x ^^^ 2 ^ signBit f
  else if x.testBit (signBit f) then x - 2 ^ signBit f else x

/-- VABS and VNEG of a row (R182, R186): a malformed TF6 lane reads as NaN and raises IV. -/
def signRow (neg : Bool) (x : Row) : Row × Flags :=
  match tagFmt x.tag with
  | some f => (mkRow x.tag x.eb (x.lanes.map (signLane f neg)), if f = .tf6 then sigFlags x.nums else 0)
  | none => (mkRow x.tag 0 (x.ints.map fun z => ((if neg then -z else (z.natAbs : Int)) % 2 ^ tagWidth x.tag).toNat), 0)

/-- VABS (R186). -/
def execVabs (p : Pred) (d a : VReg) (s : State) : Res :=
  .next (s.rowInstr vecSlot p d [a] tagFI 2 fun rs => signRow false (nth rs 0))

/-- VNEG (R186). -/
def execVneg (p : Pred) (d a : VReg) (s : State) : Res :=
  .next (s.rowInstr vecSlot p d [a] tagFI 2 fun rs => signRow true (nth rs 0))

/-! ## Logic and shifts -/

/-- The bound of a bitwise result: +∞ for a floating row (R134). -/
def bitBound (t : BitVec 4) : BitVec 16 := if tagF t then ebInf else 0

/-- VAND (R187). -/
def execVand (p : Pred) (d a b : VReg) (s : State) : Res :=
  .next (s.rowInstr vecSlot p d [a, b] tagFIXM 2 fun rs =>
    (⟨(nth rs 0).bits &&& (nth rs 1).bits, (nth rs 0).tag, bitBound (nth rs 0).tag⟩, 0))

/-- VOR (R187). -/
def execVor (p : Pred) (d a b : VReg) (s : State) : Res :=
  .next (s.rowInstr vecSlot p d [a, b] tagFIXM 2 fun rs =>
    (⟨(nth rs 0).bits ||| (nth rs 1).bits, (nth rs 0).tag, bitBound (nth rs 0).tag⟩, 0))

/-- VXOR (R187). -/
def execVxor (p : Pred) (d a b : VReg) (s : State) : Res :=
  .next (s.rowInstr vecSlot p d [a, b] tagFIXM 2 fun rs =>
    (⟨(nth rs 0).bits ^^^ (nth rs 1).bits, (nth rs 0).tag, bitBound (nth rs 0).tag⟩, 0))

/-- VNOT (R187). -/
def execVnot (p : Pred) (d a : VReg) (s : State) : Res :=
  .next (s.rowInstr vecSlot p d [a] tagFIXM 2 fun rs => (⟨~~~(nth rs 0).bits, (nth rs 0).tag, bitBound (nth rs 0).tag⟩, 0))

/-- A lane-wise shift (R188): `f` takes the width, the lane and the amount. -/
def shiftRows (f : Nat → Nat → Nat → Nat) (x y : Row) : Row × Flags :=
  (mkRow x.tag (bitBound x.tag) (List.zipWith (f (tagWidth x.tag)) x.lanes y.lanes), 0)

/-- VSHL's lane (R188). -/
def shlLane (w x n : Nat) : Nat := if w ≤ n then 0 else x * 2 ^ n % 2 ^ w

/-- VSHR's lane (R188). -/
def shrLane (w x n : Nat) : Nat := if w ≤ n then 0 else x / 2 ^ n

/-- VSRA's lane (R188). -/
def sraLane (w x n : Nat) : Nat := (intValue w true x / 2 ^ (min n w) % 2 ^ w).toNat

/-- VSHL (R188). -/
def execVshl (p : Pred) (d a b : VReg) (s : State) : Res :=
  .next (s.rowInstr vecSlot p d [a, b] tagFIX 2 fun rs => shiftRows shlLane (nth rs 0) (nth rs 1))

/-- VSHR (R188). -/
def execVshr (p : Pred) (d a b : VReg) (s : State) : Res :=
  .next (s.rowInstr vecSlot p d [a, b] tagFIX 2 fun rs => shiftRows shrLane (nth rs 0) (nth rs 1))

/-- VSRA (R188). -/
def execVsra (p : Pred) (d a b : VReg) (s : State) : Res :=
  .next (s.rowInstr vecSlot p d [a, b] tagFIX 2 fun rs => shiftRows sraLane (nth rs 0) (nth rs 1))

/-! ## Compare and select -/

/-- The plane of R189 in which a compare of two values sets its bit. -/
def cmpPlane (x y : Num) : Nat :=
  if x.isNan || y.isNan then 3 else match ncmp x y with | .lt => 0 | .eq => 1 | .gt => 2

/-- The mask of R189 from the planes of its lanes. -/
def maskBits (planes : List Nat) : RowBits :=
  packLanes 256 ((List.range 4).map fun k => packNat 1 (planes.map fun q => if q = k then 1 else 0))

/-- VCMP (R190). -/
def execVcmp (p : Pred) (d a b : VReg) (s : State) : Res :=
  .next (s.rowInstr vecSlot p d [a, b] tagFIX 2 fun rs =>
    let x := (nth rs 0).nums
    let y := (nth rs 1).nums
    (⟨maskBits (List.zipWith cmpPlane x y), 12, 0⟩, sigFlags x ||| sigFlags y))

/-- Lane `i` of a mask is set in some plane (R191). -/
def maskLane (m : RowBits) (i : Nat) : Bool :=
  m.getLsbD i || m.getLsbD (256 + i) || m.getLsbD (512 + i) || m.getLsbD (768 + i)

/-- VSEL's contents (R191). A lane of a mask row is its four plane bits (log entry 16). -/
def selBits (m : RowBits) (x y : Row) : RowBits :=
  if tagM x.tag then
    let lanes : RowBits := packLanes 1 ((List.range 256).map fun i => if maskLane m i then 1 else 0)
    let all := lanes ||| lanes <<< 256 ||| lanes <<< 512 ||| lanes <<< 768
    (x.bits &&& all) ||| (y.bits &&& ~~~all)
  else packLanes (tagWidth x.tag)
    ((List.range (tagLanes x.tag)).map fun i => laneAt (if maskLane m i then x.bits else y.bits) (tagWidth x.tag) i)

/-- VSEL (R191): vd holds the mask; va and vb any equal tag except Raw. -/
def execVsel (p : Pred) (d a b : VReg) (s : State) : Res :=
  .next (s.when p vecSlot fun s =>
    let m := s.rowOp d
    let x := s.rowOp a
    let y := s.rowOp b
    match (tagCheck tagM [m]) <|> tagCheck (fun t => t != 0) [x, y] with
    | some e => s.fault vecSlot e
    | none =>
      if m.isPoison || x.isPoison || y.isPoison then s.postRow vecSlot d 2 poisonRow 0 (rowKeys [d, a, b])
      else s.postRow vecSlot d 2 ⟨selBits m.bits x y, x.tag, maxBound x.eb y.eb⟩ 0)

/-! ## Lane moves between rows and scalars -/

/-- VBCAST (R192). -/
def execVbcast (p : Pred) (d : VReg) (t : LaneTag) (c : Cluster) (r : SReg) (s : State) : Res :=
  .next (s.when p vecSlot fun s =>
    let x := s.opnd c r
    let tg := laneTagCode t
    let v := if t = .tf6 then x.v.toNat % 64 else x.v.toNat
    if x.pois then s.postRow vecSlot d 2 poisonRow 0 (regKeys c [r])
    else s.postRow vecSlot d 2 (mkRow tg 0 (List.replicate (tagLanes tg) v)) 0)

/-- A lane index is beyond the row's lanes; INT4 rows count bytes (R193). -/
def laneBad (t : BitVec 4) (j : Nat) : Bool := decide (tagLanes t ≤ j)

/-- What VEXT reads (R193). -/
def extLane (x : Row) (j : Nat) : Word :=
  if x.tag = 9 then BitVec.ofNat 64 (laneAt x.bits 8 j)
  else if tagI x.tag then wrapWord (intValue (tagWidth x.tag) true (laneAt x.bits (tagWidth x.tag) j))
  else BitVec.ofNat 64 (laneAt x.bits (tagWidth x.tag) j)

/-- VEXT (R193). -/
def execVext (p : Pred) (d : SReg) (a : VReg) (j : BitVec 7) (s : State) : Res :=
  .next (s.when p vecSlot fun s =>
    let x := s.rowOp a
    match tagCheck tagFIX [x] with
    | some e => s.fault vecSlot e
    | none =>
      if x.isPoison then s.postScalar vecSlot .b d 2 0 0 true (rowKeys [a])
      else if laneBad x.tag j.toNat then s.fault vecSlot (formatFault 2)
      else s.postScalar vecSlot .b d 2 (extLane x j.toNat) 0 false)

/-- Row contents with one lane replaced. -/
def setLaneBits (b : RowBits) (w j v : Nat) : RowBits :=
  let m : RowBits := BitVec.ofNat 1024 (2 ^ w - 1) <<< (w * j)
  (b &&& ~~~m) ||| ((BitVec.ofNat 1024 v <<< (w * j)) &&& m)

/-- VINS (R194). -/
def execVins (p : Pred) (d : VReg) (j : BitVec 7) (c : Cluster) (r : SReg) (s : State) : Res :=
  .next (s.when p vecSlot fun s =>
    let x := s.rowOp d
    let y := s.opnd c r
    match tagCheck tagFIX [x] with
    | some e => s.fault vecSlot e
    | none =>
      if !x.isPoison && laneBad x.tag j.toNat then s.fault vecSlot (formatFault 2)
      else if x.isPoison || y.pois then s.postRow vecSlot d 2 poisonRow 0 (rowKeys [d] ++ regKeys c [r])
      else
        let w := if x.tag = 9 then 8 else tagWidth x.tag
        s.postRow vecSlot d 2 ⟨setLaneBits x.bits w j.toNat y.v.toNat, x.tag, x.eb⟩ 0)

/-! ## Special functions -/

/-- The values of the lanes whose input and result are finite (R135). -/
def finiteLanes (f : Fmt) (xs : List Num) (out : List Nat) : List Num :=
  (List.zip xs out).filterMap fun z => if z.1.isFin && (value f z.2).isFin then some z.1 else none

/-- The propagated bound of a special function (R135). -/
def specialProp (fn : SpecialFn) (eb : BitVec 16) (xs : List Num) : BitVec 16 :=
  let ea := ebValue eb
  if eb = 0 then 0 else if ea.isInf then ebInf else boundOf (nmul ea (dmax fn ea xs)).1

/-- A special function of a row (R195). -/
def specialRow (fn : SpecialFn) (x : Row) : Row × Flags :=
  match tagFmt x.tag with
  | some f =>
    let (out, F) := roundLanes f (x.nums.map (special fn))
    (mkRow x.tag (roundedBound (specialProp fn x.eb (finiteLanes f x.nums out)) f .rne out F) out, F)
  | none => (x, 0)

/-- VEXP2 (R195). -/
def execVexp2 (p : Pred) (d a : VReg) (s : State) : Res :=
  .next (s.rowInstr vecSlot p d [a] tagF 8 fun rs => specialRow .exp2 (nth rs 0))

/-- VLOG2 (R195). -/
def execVlog2 (p : Pred) (d a : VReg) (s : State) : Res :=
  .next (s.rowInstr vecSlot p d [a] tagF 8 fun rs => specialRow .log2 (nth rs 0))

/-- VRCP (R195). -/
def execVrcp (p : Pred) (d a : VReg) (s : State) : Res :=
  .next (s.rowInstr vecSlot p d [a] tagF 8 fun rs => specialRow .rcp (nth rs 0))

/-- VRSQ (R195). -/
def execVrsq (p : Pred) (d a : VReg) (s : State) : Res :=
  .next (s.rowInstr vecSlot p d [a] tagF 8 fun rs => specialRow .rsq (nth rs 0))

/-- VTANH (R195). -/
def execVtanh (p : Pred) (d a : VReg) (s : State) : Res :=
  .next (s.rowInstr vecSlot p d [a] tagF 8 fun rs => specialRow .tanh (nth rs 0))

/-! ## Reductions -/

/-- One level of the tree of R130: the sums as FP32 values, with flags. -/
def treeLevel : List Num → List Num × Flags
  | a :: b :: t =>
    let (z, f) := nadd .rne a b
    let (r, g) := roundTo .fp32 .rne z
    let (ys, h) := treeLevel t
    (value .fp32 r :: ys, f ||| g ||| h)
  | _ => ([], 0)

/-- The tree of R130 over at most 2^k lanes: the root, the flags, and the largest magnitude among the sums formed. -/
def tree : Nat → List Num → Num × Flags × Num
  | 0, xs => (xs.headD .zero, 0, .zero)
  | k + 1, xs =>
    match xs with
    | _ :: _ :: _ =>
      let (ys, f) := treeLevel xs
      let (r, g, m) := tree k ys
      (r, f ||| g, nmax (largestOf ys) m)
    | _ => (xs.headD .zero, 0, .zero)

/-- VRSUM of a row (R197). -/
def sumRow (x : Row) : Row × Flags :=
  match tagFmt x.tag with
  | some _ =>
    let n := tagLanes x.tag
    let (r, F, mt) := tree 8 x.nums
    let e := boundOf (nmul (.ofNat n) (ebValue x.eb)).1
    let eb := if F &&& fOF ≠ 0 then ebInf else addBound e (nmul (.ofNat (n - 1)) (halfUlp .fp32 mt)).1
    (mkRow 1 eb [(roundTo .fp32 .rne r).1], F)
  | none => (⟨BitVec.ofNat 1024 (x.ints.foldl (· + ·) 0 % 2 ^ 64).toNat, 6, 0⟩, 0)

/-- VRSUM (R197). -/
def execVrsum (p : Pred) (d a : VReg) (s : State) : Res :=
  .next (s.rowInstr vecSlot p d [a] tagFI 6 fun rs => sumRow (nth rs 0))

/-- VRMAX and VRMIN of a row (R198). -/
def pickAll (mx : Bool) (x : Row) : Row × Flags :=
  match x.pairs with
  | [] => (x, 0)
  | q :: qs => (mkRow x.tag x.eb [(qs.foldl (pickLane x.tag mx) q).1], sigFlags x.nums)

/-- VRMAX (R198). -/
def execVrmax (p : Pred) (d a : VReg) (s : State) : Res :=
  .next (s.rowInstr vecSlot p d [a] tagFIX 6 fun rs => pickAll true (nth rs 0))

/-- VRMIN (R198). -/
def execVrmin (p : Pred) (d a : VReg) (s : State) : Res :=
  .next (s.rowInstr vecSlot p d [a] tagFIX 6 fun rs => pickAll false (nth rs 0))

/-! ## Conversions, scaling and quantisation -/

/-- The larger of the lane counts over the smaller (R200). -/
def laneFactor (ns nt : Nat) : Nat := max ns nt / min ns nt

/-- Place converted lanes by the lane counts (R200): `old` gives the lanes that are kept, or zeros. -/
def placeLanes (ns nt part : Nat) (conv : Nat → Nat) (old : List Nat) : List Nat :=
  (List.range nt).map fun i =>
    if ns < nt then (if part * ns ≤ i ∧ i < part * ns + ns then conv (i - part * ns) else old.getD i 0)
    else conv (part * nt + i)

/-- A conversion of row `x` into tag `t`, with `cv` converting one value and `e` the propagated bound; `rnd` says that the
rounding term is added (R199, R200). `old` is vd as read: a vd tagged Poison gives zero in the lanes not written and no Poison row,
since R200 has its tag "only compared" (DEDUCED, log entry 77). -/
def convRow (x old : Row) (t : BitVec 4) (part : Nat) (mode : RMode) (cv : Num → Nat × Flags) (e : BitVec 16) (rnd : Bool) :
    Row × Flags :=
  let ns := tagLanes x.tag
  let nt := tagLanes t
  let keep := decide (ns < nt) && old.tag == t
  let src := if nt < ns then ((x.nums.drop (part * nt)).take nt) else x.nums
  let cs := src.map cv
  let F := orFlags (cs.map (·.2))
  let out := cs.map (·.1)
  let all := if ns < nt then
      placeLanes ns nt part (fun i => out.getD i 0) (if keep then old.lanes else [])
    else out
  let eb := match tagFmt t with
    | some f => if rnd then roundedBound e f mode out F else if F &&& fOF ≠ 0 then ebInf else e
    | none => 0
  (mkRow t (if keep then maxBound eb old.eb else eb) all, F)

/-- The target tag of VCVT (R199). -/
def cvtTag : CvtDst → BitVec 4
  | .fp32 => 1 | .bf16 => 2 | .fp16 => 3 | .tf8 => 4 | .tf6 => 5 | .i32 => 6 | .i16 => 7 | .i8 => 8

/-- A conversion that performs no rounding (R136). -/
def cvtExact (src dst : BitVec 4) : Bool :=
  src == dst ||
  match src.toNat, dst.toNat with
  | 3, 1 | 2, 1 | 4, 1 | 5, 1 | 8, 1 | 7, 1 => true
  | 4, 3 | 5, 3 | 8, 3 | 4, 2 | 5, 2 | 8, 2 => true
  | 5, 4 => true
  | _, _ => false

/-- VCVT's conversion of one value (R199). -/
def cvtLane (src dst : BitVec 4) (mode : RMode) (x : Num) : Nat × Flags :=
  match tagFmt dst with
  | some f => roundTo f mode x
  | none =>
    let w := tagWidth dst
    if tagF src then let (z, F) := roundToInt w true mode x; ((z % 2 ^ w).toNat, F)
    else match x with
      | .fin n m e _ => ((satInt w true (if n then -((m <<< e.toNat : Nat) : Int) else (m <<< e.toNat : Nat)) % 2 ^ w).toNat, 0)
      | _ => (0, 0)

/-- The source tags that VCVT takes (R199). -/
def cvtAccepts (t : BitVec 4) : Bool := tagF t || t == 6 || t == 7 || t == 8

/-- VCVT (R199, R200). -/
def execVcvt (p : Pred) (d a : VReg) (part : BitVec 2) (m : RMode) (t : CvtDst) (s : State) : Res :=
  .next (s.when p vecSlot fun s =>
    let x := s.rowOp a
    let tt := cvtTag t
    match tagCheck cvtAccepts [x] with
    | some e => s.fault vecSlot e
    | none =>
      if x.isPoison then s.postRow vecSlot d 3 poisonRow 0 (rowKeys [a])
      else if laneFactor (tagLanes x.tag) (tagLanes tt) ≤ part.toNat then s.fault vecSlot (formatFault 2)
      else
        let e := if tagF x.tag then boundOf (ebValue x.eb) else 0
        let r := convRow x (s.rowOp d) tt part.toNat m (cvtLane x.tag tt m) e (!cvtExact x.tag tt)
        s.postRow vecSlot d 3 r.1 r.2)

/-- VSCALE of a row (R201). -/
def scaleRow (x : Row) (v : Word) : Row × Flags :=
  match tagFmt x.tag with
  | some f =>
    let sc := value .fp32 (v.toNat % 2 ^ 32)
    let (out, F) := roundLanes f (x.nums.map fun z => nmul z sc)
    (mkRow x.tag (roundedBound (boundOf (nmul sc.abs (ebValue x.eb)).1) f .rne out F) out, F)
  | none => (x, 0)

/-- VSCALE (R201). -/
def execVscale (p : Pred) (d a : VReg) (c : Cluster) (r : SReg) (s : State) : Res :=
  .next (s.rowScalarInstr vecSlot p d a c r tagF 4 scaleRow)

/-- A rounding mode from its code (R77). -/
def rmodeOf (n : Nat) : RMode :=
  match n with
  | 0 => .rne | 1 => .rtz | 2 => .rdn | _ => .rup

/-- VQUANT's conversion of a quotient to an integer target (R202). -/
def quantInt (w : Nat) (mode : RMode) (q : Num) : Nat × Flags :=
  let enc (z : Int) : Nat := (z % 2 ^ w).toNat
  match q with
  | .nan _ => (0, fIV)
  | .inf n => (enc (if n then intMin w true else intMax w true), fOF ||| fNX)
  | .fin n m e st =>
    let (z, inexact) := selectInt mode n m e st
    let y := satInt w true z
    (enc y, flagIf (decide (z ≠ y)) fOF ||| flagIf (inexact || decide (z ≠ y)) fNX)

/-- VQUANT's conversion of one value (R202). -/
def quantLane (t : BitVec 4) (mode : RMode) (sc x : Num) : Nat × Flags :=
  let (q, F) := ndiv x sc
  match tagFmt t with
  | some f => let (r, g) := roundTo f mode q; (r, F ||| g)
  | none => let (r, g) := quantInt (tagWidth t) mode q; (r, F ||| g)

/-- The target tags of VQUANT (R202). -/
def quantTag (t : Nat) : Bool := t == 2 || t == 3 || t == 4 || t == 5 || t == 7 || t == 8 || t == 9

/-- The propagated bound of VQUANT (R134): ea / |s|, +∞ for s = 0; and for an s that is no number, of which R134 says nothing (DESIGN
CHOICE, log entry 79). -/
def quantProp (eb : BitVec 16) (sc : Num) : BitVec 16 :=
  if sc.isNan || sc.isZero then ebInf else boundOf (ndiv (ebValue eb) sc.abs).1

/-- VQUANT (R202). -/
def execVquant (p : Pred) (d a : VReg) (c : Cluster) (r : SReg) (s : State) : Res :=
  .next (s.when p vecSlot fun s =>
    let x := s.rowOp a
    let y := s.opnd c r
    let tg := bits y.v 35 32
    let part := bits y.v 40 38
    let mode := rmodeOf (bits y.v 37 36)
    let sc := value .fp32 (y.v.toNat % 2 ^ 32)
    let tt := BitVec.ofNat 4 tg
    match tagCheck (fun t => t == 1 || t == 2 || t == 3) [x] with
    | some e => s.fault vecSlot e
    | none =>
      if y.pois then s.postRow vecSlot d 3 poisonRow 0 (regKeys c [r])
      else if !quantTag tg then s.fault vecSlot (formatFault 3)
      else if x.isPoison then s.postRow vecSlot d 3 poisonRow 0 (rowKeys [a])
      else if laneFactor (tagLanes x.tag) (tagLanes tt) ≤ part then s.fault vecSlot (formatFault 2)
      else
        let z := convRow x (s.rowOp d) tt part mode (quantLane tt mode sc) (quantProp x.eb sc) true
        s.postRow vecSlot d 3 z.1 z.2)

/-! ## Nibbles, bytes and metadata -/

/-- VNIB's lanes (R203). -/
def nibLanes (uns ilv half : Bool) (b : RowBits) : List Nat :=
  (List.range 128).map fun i =>
    let h := if half then 1 else 0
    let x := laneAt b 4 (if ilv then 2 * i + h else 128 * h + i)
    if uns then x else (intValue 4 true x % 256).toNat

/-- VNIB (R203). -/
def execVnib (p : Pred) (d a : VReg) (uns ilv half : Bool) (s : State) : Res :=
  .next (s.rowInstr vecSlot p d [a] (fun t => t == 9) 2 fun rs => (mkRow 8 0 (nibLanes uns ilv half (nth rs 0).bits), 0))

/-- VBPERM's byte (R204). -/
def permByte (b : RowBits) (j k : Nat) : Nat :=
  if k.testBit 7 then 0
  else
    let x := laneAt b 8 (4 * (j / 4) + k % 4)
    if k.testBit 6 then x % 16 * 16 + x / 16 else x

/-- VBPERM (R204). -/
def execVbperm (p : Pred) (d a b : VReg) (s : State) : Res :=
  .next (s.when p vecSlot fun s =>
    let x := s.rowOp a
    let y := s.rowOp b
    match (tagCheck tagFIX [x]) <|> tagCheck (fun t => t == 8) [y] with
    | some e => s.fault vecSlot e
    | none =>
      if x.isPoison || y.isPoison then s.postRow vecSlot d 2 poisonRow 0 (rowKeys [a, b])
      else s.postRow vecSlot d 2
        ⟨packLanes 8 ((List.range 128).map fun j => permByte x.bits j (laneAt y.bits 8 j)), x.tag, x.eb⟩ 0)

/-- VTAG (R205). -/
def execVtag (p : Pred) (d a : VReg) (t : NewTag) (s : State) : Res :=
  .next (s.rowInstr vecSlot p d [a] (fun _ => true) 2 fun rs => (⟨(nth rs 0).bits, newTagCode t, (nth rs 0).eb⟩, 0))

/-- c(k) of R206. -/
def bndConst (k : BitVec 5) : Num := if k = 0 then .zero else .pow2 ((k.toNat : Int) - 25)

/-- The threshold check of a row by a slot: a failure is a precision-escalation event (R143, R144). -/
def State.checkBound (s : State) (slot : Nat) (x : Row) : State :=
  if x.boundFails s.iss.pre.thr then s.escalate slot 0 else s

/-- VBND (R206). -/
def execVbnd (p : Pred) (d a : VReg) (o : BndOp) (k : BitVec 5) (s : State) : Res :=
  .next (match o with
    | .set => s.rowInstr vecSlot p d [a] tagF 2 fun rs => (⟨(nth rs 0).bits, (nth rs 0).tag, boundOf (bndConst k)⟩, 0)
    | .add => s.rowInstr vecSlot p d [a] tagF 2 fun rs =>
        (⟨(nth rs 0).bits, (nth rs 0).tag, addBound (nth rs 0).eb (bndConst k)⟩, 0)
    | .chk => s.when p vecSlot fun s =>
        match tagCheck (fun _ => true) [s.rowOp a] with
        | some e => s.fault vecSlot e
        | none => s.checkBound vecSlot (s.rowOp a))

end Sys2Proof.Machine
end

