-- ==== Sys2Proof/Machine/Matrix.lean ====
section
/-! DEFINITION. The MAT slot: beats and their bounds (R125 to R128, R137, R138), the beat sequencer's steps (R208 to R215) and
the MX instructions (R216 to R223). An MX instruction that occupies the slot loads the sequencer; each tick, the issuing tick
included, then performs one step. -/

namespace Sys2Proof.Machine

/-! ## Beats -/

/-- The 8-bit class of R217. -/
def class8 (t : BitVec 4) : Bool := t == 4 || t == 5 || t == 8

/-- The 16-bit class of R217. -/
def class16 (t : BitVec 4) : Bool := t == 2 || t == 3

/-- The tag of a bank format; 0 for none and Poison. -/
def bankTag : BankFmt → BitVec 4
  | .tf8 => 4 | .tf6 => 5 | .int8 => 8 | .bf16 => 2 | .fp16 => 3 | _ => 0

/-- The bank format of a tag (R218). -/
def tagBank (t : BitVec 4) : BankFmt :=
  match t.toNat with
  | 4 => .tf8 | 5 => .tf6 | 8 => .int8 | 2 => .bf16 | 3 => .fp16 | _ => .poison

/-- The K positions of a row under R211: 128 lanes of 8 bits, or 32 lanes of 16 bits from the half `h`. -/
def kLanes (t : BitVec 4) (h : Bool) (b : RowBits) : List Nat :=
  if class16 t then ((lanesOf b 16).drop (if h then 32 else 0)).take 32 else lanesOf b 8

/-- The weights of a bank column at its K positions; exact zeros for a bank of format none (R208). -/
def Bank.weights (b : Bank) (col : RowBits) : List Num :=
  match b.fmt with
  | .none | .poison => List.replicate 128 .zero
  | f => (if class16 (bankTag f) then (lanesOf col 16).take 32 else lanesOf col 8).map (laneNum (bankTag f))

/-- A zero that a beat produces is +0 (R127). -/
def plusZero (x : Num) : Num := if x.isZero then .zero else x

/-- RoundTo(FP32, RNE) inside a beat, as a value. -/
def beatRound (x : Num) : Num × Flags :=
  let (r, f) := roundTo .fp32 .rne x
  (plusZero (value .fp32 r), f)

/-- The exact sum of the products of one processing element, on top of `acc` (R125). -/
def peSum : List (Num × Num) → Num × Flags → Num × Flags
  | [], acc => acc
  | (a, w) :: t, (p, F) =>
    let (m, f) := nmul a w
    let (z, g) := nadd .rne p m
    peSum t (z, F ||| f ||| g)

/-- The column sum over processing-element rows 0 to 31, `g` products each: the sum, the flags and the largest magnitude met
(R125, R137). `n` counts the rows left; `c` is none before row 0. -/
def colSum (g : Nat) : Nat → List (Num × Num) → Option Num → Flags → Num → Num × Flags × Num
  | 0, _, c, F, mc => (c.getD .zero, F, mc)
  | n + 1, ps, c, F, mc =>
    let (p, f) := peSum (ps.take g) (.zero, 0)
    let (x, h) := match c with | none => (p, 0) | some c => nadd .rne c p
    let (y, k) := beatRound x
    colSum g n (ps.drop g) (some y) (F ||| f ||| h ||| k) (if y.isFin then nmax y.abs mc else mc)

/-- BeatSums of R125 for one activation row against a bank: FP32 sums, flags, Mc. -/
def beatSums (a : List Num) (b : Bank) (g : Nat) : Vector Word32 32 × Flags × Num :=
  let cs := b.cols.map fun col => colSum g 32 (List.zip a (b.weights col)) none 0 .zero
  (cs.map fun c => BitVec.ofNat 32 (roundTo .fp32 .rne c.1).1,
    orFlags (cs.toList.map (·.2.1)), largestOf (cs.toList.map (·.2.2)))

/-- Beat `i` as it is pushed: its payload, whether it is poisoned, and its flags (R212, R217). -/
def Core.pushBeat (k : Core) (i : Nat) : Payload × Bool × Flags :=
  let q := k.seq
  let bank := if k.sel then k.w1 else k.w0
  let row := k.v.toList.getD (q.vs + i) {}
  let vd : VReg := BitVec.ofNat 7 (q.vd + i)
  let acc := q.kind == .maca
  if row.isPoison || bank.fmt == .poison then
    (.beat vd acc (Vector.replicate 32 0) 0x3F800000 ebInf k.sel, true, 0)
  else
    let g := if class16 row.tag then 1 else 4
    let a := (kLanes row.tag k.h row.bits).map (laneNum row.tag)
    let (sums, F, mc) := beatSums a bank g
    let (sp, G) := if k.nsc then (0x3F800000, 0) else scaleProduct (k.ss.toList.getD i 0x3F80) bank.ws
    let ea := ebValue row.eb
    let ew := ebValue bank.ew
    let w := value .fp32 bank.w.toNat
    let e0 := boundOf (bmul (.ofNat (32 * g)) (bsum (bsum (bmul (largestOf a) ew) (bmul w ea)) (bmul ea ew)))
    let e1 := addBound e0 (bmul (.ofNat 32) (halfUlp .fp32 mc))
    (.beat vd acc sums (BitVec.ofNat 32 sp) (mulBound e1 (value .fp32 sp)) k.sel, false, F ||| G)

/-- What a beat writes at its landing, `old` being the row before that tick's writes (R126, R137, R217). -/
def landBeat (old : Row) (acc : Bool) (sums : Vector Word32 32) (sp : Word32) (eb : BitVec 16) (pois : Bool) (F : Flags) :
    Row × Flags :=
  if pois || (acc && old.isPoison) then (poisonRow, 0)
  else
    let s := value .fp32 sp.toNat
    let olds := if acc then lanesOf old.bits 32 else List.replicate 32 0
    let rs := List.zipWith (fun x o =>
      let (m, f) := nmul (value .fp32 (BitVec.toNat x)) s
      let (z, g) := nadd .rne (value .fp32 o) m
      let (r, h) := roundTo .fp32 .rne z
      (if r = 0x80000000 then 0 else r, f ||| g ||| h)) sums.toList olds
    let out := rs.map (·.1)
    let G := F ||| orFlags (rs.map (·.2))
    let e1 := if acc then addBound old.eb (ebValue eb) else eb
    let e2 := addBound e1 (halfUlp .fp32 (largestOf (out.map (value .fp32))))
    (⟨packLanes 32 out, 1, if G &&& fOF ≠ 0 then ebInf else e2⟩, G)

/-! ## Drain and clear steps, and weight loads -/

/-- The tag of a drain format. -/
def dfmtTag : DrainFmt → BitVec 4
  | .fp32 => 1 | .bf16 => 2 | .fp16 => 3

/-- The format of a drain format. -/
def dfmtFmt : DrainFmt → Fmt
  | .fp32 => .fp32 | .bf16 => .bf16 | .fp16 => .fp16

/-- What a drain step writes (R223). -/
def drainRow (d : DrainFmt) (x : Row) : Row × Flags :=
  if x.isPoison then (poisonRow, 0)
  else
    let f := dfmtFmt d
    let (out, F) := roundLanes f ((lanesOf x.bits 32).map fun l => (value .fp32 l, 0))
    let e := boundOf (ebValue x.eb)
    (mkRow (dfmtTag d) (if d = .fp32 then (if F &&& fOF ≠ 0 then ebInf else e) else roundedBound e f .rne out F) out, F)

/-- The column that MX.WLOAD loads from a row: its K positions (R218). -/
def wloadCol (h : Bool) (x : Row) : RowBits :=
  if x.isPoison then 0
  else if class16 x.tag then packLanes 16 (kLanes x.tag h x.bits) else x.bits

/-- One more row of an MX.WLOAD (R218). -/
def Seq.loadRow (q : Seq) (x : Row) : Seq :=
  let col := wloadCol q.h x
  let top := if x.isPoison then .zero else largestOf ((kLanes x.tag q.h x.bits).map (laneNum x.tag))
  { q with
    cols := q.cols ++ [col]
    poison := q.poison || x.isPoison
    tag := if x.isPoison then q.tag else x.tag
    eb := maxBound q.eb x.eb
    w := BitVec.ofNat 32 (roundTo .fp32 .rne (nmax (value .fp32 q.w.toNat) top)).1
    next := q.next + 1 }

/-- The bank that a finished MX.WLOAD writes; ws is not changed (R218). -/
def Seq.bankOf (q : Seq) (old : Bank) : Bank :=
  { cols := Vector.ofFn fun i => q.cols.getD i.val 0
    fmt := if q.poison then .poison else tagBank q.tag
    ew := q.eb
    w := q.w
    ws := old.ws }

/-- The sequencer after a step: idle when it was the last (R209). -/
def Seq.advance (q : Seq) : Seq := if q.n ≤ q.next + 1 then {} else { q with next := q.next + 1 }

/-- The entry that a step of the sequencer places in flight: its issue tick is that of the MX bundle (R463), its origin the earliest of
those of what it has read (R462). -/
def Core.stepEntry (k : Core) (pay : Payload) (pois : Bool) (r : Nat) (F : Flags) (keys : List Nat) : Entry :=
  ⟨pay, pois, r, F, matSlot, k.seq.itick, .no, if pois then (k.oldest keys).getD noOrigin else k.here, {}⟩

/-- Put an entry among those in flight, which stand in issue order, those of one tick in slot order (R47, R463). -/
def insertIssue (e : Entry) : List Entry → List Entry
  | [] => [e]
  | x :: xs =>
    if e.itick.toNat < x.itick.toNat ∨ (e.itick = x.itick ∧ e.slot < x.slot) then e :: x :: xs else x :: insertIssue e xs

/-- The earliest origin of what an MX.WLOAD has read poisoned, with one more row. -/
def Core.loadOrigin (k : Core) (v : Nat) : Option Nat :=
  if (k.v.toList.getD v {}).isPoison then ((k.seq.org.toList ++ (k.oldest [porigKey 3 v]).toList).min?) <|> some noOrigin
  else k.seq.org

/-- One step of the beat sequencer in a tick whose core, before the tick's landings, is `k` (R209). -/
def Core.seqStep (k : Core) : Core :=
  let q := k.seq
  let i := q.next
  match q.kind with
  | .idle => k
  | .mac | .maca =>
    let (pay, pois, F) := k.pushBeat i
    { k with
      infl := insertIssue (k.stepEntry pay pois 36 F [porigKey 3 (q.vs + i), bankKey k.sel]) k.infl, seq := q.advance }
  | .drain =>
    let (x, F) := drainRow q.dfmt (k.v.toList.getD (q.vs + i) {})
    { k with
      infl := insertIssue (k.stepEntry (.row (BitVec.ofNat 7 (q.vd + i)) x) x.isPoison 3 F [porigKey 3 (q.vs + i)]) k.infl
      seq := q.advance }
  | .clr =>
    { k with
      infl := insertIssue (k.stepEntry (.row (BitVec.ofNat 7 (q.vd + i)) ⟨0, 1, 0⟩) false 1 0 []) k.infl, seq := q.advance }
  | .wload =>
    let q1 := { q.loadRow (k.v.toList.getD (q.vs + i) {}) with org := k.loadOrigin (q.vs + i) }
    if q1.n ≤ q1.next then
      let k1 := k.noteShared (bankKey q.bank) q1.poison (q1.org.getD noOrigin)
      if q.bank then { k1 with w1 := q1.bankOf k.w1, seq := {} } else { k1 with w0 := q1.bankOf k.w0, seq := {} }
    else { k with seq := q1 }

/-! ## The MX instructions -/

/-- Run a MAT instruction under its predicate: an occupied slot is one of its faults (R209, R455). -/
def State.matInstr (s : State) (p : Pred) (eff : State → State) : State :=
  s.when p matSlot fun s => eff (if s.iss.pre.seq.kind != .idle then s.fault matSlot (schedFault 0x00) else s)

/-- The rows that a count names, from a first one. -/
def rowRange (v : VReg) (n : Nat) : List VReg := (List.range n).map fun i => BitVec.ofNat 7 (v.toNat + i)

/-- The common tag of rows that are not Poison; 0 when there is none. -/
def commonTag (rows : List Row) : BitVec 4 := ((rows.map (·.tag)).filter (· ≠ tagPoison)).headD 0

/-- The tags that a beat and MX.WLOAD accept (R217, R218). -/
def beatTag (t : BitVec 4) : Bool := class8 t || class16 t

/-- A beat in flight writes a row before the accumulate read of a step (R217). -/
def Core.beatPending (k : Core) (v : VReg) : Bool :=
  k.infl.any fun e => match e.pay with | .beat w .. => w == v | _ => false

/-- The tag check of the accumulator rows of MX.MACA (R217). -/
def State.accCheck (s : State) (rows : List VReg) : Option AccFault :=
  tagCheck (fun t => t == 1) ((rows.filter fun v => !s.iss.pre.beatPending v).map s.rowOp)

/-- MX.MAC and MX.MACA (R210, R217). -/
def State.matMac (s : State) (p : Pred) (d v : VReg) (n : BitVec 7) (acc : Bool) : State :=
  s.matInstr p fun s =>
    let rows := (rowRange v n.toNat).map s.rowOp
    let k := s.iss.pre
    let bt := bankTag (if k.sel then k.w1 else k.w0).fmt
    let ct := commonTag rows
    match tagCheck beatTag rows <|>
        (if bt ≠ 0 ∧ ct ≠ 0 ∧ class8 bt ≠ class8 ct then some (formatFault 1) else none) <|>
        (if acc then s.accCheck (rowRange d n.toNat) else none) with
    | some e => s.fault matSlot e
    | none => s.modMe fun c => { c with
        seq := { kind := if acc then .maca else .mac, vd := d.toNat, vs := v.toNat, n := n.toNat, itick := k.tick } }

/-- MX.MAC (R216, R217). -/
def execMxMac (p : Pred) (d v : VReg) (n : BitVec 7) (s : State) : Res := .next (s.matMac p d v n false)

/-- MX.MACA (R216, R217). -/
def execMxMaca (p : Pred) (d v : VReg) (n : BitVec 7) (s : State) : Res := .next (s.matMac p d v n true)

/-- A beat in flight carries a bank (R214). -/
def Core.bankBusy (k : Core) (b : Bool) : Bool :=
  k.infl.any fun e => match e.pay with | .beat _ _ _ _ _ w => w == b | _ => false

/-- MX.WLOAD (R214, R218). -/
def execMxWload (p : Pred) (b : Bool) (v : VReg) (n : BitVec 7) (s : State) : Res :=
  .next (s.matInstr p fun s =>
    let s1 := if s.iss.pre.bankBusy b then s.fault matSlot (schedFault 0x04) else s
    match tagCheck beatTag ((rowRange v n.toNat).map s.rowOp) with
    | some e => s1.fault matSlot e
    | none => s1.modMe fun c => { c with
        seq := { kind := .wload, vs := v.toNat, n := n.toNat, bank := b, h := s.iss.pre.h, itick := s.iss.pre.tick } })

/-- MX.WSWAP (R219). -/
def execMxWswap (p : Pred) (f : SwapSel) (s : State) : Res :=
  .next (s.matInstr p fun s => s.modMe fun c => { c with
    sel := match f with | .toggle => !s.iss.pre.sel | .w0 => false | .w1 => true })

/-- MX.DRAIN (R223): the bound check of every source row at the commit point (R144). -/
def execMxDrain (p : Pred) (d v : VReg) (n : BitVec 7) (s : State) : Res :=
  .next (s.matInstr p fun s =>
    let rows := (rowRange v n.toNat).map s.rowOp
    match tagCheck (fun t => t == 1) rows with
    | some e => s.fault matSlot e
    | none =>
      let s1 := if rows.any (·.boundFails s.iss.pre.thr) then s.escalate matSlot 0 else s
      s1.modMe fun c => { c with
        seq := { kind := .drain, vd := d.toNat, vs := v.toNat, n := n.toNat, dfmt := s.iss.pre.dfmt, itick := s.iss.pre.tick } })

/-- MX.CLR (R222). -/
def execMxClr (p : Pred) (d : VReg) (n : BitVec 7) (s : State) : Res :=
  .next (s.matInstr p fun s => s.modMe fun c => { c with
    seq := { kind := .clr, vd := d.toNat, n := n.toNat, itick := s.iss.pre.tick } })

/-- MX.SSCALE, row form (R220). -/
def execMxSscale (p : Pred) (v : VReg) (s : State) : Res :=
  .next (s.matInstr p fun s =>
    let x := s.rowOp v
    if x.isPoison then s.deferRow matSlot 4 v
    else match tagCheck (fun t => t == 2) [x] with
      | some e => s.fault matSlot e
      | none => s.modMe fun c => { c with ss := Vector.ofFn fun i => BitVec.ofNat 16 (laneAt x.bits 16 i.val) })

/-- MX.SSCALE.b (R220). -/
def execMxSscaleB (p : Pred) (a : SReg) (s : State) : Res :=
  .next (s.matInstr p fun s =>
    let x := s.opnd .a a
    if x.pois then s.deferReg matSlot 4 .a a
    else s.modMe fun c => { c with ss := Vector.replicate 64 (x.v.setWidth 16) })

/-- MX.WSCALE (R214, R220). -/
def execMxWscale (p : Pred) (b : Bool) (a : SReg) (s : State) : Res :=
  .next (s.matInstr p fun s =>
    let s1 := if s.iss.pre.bankBusy b then s.fault matSlot (schedFault 0x04) else s
    let x := s.opnd .a a
    if x.pois then s1.deferReg matSlot 4 .a a
    else s1.modMe fun c =>
      if b then { c with w1 := { c.w1 with ws := x.v.setWidth 16 } } else { c with w0 := { c.w0 with ws := x.v.setWidth 16 } })

/-- MX.MODE (R221). -/
def execMxMode (p : Pred) (f : DrainFmt) (h nsc : Bool) (s : State) : Res :=
  .next (s.matInstr p fun s => s.modMe fun c => { c with nsc := nsc, h := h, dfmt := f })

end Sys2Proof.Machine
end

