-- ==== Sys2Proof/Machine/Registers.lean ====
section
/-! DEFINITION. What configuration space reads as: the registers of chapters 12, 14 to 21 and the read window of a held context
image (R461 to R463, R467). Writes are in RegWrite.lean. -/

namespace Sys2Proof.Machine

/-! ## The context image -/

/-- A Boolean as a bit. -/
def b2n (b : Bool) : Nat := if b then 1 else 0

/-- The code of a drain format (R216). -/
def dfmtCode : DrainFmt → Nat
  | .fp32 => 0 | .bf16 => 1 | .fp16 => 2

/-- The code of a bank format (R461). -/
def bankCode : BankFmt → Nat
  | .none => 0 | .tf8 => 1 | .tf6 => 2 | .int8 => 3 | .bf16 => 4 | .fp16 => 5 | .poison => 6

/-- The code of a sequencer kind (R461). -/
def seqCode : SeqKind → Nat
  | .idle => 0 | .mac => 1 | .maca => 2 | .wload => 3 | .drain => 4 | .clr => 5

/-- An entry of a candidate list in the layout of XS.RDC (R232). -/
def candWord (c : Cand) : Nat := c.id.toNat * 2 ^ 32 + c.score.toNat

/-- The empty entry (R228). -/
def emptyCand : Cand := ⟨0xFF800000, 0xFFFFFFFF⟩

/-- The 64 entries of a candidate list, then the word with its poison flag, in 0x210 bytes (R461). -/
def listBytes (l : CList) : List Byte :=
  ((List.range 64).flatMap fun j => leBytes 8 (candWord (l.ents.getD j emptyCand))) ++ leBytes 16 (b2n l.poison)

/-- An in-flight entry (R463). -/
def entryBytes (e : Entry) : List Byte :=
  let (kind, dst, md, sp, acc, data) : Nat × Nat × Nat × Nat × Nat × List Byte := match e.pay with
    | .scalar c r v => (1, dstScalar c r, 0, 0, 0, leBytes 8 v.toNat)
    | .pred p v => (2, p.val, 0, 0, 0, leBytes 8 (b2n v))
    | .row v x => (3, v.toNat, x.tag.toNat * 2 ^ 16 + x.eb.toNat, 0, 0, rowBytes x.bits)
    | .beat v acc sums sp eb _ =>
      (4, v.toNat, eb.toNat, sp.toNat, b2n acc, sums.toList.flatMap fun x => leBytes 4 x.toNat)
    | .list l x => (5, l.val, 0, 0, 0, (List.range 64).flatMap fun j => leBytes 8 (candWord (x.ents.getD j emptyCand)))
  let w0 := kind + b2n e.poison * 2 ^ 3 + dst * 2 ^ 4 + e.r * 2 ^ 11 + e.F.toNat * 2 ^ 17 + e.slot * 2 ^ 22
  let head := leBytes 8 w0 ++ leBytes 8 e.itick.toNat ++ leBytes 8 md ++ leBytes 8 (sp + acc * 2 ^ 32) ++ leBytes 32 0
  head ++ data ++ leBytes (512 - data.length) 0

/-- The word of a special hardware loop and its second word (R461). -/
def loopBytes (k : Core) (l : Fin 4) : List Byte :=
  let x := k.lc.get l
  leBytes 8 (x.count.toNat + x.s.toNat * 2 ^ 32 + x.e.toNat * 2 ^ 48) ++
  leBytes 8 (b2n x.active + (if x.active then k.order.idxOf l * 2 else 0))

/-- The two words of a weight bank (R461). -/
def bankBytes (b : Bank) : List Byte :=
  leBytes 8 (bankCode b.fmt + b.ew.toNat * 2 ^ 16 + b.ws.toNat * 2 ^ 32) ++ leBytes 8 b.w.toNat

/-- The children of a core's task that are not complete (R395, R462). -/
def State.childCount (s : State) (c : CoreId) : Nat :=
  match (s.core c).task, s.taskOf c with
  | some i, some t =>
    (((s.part t.q).jobs.get t.job).graphs.map fun ls =>
      (ls.filter fun l => l.parent == some i && !l.ended && !l.discarded).length).sum
  | _, _ => 0

/-- The header (R462). -/
def headerBytes (k : Core) (children : Nat) : List Byte :=
  let form := match k.held with | some h => b2n h.reissue | none => 0
  leBytes 8 (0x01 + 0x01 * 2 ^ 8 + k.taskid.toNat * 2 ^ 32) ++
  leBytes 8 (k.addr.toNat + k.opc.toNat * 2 ^ 17 + b2n k.mark * 2 ^ 20 + k.bubble * 2 ^ 21 + k.rstack.length * 2 ^ 24 +
    form * 2 ^ 28 + b2n k.relaunch * 2 ^ 31) ++
  leBytes 8 k.tick.toNat ++
  leBytes 8 (k.wdog + k.idiv * 2 ^ 32 + k.fdiv * 2 ^ 40 + k.infl.length * 2 ^ 48) ++
  leBytes 8 k.fsr.toNat ++ leBytes 8 k.thr.toNat ++
  leBytes 8 (match k.earliest with | none => 0x1FFFF | some x => x.2 % 2 ^ 17) ++
  leBytes 8 children ++ leBytes 16 0 ++
  ((k.cx.toList.map fun c => (c.icount, c.tl)) ++ [(k.gx.icount, k.gx.tl)]).flatMap
    (fun x => leBytes 8 x.1 ++ leBytes 8 x.2) ++
  (List.range 4).flatMap (fun i => let r := k.gx.regions.getD i (0, 0); leBytes 8 r.1 ++ leBytes 8 r.2)

/-- The words of the beat sequencer (R461). -/
def seqBytes (q : Seq) : List Byte :=
  leBytes 8 (seqCode q.kind + q.vd * 2 ^ 3 + q.vs * 2 ^ 10 + q.n * 2 ^ 17 + q.next * 2 ^ 24 + b2n q.bank * 2 ^ 30 +
    b2n q.h * 2 ^ 31 + dfmtCode q.dfmt * 2 ^ 32 + q.tag.toNat * 2 ^ 34 + b2n q.poison * 2 ^ 38 + q.eb.toNat * 2 ^ 48) ++
  leBytes 8 q.w.toNat

/-- Byte `i` of a region. -/
def atByte (bs : List Byte) (i : Nat) : Byte := bs.getD i 0

/-- A byte of the first 0x2_0000 bytes of a core's full image (R461). -/
def imageByte (k : Core) (children off : Nat) : Byte :=
  if off < 0x100 then atByte (headerBytes k children) off
  else if off < 0x300 then
    let i := (off - 0x100) / 8
    atByte (leBytes 8 (if i < 32 then k.reg .a (BitVec.ofNat 5 i) else k.reg .b (BitVec.ofNat 5 (i - 32))).toNat) (off % 8)
  else if off < 0x340 then atByte ((List.finRange 4).flatMap (loopBytes k)) (off - 0x300)
  else if off < 0x350 then atByte (k.rstack.reverse.flatMap (leBytes 2)) (off - 0x340)
  else if off < 0x358 then atByte (leBytes 8 (k.p.toNat + k.pPois.toNat * 2 ^ 16)) (off - 0x350)
  else if off < 0x360 then atByte (leBytes 8 (k.aPois.toNat + k.bPois.toNat * 2 ^ 32)) (off - 0x358)
  else if off < 0x400 then 0
  else if off < 0xC40 then atByte (listBytes (k.cl.toList.getD ((off - 0x400) / 0x210) {})) ((off - 0x400) % 0x210)
  else if off < 0x1000 then 0
  else if off < 0x1200 then
    let x := k.v.toList.getD ((off - 0x1000) / 4) {}
    atByte (leBytes 4 (x.tag.toNat * 2 ^ 16 + x.eb.toNat)) (off % 4)
  else if off < 0x1280 then atByte (leBytes 2 (k.ss.toList.getD ((off - 0x1200) / 2) 0).toNat) (off % 2)
  else if off < 0x12A0 then atByte (bankBytes k.w0 ++ bankBytes k.w1) (off - 0x1280)
  else if off < 0x12A8 then
    atByte (leBytes 8 (b2n k.sel + b2n k.nsc * 2 + b2n k.h * 4 + dfmtCode k.dfmt * 8)) (off - 0x12A0)
  else if off < 0x12B8 then atByte (seqBytes k.seq) (off - 0x12A8)
  else if off < 0x2000 then 0
  else if off < 0x8C00 then
    match k.infl[(off - 0x2000) / 576]? with
    | some e => atByte (entryBytes e) ((off - 0x2000) % 576)
    | none => 0
  else if off < 0x9000 then 0
  else if off < 0xA000 then
    if k.seq.kind = .wload then atByte (rowBytes (k.seq.cols.getD ((off - 0x9000) / 128) 0)) (off % 128) else 0
  else if off < 0xE000 then atByte (rowBytes (k.v.toList.getD ((off - 0xA000) / 128) {}).bits) (off % 128)
  else if off < 0xF000 then atByte (rowBytes (k.w0.cols.toList.getD ((off - 0xE000) / 128) 0)) (off % 128)
  else if off < 0x10000 then atByte (rowBytes (k.w1.cols.toList.getD ((off - 0xF000) / 128) 0)) (off % 128)
  else if off < 0x18000 then atByte (leBytes 4 (sget 0 k.smeta ((off - 0x10000) / 4)).toNat) (off % 4)
  else 0

/-! ## Registers -/

/-- The base of configuration space (R237). -/
def configBase : Nat := 0x0F0000000000

/-- The launches of a job, over all its graphs. -/
def Job.launches (j : Job) : List Launch := j.graphs.flatten

/-- A launch counts as complete (R363, R364). -/
def Launch.isOver (l : Launch) : Bool := l.ended || l.discarded

/-- Graphs not complete (R363). -/
def Job.grCount (j : Job) : Nat := (j.graphs.filter fun ls => ls.any fun l => !l.isOver).length

/-- Launches released or waiting, not complete. -/
def Job.lrCount (j : Job) : Nat := (j.launches.filter fun l => !l.isOver).length

/-- Tasks of released launches not done, cancelled or failed. -/
def Job.trCount (j : Job) : Nat := ((j.launches.filter (·.released)).map (·.left)).sum

/-- JSTAT (R363). -/
def Job.stat (j : Job) : Word :=
  let st := if !j.live then 0 else if j.cancelling then 3 else if j.lrCount = 0 then 2 else 1
  BitVec.ofNat 64 (st * 2 ^ 62 + j.pri.toNat * 2 ^ 60 + j.grCount % 16 * 2 ^ 56 + j.lrCount % 2 ^ 16 * 2 ^ 40 +
    j.trCount % 2 ^ 40)

/-- KSTAT (R447). -/
def KeySlot.stat (k : KeySlot) : Word :=
  BitVec.ofNat 64 (k.fails.toNat * 2 ^ 40 + k.done.toNat * 2 ^ 16 + b2n k.busy * 2 ^ 10 + b2n k.prev.isSome * 2 ^ 9 +
    b2n k.key.isSome * 2 ^ 8 + k.gen.toNat)

/-- CPSTAT (R428): a task in staging has selected no point yet. -/
def Core.cpstat (k : Core) : Word :=
  BitVec.ofNat 64 (k.slack.toNat * 2 ^ 40 + k.vtrim.toNat * 2 ^ 30 + k.eff.toNat * 2 ^ 27 +
    (if k.task.isSome && k.st != .staging then k.opc.toNat else 0) * 2 ^ 24 + k.dr.toNat * 2 ^ 20 + b2n k.stretch)

/-- TRSTAT (R467). -/
def Core.trstat (k : Core) : Word :=
  BitVec.ofNat 64 (k.trseq.toNat * 2 ^ 32 + k.trcause.toNat * 2 ^ 24 + b2n k.cancelled * 2 + b2n k.held.isSome)

/-- RGBASE (R469). -/
def Ring.rgbase (r : Ring) : Word := BitVec.ofNat 64 (r.base + r.lsz.toNat)

/-- RGIDX (R469). -/
def Ring.rgidx (r : Ring) : Word := BitVec.ofNat 64 (b2n r.ovf * 2 ^ 63 + r.wix.toNat * 2 ^ 24 + r.rix.toNat)

/-- A register of a partition's scheduler block (R250, R360 to R376, R394, R397, R399, R423, R449, R471). -/
def Part.reg (p : Part) (o : Nat) : Option Word :=
  if o = 0x000 then some (p.pcore.setWidth 64)
  else if o = 0x008 then some ((p.pcore.extractLsb' 64 32).setWidth 64)
  else if o = 0x010 then some p.psch
  else if o = 0x018 then some (p.opcap.setWidth 64)
  else if o = 0x020 then some p.gtab
  else if o = 0x028 then some p.ptroot
  else if o = 0x030 then some (p.pevown.setWidth 64)
  else if o = 0x040 then some p.ctxa
  else if o = 0x048 then some (p.stall.setWidth 64)
  else if o = 0x080 then some 0
  else if 0x100 ≤ o ∧ o < 0x180 then some (p.jobs.toList.getD ((o - 0x100) / 8) {}).stat
  else if 0x200 ≤ o ∧ o < 0x280 then some ((p.mseq.toList.getD ((o - 0x200) / 8) 0).setWidth 64)
  else if o = 0x280 then some (BitVec.ofNat 64 (p.heap.length * 2 ^ 16 + p.bud.toNat))
  else if 0x400 ≤ o ∧ o < 0x600 then some (p.gp.toList.getD ((o - 0x400) / 8) 0)
  else none

/-- SLPCTL.st (R429). -/
def slpCode : Slp → Nat
  | .running => 0 | .entering => 1 | .asleep => 2 | .waking => 3

/-- A register of a core's trap or power block. -/
def Core.powerReg (k : Core) (o : Nat) : Option Word :=
  if o = 0x00 then some k.cpstat
  else if o = 0x08 then some (BitVec.ofNat 64 (b2n k.slktgtEn * 2 ^ 8 + k.slktgt.toNat))
  else if o = 0x10 then some (k.l2 ++ k.l1)
  else none

/-- A chase by number. -/
def State.chaseAt (s : State) (i : Nat) : Chase := s.chases.toList.getD i {}

/-- A core by number. -/
def State.coreAt (s : State) (i : Nat) : Core := s.cores.toList.getD i {}

/-- The fields of W0, W1 and W2 of a stripe descriptor: its reserved bits read as zero (R11, R314). -/
def w0Mask : Word := 0x8000FFFFFFFF0000

/-- As `w0Mask`. -/
def w1Mask : Word := 0x000003FF07FF03FF

/-- As `w0Mask`. -/
def w2Mask : Word := 0x0003FFFFFFFFFFFF

/-- The registers of an HDM decoder (R340; log entry 94): host physical base; device address; valid and length. -/
def Hdm.reg (d : Hdm) (n : Nat) : Option Word :=
  match n with
  | 0 => some d.hpa
  | 1 => some (BitVec.ofNat 64 d.da)
  | 2 => some (BitVec.ofNat 64 (b2n d.v * 2 ^ 63 + d.len % 2 ^ 63))
  | _ => none

/-- The register that assigns a function its partition (R341, R435; log entry 94). -/
def Func.partReg (f : Func) : Word :=
  match f.part with
  | some q => BitVec.ofNat 64 (2 ^ 63 + q.val)
  | none => 0

/-- CWCTL (R342). -/
def Func.cwctl (f : Func) : Word := BitVec.ofNat 64 (b2n f.en)

/-- CWSTAT (R342). -/
def Func.cwstat (f : Func) : Word :=
  BitVec.ofNat 64 (f.e.toNat * 2 ^ 32 + b2n f.rdy * 2 ^ 8 + b2n f.ph * 2 ^ 7 + f.h.toNat)

/-- The register that holds an entry's micro-address in an engine's entry table (R297, R298; log entry 92). -/
def Engine.entryReg (x : Engine) (n : Nat) : Word :=
  match x.entries.find? fun y => y.1 == n with
  | some y => BitVec.ofNat 64 (0x100 + y.2.toNat)
  | none => 0

/-- The 64-bit register at an 8-aligned offset of configuration space; none where no register lies. -/
def State.regRead (s : State) (o : Nat) : Option Word :=
  if 0x100000 ≤ o ∧ o < 0x102000 then
    let d : Stripe := sget {} s.stripes ((o - 0x100000) / 32)
    match o / 8 % 4 with | 0 => some d.w0 | 1 => some (d.w1 &&& w1Mask) | 2 => some (d.w2 &&& w2Mask) | _ => none
  else if 0x200000 ≤ o ∧ o < 0x218000 then
    (s.parts.toList.getD ((o - 0x200000) / 0x1000) {}).reg (o % 0x1000)
  else if o = 0x300000 then some (BitVec.ofNat 64 (slpCode s.slp))
  else if 0x400000 ≤ o ∧ o < 0x406000 then (s.coreAt ((o - 0x400000) / 0x100)).powerReg (o % 0x100)
  else if o = 0x500000 then some 0
  else if o = 0x500008 then some s.krbase
  else if 0x500100 ≤ o ∧ o < 0x500200 then some (s.keySlot ((o - 0x500100) / 8)).stat
  else if o = 0x600000 then some (s.devown.setWidth 64)
  else if o = 0x600008 then some (s.evdl.setWidth 64)
  else if 0x600100 ≤ o ∧ o < 0x600160 then some 0
  else if o = 0x600200 then some s.devRing.rgbase
  else if o = 0x600208 then some s.devRing.rgidx
  else if 0x600400 ≤ o ∧ o < 0x600700 then
    let r := s.rings.toList.getD ((o - 0x600400) / 0x40) {}
    match o % 0x40 with | 0 => some r.rgbase | 8 => some r.rgidx | _ => none
  else if 0x700000 ≤ o ∧ o < 0x706000 then
    match o % 0x100 with | 0 => some (s.coreAt ((o - 0x700000) / 0x100)).trstat | 8 => some 0 | _ => none
  else if 0x800000 ≤ o ∧ o < 0x800C00 then
    match o % 0x100 with
    | 0 | 0x10 => some 0
    | 8 => some (BitVec.ofNat 64 (b2n (s.chaseAt ((o - 0x800000) / 0x100)).xlbusy))
    | _ => none
  else if 0x900000 ≤ o ∧ o < 0x901840 then
    let f : Func := sget {} s.funcs ((o - 0x900000) / 0x40)
    match o % 0x40 with
    | 0 => some f.cwbase
    | 8 => some f.cqbase
    | 0x10 => some f.pacfg
    | 0x18 => some f.cwctl
    | 0x20 => some f.cwstat
    | _ => none
  else if 0xA00000 ≤ o ∧ o < 0xA00300 ∧ o % 0x40 = 0 then
    let c := s.chaseAt ((o - 0xA00000) / 0x40)
    some (BitVec.ofNat 64 (c.crepRet.toNat * 2 ^ 32 + c.crepPos.toNat))
  else if 0xA01000 ≤ o ∧ o < 0xA01300 then some ((sget 0x1FBF#14 s.ccol ((o - 0xA01000) / 8)).setWidth 64)
  else if 0xA02000 ≤ o ∧ o < 0xA02800 then
    let h := s.chan ((o - 0xA02000) / 8)
    some (BitVec.ofNat 64 (b2n h.spareUsed * 2 ^ 10 + h.sub.toNat * 2 ^ 8 + h.ret.toNat))
  else if o = 0xB00000 then some s.spint
  else if o = 0xC02000 then some (BitVec.ofNat 64 s.secMin)
  else if 0xC00000 ≤ o ∧ o < 0xC00308 then some (sget ({} : Func) s.funcs ((o - 0xC00000) / 8)).partReg
  else if 0xC01000 ≤ o ∧ o < 0xC01100 then (s.hdm.toList.getD ((o - 0xC01000) / 0x20) {}).reg (o / 8 % 4)
  else if 0xD00000 ≤ o ∧ o < 0xF00000 then some ((s.engine ((o - 0xD00000) / 0x800)).entryReg (o / 8 % 256))
  else if 0x1000000 ≤ o ∧ o < 0x1600000 ∧ o % 0x100000 < 0x8000 then
    some (sget 0 s.friskets ((o / 0x100000 - 16) * 4096 + o % 0x8000 / 8))
  else none

/-- A byte of configuration space where it is memory: the image of a held core (R467), an instruction side (R451), a
supervisor's local memory; none elsewhere. -/
def State.configByte (s : State) (o : Nat) : Option Byte :=
  if 0x4000000 ≤ o ∧ o < 0x4C00000 then
    let i := (o - 0x4000000) / 0x20000
    let k := s.coreAt i
    if h : i < 96 then
      if k.held.isSome then some (imageByte k (s.childCount ⟨i, h⟩) (o % 0x20000)) else none
    else none
  else if 0x8000000 ≤ o ∧ o < 0x8C00000 then
    let k := s.coreAt ((o - 0x8000000) / 0x20000)
    some (sget 0 (k.sideAt (o / 0x10000 % 2 = 1)).bytes (o % 0x10000))
  else if 0xC000000 ≤ o ∧ o < 0xC600000 then
    some (sget 0 (s.chaseAt ((o - 0xC000000) / 0x80000)).lmem (o % 0x80000))
  else none

/-- Time has passed: of the droop events that a core has counted, a free number lies in the last 100 µs (R427; log entry 46). -/
def State.droopNow (s : State) (c : CoreId) : State :=
  if (s.core c).dr = 0 then s
  else
    let (s1, x) := s.takeFree 4
    s1.modCore c fun k => { k with dr := BitVec.ofNat 4 (x.toNat % (k.dr.toNat + 1)) }

/-- The state that a read of configuration space sees: CPSTAT gives the droop events of the last 100 µs (R428). -/
def State.regView (s : State) (o : Nat) : State :=
  if h : 0x400000 ≤ o ∧ o < 0x406000 ∧ o % 0x100 < 8 then s.droopNow ⟨(o - 0x400000) / 0x100, by omega⟩ else s

/-- Read up to 8 bytes of configuration space within one 8-byte unit; bytes of no register are free values (log entry 18). -/
def State.configRead (s : State) (addr n : Nat) : State × List Byte :=
  let o := addr - configBase
  let s := s.regView o
  match s.configByte o with
  | some _ => (s, (List.range n).map fun i => (s.configByte (o + i)).getD 0)
  | none =>
    match s.regRead (o / 8 * 8) with
    | some w => (s, ((leBytes 8 w.toNat).drop (o % 8)).take n)
    | none => let (s1, x) := s.takeFree 64; (s1, (leBytes 8 x.toNat).take n)

end Sys2Proof.Machine
end

