-- ==== Sys2Proof/Machine/Memory.lean ====
section
/-! DEFINITION. The memory instructions of MA and MB (R280 to R294), as actions of the bundle being issued: loads read and post
their results, stores to the scratchpad are written, and stores beyond it join the core's queue of stores that are not yet
performed, which STORE_PERFORM empties. -/

namespace Sys2Proof.Machine

/-! ## Addresses and checks -/

/-- The cluster of a memory slot (R81). -/
def mCluster : MSlot → Cluster
  | .ma => .a
  | .mb => .b

/-- The effective address (R280). -/
def State.ea (s : State) (sl : MSlot) (b : SReg) (disp : Word) : Nat := ((s.opnd (mCluster sl) b).v + disp).toNat

/-- A displacement in units of `n` bytes. -/
def dispBy {w : Nat} (d : BitVec w) (n : Nat) : Word := BitVec.ofInt 64 (d.toInt * n)

/-- The deferred data trap of the first poisoned base or index register, or else the access (R285). -/
def State.memRegs (s : State) (sl : MSlot) (rs : List SReg) (eff : State → State) : State :=
  match rs.find? fun r => s.iss.pre.regPois (mCluster sl) r with
  | some r => s.deferReg (slotM sl) 4 (mCluster sl) r
  | none => eff s

/-- Translate and check every piece: the faults met, in lane order, and the pieces (R282). -/
def State.checkEach (s : State) (c : CoreId) (u : TypeUse) (r w : Bool) :
    List (Nat × Nat) → State × List (AccFault × Nat) × List Piece
  | [] => (s, [], [])
  | (va, n) :: t =>
    let (s1, x) := s.checkPieces c u r w [(va, n)]
    let (s2, fs, ps) := s1.checkEach c u r w t
    match x with
    | .error f => (s2, f :: fs, ps)
    | .ok q => (s2, fs, q ++ ps)

/-- Every byte of the units lies in the scratchpad. -/
def allSpad (units : List (Nat × Nat)) : Bool :=
  units.all fun x => inSpad x.1 && decide (x.1 + x.2 ≤ Config.spadBytes)

/-- The part of a unit beyond the scratchpad, cut at 64-byte lines, each of which lies in one page and one place (R282, R316). -/
def farPieces (x : Nat × Nat) : List (Nat × Nat) :=
  let va := max x.1 Config.spadBytes
  let n := x.1 + x.2 - va
  linePieces (n / 64 + 2) va n

/-- Some byte of the units lies in the scratchpad. -/
def anySpad (units : List (Nat × Nat)) : Bool := units.any fun x => inSpad x.1

/-- The first unit that breaks an alignment rule. -/
def firstBad (bad : Nat → Bool) (units : List (Nat × Nat)) : Option Nat := (units.find? fun x => bad x.1).map (·.1)

/-- The checks of an access: alignment (R281), one space, and translation and rights of every byte beyond the scratchpad
(R282). The pieces are those beyond the scratchpad; none when a fault was recorded, or when a walk stalls on an open region, which
freezes the bundle (R29). -/
def State.access (s : State) (slot : Nat) (u : TypeUse) (r w : Bool) (units : List (Nat × Nat)) (bad : Nat → Bool) :
    State × Option (List Piece) :=
  let (s1, es, ps) := s.checkEach s.cur u r w (units.flatMap farPieces)
  let fs := es.filter fun f => !f.1.stalls
  let s0 := if es.any (·.1.stalls) then s1.holdFor .region else s1
  let s2 := fs.foldl (fun t f => t.fault slot f.1 f.2) s0
  let split := if anySpad units && !allSpad units then (units.head?).map (·.1) else none
  match firstBad bad units <|> split with
  | some a => (s2.fault slot alignFault a, none)
  | none => (s2, if es.isEmpty then some ps else none)

/-! ## Pieces beyond the scratchpad -/

/-- The linear addresses of a piece. -/
def State.pieceLinear (s : State) (p : Piece) : List Nat := (List.range p.n).filterMap fun i => s.linearOf (p.da + i)

/-- The tiles of a piece. -/
def State.pieceTiles (s : State) (p : Piece) : List Nat :=
  ([s.linearOf p.da, s.linearOf (p.da + p.n - 1)].filterMap id).map (· / 4096)

/-- A pending store has a byte in the tile, or in the 4 KiB of a port or of configuration space, of a piece. -/
def State.storeMeets (s : State) (st : PendStore) (p : Piece) : Bool :=
  st.bytes.any fun b =>
    match s.linearOf b.1 with
    | some a => (s.pieceTiles p).contains (a / 4096)
    | none => b.1 / 4096 == p.da / 4096

/-- A line of the piece is held by the host (R248). -/
def State.hostHolds (s : State) (p : Piece) : Bool :=
  s.hostLines.any fun l => (s.pieceLinear p).any fun a => decide (a / 64 = l)

/-- The tile of a piece lies in an open region (R29). -/
def State.inRegion (s : State) (p : Piece) : Bool :=
  match s.linearOf p.da, s.linearOf (p.da + p.n - 1) with
  | some a, some b => s.anyRegion a || s.anyRegion b
  | _, _ => false

/-- The stores that this bundle's MA has queued. -/
def State.newStores (s : State) : List PendStore := s.me.stores.drop s.iss.pre.stores.length

/-- An access of MB has a byte at a virtual address that MA's store of the bundle writes. -/
def State.ownStore (s : State) (units : List (Nat × Nat)) : Bool :=
  s.iss.maStore.any fun a => units.any fun x => decide (x.1 ≤ a) && decide (a < x.1 + x.2)

/-- MB's access meets, in processing memory, MA's store of the same bundle at another virtual address (R294). -/
def State.aliases (s : State) (slot : Nat) (units : List (Nat × Nat)) (ps : List Piece) : Bool :=
  slot == 4 && !s.ownStore units &&
    s.newStores.any fun st => st.bytes.any fun b => match s.linearOf b.1 with
      | some a => ps.any fun p => (s.pieceLinear p).contains a
      | none => false

/-- A fence of the bundle orders accesses of two kinds: earlier loads or stores, before later loads or stores (R267). -/
def fenceOrders (k : FenceKind) (earlierLoad laterLoad : Bool) : Bool :=
  match k with
  | .rr => earlierLoad && laterLoad
  | .rw => earlierLoad && !laterLoad
  | .wr => !earlierLoad && laterLoad
  | .ww => !earlierLoad && !laterLoad
  | .all => true

/-- A load, and a store that is performed as it issues, waits for earlier accesses under the fences, LDA and acquires before it, and
under those fences of its own bundle (R267, R269, R292): for a load, or for a store. -/
def State.orderHold (s : State) (load : Bool) : Option Wait :=
  let k := s.iss.pre
  let ld := s.iss.fences.any fun f => fenceOrders f true load
  let st := s.iss.fences.any fun f => fenceOrders f false load
  if k.pendingLoads.any fun e => ld || (if load then e.mark.thenLoads else e.mark.thenStores) then some .late
  else if k.stores.any fun x => st || (if load then x.thenLoads else x.fenced) then some .store
  else none

/-- A DEV access waits for earlier DEV accesses of the core that are not yet performed (R247, R278). -/
def State.devHold (s : State) (ps : List Piece) : Option Wait :=
  if !ps.any fun p => p.mtype == 2 then none
  else if s.iss.pre.stores.any (·.dev) then some .store
  else if s.iss.pre.pendingLoads.any (·.mark.dev) && ps.any (fun p => targetOf p.da == .config) then some .late
  else none

/-- Why an access freezes its bundle, if it does: an open region (R29), a line that the host holds (R248), a store of the core
to the same tile that is not yet performed, a channel in self-refresh or behind a fence (R309, R313), or an order that it has to
keep. -/
def State.accHold (s : State) (ps : List Piece) : Option Wait :=
  if ps.any s.inRegion then some .region
  else if ps.any s.hostHolds then some .late
  else if ps.any fun p => (s.pieceTiles p).any s.tileWaits then some .late
  else if s.iss.pre.stores.any fun st => ps.any (s.storeMeets st) then some .store
  else s.devHold ps

/-- How a store to memory changes the metadata of its tiles: a vector store sets the tag, and the bound when the tag has one
(R139); a scalar store changes neither. -/
def PendStore.upd (st : PendStore) : MetaUpd :=
  match st.md with
  | none => .keep
  | some (t, e) => .store t (if tagF t then some e else none)

/-- Perform what a store writes in processing memory. -/
def State.performMem (s : State) (c : CoreId) (st : PendStore) : State :=
  s.writeMem c.val (st.bytes.filter fun b => (s.linearOf b.1).isSome) st.upd

/-- MB's DEV access follows a DEV store of MA in its bundle: they reach their targets in issue order (R247), MA's first, but where they
meet at one virtual address, and a load reads first (R294). -/
def State.afterMa (s : State) (slot : Nat) (units : List (Nat × Nat)) (ps : List Piece) : Bool :=
  slot == 4 && !s.ownStore units && (ps.any fun p => p.mtype == 2) && s.newStores.any (·.dev)

/-- Perform what MA's stores of this bundle write in processing memory before an access of MB that meets them there at another address
(R294). -/
def State.aliasFirst (s : State) : State :=
  let new := s.newStores
  let s1 := new.foldl (fun t st => t.performMem s.cur st) s
  let rest := new.map fun st => { st with bytes := st.bytes.filter fun b => (s.linearOf b.1).isNone }
  s1.modMe fun k => { k with stores := k.stores.take s.iss.pre.stores.length ++ rest.filter fun st => !st.bytes.isEmpty }

/-- The checks that follow the faults: freezes, and MA's store first, for a load or for a store that is performed as it issues
(`write`; an AMO or a CAS is both, R267). False when the bundle freezes. -/
def State.settleAccess (s : State) (slot : Nat) (units : List (Nat × Nat)) (ps : List Piece) (write : Bool := false) :
    State × Bool :=
  match s.accHold ps <|> s.orderHold true <|> (if write then s.orderHold false else none) with
  | some w => (s.holdFor w, false)
  | none =>
    if s.aliases slot units ps then
      if s.iss.pre.stores.isEmpty then (s.aliasFirst, true) else (s.holdFor .store, false)
    else (s, true)

/-! ## Reading -/

/-- What a load reads: the bytes of its units in order, whether any is poisoned, the tag at its first byte, the largest bound
of the lines or tiles, where late data comes from, and the latency (R284, R285). -/
structure LoadData where
  bytes : List Byte
  poison : Bool
  tag : BitVec 4
  eb : BitVec 16
  late : Late
  lat : Nat
  dev : Bool := false
  deriving DecidableEq, Repr

/-- A storage event (R353). -/
def State.storEvent (s : State) (mid : Nat) : State := s.event .stor { cause := 0x23, mid := BitVec.ofNat 9 mid }

/-- A tag that the model may take from a place that keeps no tag: the reserved values and Poison read as Raw. -/
def plainTag (t : BitVec 4) : BitVec 4 := if tagReserved t || t == tagPoison then 0 else t

/-- A read of configuration space that target 4 or 5 checks again (R256, R437): none, with its event, when it is refused. -/
def State.configLoad (s : State) (mid da n : Nat) : State × Option (List Byte) :=
  if s.friskConfig mid da n true false then let (s1, x) := s.configRead da n; (s1, some x)
  else (s.permEvent mid da, none)

/-- Read a piece beyond the scratchpad; the target's table checks it again (R256). Data of the host and storage windows is a free
value until it arrives; a register that MA's DEV store of the bundle must reach first is read later too (`after`). -/
def State.pieceRead (s : State) (c : CoreId) (p : Piece) (t : Option ITy) (after : Bool) : State × Option (List Byte) × Late :=
  match targetOf p.da with
  | .linear | .window => let (s1, x) := s.readMem c.val p.da p.n; (s1, x, .mem)
  | .config =>
    if after then (s, some (List.replicate p.n 0), .conf t p.da)
    else let (s1, x) := s.configLoad c.val p.da p.n; (s1, x, .mem)
  | .host =>
    if (s.frisk c.val p.da p.n true false).isNone then (s.permEvent c.val p.da, none, .mem)
    else let (s1, x) := s.takeFree 1024; (s1, some ((leBytes 128 x.toNat).take p.n), .host t)
  | .storage =>
    if (s.frisk c.val p.da p.n true false).isNone then (s.permEvent c.val p.da, none, .mem)
    else if s.linkDown then (s.storEvent c.val, none, .no)
    else let (s1, x) := s.takeFree 1024; (s1, some ((leBytes 128 x.toNat).take p.n), .stor t)
  | _ => (s, none, .mem)

/-- The tag and bound of the tile that holds a piece's first byte, and the largest bound of its tiles. A place that keeps no
metadata gives a free tag. -/
def State.pieceMeta (s : State) (p : Piece) : BitVec 4 × BitVec 16 :=
  match s.pieceTiles p with
  | [] => (plainTag (Config.freeBits 4 p.da), 0)
  | t :: ts => ((s.tileRec t).ftag, ts.foldl (fun e u => maxBound e (s.tileRec u).eb) (s.tileRec t).eb)

/-- The later of two sources of late data. -/
def lateJoin (a b : Late) : Late :=
  match a, b with
  | .conf t x, _ => .conf t x
  | .host t, _ => .host t
  | _, .host t => .host t
  | .stor t, _ => .stor t
  | _, .stor t => .stor t
  | .mem, _ => .mem
  | _, b => b

/-- Read pieces in order. -/
def State.piecesRead (s : State) (c : CoreId) (t : Option ITy) (after : Bool) : List Piece → State × LoadData
  | [] => (s, ⟨[], false, 0, 0, .mem, 10, false⟩)
  | p :: ps =>
    let (s1, x, l) := s.pieceRead c p t after
    let md := s.pieceMeta p
    let (s2, d) := s1.piecesRead c t after ps
    (s2, ⟨(x.getD (List.replicate p.n 0)) ++ d.bytes, x.isNone || d.poison, md.1, maxBound md.2 d.eb, lateJoin l d.late, 10,
      p.mtype == 2 || d.dev⟩)

/-- Read units of the scratchpad (R283, R284). -/
def Core.spadLoad (k : Core) (units : List (Nat × Nat)) : LoadData :=
  { bytes := units.flatMap fun x => k.spadRead x.1 x.2
    poison := units.any fun x => k.spadPoison x.1 x.2
    tag := match units with | [] => 0 | x :: _ => metaTag (k.lineMeta x.1)
    eb := units.foldl (fun e x => (linesOf x.1 x.2).foldl (fun e l => maxBound e (metaEb (sget 0 k.smeta l))) e) 0
    late := .no
    lat := 4 }

/-- A load of units: its checks, its freezes, and its data when it has neither faulted nor frozen. -/
def State.load (s : State) (slot : Nat) (u : TypeUse) (units : List (Nat × Nat)) (bad : Nat → Bool) (t : Option ITy) :
    State × Option LoadData :=
  let (s1, x) := s.access slot u true false units bad
  match x with
  | none => (s1, none)
  | some ps =>
    if allSpad units then (s1, some (s.iss.pre.spadLoad units))
    else
      let (s2, go) := s1.settleAccess slot units ps
      if go then let (s3, d) := s2.piecesRead s.cur t (s1.afterMa slot units ps) ps; (s3, some d) else (s2, none)

/-! ## Writing -/

/-- Note the bytes that MA stores, for R294. -/
def State.noteStore (s : State) (slot : Nat) (units : List (Nat × Nat)) : State :=
  if slot = 3 then
    { s with iss := { s.iss with maStore := s.iss.maStore ++ units.flatMap fun x => (List.range x.2).map (x.1 + ·) } }
  else s

/-- Write scratchpad units with their metadata; each line takes one update (R139, R283, R288, R290). -/
def Core.spadStore (k : Core) (units : List (Nat × List Byte)) (md : Option (BitVec 4 × BitVec 16)) : Core :=
  match units, md with
  | [(off, bs)], some (t, e) => k.spadWrite off bs (.store t (if tagF t then some e else none))
  | us, m =>
    let k1 := us.foldl (fun k x => k.spadPut x.1 x.2) k
    match m with
    | none => k1
    | some (t, e) =>
      ((us.flatMap fun x => linesOf x.1 x.2.length).eraseDups).foldl
        (fun k l => k.setLine l (lineUpdate (sget 0 k.smeta l) false (.store t (if tagF t then some e else none)))) k1

/-- The bytes of units at the device addresses of their pieces, in order. -/
def pieceBytes : List Piece → List Byte → List (Nat × Byte)
  | [], _ => []
  | p :: ps, bs => addrBytes p.da (bs.take p.n) ++ pieceBytes ps (bs.drop p.n)

/-- A store of units: its checks, its freezes, and its effect. -/
def State.store (s : State) (slot : Nat) (u : TypeUse) (units : List (Nat × List Byte)) (bad : Nat → Bool)
    (md : Option (BitVec 4 × BitVec 16)) (release : Bool) : State :=
  let spans := units.map fun x => (x.1, x.2.length)
  let (s1, x) := s.access slot u false true spans bad
  match x with
  | none => s1
  | some ps =>
    if allSpad spans then (s1.noteStore slot spans).modMe fun k => k.spadStore units md
    else
      match (if ps.any s1.inRegion then some Wait.region else none) with
      | some w => s1.holdFor w
      | none =>
        let st : PendStore :=
          { va := (spans.headD (0, 0)).1, bytes := pieceBytes ps (units.flatMap (·.2)), md := md, release := release
            fenced := false, dev := ps.any (fun p => p.mtype == 2), itick := s.iss.pre.tick, slot := slot }
        (s1.noteStore slot spans).modMe fun k => { k with stores := k.stores ++ [st] }

/-! ## Scalar loads and stores -/

/-- Bytes of an integer type. -/
def tyBytes (t : ITy) : Nat := t.width / 8

/-- An address that is not a multiple of `n`. -/
def unaligned (n a : Nat) : Bool := a % n != 0

/-- The scalar that loaded bytes give under a type (R286). -/
def loadValue (t : ITy) (bs : List Byte) : Word := wrapWord (intValue t.width t.signed (ofLe bs))

/-- LD and LDA (R286); what follows an acquire waits for it (R269). -/
def State.scalarLoad (s : State) (sl : MSlot) (p : Pred) (r b : SReg) (t : ITy) (disp : Word) (acquire : Bool) : State :=
  s.when p (slotM sl) fun s => s.memRegs sl [b] fun s =>
    let ea := s.ea sl b disp
    let (s1, x) := s.load (slotM sl) .scalar [(ea, tyBytes t)] (unaligned (tyBytes t)) (some t)
    match x with
    | none => s1
    | some d => s1.postScalar (slotM sl) (mCluster sl) r d.lat (loadValue t d.bytes) 0 d.poison [] d.late
        { dev := d.dev, thenLoads := acquire, thenStores := acquire, va := ea, early := s1.ownStore [(ea, tyBytes t)] }

/-- ST and STL (R286): poisoned data raises the deferred data trap in place of the store (R285). -/
def State.scalarStore (s : State) (sl : MSlot) (p : Pred) (r b : SReg) (t : ITy) (disp : Word) (release : Bool) : State :=
  s.when p (slotM sl) fun s => s.memRegs sl [b] fun s =>
    let x := s.opnd (mCluster sl) r
    if x.pois then s.deferReg (slotM sl) 0 (mCluster sl) r
    else s.store (slotM sl) .scalar [(s.ea sl b disp, leBytes (tyBytes t) x.v.toNat)] (unaligned (tyBytes t)) none release

/-- LD (R286). -/
def execLd (sl : MSlot) (p : Pred) (r b : SReg) (t : ITy) (d : BitVec 8) (s : State) : Res :=
  .next (s.scalarLoad sl p r b t (dispBy d (tyBytes t)) false)

/-- ST (R286). -/
def execSt (sl : MSlot) (p : Pred) (r b : SReg) (t : ITy) (d : BitVec 8) (s : State) : Res :=
  .next (s.scalarStore sl p r b t (dispBy d (tyBytes t)) false)

/-- LDA (R269, R286): later accesses of the core wait for it, whatever its scope (R264, log entry 88). -/
def execLda (sl : MSlot) (p : Pred) (r b : SReg) (t : ITy) (_sc : Scope) (d : BitVec 6) (s : State) : Res :=
  .next (s.scalarLoad sl p r b t (dispBy d (tyBytes t)) true)

/-- STL (R269, R286): a release, performed after every earlier access, whatever its scope (R264, log entry 88). -/
def execStl (sl : MSlot) (p : Pred) (r b : SReg) (t : ITy) (_sc : Scope) (d : BitVec 6) (s : State) : Res :=
  .next (s.scalarStore sl p r b t (dispBy d (tyBytes t)) true)

/-- The word of LDM for a tile (R287). -/
def TileRec.ldm (r : TileRec) : Word :=
  BitVec.ofNat 64 (r.version.toNat * 2 ^ 32 + r.keygen.toNat * 2 ^ 24 + b2n r.esc * 2 ^ 21 + b2n r.poison * 2 ^ 20 +
    r.ftag.toNat * 2 ^ 16 + r.eb.toNat)

/-- The host holds a line of a tile. -/
def State.tileHeld (s : State) (t : Nat) : Bool := s.hostLines.any fun l => l / 64 == t

/-- LDM (R287): the host's lines of the whole tile are recalled first. -/
def execLdm (sl : MSlot) (p : Pred) (r b : SReg) (d : BitVec 8) (s : State) : Res :=
  .next (s.when p (slotM sl) fun s => s.memRegs sl [b] fun s =>
    let ea := s.ea sl b (dispBy d 128)
    let (s1, x) := s.access (slotM sl) .atomic true false [(ea, 1)] fun _ => false
    match x with
    | none => s1
    | some ps =>
      if inSpad ea then
        s1.postScalar (slotM sl) (mCluster sl) r 4 ((s.iss.pre.lineMeta ea).setWidth 64) 0 false
      else
        let (s2, go) := s1.settleAccess (slotM sl) [(ea, 1)] ps
        if s1.iss.hold.isNone && ps.any fun p => (s1.pieceTiles p).any s1.tileHeld then s1.holdFor .late
        else if go then
          let w := match ps.flatMap s2.pieceTiles with | [] => 0 | t :: _ => (s2.tileRec t).ldm
          s2.postScalar (slotM sl) (mCluster sl) r 10 w 0 false [] .mem { va := ea }
        else s2)

/-! ## Vector loads and stores -/

/-- The tag of the line or tile that holds an address, once its byte has passed the checks; none when it faults. -/
def State.tagAt (s : State) (slot : Nat) (va : Nat) : State × Option (BitVec 4) :=
  if inSpad va then (s, some (metaTag (s.iss.pre.lineMeta va)))
  else
    let (s1, x) := s.access slot .vector true false [(va, 1)] fun _ => false
    (s1, match x with | some (p :: _) => some (s.pieceMeta p).1 | _ => none)

/-- The row that a vector load writes: a Poison row for poisoned data (R285). -/
def loadRow (d : LoadData) (tag : BitVec 4) (bits : RowBits) : Row := if d.poison then poisonRow else ⟨bits, tag, d.eb⟩

/-- What a vector load's tag waits for: the core's earlier stores to its tile (R266), and MA's store of the bundle, where the load meets
it at another address, which is performed before the load reads the tag that says how many bytes it takes (R288, R294). None when the
bundle freezes first. -/
def State.storeFirst (s : State) (slot va : Nat) : State × Bool :=
  if inSpad va then (s, true) else
    let (s1, x) := s.access slot .vector true false [(va, 1)] fun _ => false
    match x with
    | none => (s, true)
    | some p1 =>
      let ps := match (s.access slot .vector true false [(va, 96)] fun _ => false).2 with | some ps => ps | none => p1
      if s1.iss.pre.stores.any fun st => p1.any (s1.storeMeets st) then (s1.holdFor .store, false)
      else if s1.aliases slot [(va, 96)] ps then
        if s1.iss.pre.stores.isEmpty then (s1.aliasFirst, true) else (s1.holdFor .store, false)
      else (s, true)

/-- VLD (R288). A scratchpad line tagged Poison gives a Poison row. -/
def execVld (sl : MSlot) (p : Pred) (v : VReg) (b : SReg) (d : BitVec 9) (s : State) : Res :=
  .next (s.when p (slotM sl) fun s => s.memRegs sl [b] fun s =>
    let ea := s.ea sl b (dispBy d 128)
    let (s, go) := s.storeFirst (slotM sl) ea
    let (s1, tg) := if go then s.tagAt (slotM sl) ea else (s, none)
    match tg with
    | none => s1
    | some t =>
      let s2 := if tagReserved t then s.fault (slotM sl) (formatFault 0) else s
      let six := t == 5
      let (s3, x) := s2.load (slotM sl) .vector [(ea, if six then 96 else 128)] (unaligned (if six then 32 else 128)) none
      match x with
      | none => s3
      | some ld =>
        let bits := if six then packLanes 8 (tf6Unpack ld.bytes) else bytesRow ld.bytes
        s3.postRow (slotM sl) v ld.lat (loadRow ld t bits) 0 [] ld.late { va := ea })

/-- Some lane of a TF6 row has bits [7:6] set (R117). -/
def tf6Malformed (b : RowBits) : Bool := (lanesOf b 8).any fun x => decide (64 ≤ x)

/-- The checks of a row that is stored (R143, R285): Poison, reserved tag, bound. -/
def State.rowStored (s : State) (slot : Nat) (v : VReg) (eff : State → Row → State) : State :=
  let x := s.rowOp v
  if x.isPoison then s.deferRow slot 0 v
  else if tagReserved x.tag then eff (s.fault slot (formatFault 0)) x
  else eff (s.checkBound slot x) x

/-- VST (R288). -/
def execVst (sl : MSlot) (p : Pred) (v : VReg) (b : SReg) (d : BitVec 9) (s : State) : Res :=
  .next (s.when p (slotM sl) fun s => s.memRegs sl [b] fun s => s.rowStored (slotM sl) v fun s x =>
    let ea := s.ea sl b (dispBy d 128)
    if x.tag = 5 then
      let s1 := if tf6Malformed x.bits then s.fault (slotM sl) (formatFault 2) else s
      s1.store (slotM sl) .vector [(ea, tf6Pack x.lanes)] (unaligned 32) (some (x.tag, x.eb)) false
    else s.store (slotM sl) .vector [(ea, rowBytes x.bits)] (unaligned 128) (some (x.tag, x.eb)) false)

/-- The unit of VLDS: bytes and alignment (R289). -/
def vldsUnit : LaneTag → Nat × Nat
  | .fp32 | .i32 | .idx => (4, 4)
  | .bf16 | .fp16 | .i16 => (2, 2)
  | .tf6 => (3, 1)
  | _ => (1, 1)

/-- VLDS (R289). -/
def execVlds (sl : MSlot) (p : Pred) (v : VReg) (b sr : SReg) (f : LaneTag) (s : State) : Res :=
  .next (s.when p (slotM sl) fun s => s.memRegs sl [b, sr] fun s =>
    let base := (s.opnd (mCluster sl) b).v
    let stride := (s.opnd (mCluster sl) sr).v
    let (n, al) := vldsUnit f
    let count := if f = .tf6 then 32 else 128 / n
    let units := (List.range count).map fun u => ((base + BitVec.ofNat 64 u * stride).toNat, n)
    let (s1, x) := s.load (slotM sl) .vector units (unaligned al) none
    match x with
    | none => s1
    | some ld =>
      let bits := if f = .tf6 then packLanes 8 (tf6Unpack ld.bytes) else bytesRow ld.bytes
      s1.postRow (slotM sl) v ld.lat (loadRow ld (laneTagCode f) bits) 0 [] ld.late { va := (units.headD (0, 0)).1 })

/-- The scale of VGATH and VSCAT (R290). -/
def gathScale (f : BitVec 2) : Nat :=
  match f.toNat with
  | 0 => 1 | 1 => 4 | 2 => 16 | _ => 128

/-- The address of lane `i` of an index row; none for an empty Index lane (R290). -/
def gathAddr (base : Word) (x : Row) (n i : Nat) : Option Nat :=
  let l := laneAt x.bits 32 i
  if tagX x.tag && l == 0xFFFFFFFF then none
  else some (base + BitVec.ofInt 64 (laneInt x.tag l * n)).toNat

/-- The index row of a gather or a scatter: a Poison row raises the deferred data trap of a register-borne operand, any tag but
INT32 and Index a format trap (R285, R290). -/
def State.withIndex (s : State) (slot : Nat) (i : VReg) (eff : State → Row → State) : State :=
  let x := s.rowOp i
  if x.isPoison then s.deferRow slot 4 i
  else match tagCheck (fun t => t == 6 || t == 13) [x] with
    | some e => s.fault slot e
    | none => eff s x

/-- The granules of a gather, with zeros for empty lanes. -/
def placeGranules : List (Option Nat) → List Byte → List Byte
  | [], _ => []
  | none :: t, bs => List.replicate 4 0 ++ placeGranules t bs
  | some _ :: t, bs => bs.take 4 ++ placeGranules t (bs.drop 4)

/-- VGATH (R290). -/
def execVgath (sl : MSlot) (p : Pred) (v : VReg) (b : SReg) (i : VReg) (f : BitVec 2) (s : State) : Res :=
  .next (s.when p (slotM sl) fun s => s.memRegs sl [b] fun s => s.withIndex (slotM sl) i fun s x =>
    let base := (s.opnd (mCluster sl) b).v
    let as := (List.range 32).map (gathAddr base x (gathScale f))
    let units := as.filterMap fun a => a.map fun a => (a, 4)
    match units with
    | [] => s.postRow (slotM sl) v 4 ⟨0, 0, 0⟩ 0
    | _ :: _ =>
      let (s1, y) := s.load (slotM sl) .vector units (unaligned 4) none
      match y with
      | none => s1
      | some ld =>
        let t : BitVec 4 := if ld.tag = 5 then 0 else ld.tag
        if tagReserved t then s1.fault (slotM sl) (formatFault 0)
        else s1.postRow (slotM sl) v ld.lat (loadRow ld t (bytesRow (placeGranules as ld.bytes))) 0 [] ld.late
          { va := (units.headD (0, 0)).1 })

/-- VSCAT (R290). -/
def execVscat (sl : MSlot) (p : Pred) (v : VReg) (b : SReg) (i : VReg) (f : BitVec 2) (s : State) : Res :=
  .next (s.when p (slotM sl) fun s => s.memRegs sl [b] fun s => s.rowStored (slotM sl) v fun s x =>
    s.withIndex (slotM sl) i fun s ix =>
      let base := (s.opnd (mCluster sl) b).v
      let bs := rowBytes x.bits
      let units := (List.range 32).filterMap fun j =>
        (gathAddr base ix (gathScale f) j).map fun a => (a, (bs.drop (4 * j)).take 4)
      let s1 := if x.tag = 5 then s.fault (slotM sl) (formatFault 1) else s
      match units with
      | [] => s1
      | _ :: _ => s1.store (slotM sl) .vector units (unaligned 4) (some (x.tag, x.eb)) false)

/-! ## Atomic operations -/

/-- F of R291. -/
def amoFn (o : AmoOp) (old rs : Word) : Word :=
  match o with
  | .swap => rs
  | .add => old + rs
  | .and => old &&& rs
  | .or => old ||| rs
  | .xor => old ^^^ rs
  | .min => if rs.slt old then rs else old
  | .max => if old.slt rs then rs else old
  | .maxn => if old.ult rs then rs else old

/-- The order bits ask for a release (R269). -/
def ordReleases : AmoOrd → Bool
  | .rel | .ar => true
  | _ => false

/-- A read-modify-write of the 8 bytes at the base register (R285, R291): `f` gives the new value, or none when nothing is
written. An operation with a release waits until the earlier accesses of the core are performed, whatever its scope (R269; log
entry 88); it is itself performed as it issues, so an acquire holds. -/
def State.atomic (s : State) (sl : MSlot) (p : Pred) (r b : SReg) (data : List SReg) (rel : Bool)
    (f : Word → Option Word) : State :=
  s.when p (slotM sl) fun s => s.memRegs sl [b] fun s =>
    match data.find? fun q => s.iss.pre.regPois (mCluster sl) q with
    | some q => s.deferReg (slotM sl) 0 (mCluster sl) q
    | none =>
      let ea := s.ea sl b 0
      let (s1, x) := s.access (slotM sl) .atomic true true [(ea, 8)] (unaligned 8)
      match x with
      | none => s1
      | some ps =>
        if inSpad ea then
          let k := s.iss.pre
          if k.spadPoison ea 8 then s1.postScalar (slotM sl) (mCluster sl) r 4 0 0 true [] .no { atom := true }
          else
            let old : Word := BitVec.ofNat 64 (ofLe (k.spadRead ea 8))
            let s2 := match f old with
              | some v => s1.modMe fun k => k.spadPut ea (leBytes 8 v.toNat)
              | none => s1
            s2.postScalar (slotM sl) (mCluster sl) r 4 old 0 false [] .no { atom := true }
        else if rel && !s.iss.pre.stores.isEmpty then s1.holdFor .store
        else if rel && !s.iss.pre.pendingLoads.isEmpty then s1.holdFor .late
        else
          let (s2, go) := s1.settleAccess (slotM sl) [(ea, 8)] ps true
          if !go then s2
          else
            let (s3, d) := s2.piecesRead s.cur (some .n64) false ps
            if d.poison then s3.postScalar (slotM sl) (mCluster sl) r 10 0 0 true [] .mem { atom := true, va := ea }
            else
              let old : Word := BitVec.ofNat 64 (ofLe d.bytes)
              let s4 := match f old with
                | some v => s3.writeMem s.cur.val (pieceBytes ps (leBytes 8 v.toNat)) .keep
                | none => s3
              s4.postScalar (slotM sl) (mCluster sl) r 10 old 0 false [] .mem { atom := true, va := ea }

/-- AMO (R285, R291). -/
def execAmo (sl : MSlot) (p : Pred) (r b rs : SReg) (o : AmoOp) (e : AmoOrd) (_sys : Bool) (s : State) : Res :=
  .next (s.atomic sl p r b [rs, r] (ordReleases e) fun old => some (amoFn o old (s.opnd (mCluster sl) rs).v))

/-- CAS (R291): a compare that fails writes nothing. -/
def execCas (sl : MSlot) (p : Pred) (r b rs : SReg) (e : AmoOrd) (_sys : Bool) (s : State) : Res :=
  .next (s.atomic sl p r b [r, rs] (ordReleases e) fun old =>
    if old = (s.opnd (mCluster sl) r).v then some (s.opnd (mCluster sl) rs).v else none)

/-! ## Fences, drains and cache operations -/

/-- Mark the last store that was pending before the bundle, so that no later store is performed before it and those before
it. -/
def fenceLast : List PendStore → List PendStore
  | [] => []
  | [x] => [{ x with fenced := true }]
  | x :: xs => x :: fenceLast xs

/-- A fence's marks on the stores that were pending before its bundle (R267). -/
def fenceStores (k : FenceKind) (xs : List PendStore) : List PendStore :=
  let ys := if fenceOrders k false false then fenceLast xs else xs
  if fenceOrders k false true then ys.map fun x => { x with thenLoads := true } else ys

/-- A fence's marks on the loads that were in flight before its bundle (R267). -/
def fenceLoads (k : FenceKind) (xs : List Entry) : List Entry :=
  xs.map fun e => { e with mark := { e.mark with
    thenLoads := e.mark.thenLoads || fenceOrders k true true
    thenStores := e.mark.thenStores || fenceOrders k true false } }

/-- FENCE (R267, R292): it marks the earlier accesses that are not performed yet, which later ones then wait for, and holds nothing
itself. The accesses of its own bundle follow it too (`iss.fences`). It orders for every observer, whatever its scope (R264, R265,
log entry 88). -/
def execFence (sl : MSlot) (p : Pred) (k : FenceKind) (_sc : Scope) (s : State) : Res :=
  .next (s.when p (slotM sl) fun s =>
    let n := s.iss.pre.stores.length
    let m := s.iss.pre.infl.length
    s.modMe fun c => { c with
      stores := fenceStores k (c.stores.take n) ++ c.stores.drop n
      infl := fenceLoads k (c.infl.take m) ++ c.infl.drop m })

/-- DRAIN (R268, R292): the bundle waits until every earlier access of MA and MB is performed, for every observer, whatever its scope
(R264, log entry 88). -/
def execDrain (sl : MSlot) (p : Pred) (_sc : Scope) (s : State) : Res :=
  .next (s.when p (slotM sl) fun s =>
    if s.iss.pre.stores.isEmpty && s.iss.pre.pendingLoads.isEmpty then s else s.holdFor .drain)

/-- PREF (R293) has no architectural effect and never faults. -/
def execPref (sl : MSlot) (p : Pred) (_b : SReg) (_h : PrefHint) (_d : BitVec 8) (s : State) : Res :=
  .next (s.when p (slotM sl) fun s => s)

/-- Bytes of a granule (R293). -/
def granuleBytes : Granule → Nat
  | .line => 64
  | .sb => 256
  | .tile => 4096

/-- CLEAN and INVAL (R293): the checks of a load over the granule. On a page that is not UC they are outstanding as stores are until the
host has written back what it holds dirty of the granule (R284). Its copies stay valid: INVAL removes those of the device's caches, of
which the model keeps none. -/
def State.cacheOp (s : State) (sl : MSlot) (p : Pred) (b : SReg) (g : Granule) (d : BitVec 8) : State :=
  s.when p (slotM sl) fun s => s.memRegs sl [b] fun s =>
    let ea := s.ea sl b (dispBy d 64)
    let n := granuleBytes g
    let (s1, x) := s.access (slotM sl) .atomic true false [(ea / n * n, n)] fun _ => false
    match x with
    | none => s1
    | some ps =>
      if ps.any s1.inRegion then s1.holdFor .region
      else if inSpad ea || ps.any (fun p => p.mtype != 0) then s1
      else
        let held := ((ps.flatMap s1.pieceLinear).map (· / 64)).eraseDups.filter s1.hostLines.contains
        let st : PendStore :=
          { va := ea, bytes := [], md := none, release := false, fenced := false, dev := false, lines := held
            itick := s.iss.pre.tick, slot := slotM sl }
        s1.modMe fun k => { k with stores := k.stores ++ [st] }

/-- CLEAN (R293). -/
def execClean (sl : MSlot) (p : Pred) (b : SReg) (g : Granule) (d : BitVec 8) (s : State) : Res :=
  .next (s.cacheOp sl p b g d)

/-- INVAL (R293). -/
def execInval (sl : MSlot) (p : Pred) (b : SReg) (g : Granule) (d : BitVec 8) (s : State) : Res :=
  .next (s.cacheOp sl p b g d)

end Sys2Proof.Machine
end

