-- ==== Sys2Proof/Machine/Schedule.lean ====
section
/-! DEFINITION. The schedule checks that decode makes on a whole bundle: bank limits (R50), rows reserved for later reads
(R213), the limit of results in flight (R64, R65), the safe-point marker (R70, R215) and an atomic that meets the other
memory access of its bundle (R294). The checks that concern one instruction alone are in its meaning. -/

namespace Sys2Proof.Machine

/-! ## What an instruction reads and writes -/

/-- The predicate field of a slot instruction: bits [25:21] of its word (R74). -/
def predOf (i : Instr) : Pred := ((encode i).bind fun w => pred? (w.extractLsb' 21 5)).getD .always

/-- The rows that an instruction reads in its issuing tick, apart from what `State.rowsRead` adds (R50, R179): one per operand, so that a
row named by two operands takes two reads (DESIGN CHOICE, log entry 98). The rows that MX steps read are in
`stepUses`. -/
def rowReads : Instr → List VReg
  | .vadd _ _ a b | .vsub _ _ a b | .vmul _ _ a b | .vmin _ _ a b | .vmax _ _ a b | .vand _ _ a b | .vor _ _ a b
  | .vxor _ _ a b | .vshl _ _ a b | .vshr _ _ a b | .vsra _ _ a b | .vcmp _ _ a b | .vbperm _ _ a b
  | .xpPerm _ _ a b | .xpShuf _ _ a b | .xsSort _ _ a b => [a, b]
  | .vfma _ d a b | .vfms _ d a b | .vsel _ d a b => [d, a, b]
  | .vabs _ _ a | .vneg _ _ a | .vnot _ _ a | .vext _ _ a _ | .vexp2 _ _ a | .vlog2 _ _ a | .vrcp _ _ a | .vrsq _ _ a
  | .vtanh _ _ a | .vrsum _ _ a | .vrmax _ _ a | .vrmin _ _ a | .vcvt _ _ a _ _ _ | .vscale _ _ a _ _ | .vquant _ _ a _ _
  | .vnib _ _ a _ _ _ | .vtag _ _ a _ | .vbnd _ _ a _ _ | .xpRot _ _ a _ _ | .xpSlide _ _ a _ _ | .xpSplat _ _ a _ _
  | .xsMerge _ _ _ _ a | .xsKth _ _ a _ | .mxSscale _ a => [a]
  | .vins _ d _ _ _ => [d]
  | .xsPenal _ _ _ _ a n => if 32 < n.toNat then [a, a + 1] else [a]
  | .xsVerify _ _ _ a _ => [a, a + 1]
  | .vst _ _ v _ _ => [v]
  | .vgath _ _ _ _ i _ => [i]
  | .vscat _ _ v _ i _ => [v, i]
  | _ => []

/-- A conversion of a row into a tag reads vd as well: the target has more lanes (R200). A source that is Poison or of a tag that the
conversion does not take has no lanes to place. -/
def readsOld (accepts : BitVec 4 → Bool) (x : Row) (t : BitVec 4) : Bool :=
  !x.isPoison && accepts x.tag && decide (tagLanes x.tag < tagLanes t)

/-- The rows that an instruction reads, with vd of a conversion into more lanes (R50, R179, R200). -/
def State.rowsRead (s : State) (i : Instr) : List VReg :=
  rowReads i ++ match i with
    | .vcvt _ d a _ _ t => if readsOld cvtAccepts (s.rowOp a) (cvtTag t) then [d] else []
    | .vquant _ d a c r =>
      let y := s.opnd c r
      let tt := BitVec.ofNat 4 (bits y.v 35 32)
      if !y.pois && quantTag (bits y.v 35 32) && readsOld (fun t => t == 1 || t == 2 || t == 3) (s.rowOp a) tt then [d] else []
    | _ => []

/-- The bytes that a memory instruction accesses at virtual addresses, for the collision of R294 (R280 to R291): 128 of a VLD whose tile's
tag is not TF6 or cannot be read, and none of LDM, CLEAN and INVAL (DESIGN CHOICE, log entry 102). -/
def State.accSpan (s : State) : Instr → List (Nat × Nat)
  | .ld sl _ _ b t d | .st sl _ _ b t d => [(s.ea sl b (dispBy d (tyBytes t)), tyBytes t)]
  | .lda sl _ _ b t _ d | .stl sl _ _ b t _ d => [(s.ea sl b (dispBy d (tyBytes t)), tyBytes t)]
  | .vld sl _ _ b d =>
    let ea := s.ea sl b (dispBy d 128)
    [(ea, if (s.tagAt (slotM sl) ea).2 = some 5 then 96 else 128)]
  | .vst sl _ v b d => [(s.ea sl b (dispBy d 128), if (s.rowOp v).tag = 5 then 96 else 128)]
  | .vlds sl _ _ b sr f =>
    (List.range (if f = .tf6 then 32 else 128 / (vldsUnit f).1)).map fun u =>
      (((s.opnd (mCluster sl) b).v + BitVec.ofNat 64 u * (s.opnd (mCluster sl) sr).v).toNat, (vldsUnit f).1)
  | .vgath sl _ _ b i f | .vscat sl _ _ b i f =>
    ((List.range 32).filterMap (gathAddr (s.opnd (mCluster sl) b).v (s.rowOp i) (gathScale f))).map fun a => (a, 4)
  | .amo sl _ _ b .. | .cas sl _ _ b .. => [(s.ea sl b 0, 8)]
  | _ => []

/-- The latency of a load, by the space of its first byte (R43). -/
def State.loadLat (s : State) (i : Instr) : Nat :=
  match s.accSpan i with
  | [] => 4
  | (a, _) :: _ => if inSpad a then 4 else 10

/-- The row that an instruction writes and its latency (R43). -/
def State.rowWrite (s : State) (i : Instr) : Option (VReg × Nat) :=
  match i with
  | .vadd _ d .. | .vsub _ d .. | .vmin _ d .. | .vmax _ d .. | .vabs _ d _ | .vneg _ d _ | .vand _ d .. | .vor _ d ..
  | .vxor _ d .. | .vnot _ d _ | .vshl _ d .. | .vshr _ d .. | .vsra _ d .. | .vcmp _ d .. | .vsel _ d .. | .vbcast _ d ..
  | .vins _ d .. | .vnib _ d .. | .vbperm _ d .. | .vtag _ d .. => some (d, 2)
  | .vbnd _ d _ o _ => match o with | .chk => none | _ => some (d, 2)
  | .vmul _ d .. | .vfma _ d .. | .vfms _ d .. | .vscale _ d .. => some (d, 4)
  | .vcvt _ d .. | .vquant _ d .. => some (d, 3)
  | .vexp2 _ d _ | .vlog2 _ d _ | .vrcp _ d _ | .vrsq _ d _ | .vtanh _ d _ => some (d, 8)
  | .vrsum _ d _ | .vrmax _ d _ | .vrmin _ d _ => some (d, 6)
  | .xpPerm _ d .. | .xpShuf _ d .. | .xpRot _ d .. | .xpSlide _ d .. | .xpSplat _ d .. => some (d, 3)
  | .xsSort _ d .. => some (d, 6)
  | .vld _ _ v .. | .vlds _ _ v .. | .vgath _ _ v .. => some (v, s.loadLat i)
  | _ => none

/-- An instruction places one result in flight; MX instructions place theirs step by step (R65). -/
def placesResult (i : Instr) : Bool :=
  match i, i.slot? with
  | .wrsr .., _ => false
  | _, some .sa | _, some .sb | _, some .xps => true
  | .vbnd _ _ _ .chk _, _ => false
  | _, some .vec => true
  | .bar .., _ | .maskw .., _ => true
  | .ld .., _ | .lda .., _ | .ldm .., _ | .vld .., _ | .vlds .., _ | .vgath .., _ | .amo .., _ | .cas .., _ => true
  | _, _ => false

/-! ## Accesses reserved in a tick and later -/

/-- The sequencer that an MX instruction of the bundle starts. -/
def seqOf (i : Instr) : Option Seq :=
  match i with
  | .mxMac _ d v n => some { kind := .mac, vd := d.toNat, vs := v.toNat, n := n.toNat }
  | .mxMaca _ d v n => some { kind := .maca, vd := d.toNat, vs := v.toNat, n := n.toNat }
  | .mxWload _ _ v n => some { kind := .wload, vs := v.toNat, n := n.toNat }
  | .mxDrain _ d v n => some { kind := .drain, vd := d.toNat, vs := v.toNat, n := n.toNat }
  | .mxClr _ d n => some { kind := .clr, vd := d.toNat, n := n.toNat }
  | _ => none

/-- A use of a row in a tick: the tick counted from the one that issues now, the row, whether it is a write, whether a matrix
beat makes it, and whether it is an accumulate read. -/
structure RowUse where
  at_ : Nat
  row : Nat
  write : Bool
  beat : Bool := false
  acc : Bool := false
  deriving DecidableEq, Repr

/-- The uses of the step that the sequencer performs `o` ticks from now (R210, R218, R222, R223). -/
def stepUse (q : Seq) (o : Nat) : List RowUse :=
  let i := q.next + o
  match q.kind with
  | .idle => []
  | .mac => [⟨o, q.vs + i, false, false, false⟩, ⟨o + 35, q.vd + i, true, true, false⟩]
  | .maca =>
    [⟨o, q.vs + i, false, false, false⟩, ⟨o + 35, q.vd + i, false, true, true⟩, ⟨o + 35, q.vd + i, true, true, false⟩]
  | .wload => [⟨o, q.vs + i, false, false, false⟩]
  | .drain => [⟨o, q.vs + i, false, false, false⟩, ⟨o + 2, q.vd + i, true, false, false⟩]
  | .clr => [⟨o, q.vd + i, true, false, false⟩]

/-- The uses of all steps that a sequencer has left. -/
def stepUses (q : Seq) : List RowUse := (List.range (q.n - q.next)).flatMap (stepUse q)

/-- The uses of a result in flight. -/
def Entry.uses (e : Entry) : List RowUse :=
  match e.pay with
  | .row v _ => [⟨e.r - 1, v.toNat, true, false, false⟩]
  | .beat v acc .. =>
    [⟨e.r - 1, v.toNat, true, true, false⟩] ++ (if acc then [⟨e.r - 1, v.toNat, false, true, true⟩] else [])
  | _ => []

/-- What earlier bundles have reserved. -/
def Core.reserved (k : Core) : List RowUse := k.infl.flatMap Entry.uses ++ stepUses k.seq

/-- What an instruction of the bundle reserves, under a true predicate (R49). -/
def State.ownUses (s : State) (i : Instr) : List RowUse :=
  if s.iss.pre.predVal (predOf i) then
    (s.rowsRead i).map (fun v => ⟨0, v.toNat, false, false, false⟩) ++
    (match s.rowWrite i with | some (v, l) => [⟨l - 1, v.toNat, true, false, false⟩] | none => []) ++
    (match seqOf i with | some q => stepUses q | none => [])
  else []

/-- A use fits within the limits of its bank and tick, beside the others: four reads and one write (R50). -/
def useFits (others : List RowUse) (u : RowUse) : Bool :=
  let n := (others.filter fun x => x.at_ == u.at_ && x.row / 32 == u.row / 32 && x.write == u.write).length
  if u.write then decide (n < 1) else decide (n < 4)

/-- Every use of a list fits on top of what stands before it. -/
def usesFit : List RowUse → List RowUse → Bool
  | _, [] => true
  | others, u :: us => useFits others u && usesFit (others ++ [u]) us

/-- A write falls within the interval for which a read reserves its row (R213). -/
def holdBroken (rd wr : RowUse) : Bool :=
  !rd.write && wr.write && rd.row == wr.row && decide (wr.at_ < rd.at_) && !(rd.acc && wr.beat)

/-- Some write of one list breaks some reservation of another. -/
def anyBroken (rds wrs : List RowUse) : Bool := rds.any fun r => wrs.any (holdBroken r)

/-! ## The checks -/

/-- An illegal-schedule fault of a slot. -/
def schedAt (slot : Nat) (detail : BitVec 8) : Fault1 := ⟨4, slot, 0x03, detail, 0, 0⟩

/-- The bank limits and the reserved rows, slot by slot: `held` is what earlier bundles and lower slots have reserved (R50,
R213). -/
def State.rowChecks (s : State) (held : List RowUse) : List (Slot × Instr) → List Fault1
  | [] => []
  | (k, i) :: rest =>
    let us := s.ownUses i
    let bank := if usesFit held us then [] else [schedAt k.num 0x02]
    let hold := if anyBroken us held || anyBroken held us || anyBroken us us then [schedAt k.num 0x03] else []
    bank ++ hold ++ s.rowChecks (held ++ us) rest

/-- The limit of 48 results in flight: `n` are held before the slot. The steps of the sequencer that fall in this tick count
(R64, R65, R215). A sequencer step that is itself the 49th is answered at the MAT slot (log entry 81). -/
def State.flightChecks (s : State) (n : Nat) : List (Slot × Instr) → List Fault1
  | [] => []
  | (k, i) :: rest =>
    let live := s.iss.pre.predVal (predOf i)
    let m := if !live then 0 else if placesResult i then 1 else
      match seqOf i with | some q => if q.kind == .wload then 0 else 1 | none => 0
    (if m ≠ 0 ∧ 48 < n + m then [schedAt k.num 0x08] else []) ++ s.flightChecks (n + m) rest

/-- Results in flight in this tick before the bundle's own: those of earlier bundles and the sequencer's step. -/
def Core.flightNow (k : Core) : Nat :=
  k.infl.length + match k.seq.kind with | .idle | .wload => 0 | _ => 1

/-- The sequencer's step of this tick is the 49th result in flight: the bundle that issues beside it meets the fate of R64, at the MAT
slot, whose instruction the step belongs to (DESIGN CHOICE, log entry 81). -/
def Core.stepCheck (k : Core) : List Fault1 := if 48 < k.flightNow then [schedAt matSlot 0x08] else []

/-- An AMO or CAS. -/
def isAtomic : Instr → Bool
  | .amo .. | .cas .. => true
  | _ => false

/-- Two spans overlap. -/
def spansMeet (x y : List (Nat × Nat)) : Bool :=
  x.any fun a => y.any fun b => decide (a.1 < b.1 + b.2) && decide (b.1 < a.1 + a.2)

/-- An atomic of one memory slot meets the access of the other (R294). The fault names the atomic's slot, MA's when both are atomics
(DESIGN CHOICE, log entry 91). -/
def State.atomicCheck (s : State) (is : List (Slot × Instr)) : List Fault1 :=
  match is.find? fun x => x.1 == .ma, is.find? fun x => x.1 == .mb with
  | some (_, i), some (_, j) =>
    if (isAtomic i || isAtomic j) && s.iss.pre.predVal (predOf i) && s.iss.pre.predVal (predOf j) &&
        spansMeet (s.accSpan i) (s.accSpan j) then
      [schedAt (if isAtomic i then 3 else 4) 0x0E]
    else []
  | _, _ => []

/-- The number that names a bundle's header in a record (R466). -/
def recHeader : Nat := 8

/-- The safe-point marker: no result in flight (R70, R215), and a pending deferred data trap is taken here (R54). -/
def Core.safeChecks (k : Core) : List Fault1 :=
  (if k.busyFlight then [schedAt recHeader 0x07] else []) ++
  match k.pendingDeferred 3 with
  | some f => [⟨f.rank, recHeader, f.cause, f.detail, 0, f.aux⟩]
  | none => []

/-- The schedule faults of a decoded bundle, on the state whose issue record is set up for it. -/
def State.schedule (s : State) (b : Bundle) : List Fault1 :=
  let k := s.iss.pre
  (if b.safe then k.safeChecks else []) ++ s.rowChecks k.reserved b.slots ++ k.stepCheck ++
    s.flightChecks k.flightNow b.slots ++ s.atomicCheck b.slots

end Sys2Proof.Machine
end

