-- ==== Sys2Proof/Machine/Tasks.lean ====
section
/-! DEFINITION. Tasks, launches and jobs: task descriptors (R355 to R359), releases and completions (R362, R363), cancels
(R364, R365, R468), the settling of a core's engine commands (R311, R339), input words (R367) and the completion records of
jobs (R347). -/

namespace Sys2Proof.Machine

/-! ## Reading and adding through a partition's translation -/

/-- The master ID of a chase's task scheduler (R436). -/
def schedMid (h : ChaseId) : Nat := 0x0E4 + h.val

/-- Translate an address of the translated range for a partition, by the second-level TLB and the page walkers of a chase; a fault
below it, where a core's scratchpad lies, or beyond 2^48. -/
def State.partWalk (s : State) (q : PartId) (h : ChaseId) (va : Nat) : State × Except AccFault TlbEnt :=
  if inSpad va then (s, .error (xlatFault 0))
  else if 2 ^ 48 ≤ va then (s, .error (xlatFault 0))
  else s.walkFor h (bits (s.part q).ptroot 47 12 * 4096) q.val va

/-- The device address that a translation gives. -/
def TlbEnt.da (e : TlbEnt) (va : Nat) : Nat := e.dbase + (va - e.vbase)

/-- The page lies in processing memory. -/
def inMemory (da : Nat) : Bool := targetOf da == .linear || targetOf da == .window

/-- An access of a scheduler to an address of a partition stalls, and waits (R29, R309, R313). -/
def State.schedStalls (s : State) (q : PartId) (h : ChaseId) (va n : Nat) : Bool :=
  match (s.partWalk q h va).2 with
  | .error f => f.stalls
  | .ok e => s.rangeStalls (e.da va) n

/-- Read bytes of one page as a chase's task scheduler, once the host has given them up (R276); none on a fault, a refusal or
poisoned data (R359, R367). -/
def State.schedRead (s : State) (q : PartId) (h : ChaseId) (va n : Nat) : State × Option (List Byte) :=
  let (s1, x) := s.partWalk q h va
  match x with
  | .error _ => (s1, none)
  | .ok e =>
    if e.r && inMemory (e.da va) then (s1.recallRange (e.da va) n).readMem (schedMid h) (e.da va) n else (s1, none)

/-- Add 1 to an 8-byte word as a master, once the host has given it up (R248); false when the word faults, is refused or is poisoned, and then it is left as it is
(R369, R395). -/
def State.addOne (s : State) (mid : Nat) (e : TlbEnt) (va : Nat) : State × Bool :=
  let da := e.da va
  if va % 8 ≠ 0 ∨ !e.r ∨ !e.w ∨ e.mtype = 2 ∨ !inMemory da ∨ (s.frisk mid da 8 true true).isNone then (s, false)
  else
    let (s1, x) := (s.recallRange da 8).readMem mid da 8
    match x, s1.linearOf da with
    | some bs, some a =>
      if s1.exhausted (((s1.frisk mid da 8 true true).map windowSlot).getD 0) (a / 4096) then
        (s1.sealEvent mid (a / 4096 * 4096) 1, false)
      else (s1.writeMem mid (addrBytes da (leBytes 8 ((ofLe bs + 1) % 2 ^ 64))) .keep, true)
    | _, _ => (s1, false)

/-! ## Descriptors -/

/-- A signed field of 32 bits. -/
def sfield32 (b : List Byte) (off : Nat) : Word32 := BitVec.ofNat 32 (fieldAt b off 4)

/-- A tile entry (R357). -/
def parseEntry (b : List Byte) : TileEnt :=
  let f := fieldAt b 0x1C 4
  { va := BitVec.ofNat 64 (fieldAt b 0 8), sx := sfield32 b 8, sy := sfield32 b 0x0C, sz := sfield32 b 0x10
    bytes := fieldAt b 0x14 4, spoff := fieldAt b 0x18 4, gpn := BitVec.ofNat 6 (f / 2 ^ 8)
    wb := f / 8 % 2 == 1, gpw := f / 4 % 2 == 1, tlper := f / 2 % 2 == 1, nc := f % 2 == 1
    tlva := BitVec.ofNat 64 (fieldAt b 0x20 8), wait := BitVec.ofNat 64 (fieldAt b 0x28 8) }

/-- Bytes that are all zero. -/
def allZero (b : List Byte) : Bool := b.all (· == 0)

/-- A tile entry's fields are in range (R357). -/
def entryOk (b : List Byte) (out : Bool) : Bool :=
  let e := parseEntry b
  let f := fieldAt b 0x1C 4
  decide (e.va.toNat % 128 = 0) && decide (e.va.toNat < 2 ^ 48) && decide (e.sx.toNat % 128 = 0) &&
    decide (e.sy.toNat % 128 = 0) && decide (e.sz.toNat % 128 = 0) && decide (128 ≤ e.bytes) &&
    decide (e.bytes % 128 = 0) && decide (e.spoff % 128 = 0) && decide (e.spoff + e.bytes ≤ Config.spadBytes) &&
    decide (f / 2 ^ 14 = 0) && decide (f / 16 % 16 = 0) && decide (e.tlva.toNat % 8 = 0) &&
    allZero ((b.drop 0x30).take 16) &&
    (if out then !e.gpw && e.wait == 0 else !e.wb)

/-- The 64 bytes of entry `i` of a table at an offset. -/
def entryBytesAt (b : List Byte) (base i : Nat) : List Byte := (b.drop (base + 64 * i)).take 64

/-- A descriptor's fields (R356). -/
def descFields (b : List Byte) : Desc :=
  let w4 := fieldAt b 4 4
  let w8 := fieldAt b 8 4
  let wc := fieldAt b 0x0C 4
  { taskid := sfield32 b 0, eside := w4 / 2 ^ 16 % 2 == 1, eoff := BitVec.ofNat 16 w4
    esc := w8 / 2 ^ 31 == 1, xside := w8 / 2 ^ 16 % 2 == 1, xoff := BitVec.ofNat 16 w8
    sov := wc / 2 ^ 19 % 2 == 1, opc := BitVec.ofNat 3 (wc / 2 ^ 16), thr := BitVec.ofNat 16 wc
    cva := BitVec.ofNat 64 (fieldAt b 0x10 8), clen := fieldAt b 0x18 4, ctag := sfield32 b 0x1C
    ins := (List.range (wc / 2 ^ 20 % 16)).map fun i => parseEntry (entryBytesAt b 0x80 i)
    outs := (List.range (wc / 2 ^ 24 % 8)).map fun i => parseEntry (entryBytesAt b 0x280 i) }

/-- The spans of a list do not overlap each other. -/
def disjointSpans : List (Nat × Nat) → Bool
  | [] => true
  | x :: xs => xs.all (fun y => decide (x.1 + x.2 ≤ y.1) || decide (y.1 + y.2 ≤ x.1)) && disjointSpans xs

/-- A descriptor; none when a field is out of range or a reserved field is not zero, or a timeline word that every task shares lies in the
range of the scratchpad (R355 to R357, R359). -/
def parseDesc (b : List Byte) : Option Desc :=
  let d := descFields b
  let nin := d.ins.length
  let nout := d.outs.length
  let ok :=
    decide (fieldAt b 4 4 / 2 ^ 17 = 0) && decide (fieldAt b 8 4 / 2 ^ 17 % 2 ^ 14 = 0) &&
    decide (fieldAt b 0x0C 4 / 2 ^ 27 = 0) && decide (nin ≤ 8) && decide (nout ≤ 4) &&
    decide (d.eoff.toNat % 4 = 0) && decide (d.xoff.toNat % 4 = 0) && (d.esc || d.xoff == 0) &&
    decide (d.thr.toNat ≤ 0x7BFF) && decide (d.cva.toNat % 128 = 0) && decide (d.cva.toNat < 2 ^ 48) &&
    (if d.cva = 0 then d.clen == 0
      else !inSpad d.cva.toNat && decide (128 ≤ d.clen) && decide (d.clen ≤ 0x10000) && decide (d.clen % 128 = 0)) &&
    allZero ((b.drop 0x20).take 0x60) &&
    (List.range 8).all (fun i => if i < nin then entryOk (entryBytesAt b 0x80 i) false else allZero (entryBytesAt b 0x80 i)) &&
    (List.range 4).all (fun i => if i < nout then entryOk (entryBytesAt b 0x280 i) true else allZero (entryBytesAt b 0x280 i)) &&
    disjointSpans ((d.ins ++ d.outs).map fun e => (e.spoff, e.bytes)) &&
    (d.ins ++ d.outs).all fun e => e.tlper || e.tlva == 0 || !inSpad e.tlva.toNat
  if ok then some d else none

/-- The memory address of a tile for a coordinate (R358). -/
def TileEnt.addr (e : TileEnt) (x y z : BitVec 16) : Nat :=
  (e.va + BitVec.ofInt 64 (x.toNat * e.sx.toInt + y.toNat * e.sy.toInt + z.toNat * e.sz.toInt)).toNat

/-- The address of a tile's timeline word for task ℓ, for a tile that has one (R358). -/
def TileEnt.tl (e : TileEnt) (ell : Nat) : Nat := if e.tlper then (e.tlva + BitVec.ofNat 64 (8 * ell)).toNat else e.tlva.toNat

/-- A task's addresses pass R359: no output over an input, no timeline word in the scratchpad range. The field tlva = 0 names no
word. -/
def Desc.placeOk (d : Desc) (x y z : BitVec 16) (ell : Nat) : Bool :=
  d.outs.all (fun o => d.ins.all fun i =>
    decide (o.addr x y z + o.bytes ≤ i.addr x y z) || decide (i.addr x y z + i.bytes ≤ o.addr x y z)) &&
  (d.ins ++ d.outs).all fun e => e.tlva == 0 || !inSpad (e.tl ell)

/-! ## The tables of tasks and jobs -/

/-- A task by its number. -/
def State.task? (s : State) (i : Nat) : Option Task := (s.tasks.find? fun x => x.1 == i).map (·.2)

/-- Change a task. -/
def State.modTask (s : State) (i : Nat) (f : Task → Task) : State :=
  { s with tasks := s.tasks.map fun x => if x.1 = i then (x.1, f x.2) else x }

/-- Remove a task. -/
def State.dropTask (s : State) (i : Nat) : State := { s with tasks := s.tasks.filter fun x => x.1 != i }

/-- A job. -/
def State.job (s : State) (q : PartId) (j : Fin 16) : Job := (s.part q).jobs.get j

/-- Replace a job. -/
def State.setJob (s : State) (q : PartId) (j : Fin 16) (x : Job) : State :=
  s.modPart q fun p => { p with jobs := p.jobs.set j.val x j.isLt }

/-- Change a job. -/
def State.modJob (s : State) (q : PartId) (j : Fin 16) (f : Job → Job) : State := s.setJob q j (f (s.job q j))

/-- A launch of a job. -/
def Job.launch (j : Job) (g l : Nat) : Launch := (j.graphs.getD g []).getD l { dva := 0, nx := 0, ny := 0, nz := 0, preds := 0, discarded := true }

/-- Change a launch of a job. -/
def Job.modLaunch (j : Job) (g l : Nat) (f : Launch → Launch) : Job :=
  { j with graphs := j.graphs.modify g fun ls => ls.modify l f }

/-- The chases in which a partition holds a core (R511). -/
def State.chasesOf (s : State) (q : PartId) : List ChaseId :=
  (List.finRange 12).filter fun h => (List.finRange 96).any fun c => (s.part q).pcore.getLsbD c.val && chaseOf c == h

/-- The chase that stands for a task that has none: the partition's first, or chase 0. -/
def State.anyChase (s : State) (q : PartId) : ChaseId := (s.chasesOf q).headD 0

/-- Assign a task to a chase: which of several is a free value (R511). -/
def State.assign (s : State) (i : Nat) (q : PartId) : State :=
  match s.chasesOf q with
  | [] => s
  | [h] => s.modTask i fun t => { t with chase := some h }
  | h :: hs =>
    let (s1, x) := s.takeFree 8
    s1.modTask i fun t => { t with chase := some ((h :: hs).getD (x.toNat % (hs.length + 1)) h) }

/-! ## Barriers -/

/-- The key of a barrier: partition, chase, number (R392). -/
def barKey (q : Option PartId) (h : ChaseId) (id : Nat) : Nat :=
  (((match q with | some q => q.val | none => 24) * 12 + h.val) * 16) + id

/-- The barrier that a core's BAR reaches. -/
def State.barOf (s : State) (c : CoreId) (id : Nat) : Nat := barKey (s.partOf c) (chaseOf c) id

/-- Answer waiting cores with a flag. -/
def State.answer (s : State) (cs : List CoreId) (b : Bool) : State :=
  cs.foldl (fun s c => s.modCore c fun k => { k with ans := some (.flag b) }) s

/-- A core arrives at a barrier (R392). -/
def State.arrive (s : State) (c : CoreId) (id n : Nat) : State :=
  let key := s.barOf c id
  let b := sget {} s.bars key
  if b.arrived.isEmpty then
    if n = 1 then s.answer [c] true else { s with bars := sset {} s.bars key ⟨n, [c]⟩ }
  else if b.n ≠ n then s.answer [c] false
  else if b.arrived.length + 1 = n then ({ s with bars := sset {} s.bars key {} }).answer (b.arrived ++ [c]) true
  else { s with bars := sset {} s.bars key ⟨n, b.arrived ++ [c]⟩ }

/-- A core withdraws from a barrier (R392). -/
def State.withdraw (s : State) (c : CoreId) (id : Nat) : State :=
  let key := s.barOf c id
  let b := sget {} s.bars key
  let left := b.arrived.filter (· != c)
  { s with bars := sset {} s.bars key (if left.isEmpty then {} else ⟨b.n, left⟩) }

/-- A core leaves the bundle in which it waits at a barrier, if it does: its arrival is withdrawn. -/
def State.leaveBar (s : State) (c : CoreId) : State :=
  match (s.core c).req with
  | some (.bar id _ _) => s.withdraw c id
  | _ => s

/-! ## A core's engine commands -/

/-- No command of the five contexts is outstanding (R320). -/
def Core.commandsDone (k : Core) : Bool := k.cx.toList.all (·.cmds.isEmpty) && k.gx.cmds.isEmpty

/-- Some copy of the core is stopped (R258). -/
def Core.copyStopped (k : Core) : Bool := k.resStop || k.cx.toList.any fun x => x.cmds.any (·.stopped)

/-- The core begins other work: no task, nothing in flight. Registers stay; the next task starts from R32. -/
def Core.free (k : Core) : Core :=
  { k with
    st := .free, home := none, task := none, relaunch := false, sov := false, held := none, escRec := none, infl := [], seq := {}
    rstack := [], bubble := 0, lc := Vector.replicate 4 {}, order := [], wait := none, waitSlot := 0, waitc := none
    req := none, ans := none, preq := false, creq := false, resStop := false, resLeft := [], porig := []
    settling := false, trap := none, owes := none }

/-- The timelines of a core whose commands have settled: each at its issue count (R339). -/
def Core.settledLines (k : Core) : Core :=
  { k with
    cx := k.cx.map fun x => { x with cmds := [], tl := x.icount }
    gx := { k.gx with cmds := [], tl := k.gx.icount, regions := [] } }

/-- A core that settles, or that is lost, has nothing left to settle: its commands have completed and its stores are performed (R277,
R339). -/
def Core.settles (k : Core) : Bool :=
  (k.st == .settling || k.st == .lost) && k.commandsDone && k.resLeft.isEmpty && k.stores.isEmpty

/-- A core that has settled: it begins other work, unless it is lost. -/
def Core.rested (k : Core) : Core := { k.settledLines.free with st := if k.st = .lost then .lost else .free }

/-- A core that settles without a task of its own rests once nothing is left. -/
def State.settleCheck (s : State) (c : CoreId) : State :=
  if (s.core c).settles && (s.core c).task.isNone then s.modCore c Core.rested else s

/-- Cancellation keeps the copies of a context that have begun: how many is a free value (R339). -/
def CopyCtx.cancel (x : CopyCtx) (n : Nat) : CopyCtx := { x with cmds := (x.cmds.take n).filter (!·.stopped) }

/-- Settle a core's engine commands as for a cancellation (R339). The job of its task waits for that (R277). -/
def State.settleCore (s : State) (c : CoreId) : State :=
  let s := s.leaveBar c
  let k := s.core c
  let job := (s.taskOf c).map fun t => (t.q, t.job)
  let (s1, x) := s.takeFree 20
  let keep (i : Fin 4) : Nat := (x.toNat / 32 ^ i.val) % 32 % ((k.cx.get i).cmds.length + 1)
  (s1.modCore c fun k =>
    { k with
      st := .settling, owes := job, held := none, trap := none, infl := [], seq := {}, wait := none, waitc := none, req := none, ans := none
      preq := false, creq := false, task := none, resStop := false
      resLeft := if k.resStop then [] else k.resLeft
      cx := Vector.ofFn fun i => (k.cx.get i).cancel (keep i)
      gx := { k.gx with cmds := k.gx.cmds.filter (·.dispatched) } }).settleCheck c

/-! ## Completion records -/

/-- The master ID of a function (R436). -/
def funcMid (f : FuncId) : Nat := 0x080 + f.val

/-- CQBASE's address (R342). -/
def Func.cq (f : Func) : Nat := bits f.cqbase 47 11 * 2048

/-- CWBASE's address (R342). -/
def Func.cw (f : Func) : Nat := bits f.cwbase 47 12 * 4096

/-- The bytes of a completion record (R347). -/
def recordBytes (utag seq : Word32) (taskid : Word32) (cause : BitVec 8) (status : Nat) (ns : Word) (phase : Bool) :
    List Byte :=
  leBytes 4 seq.toNat ++ leBytes 4 utag.toNat ++ leBytes 4 (status + cause.toNat * 256) ++ leBytes 4 taskid.toNat ++
  leBytes 8 ns.toNat ++ leBytes 8 (b2n phase)

/-- Write bytes of the device's own as a master, once the host has given them up (R248); a refusal is reported (R342). -/
def State.deviceWrite (s : State) (mid da : Nat) (bs : List Byte) : State :=
  if (s.linearOf da).isSome then (s.recallRange da bs.length).writeMem mid (addrBytes da bs) .keep else s.permEvent mid da

/-- Write the record of slot `h` of a function, which ends that slot's use: bytes 0 to 23, then bytes 24 to 31 (R344, R347). -/
def State.writeRecord (s : State) (f : FuncId) (h : Nat) (bs : List Byte) : State :=
  let da := (s.func f).cq + 32 * h
  let s2 := (s.deviceWrite (funcMid f) da (bs.take 24)).deviceWrite (funcMid f) (da + 24) (bs.drop 24)
  let x := s2.func f
  let owed := x.owed.filter (· != h)
  s2.setFunc f { x with
    owed := owed
    rdy := x.rdy && (x.en || !owed.isEmpty)
    fences := x.fences.map fun y => (y.1, y.2.1, y.2.2.1, y.2.2.2.1, y.2.2.2.2.filter (· != h)) }

/-- A record of a slot comes to be written: one that stalls is held (R29, R309, R313). -/
def State.putRecord (s : State) (f : FuncId) (h : Nat) (utag seq taskid : Word32) (cause : BitVec 8) (status : Nat)
    (phase : Bool) : State :=
  let (s1, ns) := s.takeFree 64
  let bs := recordBytes utag seq taskid cause status ns phase
  if s1.rangeStalls ((s1.func f).cq + 32 * h) 32 then { s1 with heldRecords := s1.heldRecords ++ [⟨f, h, bs⟩] }
  else s1.writeRecord f h bs

/-- Answer the FENCE slots whose earlier records are all written; `n` bounds their number (R345). -/
def State.answerFences (s : State) (f : FuncId) : Nat → State
  | 0 => s
  | n + 1 =>
    match (s.func f).fences with
    | (h, utag, seq, ph, []) :: rest =>
      let s1 := s.setFunc f { s.func f with fences := rest }
      (s1.putRecord f h utag seq 0 0 0 ph).answerFences f n
    | _ => s

/-- Write a record and answer the fences that waited for it. -/
def State.record (s : State) (f : FuncId) (h : Nat) (utag seq taskid : Word32) (cause : BitVec 8) (status : Nat)
    (phase : Bool) : State :=
  (s.putRecord f h utag seq taskid cause status phase).answerFences f 64

/-- Write the held records of a list, and answer what waited for them; one that still stalls stays held. -/
def State.flushAll (s : State) : List HeldRecord → State
  | [] => s
  | x :: xs =>
    (if s.rangeStalls ((s.func x.f).cq + 32 * x.h) 32 then { s with heldRecords := s.heldRecords ++ [x] }
      else (s.writeRecord x.f x.h x.bytes).answerFences x.f 64).flushAll xs

/-- Write the records that were held and that nothing holds up any more. -/
def State.flushRecords (s : State) : State := ({ s with heldRecords := [] } : State).flushAll s.heldRecords

/-! ## The end of a task -/

/-- How a task ends (R366). -/
inductive TaskOut where
  | done
  | cancelled
  | failed (cause : BitVec 8)
  deriving DecidableEq, Repr

/-- Remove a task of the table and count it in its launch (R363). -/
def State.countTask (s : State) (i : Nat) (t : Task) : State :=
  (s.dropTask i).modJob t.q t.job fun j => j.modLaunch t.gix t.lix fun l => { l with left := l.left - 1 }

/-- Remove a task that was cancelled or failed, and note it in its launch: such a launch does not complete as R363 says, it only
counts as complete (R364). -/
def State.spoilTask (s : State) (i : Nat) (t : Task) : State :=
  (s.countTask i t).modJob t.q t.job fun j => j.modLaunch t.gix t.lix fun l => { l with spoilt := true }

/-- Note a job's failure: the first one recorded stays, and a cancel that came before it decides how the job ends (R363, R364). -/
def Job.fail (j : Job) (taskid : Word32) (cause : BitVec 8) : Job :=
  if j.wasCancelled then j else { j with failed := j.failed <|> some (taskid, cause) }

/-- The core at a task's side is frozen on a wait at which a cancel stops the task (R375). -/
def waitStops : Wait → Bool
  | .waittl | .wait | .ifence | .drain | .region => true
  | _ => false

/-- Stop a task in the scope of a cancel (R364, R468). A task that stages, or runs, is marked; a held, or frozen, one is
stopped, as is one whose trap still waits for late data; one that ends completes. A job counts as one in which a cancel cancelled a task
once one has stopped (R364, R365). -/
def State.stopTask (s : State) (i : Nat) (t : Task) : State :=
  let ended (s : State) : State := (s.modJob t.q t.job fun j => { j with wasCancelled := true }).spoilTask i t
  match t.st with
  | .ending => s
  | .pending | .ready => ended s
  | .staging | .running =>
    match t.core with
    | none => s
    | some c =>
      let k := s.core c
      match k.st with
      | .held | .trapping => ended ((s.settleCore c).modCore c fun k => { k with cancelled := true })
      | .running =>
        match k.wait with
        | some w => if waitStops w then ended (s.settleCore c) else s.modCore c fun k => { k with creq := true }
        | none => s.modCore c fun k => { k with creq := true }
      | .staging => if k.resStop then ended (s.settleCore c) else s.modCore c fun k => { k with creq := true }
      | _ => s.modCore c fun k => { k with creq := true }

/-- Stop each task of a list that the scope holds. -/
def State.stopTasks (s : State) (sel : Task → Bool) : List Nat → State
  | [] => s
  | i :: is =>
    match s.task? i with
    | some t => if sel t then (s.stopTask i t).stopTasks sel is else s.stopTasks sel is
    | none => s.stopTasks sel is

/-- Discard the unreleased launches of a job that the scope holds (R364). -/
def Job.discard (j : Job) (sel : Nat → Nat → Bool) : Job :=
  let any := j.graphs.zipIdx.any fun g => g.1.zipIdx.any fun l => sel g.2 l.2 && !l.1.released && !l.1.isOver
  { j with
    graphs := j.graphs.zipIdx.map fun g => g.1.zipIdx.map fun l =>
      if sel g.2 l.2 && !l.1.released && !l.1.ended then { l.1 with discarded := true } else l.1
    wasCancelled := j.wasCancelled || any }

/-- A cancel over some launches of a job (R364). -/
def State.cancelScope (s : State) (q : PartId) (j : Fin 16) (sel : Nat → Nat → Bool) : State :=
  (s.modJob q j fun x => x.discard sel).stopTasks (fun t => t.q == q && t.job == j && sel t.gix t.lix)
    (s.tasks.map (·.1))

/-- End a task that has left its core, or never had one. A failure ends its job (R363). -/
def State.endTask (s : State) (i : Nat) (o : TaskOut) : State :=
  match s.task? i with
  | none => s
  | some t =>
    match o with
    | .done => s.countTask i t
    | .cancelled => (s.spoilTask i t).modJob t.q t.job fun j => { j with wasCancelled := true }
    | .failed cause =>
      ((s.spoilTask i t).modJob t.q t.job fun j => j.fail t.desc.taskid cause).cancelScope t.q t.job fun _ _ => true

/-- A task that fails before it reaches a core: its informational record and its end (R359, R367, R465). -/
def State.failUnplaced (s : State) (i : Nat) (cause : BitVec 8) (addr : Nat) : State :=
  match s.task? i with
  | none => s
  | some t =>
    let h := t.chase.getD (s.anyChase t.q)
    (s.inform h { cause := cause, mid := BitVec.ofNat 9 (schedMid h), part := BitVec.ofNat 5 t.q.val
                  taskid := t.desc.taskid, addr := BitVec.ofNat 64 addr }).endTask i (.failed cause)

/-! ## Releases and completions -/

/-- The task of coordinate ℓ of a launch (R358). -/
def taskAt (q : PartId) (j : Fin 16) (g l : Nat) (x : Launch) (d : Desc) (level : BitVec 2) (gp : Vector Word 64) (ell : Nat) :
    Task :=
  { q := q, job := j, gix := g, lix := l, ell := ell
    tilex := BitVec.ofNat 16 (ell % x.nx), tiley := BitVec.ofNat 16 (ell / x.nx % x.ny)
    tilez := BitVec.ofNat 16 (ell / (x.nx * x.ny))
    desc := d, st := .pending, level := level
    waits := (d.ins.filter fun e => e.tlva != 0).map fun e =>
      (e.tl ell, e.wait + (if e.gpw then gp.get e.gpn.toFin else 0)) }

/-- Put the tasks of a released launch in the pending state, in ascending ℓ (R362). -/
def State.enterTasks (s : State) : List Task → State
  | [] => s
  | t :: ts =>
    let i := s.nextTask
    let s1 : State := { s with nextTask := i + 1, tasks := s.tasks ++ [(i, t)] }
    (s1.assign i t.q).enterTasks ts

/-- The descriptor that stands for one that cannot be read: its tasks fail. -/
def noDesc : Desc :=
  ⟨0, false, 0, false, false, 0, false, 0, 0, 0, 0, 0, [], []⟩

/-- The chase whose scheduler works for a launch: that of the core that launched a child (R395), else any of the partition. -/
def State.launchChase (s : State) (q : PartId) (x : Launch) : ChaseId := if x.parent.isSome then x.chase else s.anyChase q

/-- Release a launch (R359, R362): its descriptor is fetched, and its tasks become pending, or fail with a bad descriptor. -/
def State.release (s : State) (q : PartId) (j : Fin 16) (g l : Nat) : State :=
  let x := (s.job q j).launch g l
  let h := s.launchChase q x
  let n := x.nx * x.ny * x.nz
  let s1 := s.modJob q j fun jb => jb.modLaunch g l fun x => { x with released := true, left := n }
  let (s2, b) := s1.schedRead q h x.dva 896
  match b.bind parseDesc with
  | some d =>
    s2.enterTasks ((List.range n).map (taskAt q j g l x d (s2.job q j).pri (s2.part q).gp))
  | none =>
    let t := taskAt q j g l x { noDesc with taskid := (b.map fun bs => sfield32 bs 0).getD 0 } (s2.job q j).pri
      (s2.part q).gp 0
    let i := s2.nextTask
    let s3 : State := { s2 with nextTask := i + 1, tasks := s2.tasks ++ [(i, t)] }
    ((s3.modJob q j fun jb => jb.modLaunch g l fun x => { x with left := 1 }).assign i q).failUnplaced i 0x0D x.dva

/-- An access that a child's parent issued before its LAUNCH is not yet performed. -/
def Core.before (k : Core) (tag : Nat) : Bool :=
  k.stores.any (·.kids.contains tag) || k.pendingLoads.any (·.mark.kids.contains tag)

/-- The accesses that a child's parent issued before its LAUNCH are performed (R395). -/
def State.parentDrained (s : State) (x : Launch) : Bool :=
  x.parent.isNone || !((List.finRange 96).any fun c => (s.core c).before x.tag)

/-- What a launch of a job can do next. -/
inductive LaunchMove where
  | complete | release | discard
  deriving DecidableEq, Repr

/-- The word that completes a child, or the descriptor of a launch, can be reached now. -/
def State.launchReaches (s : State) (q : PartId) (x : Launch) (va n : Nat) : Bool :=
  !s.schedStalls q (s.launchChase q x) va n

/-- The move of launch `x` of graph `ls`. -/
def State.launchMove (s : State) (q : PartId) (ls : List Launch) (x : Launch) : Option LaunchMove :=
  if x.isOver then none
  else if x.released then
    (if x.left = 0 && (x.doneVa == 0 || s.launchReaches q x x.doneVa 8) then some .complete else none)
  else
    let ps := (List.range 64).filter fun m => x.preds.getLsbD m
    let pl (m : Nat) : Option Launch := ls[m]?
    if ps.any fun m => match pl m with | some p => p.discarded | none => false then some .discard
    else if ps.all (fun m => match pl m with | some p => p.ended | none => true) && s.parentDrained x &&
        s.launchReaches q x x.dva 896 then some .release
    else none

/-- The first move of a job: graph, launch, what. -/
def State.jobMove (s : State) (q : PartId) (j : Job) : Option (Nat × Nat × LaunchMove) :=
  j.graphs.zipIdx.findSome? fun g => g.1.zipIdx.findSome? fun l => (s.launchMove q g.1 l.1).map fun m => (g.2, l.2, m)

/-- Add 1 to a child's completion word as its scheduler; a fault fails the job (R395). -/
def State.childDone (s : State) (q : PartId) (j : Fin 16) (x : Launch) : State :=
  if x.parent.isNone ∨ x.doneVa = 0 ∨ x.spoilt then s
  else
    let h := s.launchChase q x
    let (s1, e) := s.partWalk q h x.doneVa
    let (s2, ok) := match e with
      | .ok e => s1.addOne (schedMid h) e x.doneVa
      | .error _ => (s1, false)
    if ok then s2 else (s2.modJob q j fun jb => jb.fail 0 0).cancelScope q j fun _ _ => true

/-- No core still settles a task of a job (R277, R339). -/
def State.jobSettled (s : State) (q : PartId) (j : Fin 16) : Bool :=
  !((List.finRange 96).any fun c => (s.core c).owes == some (q, j))

/-- End a job: its completion record and its slot (R347, R363). -/
def State.endJob (s : State) (q : PartId) (j : Fin 16) : State :=
  let jb := s.job q j
  let (status, taskid, cause) : Nat × Word32 × BitVec 8 :=
    match jb.failed with
    | some (t, c) => (4, t, c)
    | none => (if jb.wasCancelled then 3 else 0, 0, 0)
  (s.setJob q j {}).record jb.func jb.slot jb.utag jb.seq taskid cause status jb.phase

/-- Carry a job's launches forward until none can move; `n` bounds the moves (R362, R363). -/
def State.progress (s : State) (q : PartId) (j : Fin 16) : Nat → State
  | 0 => s
  | n + 1 =>
    let jb := s.job q j
    if !jb.live then s
    else match s.jobMove q jb with
      | some (g, l, .complete) =>
        ((s.modJob q j fun x => x.modLaunch g l fun y => { y with ended := true }).childDone q j (jb.launch g l)).progress q j n
      | some (g, l, .discard) =>
        (s.modJob q j fun x => x.modLaunch g l fun y => { y with discarded := true }).progress q j n
      | some (g, l, .release) => (s.release q j g l).progress q j n
      | none => if jb.launches.all (·.isOver) && s.jobSettled q j then s.endJob q j else s

/-- Moves enough for every launch of a job. -/
def State.fuel (s : State) (q : PartId) (j : Fin 16) : Nat := 3 * (s.job q j).launches.length + 2

/-- Carry a job forward. -/
def State.advance (s : State) (q : PartId) (j : Fin 16) : State := s.progress q j (s.fuel q j)

/-- Carry every job forward, as after a store of a LAUNCH's parent is performed. -/
def State.advanceAll (s : State) : State :=
  (List.finRange 24).foldl (fun s q => (List.finRange 16).foldl (fun s j => s.advance q j) s) s

/-- What waits for child launches that an access of a core held up goes on, once the core has dropped its loads (R395). -/
def State.kidsFreed (s : State) (k : Core) : State := if k.infl.any fun e => !e.mark.kids.isEmpty then s.advanceAll else s

/-- An open region has closed, or a channel has passed a fence or left self-refresh: the device's own accesses that it held up go on:
records of the rings, completion records, releases and completions of launches (R29, R309, R313). -/
def State.unstall (s : State) : State :=
  let s1 := ((List.finRange 12).map RingId.chase ++ [RingId.device]).foldl (fun s i => s.ringFlush i (s.ring i).stuck.length) s
  s1.flushRecords.advanceAll

/-- The regions that are open: of cores, and of saved images (R472). -/
def State.openRegions (s : State) : List (Nat × Nat) := s.cores.toList.flatMap (·.gx.regions) ++ s.tasks.flatMap (·.2.regions)

/-- A step from `s0` has closed an open region: what the region held up goes on. -/
def State.regionsClosed (s s0 : State) : State :=
  if s0.openRegions.any fun r => !s.openRegions.contains r then s.unstall else s

/-- End a task and carry its job forward. -/
def State.finishTask (s : State) (i : Nat) (o : TaskOut) : State :=
  match s.task? i with
  | none => s
  | some t => ((s.endTask i o).advance t.q t.job).regionsClosed s

/-- The core, whose engine commands have completed, begins other work: its timelines stand at the issue counts and its regions
close (R145, R311, R317). -/
def State.releaseCore (s : State) (c : CoreId) : State :=
  let s1 := s.modCore c fun k => k.settledLines.free
  if (s.core c).gx.regions.isEmpty then s1 else s1.unstall

/-- The core's task returns to Ready as an escalation relaunch: the abandoned instance's chase, ready time and level (R146,
R378). -/
def Task.relaunched (t : Task) : Task := { t with st := .ready, relaunch := true, core := none, image := none }

/-- What follows the abandonment of a task, whose core was `k` (R146): a relaunch, which a cancel that has reached the task removes
(R378), or a trap to the supervisor. -/
def State.escalated (s : State) (c : CoreId) (k : Core) (i : Nat) (t : Task) (r : TrapRec) : State :=
  if !r.region && t.desc.esc && !k.relaunch then
    if k.creq then s.finishTask i .cancelled else s.modTask i Task.relaunched
  else (s.inform (chaseOf c) r).finishTask i (.failed r.cause)

/-- The task of a core that was lost to it goes on, now that the core's work has settled: back to Ready, to start again from its entry with
its ready time; cancelled, when a cancel waits for it; or as R146 says, when it was abandoned (R377). `k` is the core that had it. -/
def State.returnTask (s : State) (c : CoreId) (k : Core) : State :=
  match k.task with
  | none => s
  | some i =>
    match s.task? i, k.escRec with
    | none, _ => s
    | some t, some r => s.escalated c k i t r
    | some _, none =>
      if k.creq then s.finishTask i .cancelled
      else s.modTask i fun t => { t with st := .ready, core := none, image := none }

/-- A core may have settled: what waited for that goes on, its job (R277, R339) or the task that was lost with it (R377). -/
def State.settled (s : State) (c : CoreId) : State :=
  let k := s.core c
  if !k.settles then s
  else
    let s0 := s.modCore c Core.rested
    let s1 := (if k.gx.regions.isEmpty then s0 else s0.unstall).returnTask c k
    match k.owes with
    | some (q, j) => s1.advance q j
    | none => s1

/-! ## Pending inputs -/

/-- Read one input word as the scheduler of the task's chase (R367): none on a fault. -/
def State.inputWord (s : State) (t : Task) (va : Nat) : State × Option Word :=
  let (s1, b) := s.schedRead t.q (t.chase.getD (s.anyChase t.q)) va 8
  (s1, b.map fun bs => BitVec.ofNat 64 (ofLe bs))

/-- Read the input words in order: a faulting address, or whether all have reached their value. A read that stalls waits. -/
def State.inputsReady (s : State) (t : Task) : List (Nat × Word) → State × Except Nat Bool
  | [] => (s, .ok true)
  | (va, w) :: rest =>
    if s.schedStalls t.q (t.chase.getD (s.anyChase t.q)) va 8 then (s, .ok false)
    else
      let (s1, x) := s.inputWord t va
      match x with
      | none => (s1, .error va)
      | some v => if v.ult w then (s1, .ok false) else s1.inputsReady t rest

/-- Make a task ready now (R366). Tasks made ready by one check have one ready time (R370). -/
def State.makeReady (s : State) (i : Nat) : State :=
  s.modTask i fun t => { t with st := .ready, stamp := s.stamp, age := 0, core := none }

/-- Time goes on: what is made ready later has a later ready time. -/
def State.later (s : State) : State := { s with stamp := s.stamp + 1 }

/-- A task fails because an address of its own breaks R359: it starts nothing. -/
def State.failPlace (s : State) (i : Nat) (t : Task) : State :=
  ((s.failUnplaced i 0x0D ((s.job t.q t.job).launch t.gix t.lix).dva).advance t.q t.job).regionsClosed s

/-- Check a pending task's inputs (R367). A task that its partition, having no core, could assign to no chase stays as it is (R511). An input word in the range of the scratchpad is an address that R359 forbids, and is not
read. -/
def State.recheckTask (s : State) (i : Nat) : State :=
  match s.task? i with
  | none => s
  | some t =>
    if t.st ≠ .pending ∨ s.lostTasks.contains i then s
    else
      let s0 := if t.chase.isNone then s.assign i t.q else s
      let t := (s0.task? i).getD t
      if t.chase.isNone then s0
      else if t.waits.any fun x => inSpad x.1 then s0.failPlace i t
      else
        let (s1, x) := s0.inputsReady t t.waits
        match x with
        | .error va => ((s1.failUnplaced i 0x0E va).advance t.q t.job).regionsClosed s
        | .ok true => s1.makeReady i
        | .ok false => s1

/-- Check the inputs of a partition's pending tasks. -/
def State.recheck (s : State) (q : PartId) : State :=
  match s.tasks.filter fun x => x.2.q == q && x.2.st == .pending with
  | [] => s
  | ts => (ts.foldl (fun s x => s.recheckTask x.1) s).later

end Sys2Proof.Machine
end

