-- ==== Sys2Proof/Machine/Copies.lean ====
section
/-! DEFINITION. The copy engine: what CP.LIN, CP.TENSOR, CP.FILL, CP.ISP and the residency and write-back copies do when they
run (R258, R259, R272, R273, R323 to R329). One event runs a copy from its progress index to its end, or to the element at
which a fault stops it (log entry 10). -/

namespace Sys2Proof.Machine

/-! ## Elements -/

/-- The tensor descriptor of a copy. -/
def CopyCmd.desc (c : CopyCmd) : TensorDesc :=
  match c.kind with
  | .tensor b => (parseTensor b).getD ⟨0, 0, 1, [1], [], []⟩
  | _ => ⟨0, 0, 1, [1], [], []⟩

/-- The packing of a copy: 0 plain, 1 unpack, 2 pack (R326). -/
def CopyCmd.pk (c : CopyCmd) : Nat :=
  match c.kind with
  | .tensor _ => c.desc.pk
  | _ => 0

/-- The number of elements of a copy (R325, R326). -/
def CopyCmd.count (c : CopyCmd) : Nat :=
  match c.kind with
  | .tensor _ => c.desc.count
  | _ => cdiv c.len 128

/-- Element `e`: source address, destination address, destination bytes. -/
def CopyCmd.elem (c : CopyCmd) (e : Nat) : Nat × Nat × Nat :=
  match c.kind with
  | .tensor _ =>
    let d := c.desc
    let dims := (d.cnt.take d.ndim).drop 1
    ((c.src + runOffset dims d.ss e).toNat, (c.dst + runOffset dims d.ds e).toNat, d.runs.2)
  | _ => (c.src + 128 * e, c.dst + 128 * e, min 128 (c.len - 128 * e))

/-- The units in which a copy writes: a scratchpad line, or a 64-byte line, which lies in one tile even in a striping window
(R316). -/
def unitBytes (va : Nat) : Nat := if inSpad va then 128 else 64

/-- A range cut at units of `u` bytes; `n` bounds the pieces. -/
def cutAt (u : Nat) : Nat → Nat → Nat → List (Nat × Nat)
  | 0, _, _ => []
  | fuel + 1, va, n =>
    if n = 0 then [] else
      let m := min n (u - va % u)
      (va, m) :: cutAt u fuel (va + m) (n - m)

/-- A range cut at its units. -/
def unitCuts (va n : Nat) : List (Nat × Nat) := cutAt (unitBytes va) (n / unitBytes va + 2) va n

/-- The source bytes that give `n` destination bytes from offset `j` of an element: offset, length, and how many bytes of the
result to skip (R326). -/
def srcSpan (pk j n : Nat) : Nat × Nat × Nat :=
  match pk with
  | 1 => (3 * (j / 4), 3 * ((j + n - 1) / 4 - j / 4 + 1), j % 4)
  | 2 => (4 * (j / 3), 4 * ((j + n - 1) / 3 - j / 3 + 1), j % 3)
  | _ => (j, n, 0)

/-- A destination piece within one unit: destination, its bytes, source, its bytes, bytes to skip. -/
structure CopyPart where
  dst : Nat
  n : Nat
  src : Nat
  m : Nat
  skip : Nat
  deriving DecidableEq, Repr

/-- The pieces of an element. -/
def CopyCmd.parts (c : CopyCmd) (e : Nat) : List CopyPart :=
  let (s, d, n) := c.elem e
  (if c.isIsp then [(d, n)] else unitCuts d n).map fun x =>
    let (o, m, k) := srcSpan c.pk (x.1 - d) x.2
    ⟨x.1, x.2, s + o, m, k⟩

/-- A list of spans covers a range. -/
def spansCover (xs : List (Nat × Nat)) (base n : Nat) : Bool :=
  (List.range n).all fun i => xs.any fun x => decide (x.1 ≤ base + i) && decide (base + i < x.1 + x.2)

/-- The first `n` elements of a copy write the whole of a scratchpad line (R139, R324, R477). -/
def CopyCmd.wholeLine (c : CopyCmd) (n line : Nat) : Bool :=
  match c.kind with
  | .tensor _ => spansCover ((List.range n).map fun i => ((c.elem i).2.1, (c.elem i).2.2)) (128 * line) 128
  | _ => decide (c.dst ≤ 128 * line) && decide (128 * line + 128 ≤ c.dst + min c.len (128 * n))

/-- The bytes that one operation of the copy writes around element `e`, from its progress index on: a run, or the rest of the range
(R443). -/
def CopyCmd.sweep (c : CopyCmd) (e : Nat) : Nat × Nat :=
  match c.kind with
  | .tensor _ => ((c.elem e).2.1, (c.elem e).2.2)
  | _ => (c.dst + 128 * c.start, c.len - 128 * c.start)

/-! ## Reading and checking -/

/-- What stops a copy: detail and faulting address, and the level of a missing entry (R457, R466). -/
structure CopyStop where
  detail : BitVec 8
  addr : Nat
  level : Nat := 0
  deriving DecidableEq, Repr

/-- The stop that a fault of an access makes (R457). -/
def stopOf (f : AccFault) (va : Nat) : CopyStop :=
  if f.cause = 0x05 then ⟨0x10 + f.detail, va, 0⟩ else ⟨f.detail, va, if f.detail = 1 then f.aux.toNat else 0⟩

/-- Translate and check a line of an operand: by the recorded rights first, then at the target, whose refusal has a detail of its own
and is a permission event (R256, R439, R457). With the piece, the key slot of the window that admits it. -/
def State.copySpot (s : State) (c : CoreId) (va n : Nat) (w part : Bool) : State × Except CopyStop (Piece × Nat) :=
  let (s1, x) := s.copyPiece c va n w part
  match x with
  | .error f => (s1, .error (stopOf f va))
  | .ok p =>
    match s1.frisk c.val p.da n (!w || (part && (s1.linearOf p.da).isSome)) w with
    | some win => (s1, .ok (p, windowSlot win))
    | none => (s1.permEvent c.val p.da, .error ⟨0x22, va, 0⟩)

/-- What a copy reads of a source span; `home` is the linear address of its first byte when its tile is escalated. -/
structure SrcData where
  bytes : List Byte
  pois : Bool
  tag : BitVec 4
  eb : BitVec 16
  home : Option Nat
  deriving DecidableEq, Repr

/-- Bytes whose values the spec leaves open. -/
def State.freeBytes (s : State) (n : Nat) : State × List Byte :=
  let (s1, x) := s.takeFree (8 * n)
  (s1, leBytes n x.toNat)

/-- A host-port event (R349). -/
def State.hportEvent (s : State) (mid : Nat) : State := s.event .hport { cause := 0x24, mid := BitVec.ofNat 9 mid }

/-- Whether a request to the host or to the storage device completes in time is the outside's (R349, R353; log entry 89). -/
def State.inTime (s : State) : State × Bool :=
  let (s1, x) := s.takeFree 1
  (s1, x == 1)

/-- Read a line of a source beyond the scratchpad. -/
def State.readPage (s : State) (c : CoreId) (p : Piece) : State × SrcData :=
  match targetOf p.da with
  | .linear | .window =>
    let (s1, x) := s.readMem c.val p.da p.n
    let r := ((s.pieceTiles p).map s.tileRec).headD {}
    (s1, ⟨x.getD (List.replicate p.n 0), x.isNone, r.ftag, r.eb, if r.esc then s.linearOf p.da else none⟩)
  | _ =>
    let (s1, ok) := s.inTime
    let (s2, bs) := (if ok then s1 else s1.hportEvent c.val).freeBytes p.n
    (s2, ⟨bs, !ok, plainTag (Config.freeBits 4 p.da), 0, none⟩)

/-- The first of two source data followed by the second. -/
def SrcData.append (x y : SrcData) : SrcData := ⟨x.bytes ++ y.bytes, x.pois || y.pois, x.tag, maxBound x.eb y.eb, x.home⟩

/-- Read the lines of a source span in order. -/
def State.readPages (s : State) (c : CoreId) : List (Nat × Nat) → State × Except CopyStop SrcData
  | [] => (s, .ok ⟨[], false, 0, 0, none⟩)
  | (va, n) :: rest =>
    let (s1, x) := s.copySpot c va n false false
    match x with
    | .error f => (s1, .error f)
    | .ok (p, _) =>
      let (s2, d) := s1.readPage c p
      let (s3, y) := s2.readPages c rest
      match y with
      | .error f => (s3, .error f)
      | .ok e => (s3, .ok (if rest.isEmpty then d else d.append e))

/-- Read a source span. -/
def State.readSrc (s : State) (c : CoreId) (va n : Nat) : State × Except CopyStop SrcData :=
  if inSpad va then
    let d := (s.core c).spadLoad [(va, n)]
    (s, .ok ⟨d.bytes, d.poison, d.tag, d.eb, none⟩)
  else s.readPages c (linePieces (n / 64 + 2) va n)

/-- A piece that is ready to be written: the element that it belongs to, where, under which key slot, what, its metadata, and the source
tile whose escalated flag it may carry along. -/
structure CopyWrite where
  elem : Nat
  dst : Nat
  da : Nat
  slot : Nat
  bytes : List Byte
  tag : BitVec 4
  eb : BitVec 16
  pois : Bool
  home : Option Nat
  deriving DecidableEq, Repr

/-- The 8-byte pattern of a fill from an offset on. -/
def patBytes (pat : Word) (o n : Nat) : List Byte :=
  (List.range n).map fun i => BitVec.ofNat 8 (pat.toNat / 2 ^ (8 * ((o + i) % 8)))

/-- The data and metadata that a piece receives (R324, R326, R327). -/
def State.partData (s : State) (c : CoreId) (x : CopyCmd) (p : CopyPart) : State × Except CopyStop SrcData :=
  match x.kind with
  | .fill pat t => (s, .ok ⟨patBytes pat (p.dst - x.dst) p.n, false, t, 0, none⟩)
  | _ =>
    let (s1, r) := s.readSrc c p.src p.m
    match r with
    | .error f => (s1, .error f)
    | .ok d =>
      match x.pk with
      | 1 => (s1, .ok { d with bytes := ((tf6Unpack d.bytes).map (BitVec.ofNat 8)).drop p.skip |>.take p.n, tag := 0, home := none })
      | 2 =>
        if !d.pois && d.bytes.any fun b => decide (64 ≤ b.toNat) then (s1, .error ⟨0x21, p.src, 0⟩)
        else (s1, .ok { d with bytes := ((tf6Pack (d.bytes.map (·.toNat))).drop p.skip).take p.n, tag := 5, home := none })
      | _ => (s1, .ok d)

/-- The copy is to write the whole tile that holds a piece in one operation, and so needs no right to read it (R439, R443). -/
def State.planWhole (s : State) (x : CopyCmd) (e : Nat) (p : Piece) : Bool :=
  match s.linearOf p.da with
  | none => true
  | some a =>
    let o := a % 4096
    let (d, n) := x.sweep e
    decide (d + o ≤ p.va) && decide (p.va + 4096 ≤ d + n + o) && decide (o ≤ p.da) &&
      s.linearOf (p.da - o) == some (a - o) && s.linearOf (p.da - o + 4095) == some (a - o + 4095)

/-- The device address of a byte for a core, with no check. -/
def State.spotOf (s : State) (c : CoreId) (va : Nat) : Nat :=
  match (s.translate c va).2 with | .ok e => e.dbase + (va - e.vbase) | .error _ => 0

/-- The check of a destination piece, its device address and its key slot: the scratchpad and an instruction side need none. -/
def State.dstSpot (s : State) (c : CoreId) (x : CopyCmd) (e : Nat) (p : CopyPart) : State × Except CopyStop (Nat × Nat) :=
  if x.isIsp || inSpad p.dst then (s, .ok (p.dst, 0))
  else
    let (s1, r) := s.copySpot c p.dst p.n true !(s.planWhole x e ⟨p.dst, s.spotOf c p.dst, p.n, 0⟩)
    match r with
    | .error f => (s1, .error f)
    | .ok (q, k) =>
      match s1.linearOf q.da with
      | some a => if s1.exhausted k (a / 4096) then (s1, .error ⟨0x20, p.dst, 0⟩) else (s1, .ok (q.da, k))
      | none => (s1, .ok (q.da, k))

/-- The writes of the pieces of one element, or what stops it. -/
def State.partWrites (s : State) (c : CoreId) (x : CopyCmd) (e : Nat) : List CopyPart → State × Except CopyStop (List CopyWrite)
  | [] => (s, .ok [])
  | p :: ps =>
    let (s1, d) := s.partData c x p
    match d with
    | .error f => (s1, .error f)
    | .ok d =>
      let (s2, a) := s1.dstSpot c x e p
      match a with
      | .error f => (s2, .error f)
      | .ok (da, k) =>
        let (s3, r) := s2.partWrites c x e ps
        match r with
        | .error f => (s3, .error f)
        | .ok ws =>
          (s3, .ok (⟨e, p.dst, da, k, d.bytes, d.tag, d.eb, d.pois, d.home⟩ :: ws))

/-- The writes of the elements from `e` on, `n` of them, and the element at which a fault stops the copy. -/
def State.elemWrites (s : State) (c : CoreId) (x : CopyCmd) : Nat → Nat → State × List CopyWrite × Option (Nat × CopyStop)
  | _, 0 => (s, [], none)
  | e, n + 1 =>
    let (s1, r) := s.partWrites c x e (x.parts e)
    match r with
    | .error f => (s1, [], some (e, f))
    | .ok ws =>
      let (s2, us, stop) := s1.elemWrites c x (e + 1) n
      (s2, ws ++ us, stop)

/-! ## Writing -/

/-- The unit of a write: a scratchpad line, or 2^20 plus a tile; none where no metadata is kept. -/
def State.unitOf (s : State) (w : CopyWrite) : Option Nat :=
  if inSpad w.dst then some (w.dst / 128) else (s.linearOf w.da).map fun a => 2 ^ 20 + a / 4096

/-- A list of writes with the bytes at their linear addresses. -/
def State.linearBytes (s : State) (ws : List CopyWrite) : List (Nat × Byte) :=
  ws.flatMap fun w => addrBytes ((s.linearOf w.da).getD 0) w.bytes

/-- Writes to a tile write all of it in one operation: a run, or a range (R443). -/
def CopyCmd.wholeTile (x : CopyCmd) (ws : List CopyWrite) : Bool :=
  let size (ws : List CopyWrite) : Nat := (ws.map (·.bytes.length)).sum
  match x.kind with
  | .tensor _ => ws.any fun w => size (ws.filter (·.elem == w.elem)) == 4096
  | _ => size ws == 4096

/-- Writes to a tile bring it a whole escalated tile (R324). -/
def State.fromEscalated (s : State) (ws : List CopyWrite) : Bool :=
  match ws.head? >>= (·.home) with
  | none => false
  | some h => ws.all fun w => match w.home, s.linearOf w.da with
      | some a, some b => a / 4096 == h / 4096 && a % 4096 == b % 4096
      | _, _ => false

/-- The metadata of a unit after writes to it, on top of what an earlier part of the copy put there (R324). -/
def carryOf (u : Nat) (old : Option Carry) (ws : List CopyWrite) (esc : Bool) : Carry :=
  ws.foldl (fun k w => { k with eb := maxBound k.eb w.eb, pois := k.pois || w.pois })
    (old.getD ⟨u, match ws with | w :: _ => w.tag | [] => 0, 0, false, esc⟩)

/-- The record change of a copy's or a fill's write. -/
def CopyCmd.upd (x : CopyCmd) (k : Carry) : MetaUpd :=
  match x.kind with
  | .fill _ t => .fill t
  | _ => .copy k.tag k.eb k.pois k.esc

/-- Write one scratchpad line: `whole` says that the copy has now written all of it. -/
def Core.writeLine (m : Core) (x : CopyCmd) (u : Nat) (whole : Bool) (k : Carry) (ws : List CopyWrite) : Core :=
  let m1 := ws.foldl (fun m w => m.spadPut w.dst w.bytes) m
  m1.setLine u (lineUpdate (sget 0 m.smeta u) whole (x.upd k))

/-- Write one tile under a key slot, whole or as a partial write, with the events of its seal operation (R443, R445). A partial write
needs both rights at the target (R439). -/
def State.writeTile (s : State) (c : CoreId) (x : CopyCmd) (t slot : Nat) (whole : Bool) (k : Carry) (ws : List CopyWrite) : State :=
  match ws.find? fun w => !whole && (s.frisk c.val w.da w.bytes.length true true).isNone with
  | some w => s.permEvent c.val w.da
  | none =>
    let (s1, o) := (s.rowRead t).sealPart slot t (s.linearBytes ws) (x.upd k) whole
    match o with
    | .done => s1.rowWritten t
    | .bad => (s1.sealEvent c.val (t * 4096) 0).rowWritten t
    | .exhausted => s1.sealEvent c.val (t * 4096) 1

/-- Write the units of a list, once `n` elements of the copy are complete, on top of what earlier parts of the copy have put there
(`old`). -/
def State.writeUnits (s : State) (c : CoreId) (x : CopyCmd) (n : Nat) (esc : Bool) (ws : List CopyWrite) (old : List Carry) :
    List Nat → State
  | [] => s
  | u :: us =>
    let mine := ws.filter fun w => s.unitOf w == some u
    let before := old.find? fun y => y.unit == u
    if u < 2 ^ 20 then
      (s.modCore c fun m => m.writeLine x u (x.wholeLine n u) (carryOf u before mine esc) mine).writeUnits c x n esc ws old us
    else
      let slots := (mine.map (·.slot)).eraseDups
      let whole := slots.length == 1 && x.wholeTile mine
      let tag := (carryOf u before mine esc).tag
      let s1 := slots.foldl (fun t i =>
        let part := mine.filter (·.slot == i)
        t.writeTile c x (u - 2 ^ 20) i whole { carryOf u none part (esc || (whole && t.fromEscalated part)) with tag := tag } part) s
      s1.writeUnits c x n esc ws old us

/-- What a stopped copy has put into its destination units so far. -/
def State.carries (s : State) (ws : List CopyWrite) (old : List Carry) (esc : Bool) (us : List Nat) : List Carry :=
  us.map (fun u => carryOf u (old.find? fun y => y.unit == u) (ws.filter fun w => s.unitOf w == some u) esc) ++
    old.filter fun y => !us.contains y.unit

/-- A write of a tile that only a write of the whole tile may make, since the window gives no right to read it, and that the copy stops
inside (R258, R439). -/
def State.cutShort (s : State) (c : CoreId) (x : CopyCmd) (ws : List CopyWrite) (w : CopyWrite) : Bool :=
  match s.unitOf w with
  | some u =>
    decide (2 ^ 20 ≤ u) && (s.frisk c.val w.da w.bytes.length true true).isNone && !x.wholeTile (ws.filter fun v => s.unitOf v == some u)
  | none => false

/-- Writes to places that keep no metadata: the host window, where a write may not be delivered in time (R349), and an instruction
side. -/
def State.writePlain (s : State) (c : CoreId) (x : CopyCmd) (w : CopyWrite) : State :=
  match x.kind with
  | .isp v => s.modCore c fun m =>
    m.setSide v { m.sideAt v with bytes := sputBytes (m.sideAt v).bytes w.dst w.bytes, tag := none }
  | _ =>
    if targetOf w.da = .host then
      let (s1, ok) := s.inTime
      if ok then { s1 with hostOut := (w.da, w.bytes) :: s1.hostOut } else s1.hportEvent c.val
    else s

/-- Run a copy from its progress index: the state, what stops it, and the command with its progress. Elements of a tile that may only be
written whole are not complete before the whole tile is (R258). `esc` marks the tiles of an escalation relaunch (R147). -/
def State.copyRun (s : State) (c : CoreId) (x : CopyCmd) (esc : Bool := false) : State × Option CopyStop × CopyCmd :=
  let (s1, ws0, stop) := s.elemWrites c x x.start (x.count - x.start)
  let late := if x.isIsp || stop.isNone then [] else ws0.filter fun w => s1.cutShort c x ws0 w
  let ws := if late.isEmpty then ws0 else ws0.filter fun w => !late.contains w
  let s2 := ws.foldl (fun t w => if x.isIsp || (t.unitOf w).isNone then t.writePlain c x w else t) s1
  let us := if x.isIsp then [] else (ws.filterMap s2.unitOf).eraseDups
  match stop with
  | none => (s2.writeUnits c x x.count esc ws x.carry us, none, x)
  | some (e, f) =>
    let p := late.foldl (fun p w => min p w.elem) e
    (s2.writeUnits c x p esc ws x.carry us, some f, { x with start := p, stopped := true, carry := s2.carries ws x.carry esc us })

/-! ## Stalls and stops -/

/-- A line of an operand lies in an open region, or is held by the host, or its channel is in self-refresh or holds a fence, or its
walk stalls (R29, R248, R309, R313). -/
def State.spanStalls (s : State) (c : CoreId) (x : Nat × Nat) : Bool :=
  if inSpad x.1 then false
  else
    match (s.translate c x.1).2 with
    | .error f => f.stalls
    | .ok e =>
      let p : Piece := ⟨x.1, e.dbase + (x.1 - e.vbase), x.2, e.mtype⟩
      s.inRegion p || s.hostHolds p || (s.pieceTiles p).any s.tileWaits

/-- An operand of the copy stalls it. -/
def State.copyStalls (s : State) (c : CoreId) (x : CopyCmd) : Bool :=
  (List.range x.count).any fun e => (x.parts e).any fun p =>
    (!x.isIsp && s.spanStalls c (p.dst, p.n)) ||
      (match x.kind with
        | .fill .. => false
        | _ => (linePieces (p.m / 64 + 2) p.src p.m).any (s.spanStalls c))

/-- The record of a copy that a fault has stopped (R258, R466); `ctx` is none for a residency or write-back copy. -/
def State.copyRecord (s : State) (c : CoreId) (ctx : Option CtxId) (x : CopyCmd) (f : CopyStop) : State :=
  s.inform (chaseOf c)
    { cause := 0x10, detail := f.detail, mid := BitVec.ofNat 9 c.val, part := BitVec.ofNat 5 (match s.partOf c with | some q => q.val | none => 31)
      taskid := (s.core c).taskid, addr := BitVec.ofNat 64 f.addr
      aux := BitVec.ofNat 64 ((match ctx with | some k => k.val | none => 4) + f.level * 256)
      aux2 := BitVec.ofNat 64 ((match ctx with | some _ => x.num | none => 0) * 2 ^ 32 + x.start % 2 ^ 32) }

/-- A copy context's timeline: the largest number at or below which all commands are complete (R317). -/
def CopyCtx.timeline (x : CopyCtx) : Nat := x.cmds.foldl (fun n c => min n (c.num - 1)) x.icount

/-- Remove the first command of a context, which has completed, and advance the timeline (R317, R329). -/
def CopyCtx.complete (x : CopyCtx) : CopyCtx :=
  let y := { x with cmds := x.cmds.drop 1 }
  { y with tl := y.timeline }

/-- The first command of a context, when it can run: not stopped, and not stalled. -/
def State.copyHead (s : State) (c : CoreId) (k : CtxId) : Option CopyCmd :=
  match ((s.core c).ctx k).cmds with
  | [] => none
  | x :: _ => if x.stopped || s.copyStalls c x then none else some x

/-- Complete the first command of a context, of the kind wanted, if no fault stops it. -/
def State.copyFinish (s : State) (c : CoreId) (k : CtxId) (isp : Bool) : State :=
  match s.copyHead c k with
  | none => s
  | some x =>
    if x.isIsp != isp then s
    else
      let (s1, stop, _) := s.copyRun c x
      match stop with
      | some _ => s
      | none => (s1.modCore c fun m => m.setCtx k (m.ctx k).complete).settled c

/-- COPY_COMPLETE (R273, R329). -/
def execCopyComplete (c : CoreId) (k : CtxId) (s : State) : Res := .next (s.copyFinish c k false)

/-- CP_ISP_COMPLETE (R328). -/
def execCpIspComplete (c : CoreId) (k : CtxId) (s : State) : Res := .next (s.copyFinish c k true)

/-- COPY_STOP (R258): the copy keeps its progress index, its timeline does not advance, and the fault goes to the supervisor.
In a core that settles, the copy is ended at its progress index (R339). -/
def execCopyStop (c : CoreId) (k : CtxId) (s : State) : Res :=
  .next (match s.copyHead c k with
    | none => s
    | some x =>
      let (s1, stop, y) := s.copyRun c x
      match stop with
      | none => s
      | some f =>
        let s2 := s1.copyRecord c (some k) y f
        if (s.core c).st = .settling then (s2.modCore c fun m => m.setCtx k (m.ctx k).complete).settled c
        else s2.modCore c fun m => m.setCtx k { m.ctx k with cmds := y :: (m.ctx k).cmds.drop 1 })

end Sys2Proof.Machine
end

