-- ==== Sys2Proof/Machine/Galley.lean ====
section
/-! DEFINITION. The galley context and the channel sequencers: dispatch (R319), broadcasts (R331), fences (R309, R333),
bank-compute regions (R311, R334), tile passes and tile writes of an engine (R302, R307), landing slots and status blocks
(R300, R332), and the error records of engines (R335). What the entries compute is in GalleyEntries.lean. -/

namespace Sys2Proof.Machine

/-! ## The galley context -/

/-- A command of a galley context by its number. -/
def Core.gcmd? (k : Core) (n : Nat) : Option GCmd := k.gx.cmds.find? fun x => x.num == n

/-- Change a command of a galley context. -/
def Core.modGcmd (k : Core) (n : Nat) (f : GCmd → GCmd) : Core :=
  { k with gx := { k.gx with cmds := k.gx.cmds.map fun x => if x.num = n then f x else x } }

/-- How many engines or channels have to end a command. -/
def GCmd.parts (x : GCmd) : Nat :=
  match x.kind with
  | .bcast .. | .call .. => x.grp.count
  | .fence => x.grp.channels.length
  | .opn .. | .cls .. => 1

/-- Every engine or channel of the command has ended it. -/
def GCmd.ended (x : GCmd) : Bool := decide (x.parts ≤ x.ends.length)

/-- The command is a barrier of dispatch (R319). -/
def GCmd.barrier (x : GCmd) : Bool :=
  match x.kind with
  | .opn .. | .cls .. => true
  | _ => false

/-- The timeline that a list of outstanding commands leaves (R317). -/
def galleyLine (icount : Nat) : List GCmd → Nat
  | [] => icount
  | x :: _ => x.num - 1

/-- Commands complete in issue order: the ended commands at the head leave, and tlg advances (R317, R319). -/
def GalleyCtx.settle (g : GalleyCtx) : GalleyCtx :=
  let cs := g.cmds.dropWhile (·.ended)
  { g with cmds := cs, tl := galleyLine g.icount cs }

/-- Advance tlg of a core; a core that settles may then begin other work. -/
def State.galleySettle (s : State) (c : CoreId) : State := (s.modCore c fun k => { k with gx := k.gx.settle }).settled c

/-- The first command that has not been dispatched, when no barrier stands before it (R319). -/
def nextDispatch : List GCmd → Option GCmd
  | [] => none
  | x :: xs => if !x.dispatched then some x else if x.barrier then none else nextDispatch xs

/-- Append to a channel's queue (R308). -/
def State.pushChan (s : State) (h : Nat) (x : ChanItem) : State :=
  let q := s.chan h
  s.setChan h { q with queue := q.queue ++ [x] }

/-- An engine index as an identifier. -/
def engineId (e : Nat) : EngineId := ⟨e % 1024, Nat.mod_lt _ (by decide)⟩

/-- Give a command's work to the channels of its engines. -/
def State.pushWork (s : State) (c : CoreId) (x : GCmd) : State :=
  match x.kind with
  | .bcast .. | .call .. => x.grp.engines.foldl (fun s e => s.pushChan (engineChan e) (.work c x.num (engineId e))) s
  | .fence => x.grp.channels.foldl (fun s h => s.pushChan h (.fence c x.num)) s
  | .opn .. | .cls .. => s

/-- What a broadcast reads of the scratchpad (R331). -/
def GCmd.readSource (x : GCmd) (k : Core) : GCmd :=
  match x.kind with
  | .bcast src len _ tag =>
    let d := k.spadLoad [(src, len)]
    { x with data := d.bytes, dtag := if d.poison then tagPoison else tag, deb := d.eb }
  | _ => x

/-- Landing writes of a lost core are discarded (R339). -/
def State.landsOn (s : State) (c : CoreId) (n : Nat) : Bool :=
  match (s.core c).gcmd? n with | some x => !x.mute | none => false

/-- Write a 64-bit status word as a scalar store does (R332, R334). -/
def Core.putStatus (k : Core) (off : Nat) (w : Nat) : Core := k.spadPut off (leBytes 8 w)

/-- The flags of a status word: IV, OF, UF, NX from bit 3 down (R332). -/
def statusFlags (F : Flags) : Nat := F.toNat / 16 * 8 + F.toNat % 8

/-- The engines of a call that reported a cause, in the order of the group. -/
def GCmd.errors (x : GCmd) : List GEnd :=
  (List.range x.grp.count).filterMap fun j => x.ends.find? fun y => y.j == j && y.cause != 0

/-- Word 0 of the status block (R332). -/
def GCmd.summary (x : GCmd) : Nat :=
  let es := x.errors
  let F := (x.ends.filter (·.cause == 0)).foldl (fun f y => f ||| y.F) (0 : Flags)
  let first : Nat × Nat := match es with
    | [] => (0, 0)
    | y :: _ => (x.grp.e0 + y.j * x.grp.step, y.cause)
  es.length * 2 ^ 53 + statusFlags F * 2 ^ 49 + first.1 * 2 ^ 39 + first.2 * 2 ^ 32 + x.num % 2 ^ 32

/-- Word 1 + m of the status block (R332). -/
def GCmd.errorBits (x : GCmd) (m : Nat) : Nat :=
  (x.errors.filter fun y => y.j / 64 == m).foldl (fun n y => n + 2 ^ (y.j % 64)) 0

/-- Write the status block of a call (R332). -/
def Core.putBlock (k : Core) (x : GCmd) (land : Nat) : Core :=
  let base := land + 256 * x.grp.count
  (List.range (cdiv x.grp.count 64)).foldl (fun k m => k.putStatus (base + 8 + 8 * m) (x.errorBits m))
    (k.putStatus base x.summary)

/-- The status block of a call whose engines have all ended (R332). -/
def State.callStatus (s : State) (c : CoreId) (n : Nat) : State :=
  match (s.core c).gcmd? n with
  | some x => match x.kind with
    | .call _ _ _ _ _ land => if x.ended && s.landsOn c n then s.modCore c fun k => k.putBlock x land else s
    | _ => s
  | none => s

/-- An engine or a channel ends its part of a command: the status block of a call follows the last, and tlg advances. -/
def State.endPart (s : State) (c : CoreId) (n : Nat) (y : GEnd) : State :=
  ((s.modCore c fun k => k.modGcmd n fun x => { x with ends := x.ends ++ [y] }).callStatus c n).galleySettle c

/-! ## Engine errors -/

/-- Why an engine stops a call: cause, and the local tile address where the table of R307 gives one. -/
structure GStop where
  cause : Nat
  tile : Option Nat := none
  deriving DecidableEq, Repr

/-- The record of an engine error (R335, R466). -/
def State.engineEvent (s : State) (c : CoreId) (e entry n : Nat) (x : GStop) : State :=
  s.event .galley
    { cause := 0x11, mid := BitVec.ofNat 9 c.val, taskid := (s.core c).taskid
      addr := BitVec.ofNat 64 (match x.tile with | some t => engineLinear e t | none => 0)
      aux := BitVec.ofNat 64 (e + entry * 2 ^ 16 + x.cause * 2 ^ 24), aux2 := BitVec.ofNat 64 n }

/-- Two Poison lines: contents zero, bound +∞ (R307). -/
def Core.poisonSlot (k : Core) (off : Nat) : Core :=
  ((k.spadPut off (List.replicate 256 0)).setLine (off / 128) (mkMeta tagPoison ebInf)).setLine (off / 128 + 1)
    (mkMeta tagPoison ebInf)

/-- The landing slot of a result-producing entry (R300). -/
def Core.resultSlot (k : Core) (off : Nat) (g : Engine) (count : Nat) (tag : BitVec 4) : Core :=
  let bs := (List.range 64).flatMap fun i => leBytes 4 (if i < count then (g.acc.toList.getD i 0).toNat else 0)
  ((k.spadPut off bs).setLine (off / 128) (mkMeta tag g.eacc)).setLine (off / 128 + 1) (mkMeta tag g.eacc)

/-- An engine that stops a call: accumulators zero, eacc +∞ (R307). -/
def Engine.stopped (g : Engine) : Engine := { g with acc := Vector.replicate 64 0, eacc := ebInf }

/-- A call as one engine meets it: the calling core, its number, the entry, the arguments, the landing base, the engine and its
place in the group. -/
structure Call where
  core : CoreId
  num : Nat
  entry : Nat
  a0 : Nat
  a1 : Nat
  a2 : Nat
  a3 : Nat
  land : Nat
  e : Nat
  j : Nat
  deriving DecidableEq, Repr

/-- What an entry leaves when nothing stops it: the engine, the result count, the result tag (R300, R301). -/
structure GDone where
  eng : Engine
  count : Nat := 0
  tag : BitVec 4 := 0
  deriving DecidableEq, Repr

/-- The end of a call at one engine (R300, R307, R335). -/
def State.endCall (s : State) (x : Call) (r : Except GStop GDone) : State :=
  let off := x.land + 256 * x.j
  match r with
  | .ok d =>
    let s1 := s.setEngine x.e d.eng
    let s2 := if d.count ≠ 0 && s.landsOn x.core x.num then s1.modCore x.core fun k => k.resultSlot off d.eng d.count d.tag else s1
    s2.endPart x.core x.num ⟨x.j, 0, d.eng.F⟩
  | .error f =>
    let s1 := s.setEngine x.e (s.engine x.e).stopped
    let s2 := if s.landsOn x.core x.num then s1.modCore x.core fun k => k.poisonSlot off else s1
    (s2.engineEvent x.core x.e x.entry x.num f).endPart x.core x.num ⟨x.j, f.cause, 0⟩

/-! ## The channel sequencer -/

/-- The next work of an engine in its channel's queue: nothing behind a fence (R308, R309). -/
def nextWork (e : EngineId) : List ChanItem → Option (CoreId × Nat)
  | [] => none
  | .fence .. :: _ => none
  | .work c n e' :: t => if e' = e then some (c, n) else nextWork e t

/-- Remove the first work of an engine. -/
def dropWork (e : EngineId) : List ChanItem → List ChanItem
  | [] => []
  | .fence c n :: t => .fence c n :: dropWork e t
  | .work c n e' :: t => if e' = e then t else .work c n e' :: dropWork e t

/-- The sequencer of an engine's channel issues to it: not in self-refresh (R313), the engine not under test (R485). -/
def State.engineRuns (s : State) (e : Nat) : Bool := !(s.chan (engineChan e)).selfRefresh && !(s.engine e).testing

/-- The command that an engine works on next. -/
def State.engineNext (s : State) (e : EngineId) : Option (CoreId × GCmd) :=
  if s.engineRuns e.val then
    match nextWork e (s.chan (engineChan e.val)).queue with
    | some (c, n) => ((s.core c).gcmd? n).map fun x => (c, x)
    | none => none
  else none

/-- Take an engine's next work off the queue of its channel. -/
def State.takeWork (s : State) (e : EngineId) : State :=
  let h := s.chan (engineChan e.val)
  s.setChan (engineChan e.val) { h with queue := dropWork e h.queue }

/-- The place of an engine in a group. -/
def Group.indexOf (g : Group) (e : Nat) : Nat := g.engines.idxOf e

/-- The call that an engine runs next. -/
def State.nextCall (s : State) (e : EngineId) : Option Call :=
  match s.engineNext e with
  | some (c, x) => match x.kind with
    | .call entry a0 a1 a2 a3 land =>
      some ⟨c, x.num, entry, a0.toNat, a1.toNat, a2.toNat, a3.toNat, land, e.val, x.grp.indexOf e.val⟩
    | _ => none
  | none => none

/-- The entry numbers of the vendor image (R301). -/
def knownEntry (n : Nat) : Bool := decide (n ≤ 5) || (decide (8 ≤ n) && decide (n ≤ 10)) || n == 14 || n == 15

/-- End the calls of unknown entries that an engine meets next (R301), the first of them with cause 0xA after a failed restore (R313),
all with 0xB at an index that became absent (log entry 96);
`n` bounds their number. -/
def State.endUnknown (s : State) (e : EngineId) : Nat → State
  | 0 => s
  | n + 1 =>
    match s.nextCall e with
    | some x =>
      if knownEntry x.entry then s
      else
        let g := s.engine e.val
        (((s.takeWork e).setEngine e.val { g with F := 0, live := true, badPark := false }).endCall x
          (.error ⟨if g.absent then 0xB else if g.badPark then 0xA else 6, none⟩)).endUnknown e n
    | none => s

/-- The four engines of a channel. -/
def chanEngines (h : Nat) : List EngineId := (List.range 4).map fun i => engineId (4 * h + i)

/-- End the calls of unknown entries that the engines of a channel meet next. -/
def State.endUnknowns (s : State) (h : Nat) : State :=
  (chanEngines h).foldl (fun s e => s.endUnknown e (s.chan h).queue.length) s

/-- A reserved value in a micro-word (R298). -/
def microReserved (w : BitVec 128) : Bool :=
  let f (hi lo : Nat) : Nat := (w >>> lo).toNat % 2 ^ (hi - lo + 1)
  decide (6 ≤ f 119 117) || f 101 100 == 3 || decide (7 ≤ f 97 94) || decide (4 ≤ f 91 88) || decide (8 ≤ f 87 84) ||
    f 77 76 == 3 || decide (6 ≤ f 63 60) || f 39 0 != 0

/-- Where a microprogram goes from a word: the next address, and the counters; none where the layout does not say (R298). -/
def microNext (w : BitVec 128) (arg : Nat → Nat) (pc : Nat) (cnt : List Nat) : Option (Nat × List Nat) :=
  let f (hi lo : Nat) : Nat := (w >>> lo).toNat % 2 ^ (hi - lo + 1)
  let c := f 116 115
  let loaded := match f 101 100 with
    | 1 => cnt.set c (f 114 102)
    | 2 => cnt.set c (arg (f 99 98))
    | _ => cnt
  match f 119 117 with
  | 1 => some (f 127 120, loaded)
  | 2 =>
    if f 101 100 ≠ 0 then none
    else if cnt.getD c 0 = 0 then some ((pc + 1) % 256, cnt) else some (f 127 120, cnt.set c (cnt.getD c 0 - 1))
  | _ => some ((pc + 1) % 256, loaded)

/-- A microprogram from an address on executes a word with a reserved value before it ends (R299); none when the layout of R298 does not
tell. `fuel` bounds its words: a program that runs through more of them than there are places and values of four counters has met one
place with the same counters twice, and meets no word that it has not met. -/
def microFault (g : Engine) (arg : Nat → Nat) : Nat → Nat → List Nat → Option Bool
  | 0, _, _ => some false
  | fuel + 1, pc, cnt =>
    let w := sget 0 g.control pc
    if microReserved w then some true
    else if (w >>> 117).toNat % 8 = 4 then some false
    else match microNext w arg pc cnt with
      | some (pc', cnt') => microFault g arg fuel pc' cnt'
      | none => none

/-- The engine of an index as the spare takes it over: buffer, accumulators and eacc zero, live bit clear, no park row, the same
control store (R478). -/
def Engine.spare (g : Engine) : Engine := { control := g.control, entries := g.entries }

/-- Retire the engine of an index: the channel's spare takes it, or, when the spare is used, the index becomes absent (R478,
R483); the repair map shows it (R480). -/
def State.retireEngine (s : State) (e : Nat) : State :=
  let h := engineChan e
  let q := s.chan h
  if q.spareUsed then
    ((s.setEngine e { (s.engine e).spare with absent := true }).setChan h { q with
      ret := q.ret ||| (if q.sub.toNat = e % 4 then 16#5 else 1#5 <<< (e % 4)) }).engEvent 0x05 e
  else
    ((s.setEngine e (s.engine e).spare).setChan h { q with
      spareUsed := true, sub := BitVec.ofNat 2 e, ret := q.ret ||| (1#5 <<< (e % 4)) }).engEvent 0x04 e

/-- The arguments of a call, by number. -/
def Call.arg (x : Call) (i : Nat) : Nat :=
  match i with
  | 0 => x.a0 | 1 => x.a1 | 2 => x.a2 | _ => x.a3

/-- A micro-word with a reserved value that the entry's microprogram executes (R299): none when it executes none, else whether it stops
the call before the entry has had an effect. Where the word stands among the entry's effects the layout does not tell, so a free value
decides. Where the entry table names no address for the entry, or the layout does not tell which words run, whether one is executed is
a free value too (log entry 11). -/
def State.reservedWord (s : State) (x : Call) : State × Option Bool :=
  let g := s.engine x.e
  if g.control.any fun w => microReserved w.2 then
    let known := (g.entries.find? fun y => y.1 == x.entry).bind fun y => microFault g x.arg (2 ^ 300) y.2.toNat [0, 0, 0, 0]
    let (s1, y) := s.takeFree 2
    (s1, if known.getD (y.getLsbD 0) then some (y.getLsbD 1) else none)
  else (s, none)

/-- Run a call: a failed restore of the park row stops it before its entry begins (R313); a reserved value in a micro-word stops it
there, or later, when nothing else has stopped it before (R299). -/
def State.runCall (s : State) (x : Call) (run : State → Call → State × Except GStop GDone) : State × Except GStop GDone :=
  let g := s.engine x.e
  if g.badPark then (s.setEngine x.e { g with badPark := false }, .error ⟨0xA, none⟩)
  else
    let (s1, b) := s.reservedWord x
    match b with
    | none => run s1 x
    | some true => (s1, .error ⟨9, none⟩)
    | some false =>
      let (s2, r) := run s1 x
      (s2, match r with | .ok _ => .error ⟨9, none⟩ | .error f => .error f)

/-- An error of an engine's control store, found before the call reaches the micro-word, retires the engine before the call (R478). -/
def State.controlTested (s : State) (e : Nat) : State :=
  if s.soft.contains (SoftErr.control e) then
    ({ s with soft := s.soft.filter (· != SoftErr.control e) } : State).retireEngine e
  else s

/-- An engine runs its next call when that is of an entry wanted: `run` is the entry on the engine whose flag set is empty and
whose live bit is set (R297, R300). A call that was queued before its index became absent ends as one that the retirement stopped
(R478, R483; log entry 96). -/
def State.engineCall (s : State) (e : EngineId) (entry : Nat) (run : State → Call → State × Except GStop GDone) : State :=
  match s.nextCall e with
  | none => s
  | some x =>
    if x.entry ≠ entry then s
    else
      let s0 := s.controlTested e.val
      let s1 := (s0.takeWork e).setEngine e.val { s0.engine e.val with F := 0, live := true }
      if (s0.engine e.val).absent then (s1.endCall x (.error ⟨0xB, none⟩)).endUnknowns (engineChan e.val)
      else if s0.soft.contains (SoftErr.engine e.val) then
        ((({ s1 with soft := s1.soft.filter (· != SoftErr.engine e.val) }).endCall x (.error ⟨0xB, none⟩)).retireEngine
          e.val).endUnknowns (engineChan e.val)
      else
        let (s2, r) := s1.runCall x run
        (s2.endCall x r).endUnknowns (engineChan e.val)

/-! ## Tile passes and tile writes -/

/-- The tile number of a local byte address of an engine's bank group. -/
def engineTile (e L : Nat) : Nat := engineLinear e (L / 4096 * 4096) / 4096

/-- The window that admits a call's access to a tile at the galley target, checked under the calling core's ID (R436, R437). -/
def State.galleyFrisk (s : State) (c : CoreId) (t : Nat) (r w : Bool) : Option Word :=
  s.friskAt 1 c.val 0 (t * 4096) 4096 r w

/-- The local address of the tile that holds a local byte address. -/
def tileBase (L : Nat) : Nat := L / 4096 * 4096

/-- What the memory holds of a tile when a pass comes to it (R28, R308): of the outstanding writes, free bits say which arrive first,
wholly, and the others arrive wholly after the pass; none that stands behind a fence does, and none is left out for ever (R263,
R309; log entry 83). The state, and the state with the tile as the memory then holds it. -/
def State.passTile (s : State) (t : Nat) : State × State :=
  match s.staleOf t with
  | none => (s, s)
  | some x =>
    let (s1, pick) := s.takeFree x.writes.length
    let r := landing (fun w => w.2.behind == 0 && (pick.getLsbD w.1 || decide (65535 ≤ w.2.seen))) x.numbered
    s1.land x r.1 (r.2.map fun w => { w with seen := w.seen + 1 })

/-- A tile pass (R302, R307): the tile's bytes and its record. A row that an uncorrectable error has been found in still shows it
(R486). -/
def State.tilePass (s : State) (x : Call) (L : Nat) : State × Except GStop (List Byte × TileRec) :=
  let t := engineTile x.e L
  match s.galleyFrisk x.core t true false with
  | none => (s.permEvent x.core.val (t * 4096), .error ⟨8, some (tileBase L)⟩)
  | some w =>
    let bad := s.rowBad t || s.badRows.contains t
    let s1 := s.rowRead t
    if bad then (s1, .error ⟨2, some (tileBase L)⟩)
    else
      let (s2, v) := s1.passTile t
      match v.fillCheck (windowSlot w) t with
      | .poisoned => (s2, .error ⟨7, some (tileBase L)⟩)
      | .mismatch => (s2.poisonTile t, .error ⟨1, some (tileBase L)⟩)
      | .clear =>
        if s2.poisLines.any fun l => l / 64 == t then (s2, .error ⟨7, some (tileBase L)⟩)
        else (s2, .ok (v.plain (windowSlot w) t, v.tileRec t))

/-- Read bytes that lie in several tiles, tile by tile; `n` bounds the tiles. The bound is the largest of the tiles read. -/
def State.passSpan (s : State) (x : Call) : List (Nat × Nat) → State × Except GStop (List Byte × BitVec 16)
  | [] => (s, .ok ([], 0))
  | (L, n) :: rest =>
    let (s1, r) := s.tilePass x L
    match r with
    | .error f => (s1, .error f)
    | .ok (bs, r) =>
      let (s2, q) := s1.passSpan x rest
      match q with
      | .error f => (s2, .error f)
      | .ok (cs, eb') => (s2, .ok ((bs.drop (L % 4096)).take n ++ cs, maxBound r.eb eb'))

/-- Read `n` bytes from a local address on. -/
def State.readLocal (s : State) (x : Call) (L n : Nat) : State × Except GStop (List Byte × BitVec 16) :=
  s.passSpan x (cutAt 4096 (n / 4096 + 2) L n)

/-- Read rows of `n` bytes at local addresses, in order: their bytes, and the largest bound of the tiles read. -/
def State.readRows (s : State) (x : Call) (n : Nat) : List Nat → State × Except GStop (List (List Byte) × BitVec 16)
  | [] => (s, .ok ([], 0))
  | L :: Ls =>
    let (s1, r) := s.readLocal x L n
    match r with
    | .error f => (s1, .error f)
    | .ok (bs, eb) =>
      let (s2, q) := s1.readRows x n Ls
      match q with
      | .error f => (s2, .error f)
      | .ok (rs, eb') => (s2, .ok (bs :: rs, maxBound eb eb'))

/-- The first tile of a local range that lies outside every region that the calling context holds open (R301, R307). -/
def State.outsideRegion (s : State) (x : Call) (L n : Nat) : Option Nat :=
  (cutAt 4096 (n / 4096 + 2) L n).findSome? fun p =>
    if s.ownRegion x.core (engineTile x.e p.1 * 4096) then none else some (tileBase p.1)

/-- An engine writes a tile (R302): the tile as the memory holds it is sealed anew, and the outstanding writes of it follow.
`old` keeps the flags of the record as they were. -/
def State.engineSeal (s : State) (slot t : Nat) (bs : List (Nat × Byte)) (m : MetaUpd) (whole old : Bool) : State × SealOut :=
  let go (v : State) : State × SealOut :=
    let r0 := v.tileRec t
    let (v1, o) := v.sealWrite slot t whole bs m
    let r1 := v1.tileRec t
    let p := r1.poison || r0.poison
    (if old && o != .exhausted then v1.setRec t { r1 with esc := r0.esc, poison := p, sealPois := p, sealEsc := r0.esc } else v1, o)
  match s.staleOf t with
  | none => go s
  | some x =>
    let (v, o) := go (s.rewind x)
    if o == .exhausted then (s, o) else ((v.redo t x.writes).setStale (x.over v x.writes), o)

/-- Write bytes of one tile from a local address on (R302). A tile that is not wholly overwritten has been read before. -/
def State.writeLocal (s : State) (x : Call) (L : Nat) (bs : List Byte) (m : MetaUpd) (old : Bool) : State × Option GStop :=
  let t := engineTile x.e L
  let whole := decide (bs.length = 4096)
  match s.galleyFrisk x.core t (!whole) true with
  | none => (s.permEvent x.core.val (t * 4096), some ⟨8, some (tileBase L)⟩)
  | some w =>
    let s0 := if whole then (s.passTile t).1 else s
    let (s1, o) := s0.engineSeal (windowSlot w) t (addrBytes (t * 4096 + L % 4096) bs) m whole old
    if o == .exhausted then (s1, some ⟨3, some (tileBase L)⟩) else (s1.rowWritten t, none)

/-! ## Events -/

/-- GALLEY_DISPATCH (R319): the next command reaches the sequencers; a broadcast's source is read. -/
def execGalleyDispatch (c : CoreId) (s : State) : Res :=
  .next (match nextDispatch (s.core c).gx.cmds with
    | none => s
    | some x =>
      let s1 := s.modCore c fun k => k.modGcmd x.num fun y => { y.readSource k with dispatched := true }
      let s2 := s1.pushWork c x
      x.grp.channels.foldl (fun s h => s.endUnknowns h) s2)

/-- Write bytes into an activation buffer (R331). -/
def Engine.putBuf (g : Engine) (off : Nat) (bs : List Byte) : Engine := { g with buf := sputBytes g.buf off bs }

/-- GE_BCAST_WRITE (R331). -/
def execGeBcastWrite (e : EngineId) (s : State) : Res :=
  .next (match s.engineNext e with
    | some (c, x) => match x.kind with
      | .bcast _ _ off _ =>
        let s1 := (s.takeWork e).setEngine e.val
          { (s.engine e.val).putBuf off x.data with btag := x.dtag, beb := x.deb, live := true }
        (s1.endPart c x.num ⟨x.grp.indexOf e.val, 0, 0⟩).endUnknowns (engineChan e.val)
      | _ => s
    | none => s)

/-- GE_FENCE_PASS (R309, R333): the fence at the head of a channel's queue is passed; the writes that a GE.OPEN sent before it are in
the tiles (R27). -/
def execGeFencePass (h : ChanId) (s : State) : Res :=
  .next (let q := s.chan h.val
    match q.queue with
    | .fence c n :: t =>
      if q.selfRefresh then s
      else ((((s.fenceStale h.val).setChan h.val { q with queue := t }).endPart c n ⟨h.val, 0, 0⟩).endUnknowns h.val).unstall
    | _ => s)

/-- A range lies in the linear processing memory, or in one striping window whose every line has a target (R334). -/
def State.regionRange (s : State) (start len : Nat) : Bool :=
  match targetOf start with
  | .linear => decide (start + len ≤ s.memTop)
  | .window =>
    decide (start / 2 ^ 32 = (start + len - 1) / 2 ^ 32) &&
      (List.range (len / 64)).all fun i => (s.linearOf (start + 64 * i)).isSome
  | _ => false

/-- Two ranges share a tile (R334). -/
def State.rangesMeet (s : State) (x y : Nat × Nat) : Bool :=
  match targetOf x.1, targetOf y.1 with
  | .linear, .linear => decide (x.1 < y.1 + y.2) && decide (y.1 < x.1 + x.2)
  | .linear, _ => (List.range (y.2 / 64)).any fun i =>
      match s.linearOf (y.1 + 64 * i) with | some a => s.regionHas x a | none => false
  | _, _ => (List.range (x.2 / 64)).any fun i =>
      match s.linearOf (x.1 + 64 * i) with | some a => s.regionHas y a | none => false

/-- The status of a GE.OPEN, in the order of R334. -/
def State.openStatus (s : State) (c : CoreId) (start len : Nat) : Nat :=
  let mine := (s.core c).gx.regions
  if !s.regionRange start len then 4
  else if ((List.finRange 96).any fun d => d != c && (s.core d).gx.regions.any (s.rangesMeet (start, len))) ||
      s.tasks.any fun t => t.2.regions.any (s.rangesMeet (start, len)) then 1
  else if mine.any (s.rangesMeet (start, len)) then 2
  else if mine.length = 4 then 3
  else if (s.frisk c.val start len false true).isNone then 4
  else 0

/-- The recall of a range is finished: the host holds none of its lines, and the core's own earlier stores into it are
performed (R27, R248). -/
def State.recalled (s : State) (c : CoreId) (start len : Nat) : Bool :=
  !(s.hostLines.any fun l => s.regionHas (start, len) (64 * l)) &&
    !((s.core c).stores.any fun st => st.bytes.any fun b =>
      match s.linearOf b.1 with | some a => s.regionHas (start, len) a | none => false)

/-- GE_OPEN_COMPLETE (R334, R27, R29): the status word is written, and the region is open when the status is 0, with every earlier
write of its tiles sent to the channels. -/
def execGeOpenComplete (c : CoreId) (s : State) : Res :=
  .next (match (s.core c).gx.cmds with
    | x :: _ => match x.kind with
      | .opn start len st =>
        let v := s.openStatus c start len
        if !x.dispatched || (v == 0 && !s.recalled c start len) then s
        else
          let denied := v == 4 && s.regionRange start len
          let s1 := if denied then s.permEvent c.val start else s
          let s2 := if v = 0 then s1.sendStale fun t => s1.regionHas (start, len) (t * 4096) else s1
          (s2.modCore c fun k =>
            let k1 := k.putStatus st v
            { k1 with gx := { k1.gx with regions := if v = 0 then k1.gx.regions ++ [(start, len)] else k1.gx.regions } }).endPart
            c x.num ⟨0, 0, 0⟩
      | _ => s
    | [] => s)

/-- GE_CLOSE_COMPLETE (R334): after every earlier command has ended, the region that starts there closes, and what stalled on it goes
on. -/
def execGeCloseComplete (c : CoreId) (s : State) : Res :=
  .next (match (s.core c).gx.cmds with
    | x :: _ => match x.kind with
      | .cls start st =>
        if !x.dispatched then s
        else
          let found := (s.core c).gx.regions.any fun r => r.1 == start
          (s.modCore c fun k =>
            let k1 := k.putStatus st (if found then 0 else 2)
            { k1 with gx := { k1.gx with regions := k1.gx.regions.filter fun r => r.1 != start } }).endPart c x.num ⟨0, 0, 0⟩ |>.unstall
      | _ => s
    | [] => s)

end Sys2Proof.Machine
end

