-- ==== Sys2Proof/Machine/GalleyEntries.lean ====
section
/-! DEFINITION. The entries of the galley catalogue (R301 to R306, R312), each as the event in which an engine runs its next
call of that entry. -/

namespace Sys2Proof.Machine

/-- Bytes of a bank group (R16). -/
def localBytes : Nat := 2 ^ 30

/-- A bit field of a call's argument. -/
def argBits (a hi lo : Nat) : Nat := a / 2 ^ lo % 2 ^ (hi - lo + 1)

/-- A call that ends with cause bad argument unless a condition holds (R301). -/
def needArg (s : State) (ok : Bool) (k : State × Except GStop GDone) : State × Except GStop GDone :=
  if ok then k else (s, .error ⟨4, none⟩)

/-- A call whose buffer must have one of some tags: a Poison buffer is a poisoned input, any other tag a bad argument (R304,
R305, R307). -/
def needBuf (s : State) (g : Engine) (ok : BitVec 4 → Bool) (k : State × Except GStop GDone) : State × Except GStop GDone :=
  if g.btag = tagPoison then (s, .error ⟨7, none⟩) else needArg s (ok g.btag) k

/-- A range of tiles is in its stated range (R301). -/
def tilesOk (a n : Nat) : Bool :=
  decide (a % 4096 = 0) && decide (1 ≤ n) && decide (n ≤ 262144) && decide (a + 4096 * n ≤ localBytes)

/-! ## Whole tiles: FILL, COPY, CSUM -/

/-- Write the tiles of FILL in ascending order. -/
def State.fillTiles (s : State) (x : Call) (bs : List Byte) (tag : BitVec 4) (L : Nat) : Nat → State × Option GStop
  | 0 => (s, none)
  | n + 1 =>
    let (s1, r) := s.writeLocal x L bs (.fill tag) false
    match r with
    | some f => (s1, some f)
    | none => s1.fillTiles x bs tag (L + 4096) n

/-- The end of an entry that has no result. -/
def doneOr (e : Nat) : State × Option GStop → State × Except GStop GDone
  | (s, some f) => (s, .error f)
  | (s, none) => (s, .ok { eng := s.engine e })

/-- Entry FILL (R303). -/
def entryFill (s : State) (x : Call) : State × Except GStop GDone :=
  needArg s (tilesOk x.a0 x.a1 && fillTagOk (x.a3 % 16) && decide (x.a3 < 16))
    (match s.outsideRegion x x.a0 (4096 * x.a1) with
    | some t => (s, .error ⟨5, some t⟩)
    | none =>
      let bs := (List.replicate 1024 (leBytes 4 x.a2)).flatten
      doneOr x.e (s.fillTiles x bs (BitVec.ofNat 4 x.a3) x.a0 x.a1))

/-- Copy the tiles of COPY in ascending order. -/
def State.copyTiles (s : State) (x : Call) (src dst : Nat) : Nat → State × Option GStop
  | 0 => (s, none)
  | n + 1 =>
    let (s1, r) := s.tilePass x src
    match r with
    | .error f => (s1, some f)
    | .ok (bs, r) =>
      let (s2, w) := s1.writeLocal x dst bs (.copy r.ftag r.eb false r.esc) false
      match w with
      | some f => (s2, some f)
      | none => s2.copyTiles x (src + 4096) (dst + 4096) n

/-- Entry COPY (R303). -/
def entryCopy (s : State) (x : Call) : State × Except GStop GDone :=
  let n := 4096 * x.a2
  needArg s (tilesOk x.a0 x.a2 && tilesOk x.a1 x.a2 && x.a3 == 0 && (decide (x.a0 + n ≤ x.a1) || decide (x.a1 + n ≤ x.a0)))
    (match s.outsideRegion x x.a1 n with
    | some t => (s, .error ⟨5, some t⟩)
    | none => doneOr x.e (s.copyTiles x x.a0 x.a1 x.a2))

/-- The sum of the little-endian words of a byte string. -/
def wordSum : List Byte → Nat
  | a :: b :: c :: d :: t => ofLe [a, b, c, d] + wordSum t
  | _ => 0

/-- Sum the tiles of CSUM in ascending order. -/
def State.sumTiles (s : State) (x : Call) (L acc : Nat) : Nat → State × Except GStop Nat
  | 0 => (s, .ok acc)
  | n + 1 =>
    let (s1, r) := s.tilePass x L
    match r with
    | .error f => (s1, .error f)
    | .ok (bs, _) => s1.sumTiles x (L + 4096) ((acc + wordSum bs) % 2 ^ 32) n

/-- Entry CSUM (R303). -/
def entryCsum (s : State) (x : Call) : State × Except GStop GDone :=
  needArg s (tilesOk x.a0 x.a1 && x.a2 == 0 && x.a3 == 0)
    (let (s1, r) := s.sumTiles x x.a0 0 x.a1
    match r with
    | .error f => (s1, .error f)
    | .ok n =>
      let g := s1.engine x.e
      (s1, .ok { eng := { g with acc := (g.acc.set 0 (BitVec.ofNat 32 n)).set 1 (BitVec.ofNat 32 x.a1), eacc := 0 }
                 count := 2, tag := 6 }))

/-! ## Arithmetic of GEMV, QK and AV -/

/-- What R306 needs of the values that a call rounds: the flags, Mx and Fx. -/
structure Track where
  F : Flags := 0
  mx : Num := .zero
  fx : Num := .zero
  deriving DecidableEq, Repr

/-- Note a rounded value and the largest product of the factors that multiply it later (R306). -/
def Track.note (t : Track) (v f : Num) : Track :=
  { t with mx := nmaxInf t.mx (nmul v.abs f.abs).1, fx := nmaxInf t.fx f.abs }

/-- Raise flags. -/
def Track.raise (t : Track) (F : Flags) : Track := { t with F := t.F ||| F }

/-- Round an exact value to FP32 with flushing (R304, R305). Mx takes the value as rounded and flushed: R306 does not say whether
"every value that the call rounds" is meant before or after (DESIGN CHOICE, log entry 76). -/
def Track.rnd (t : Track) (x : Num × Flags) (f : Num) : Track × Nat :=
  let r := flushOut (roundTo .fp32 .rne x.1)
  ((t.raise (x.2 ||| r.2)).note (value .fp32 r.1) f, r.1)

/-- The factor of a value that nothing multiplies later (R306). -/
def unitFactor : Num := .pow2 0

/-- A BF16 input with a subnormal read as a zero of its sign (R107). -/
def flushBf16 (x : BitVec 16) : BitVec 16 := if x.extractLsb' 7 8 = 0 then x &&& 0x8000 else x

/-- The largest finite magnitude of a list (R306). -/
def finMax (xs : List Num) : Num := xs.foldl (fun a x => if x.isFin then nmax a x.abs else a) .zero

/-- Little-endian elements of `n` bytes. -/
def elemsOf (n : Nat) : Nat → List Byte → List Nat
  | 0, _ => []
  | k + 1, bs => ofLe (bs.take n) :: elemsOf n k (bs.drop n)

/-- Packed 4-bit codes, low half first (R110). -/
def nibbles (bs : List Byte) : List Nat := bs.flatMap fun b => [b.toNat % 16, b.toNat / 16]

/-- Element bytes of a tag. -/
def elemBytes (t : BitVec 4) : Nat := tagWidth t / 8

/-- The flush of subnormal inputs is reported as UF and NX (R107). -/
def flushFlags (f : Fmt) (xs : List Nat) : Flags :=
  if !f.isTf && xs.any (fun x => (x >>> f.fw) % 2 ^ f.ew == 0 && x % 2 ^ f.fw != 0) then fUF ||| fNX else 0

/-- The flags of reading `n` elements of a tag (R107). -/
def elemFlags (t : BitVec 4) (n : Nat) (bs : List Byte) : Flags :=
  match tagFmt t with
  | some f => flushFlags f (elemsOf (elemBytes t) n bs)
  | none => 0

/-- The values of `n` elements of a tag, with subnormal BF16 and FP32 inputs flushed; `elemFlags` reports the flush (R107). -/
def elemVals (t : BitVec 4) (n : Nat) (bs : List Byte) : List Num :=
  (elemsOf (elemBytes t) n bs).map fun x =>
    match tagFmt t with
    | some f => flushIn f x
    | none => .ofInt (intValue (tagWidth t) true x)

/-- An exact sum of products of integers. -/
def exactDot (xs ws : List Num) : Num :=
  (List.zip xs ws).foldl (fun a p => (nadd .rne a (nmul p.1 p.2).1).1) .zero

/-- A sum of products rounded after each step, with later factor `f`. -/
def stepDot (t : Track) (f : Num) (xs ws : List Num) : Track × Num :=
  (List.zip xs ws).foldl (fun a p => let r := a.1.rnd (nfma .rne p.1 p.2 a.2) f; (r.1, value .fp32 r.2)) (t, .zero)

/-- The propagated error of a product: Ax·ew + Wt·ea + ea·ew (R306). -/
def propBound (ax wt ea ew : Num) : Num :=
  (nadd .rup (nadd .rup (nmul ax ew).1 (nmul wt ea).1).1 (nmul ea ew).1).1

/-- RoundTo(FP16, RUP, E0 + P + Nr × (Ulp(FP32, Mx) + 2^−126 × Fx)) (R306). -/
def callBound (e0 p : Num) (nr : Nat) (t : Track) : BitVec 16 :=
  let u := (nadd .rup (ulp .fp32 t.mx) (nmul (.pow2 (-126)) t.fx).1).1
  if t.mx.isFin && t.fx.isFin && p.isFin && e0.isFin then
    boundOf (nadd .rup (nadd .rup e0 p).1 (nmul (.ofNat nr) u).1).1
  else ebInf

/-- Write accumulators from 0 on. -/
def putAcc (acc : Vector Word32 64) (ys : List Nat) : Vector Word32 64 :=
  Vector.ofFn fun i => match ys[i.val]? with | some y => BitVec.ofNat 32 y | none => acc.get i

/-- The accumulator that a chain continues from, or +0 (R304, R305). -/
def accStart (g : Engine) (acc : Bool) (i : Nat) : Nat := if acc then (g.acc.toList.getD i 0).toNat else 0

/-- Bytes of an activation buffer. -/
def Engine.bufBytes (g : Engine) (off n : Nat) : List Byte := sbytes g.buf off n

/-! ## GEMV -/

/-- The weight formats of GEMV. -/
inductive GemvKind where
  | i8 | i4 | tf8
  deriving DecidableEq, Repr

/-- The entry number of a GEMV (R301). -/
def GemvKind.entry : GemvKind → Nat
  | .i8 => 3 | .i4 => 4 | .tf8 => 5

/-- The weights of a row. -/
def GemvKind.weights (k : GemvKind) (n : Nat) (bs : List Byte) : List Num :=
  match k with
  | .i8 => elemVals 8 n bs
  | .i4 => (nibbles bs).map fun x => .ofInt (intValue 4 true x)
  | .tf8 => elemVals 4 n bs

/-- One block of 128 weights: y, Smax and the track (R304). -/
def GemvKind.block (k : GemvKind) (xs ws : List Num) (xs16 ws16 : Nat) (st : Track × Nat × Num) : Track × Nat × Num :=
  let (t, y, smax) := st
  let r := flushOut (scaleProduct (flushBf16 (BitVec.ofNat 16 xs16)) (flushBf16 (BitVec.ofNat 16 ws16)))
  let F := r.2 ||| flushFlags .bf16 [xs16, ws16]
  let sp := value .fp32 r.1
  let (t1, s) := match k with
    | .tf8 => stepDot (t.raise F) sp xs ws
    | _ => (t.raise F, exactDot xs ws)
  let t2 := t1.note sp s
  let (t3, y') := t2.rnd (nfma .rne s sp (value .fp32 y)) unitFactor
  (t3, y', nmaxInf smax sp.abs)

/-- The blocks of a row. -/
def GemvKind.row (k : GemvKind) : List Num → List Num → List Nat → List Nat → Track × Nat × Num → Track × Nat × Num
  | xs, ws, a :: as, b :: bs, st => k.row (xs.drop 128) (ws.drop 128) as bs (k.block (xs.take 128) (ws.take 128) a b st)
  | _, _, _, _, st => st

/-- The rows of a call: accumulators in order, the track, Smax and the weights' largest magnitude. -/
def GemvKind.rows (k : GemvKind) (g : Engine) (acc : Bool) (K wlen : Nat) (xs : List Num) (xsc : List Nat) :
    Nat → List (List Byte) → Track → Num → Num → List Nat × Track × Num × Num
  | _, [], t, smax, wt => ([], t, smax, wt)
  | q, row :: rest, t, smax, wt =>
    let ws := k.weights K (row.take wlen)
    let (t1, y, smax1) := k.row xs ws xsc (elemsOf 2 (K / 128) (row.drop wlen)) (t, accStart g acc q, smax)
    let (ys, t2, s2, w2) := k.rows g acc K wlen xs xsc (q + 1) rest t1 smax1 (nmax wt (finMax ws))
    (y :: ys, t2, s2, w2)

/-- Entries GEMV.I8, GEMV.I4 and GEMV.TF8 (R301, R304, R306). -/
def entryGemv (k : GemvKind) (s : State) (x : Call) : State × Except GStop GDone :=
  let acc := decide (argBits x.a1 31 31 = 1)
  let pitch := 64 * argBits x.a1 28 16
  let nout := argBits x.a1 5 0 + 1
  let K := x.a2
  let nb := K / 128
  let wlen := match k with | .i4 => K / 2 | _ => K
  let len := wlen + 2 * nb
  let g := s.engine x.e
  needArg s (decide (x.a0 % 64 = 0) && argBits x.a1 30 29 == 0 && argBits x.a1 15 6 == 0 && pitch != 0 && x.a3 == 0 &&
      decide (K % 128 = 0) && decide (128 ≤ K) && decide (K ≤ 3968) && decide (len ≤ pitch) &&
      decide (x.a0 + (nout - 1) * pitch + len ≤ localBytes))
    (needBuf s g (fun t => t == (match k with | .tf8 => 4 | _ => 8))
      (let (s1, r) := s.readRows x len ((List.range nout).map fun q => x.a0 + q * pitch)
      match r with
      | .error f => (s1, .error f)
      | .ok (rows, ew) =>
        let xs := elemVals g.btag K (g.bufBytes 0 K)
        let xsc := elemsOf 2 nb (g.bufBytes K (2 * nb))
        let (ys, t, smax, wt) := k.rows g acc K wlen xs xsc 0 rows {} .zero .zero
        let p := (nmul (nmul (.ofNat K) (propBound (finMax xs) wt (ebValue g.beb) (ebValue ew))).1 smax).1
        let e0 := if acc then ebValue g.eacc else .zero
        let nr := match k with | .tf8 => 129 * nb | _ => nb
        (s1, .ok { eng := { g with acc := putAcc g.acc ys, eacc := callBound e0 p nr t, F := g.F ||| t.F }
                   count := nout, tag := 1 })))

/-! ## QK -/

/-- The scores of QK, in order, with the track and the keys' largest magnitude (R305). -/
def qkRows (tag : BitVec 4) (d : Nat) (c : Num) (qs : List Num) : List (List Byte) → Track → Num → List Nat × Track × Num
  | [], t, wt => ([], t, wt)
  | row :: rest, t, wt =>
    let ks := elemVals tag d row
    let (t1, s) := if tag = 8 then (t, exactDot qs ks) else stepDot t c qs ks
    let (t2, y) := t1.rnd (nmul s c) unitFactor
    let (ys, t3, w) := qkRows tag d c qs rest t2 (nmax wt (finMax ks))
    (y :: ys, t3, w)

/-- Entry QK (R301, R305, R306). -/
def entryQk (s : State) (x : Call) : State × Except GStop GDone :=
  let pitch := 64 * argBits x.a1 28 16
  let n := argBits x.a1 5 0 + 1
  let d := x.a2
  let g := s.engine x.e
  let len := d * elemBytes g.btag
  needArg s (decide (x.a0 % 64 = 0) && argBits x.a1 31 29 == 0 && argBits x.a1 15 6 == 0 && pitch != 0 && decide (1 ≤ d) &&
      decide (d ≤ 2048))
    (needBuf s g (fun t => t == 2 || t == 4 || t == 8)
      (needArg s (decide (len ≤ pitch) && decide (len ≤ 4096) && decide (x.a0 + (n - 1) * pitch + len ≤ localBytes))
        (let (s1, r) := s.readRows x len ((List.range n).map fun p => x.a0 + p * pitch)
        match r with
        | .error f => (s1, .error f)
        | .ok (rows, ew) =>
          let c := flushIn .fp32 x.a3
          let qs := elemVals g.btag d (g.bufBytes 0 len)
          let F := flushFlags .fp32 [x.a3] ||| elemFlags g.btag d (g.bufBytes 0 len) ||| orFlags (rows.map (elemFlags g.btag d))
          let (ys, t, wt) := qkRows g.btag d c qs rows { F := F } .zero
          let p := (nmul (nmul (.ofNat d) (propBound (finMax qs) wt (ebValue g.beb) (ebValue ew))).1 c.abs).1
          let nr := if g.btag = 8 then 1 else d + 1
          (s1, .ok { eng := { g with acc := putAcc g.acc ys, eacc := callBound .zero p nr t, F := g.F ||| t.F }
                     count := n, tag := 1 }))))

/-! ## AV -/

/-- One position of AV: every y(i) takes w(p) × val(p, i) (R305). -/
def avStep (w : Num) : List Num → List Nat → Track → List Nat × Track
  | v :: vs, y :: ys, t =>
    let (t1, y') := t.rnd (nfma .rne w v (value .fp32 y)) unitFactor
    let (zs, t2) := avStep w vs ys t1
    (y' :: zs, t2)
  | _, ys, t => (ys, t)

/-- The positions of AV, with the values' largest magnitude. -/
def avRows (tag : BitVec 4) (d : Nat) : List Num → List (List Byte) → List Nat → Track → Num → List Nat × Track × Num
  | w :: ws, row :: rest, ys, t, wt =>
    let vs := elemVals tag d row
    let (ys1, t1) := avStep w vs ys t
    avRows tag d ws rest ys1 t1 (nmax wt (finMax vs))
  | _, _, ys, t, wt => (ys, t, wt)

/-- Entry AV (R301, R305, R306). -/
def entryAv (s : State) (x : Call) : State × Except GStop GDone :=
  let acc := decide (argBits x.a1 31 31 = 1)
  let pitch := 64 * argBits x.a1 28 16
  let n := argBits x.a1 9 0 + 1
  let d := x.a2
  let tag : BitVec 4 := BitVec.ofNat 4 x.a3
  let len := d * elemBytes tag
  let g := s.engine x.e
  needArg s (decide (x.a0 % 64 = 0) && argBits x.a1 30 29 == 0 && argBits x.a1 15 10 == 0 && pitch != 0 && decide (1 ≤ d) &&
      decide (d ≤ 64) && (x.a3 == 2 || x.a3 == 4) && decide (len ≤ pitch) && decide (4 * n ≤ 4096) &&
      decide (x.a0 + (n - 1) * pitch + len ≤ localBytes))
    (needBuf s g (fun t => t == 1)
      (let (s1, r) := s.readRows x len ((List.range n).map fun p => x.a0 + p * pitch)
      match r with
      | .error f => (s1, .error f)
      | .ok (rows, ew) =>
        let ws := elemVals 1 n (g.bufBytes 0 (4 * n))
        let F := elemFlags 1 n (g.bufBytes 0 (4 * n)) ||| orFlags (rows.map (elemFlags tag d))
        let (ys, t, wt) := avRows tag d ws rows ((List.range d).map (accStart g acc)) { F := F } .zero
        let p := (nmul (.ofNat n) (propBound (finMax ws) wt (ebValue g.beb) (ebValue ew))).1
        let e0 := if acc then ebValue g.eacc else .zero
        (s1, .ok { eng := { g with acc := putAcc g.acc ys, eacc := callBound e0 p n t, F := g.F ||| t.F }
                   count := d, tag := 1 })))

/-! ## KVAPP, PARK, UNPARK -/

/-- Write a row tile by tile: a tile that is not wholly overwritten is read and checked first (R302, R303). -/
def State.appendRow (s : State) (x : Call) (g : Engine) (bs : List Byte) : List (Nat × Nat) → State × Option GStop
  | [] => (s, none)
  | (L, n) :: rest =>
    let (s1, r) := if n = 4096 then (s, none) else
      let (s1, r) := s.tilePass x L
      (s1, match r with | .error f => some f | .ok _ => none)
    match r with
    | some f => (s1, some f)
    | none =>
      let (s2, w) := s1.writeLocal x L (bs.take n) (.store g.btag (some g.beb)) true
      match w with
      | some f => (s2, some f)
      | none => s2.appendRow x g (bs.drop n) rest

/-- Entry KVAPP (R301, R303). -/
def entryKvapp (s : State) (x : Call) : State × Except GStop GDone :=
  let pitch := 64 * argBits x.a2 12 0
  let src := argBits x.a3 11 0 + x.j * argBits x.a3 27 16
  let L := x.a0 + x.a1 * pitch
  let g := s.engine x.e
  needArg s (decide (x.a0 % 64 = 0) && decide (1 ≤ x.a2) && decide (x.a2 ≤ 64) && argBits x.a3 15 12 == 0 &&
      argBits x.a3 31 28 == 0 && decide (src + pitch ≤ 4096) && decide (L + pitch ≤ localBytes))
    (needBuf s g (fun _ => true)
      (match s.outsideRegion x L pitch with
      | some t => (s, .error ⟨5, some t⟩)
      | none => doneOr x.e (s.appendRow x g (g.bufBytes src pitch) (cutAt 4096 3 L pitch))))

/-- The key slot that seals park rows: Make-ready's (R446). -/
def parkSlot : Nat := 24

/-- The version of an engine's next park-row seal (R442, R445). -/
def Engine.nextVer (g : Engine) (k : KeySlot) : Word32 := if g.parkGen = k.gen then g.parkVer + 1 else 0

/-- What PARK saves, sealed under a key slot (R442; log entry 7). -/
def Engine.toPark (g : Engine) (k : KeySlot) : ParkRow :=
  ⟨g.buf, g.btag, g.beb, g.acc, g.eacc, g.F, k.key, k.gen, g.nextVer k⟩

/-- An engine whose state has been saved: live bit apart (R312). -/
def Engine.emptied (g : Engine) (k : KeySlot) : Engine :=
  { g with
    acc := Vector.replicate 64 0, buf := [], eacc := 0, btag := 0, beb := 0, parkVer := g.nextVer k, parkGen := k.gen }

/-- The state after PARK, live bit apart (R312). -/
def Engine.parked (g : Engine) (k : KeySlot) : Engine := { g.emptied k with park := some (g.toPark k) }

/-- The tag of a park row passes under the key slot as it stands (R312, R448). -/
def ParkRow.passes (p : ParkRow) (k : KeySlot) : Bool := p.key.isSome && k.keyFor p.gen == p.key

/-- An engine with the state that a row saved (R312). -/
def Engine.refilled (g : Engine) (p : ParkRow) : Engine :=
  { g with buf := p.buf, btag := p.btag, beb := p.beb, acc := p.acc, eacc := p.eacc, F := p.F, live := true }

/-- The state after UNPARK of a park row (R312). -/
def Engine.restored (g : Engine) (p : ParkRow) : Engine := { g.refilled p with park := none }

/-- Every argument of a call is zero. -/
def Call.noArgs (x : Call) : Bool := x.a0 == 0 && x.a1 == 0 && x.a2 == 0 && x.a3 == 0

/-- Entry PARK (R312). -/
def entryPark (s : State) (x : Call) : State × Except GStop GDone :=
  needArg s x.noArgs (s, .ok { eng := { (s.engine x.e).parked (s.keySlot parkSlot) with live := false } })

/-- The park row of an engine can be read: no error stands in it, and the state of the key slot that seals it is readable (R474). -/
def State.parkReads (s : State) (e : Nat) : Bool := !s.soft.contains (SoftErr.park e) && !s.lostKeys.contains parkSlot

/-- A read of an engine's park row meets an error that stands in it, with one event (R473, R475). -/
def State.parkRead (s : State) (e : Nat) : State :=
  if s.soft.contains (SoftErr.park e) then
    ({ s with soft := s.soft.filter (· != SoftErr.park e) } : State).memEvent 0x01 0 (engineChan e)
  else s

/-- Entry UNPARK (R312). A row that cannot be read fails its tag (R474; log entry 20). -/
def entryUnpark (s : State) (x : Call) : State × Except GStop GDone :=
  needArg s x.noArgs
    (match (s.engine x.e).park with
    | some p =>
      if p.passes (s.keySlot parkSlot) && s.parkReads x.e then (s, .ok { eng := (s.engine x.e).restored p })
      else (s.parkRead x.e, .error ⟨0xA, none⟩)
    | none => (s, .error ⟨4, none⟩))

/-! ## Events -/

/-- FILL (R303). -/
def execFill (e : EngineId) (s : State) : Res := .next (s.engineCall e 0x00 entryFill)

/-- COPY (R303). -/
def execCopy (e : EngineId) (s : State) : Res := .next (s.engineCall e 0x01 entryCopy)

/-- CSUM (R303). -/
def execCsum (e : EngineId) (s : State) : Res := .next (s.engineCall e 0x02 entryCsum)

/-- GEMV.I8 (R304). -/
def execGemvI8 (e : EngineId) (s : State) : Res := .next (s.engineCall e 0x03 (entryGemv .i8))

/-- GEMV.I4 (R304). -/
def execGemvI4 (e : EngineId) (s : State) : Res := .next (s.engineCall e 0x04 (entryGemv .i4))

/-- GEMV.TF8 (R304). -/
def execGemvTf8 (e : EngineId) (s : State) : Res := .next (s.engineCall e 0x05 (entryGemv .tf8))

/-- KVAPP (R303). -/
def execKvapp (e : EngineId) (s : State) : Res := .next (s.engineCall e 0x08 entryKvapp)

/-- QK (R305). -/
def execQk (e : EngineId) (s : State) : Res := .next (s.engineCall e 0x09 entryQk)

/-- AV (R305). -/
def execAv (e : EngineId) (s : State) : Res := .next (s.engineCall e 0x0A entryAv)

/-- PARK (R312). -/
def execPark (e : EngineId) (s : State) : Res := .next (s.engineCall e 0x0E entryPark)

/-- UNPARK (R312). -/
def execUnpark (e : EngineId) (s : State) : Res := .next (s.engineCall e 0x0F entryUnpark)

end Sys2Proof.Machine
end

