-- ==== Sys2Proof/Machine/Issue.lean ====
section
/-! DEFINITION. The tick of a core: the landing of results (R42, R47, R463), fetch, decode and issue of a bundle, its commit or
nullification (R52 to R55), transfers of control and loops (R382 to R387), freezes (R45), safe points (R70), and the end of a
task (R388 to R391). `run` is the meaning of an instruction, which Dispatch.lean gives. -/

namespace Sys2Proof.Machine

/-! ## The bundle-level instructions -/

/-- PAUSE (R68): a bundle with no present slot has no effect of its own; its tick is counted by the commit. -/
def execPause (s : State) : Res := .next s

/-- OPSEL (R57, R69): the header's selection, which takes effect at the end of the bundle's tick. -/
def execOpsel (op : BitVec 3) (s : State) : Res := .next { s with iss := { s.iss with opsel := some op } }

/-! ## Landings -/

/-- Mark a destination as newly written: poisoned by a bundle, or no longer poisoned (R54, R477). -/
def Core.noteDest (k : Core) (key : Nat) (pois : Bool) (org : Nat) : Core :=
  let rest := k.porig.filter fun x => x.1 != key
  { k with porig := if pois then rest ++ [(key, org)] else rest }

/-- Raise flags in fsr (R40). -/
def Core.orFsr (k : Core) (F : Flags) : Core := { k with fsr := k.fsr ||| F }

/-- The origin of a row that a beat has written poisoned: the earlier of the beat's and, where it accumulates, of the row it reads (R462). -/
def Core.beatOrigin (old : Core) (v : VReg) (acc : Bool) (e : Entry) : Nat :=
  ((if e.poison then [e.org] else []) ++
    (if acc && (old.row v).isPoison then (old.oldest [porigKey 3 v.toNat]).toList else [])).min?.getD noOrigin

/-- Write one result that is due; `old` gives the rows before the tick's landings (R42, R460). -/
def Core.landEntry (old k : Core) (e : Entry) : Core :=
  match e.pay with
  | .scalar c r v =>
    let k1 := (k.setReg c r v e.poison).orFsr e.F
    if r = 0 then k1 else k1.noteDest (porigKey 1 (dstScalar c r)) e.poison e.org
  | .pred p v => ((k.setPred p v e.poison).orFsr e.F).noteDest (porigKey 2 p.val) e.poison e.org
  | .row v x => ((k.setRow v (if e.poison then poisonRow else x)).orFsr e.F).noteDest (porigKey 3 v.toNat) e.poison e.org
  | .beat v acc sums sp eb _ =>
    let (x, G) := landBeat (old.row v) acc sums sp eb e.poison e.F
    ((k.setRow v x).orFsr G).noteDest (porigKey 3 v.toNat) (x.tag = tagPoison) (old.beatOrigin v acc e)
  | .list l x => ({ k with cl := k.cl.set l.val x l.isLt, fsr := k.fsr ||| e.F } : Core).noteShared (listKey l) x.poison e.org

/-- A tick issued at a pressure level is counted, saturating (R427). -/
def Core.countSplit (k : Core) : Core :=
  { k with
    l1 := if k.press = 1 ∧ k.l1 ≠ 0xFFFFFFFF#32 then k.l1 + 1 else k.l1
    l2 := if k.press = 2 ∧ k.l2 ≠ 0xFFFFFFFF#32 then k.l2 + 1 else k.l2 }

/-- The monitors choose the pressure level of the tick that a core is about to take (R425; log entry 46). -/
def Core.levelled (c : CoreId) (k : Core) : Core :=
  { k with press := BitVec.ofNat 2 ((Config.pressure c.val k.ticks).toNat % 3), ticks := k.ticks + 1 }

/-- The end of a tick: the sequencer's step, one tick less for every result in flight, the results that are due, in issue
order, and the tick counter (R42, R44, R47, R209). -/
def Core.endTick (k : Core) : Core :=
  let k1 := k.countSplit.seqStep
  let es := k1.infl.map fun e => { e with r := e.r - 1 }
  let k2 := (es.filter (·.r == 0)).foldl (Core.landEntry k1) { k1 with infl := es.filter (·.r != 0) }
  { k2 with tick := k2.tick + 1, idiv := k2.idiv - 1, fdiv := k2.fdiv - 1 }

/-- A tick that issues no bundle: a bubble, or an idle tick of WAIT (R336, R382). -/
def Core.idleTick (k : Core) : Core := let k1 := k.endTick; { k1 with wdog := k1.wdog + 1 }

/-- A result is due at the end of the coming tick and its data has not reached the core (R45). -/
def Core.awaitsData (k : Core) : Bool := k.infl.any fun e => e.r == 1 && e.late != .no

/-! ## Transfers and loops -/

/-- Deactivate a loop (R387). -/
def Core.endLoop (k : Core) (l : Fin 4) : Core :=
  { k with
    lc := k.lc.set l.val { k.lc.get l with active := false, count := 0 } l.isLt
    order := k.order.filter (· != l) }

/-- The back-edge at a bundle at offset `off`, over the loops that were active when it issued, innermost first: the core and the
offset of the next bundle, none for the next in sequence (R387). -/
def Core.backEdge (k : Core) (off : Nat) : List (Fin 4) → Core × Option Nat
  | [] => (k, none)
  | l :: rest =>
    let x := k.lc.get l
    if x.e.toNat ≠ off then (k, none)
    else if 1 < x.count.toNat then
      ({ k with lc := k.lc.set l.val { x with count := x.count - 1 } l.isLt }, some x.s.toNat)
    else (k.endLoop l).backEdge off rest

/-- A taken BR, BRI or BR.SIDE ends the loops whose body its target leaves (R387). -/
def Core.leaveLoops (k : Core) (target : Nat) : List (Fin 4) → Core
  | [] => k
  | l :: rest =>
    let x := k.lc.get l
    if decide (x.s.toNat ≤ target) && decide (target ≤ x.e.toNat) then k else (k.endLoop l).leaveLoops target rest

/-- The next bundle after a bundle at `off` of `len` bytes, with loops, return stack, side and bubble (R382 to R387). `order` is
the loop order before the bundle. After a bundle that ends with its side, sequential flow stands at 0x10000, outside the side, and
does not wrap to 0 (R58 leaves it open; DESIGN CHOICE, log entry 86). -/
def Core.transfer (k : Core) (x : Transfer) (off len : Nat) (order : List (Fin 4)) : Core :=
  let taken (k : Core) (pc : Nat) : Core := { k with pc := pc, bubble := 2 }
  match x with
  | .seq =>
    let (k1, t) := k.backEdge off order
    { k1 with pc := t.getD (off + len) }
  | .jump t => taken (k.leaveLoops t order) t
  | .side t => taken { k.leaveLoops t order with side := !k.side, mark := false } t
  | .call t => taken { k with rstack := (off + len) :: k.rstack } t
  | .ret => taken { k with rstack := k.rstack.drop 1 } (k.rstack.headD 0)
  | .skip e => taken k (e + bundleLen (k.fetchWord e))

/-! ## Commit -/

/-- WRSR of fsr: flags that land in the same tick are ORed into the value written (R170). -/
def Core.writeFsr (k : Core) (f : Option Flags) : Core :=
  match f with
  | some x => { k with fsr := x }
  | none => k

/-- WRSR of pfile, after the tick's landings (R170). -/
def Core.writePfile (k : Core) (p : Option (BitVec 12)) : Core :=
  match p with
  | some x => { k with p := x, pPois := 0, porig := k.porig.filter fun y => y.1 / 128 != 2 }
  | none => k

/-- The transition that a selection starts (R57, R421, R423). -/
def Core.selectPoint (k : Core) (op : Option (BitVec 3)) (cap : BitVec 3) : Core :=
  match op with
  | none => k
  | some o =>
    if o = k.opc then k
    else
      let e := effPoint o cap
      { k.setEff e with opc := o, settling := k.settling || e != k.eff }

/-- The core after a bundle commits: the tick's end and everything that takes effect with it. A marked bundle resets the watchdog count as
it commits, and its tick is then the first that counts (R374, R498, R506). -/
def State.commitCore (s : State) (c : CoreId) : State :=
  let i := s.iss
  let cap := (s.corePart c).opcap
  s.modCore c fun k =>
    let k1 := (((k.levelled c).writeFsr i.wfsr).endTick).writePfile i.wpfile
    let k2 := (if i.clrMark then { k1 with mark := false } else k1).transfer i.xfer i.off i.len i.pre.order
    { k2.selectPoint i.opsel cap with
      wdog := (if i.safe then 0 else k2.wdog) + 1, wait := none, req := none, ans := none }

/-! ## What follows a commit -/

/-- The write-back copies of a task's outputs, in ascending k (R369). -/
def Task.writeBacks (t : Task) : List CopyCmd :=
  (t.desc.outs.filter (·.wb)).map fun e =>
    ⟨0, .lin, e.addr t.tilex t.tiley t.tilez, e.spoff, e.bytes, e.nc, 0, false, []⟩

/-- The task enters Ending (R388): results in flight, loops, return stack and bubble are discarded. -/
def State.beginEnding (s : State) (c : CoreId) : State :=
  let wbs := match s.taskOf c with | some t => t.writeBacks | none => []
  let s1 := s.modCore c fun k => { k with
    st := .ending, resLeft := wbs, resStop := false, infl := [], seq := {}, lc := Vector.replicate 4 {}, order := []
    rstack := [], bubble := 0, waitc := none }
  match (s.core c).task with
  | some i => s1.modTask i fun t => { t with st := .ending }
  | none => s1

/-- The task of a core fails at once: an informational record, its engine commands settle, its job fails (R389, R465). -/
def State.failTask (s : State) (c : CoreId) (r : TrapRec) : State :=
  let i := (s.core c).task
  let s1 := (s.inform (chaseOf c) r).settleCore c
  let s2 := s1.regionsClosed s
  match i with
  | some i => s2.finishTask i (.failed r.cause)
  | none => s2

/-- Cancel the task of a core where a cancel may stop it (R364, R375, R468): as `stopTask` does for a task that is held, frozen
on a wait, or at a safe point. -/
def State.cancelHere (s : State) (c : CoreId) : State :=
  let held := (s.core c).st == .held
  let i := (s.core c).task
  let s1 := s.settleCore c
  let s2 := (if held then s1.modCore c fun k => { k with cancelled := true } else s1).regionsClosed s
  match i with
  | some i => s2.finishTask i .cancelled
  | none => s2

/-- A trap of the task on a core whose loads in flight have their data: a watchdog trap is a point at which a cancel that waits stops
the task; after any other the core is held, and the cancel waits on (R364, R374). -/
def State.trapNow (s : State) (c : CoreId) (r : TrapRec) (reissue : Bool) : State :=
  let s1 := s.takeTrap c r reissue
  if (s.core c).creq && r.cause = 0x0A then s1.cancelHere c else s1

/-- A trap of the task on a core: while loads in flight lack their data, the core waits for it with everything held (R458). -/
def State.trapCore (s : State) (c : CoreId) (r : TrapRec) (reissue : Bool) : State :=
  if (s.core c).dataHere then s.trapNow c r reissue
  else s.modCore c fun k => { k with st := .trapping, trap := some (r, reissue), wait := none, req := none, ans := none }

/-- The trap of a core that waits for late data is taken once all of it has come (R458). -/
def State.trapReady (s : State) (c : CoreId) : State :=
  match (s.core c).trap with
  | some (r, reissue) => if (s.core c).st == .trapping && (s.core c).dataHere then s.trapNow c r reissue else s
  | none => s

/-- The accesses of a core that are not yet performed carry the number of a child launch, which waits for them (R395). -/
def Core.markKid (k : Core) (tag : Nat) : Core :=
  { k with
    stores := k.stores.map fun x => { x with kids := tag :: x.kids }
    infl := k.infl.map fun e => if e.pending then { e with mark := { e.mark with kids := tag :: e.mark.kids } } else e }

/-- What follows the commit of a LAUNCH that has been accepted: its child waits for the accesses of the core, those of the bundle
among them, and is released at once where there are none (R362, R395). `s0` is the state before the bundle, which gave the child
its number. -/
def State.launched (s0 s : State) (c : CoreId) : State :=
  match (s0.core c).req, (s0.core c).ans, s.taskOf c with
  | some (.launch ..), some .accepted, some t =>
    (s.modCore c fun k => k.markKid s0.stamp).advance t.q t.job
  | _, _, _ => s

/-- Context slots of a partition that images hold (R471). -/
def State.slotsUsed (s : State) (q : PartId) : List Nat :=
  s.tasks.filterMap fun x => if x.2.q = q then x.2.image.bind (·.slot) else none

/-- The free context slot of lowest number (R471). -/
def State.freeSlot (s : State) (q : PartId) : Option Nat :=
  (List.range (bits (s.part q).ctxa 11 0)).find? fun i => !(s.slotsUsed q).contains i

/-- A context slot is left for a core's task beside those that other cores' pre-emptions of its partition wait for; at sleep none is needed
(R471). -/
def State.slotReserved (s : State) (c : CoreId) : Bool :=
  match s.taskOf c with
  | none => true
  | some t =>
    let asked := (List.finRange 96).filter fun d =>
      (s.core d).st == .preempting && match s.taskOf d with | some u => u.q == t.q | none => false
    s.slp == .entering ||
      decide (asked.length < ((List.range (bits (s.part t.q).ctxa 11 0)).filter fun i => !(s.slotsUsed t.q).contains i).length)

/-- What a committed bundle does besides: `s0` is the state before it (R364, R373, R388 to R390). A cancel that waits stops the task at a
marked bundle; a DONE without the marker completes it (R380). A pre-emption needs a context slot, and waits for one while the task runs
on (R471). -/
def State.afterCommit (s0 s : State) (c : CoreId) : State :=
  let i := s.iss
  if i.safe && (s.core c).creq then s.cancelHere c
  else match i.fin with
    | some .done => s.beginEnding c
    | some (.abort code) => s.failTask c (s0.trapRec c 0x0C 0 ctlSlot i.escr 0 (code.setWidth 64) 0)
    | some (.trap code) => s.trapCore c (s0.trapRec c 0x0B 0 ctlSlot i.escr 0 (code.setWidth 64) 0) false
    | none => if i.safe && (s.core c).preq && s.slotReserved c then s.modCore c fun k => { k with st := .preempting } else s

/-! ## Faults -/

/-- The fault that the trap reports: the lowest rank, then the lowest slot (R55, R455); of several details of one rank in one slot, the
one found first (DESIGN CHOICE, log entry 100). -/
def worstFault : List Fault1 → Option Fault1
  | [] => none
  | f :: fs =>
    match worstFault fs with
    | none => some f
    | some g => if g.rank < f.rank ∨ (g.rank = f.rank ∧ g.slot < f.slot) then some g else some f

/-- A precision escalation (R144, R145): the task is abandoned, its results in flight are discarded. -/
def State.abandon (s : State) (c : CoreId) (r : TrapRec) : State :=
  (s.modCore c fun k => { k with
    st := .escalating, escRec := some r, infl := [], seq := {}, wait := none, waitc := none, req := none, ans := none
    trap := none, preq := false }).kidsFreed (s.core c)

/-- Nullify the bundle that `s` was issuing, on the state `s0` before it: a trap, or an escalation (R52, R145). No access of the
bundle is performed, so nothing that its loads met stands (R261). -/
def State.nullify (s0 s : State) (c : CoreId) (f : Fault1) : State :=
  let s1 := State.leaveBar { s0 with fresh := s.fresh } c
  let r := s0.trapRec c f.cause f.detail f.slot s.iss.escr f.addr f.aux 0
  if f.cause = 0x09 then s1.abandon c r else s1.trapCore c r true

/-! ## Freezes -/

/-- The request that a bundle makes as it freezes for the first time. -/
def State.request (s : State) (c : CoreId) (r : Option Req) : State :=
  match r with
  | none => s
  | some r =>
    let s1 := s.modCore c fun k => { k with req := some r }
    match r with
    | .bar id n _ => s1.arrive c id n
    | _ => s1

/-- A wait at which a marked bundle is a pre-emption point (R373). -/
def waitPreempts : Wait → Bool
  | .waittl | .wait | .maskw => true
  | _ => false

/-- The header at the pc carries the safe-point marker (R70). -/
def Core.markedNext (k : Core) : Bool := (k.fetchWord k.pc).getLsbD 19

/-- Freeze a core in the first tick of the bundle at its pc: a cancel may stop it there, and so may a pre-emption (R45, R373,
R375). -/
def State.freeze (s : State) (c : CoreId) (w : Wait) (slot : Nat) : State :=
  let k := s.core c
  let s1 := s.modCore c fun k => { k with wait := some w, waitSlot := slot }
  if k.creq && waitStops w then s1.cancelHere c
  else if k.preq && waitPreempts w && k.markedNext && !k.busyFlight && s.slotReserved c then
    s1.modCore c fun k => { k with st := .preempting, wait := none, req := none, ans := none }
  else s1

/-- Hold the bundle that `s` was issuing, on the state `s0` before it: its accesses are performed after the freeze (R338). -/
def State.holdBundle (s0 s : State) (c : CoreId) (w : Wait) : State :=
  let s1 : State := { s0 with fresh := s.fresh }
  (s1.request c s.iss.newReq).freeze c w s.iss.holdSlot

/-! ## Issue -/

/-- The fences of a bundle whose predicates hold: the bundle's own accesses follow them (R267, R292). -/
def Core.fencesOf (k : Core) (b : Bundle) : List FenceKind :=
  b.slots.filterMap fun x => match x.2 with
    | .fence _ p f _ => if !k.predPois p && k.predVal p then some f else none
    | _ => none

/-- The issue record of a decoded bundle. -/
def State.startIssue (s : State) (c : CoreId) (b : Bundle) : State :=
  let k := s.core c
  { s with
    cur := c
    iss := { pre := k, lits := b.lits, off := k.pc, len := b.len, safe := b.safe, escr := b.escr, fences := k.fencesOf b } }

/-- Run the slots of a bundle, then its header's selection; a slot that stops the machine stops the bundle. -/
def runSlots (run : Instr → State → Res) : List (Nat × Instr) → State → Res
  | [], s => .next s
  | (n, i) :: rest, s =>
    match run i { s with iss := { s.iss with now := n } } with
    | .next t => runSlots run rest t
    | .fault f => .fault f
    | .refused r => .refused r

/-- The instructions of a bundle with their slot numbers. -/
def bundleWork (b : Bundle) : List (Nat × Instr) :=
  (match b.slots with
    | [] => [(recHeader, .pause)]
    | l => l.map fun x => (x.1.num, x.2)) ++
  (match b.opsel with | some o => [(recHeader, .opsel o)] | none => [])

/-- The faults that count in this try of a bundle: while it is frozen on WAITTL its accesses are still to come, and with them what they
may meet from translation on (R338). -/
def Issue.faultsNow (i : Issue) : List Fault1 :=
  if i.hold = some .waittl then i.faults.filter fun f => !((f.slot == 3 || f.slot == 4) && decide (5 ≤ f.rank)) else i.faults

/-- What becomes of a bundle whose slots have run: a fault nullifies it, else a hold freezes it, else it commits (R45, R52). -/
def State.finishIssue (s0 s : State) (c : CoreId) : State :=
  match worstFault s.iss.faultsNow with
  | some f => s0.nullify s c f
  | none =>
    match s.iss.hold with
    | some w => s0.holdBundle s c w
    | none => { s0.afterCommit (s0.launched (s.commitCore c) c) c with iss := {} }

/-- A fault of decode (R90, R91). -/
def decodeTrap (r : DecodeReport) : Fault1 :=
  { rank := 2, slot := if r.slot = headerSlot then recHeader else r.slot
    cause := match r.kind with | .illegalBundle => 0x01 | .illegalInstruction => 0x02
    detail := 0 }

/-- The watchdog stands at its limit and the bundle at the pc carries no marker (R374). -/
def Core.watchdogDue (k : Core) : Bool := decide (65536 ≤ k.wdog) && !k.markedNext

/-- The watchdog trap (R374). -/
def State.watchdogTrap (s : State) (c : CoreId) : State :=
  s.trapCore c (s.trapRec c 0x0A 0 15 ((((s.core c).fetchWord (s.core c).pc)).getLsbD 18) 0 0 0) true

/-- Issue the bundle at a core's pc. -/
def State.issue (run : Instr → State → Res) (s : State) (c : CoreId) : Res :=
  let k := s.core c
  if k.watchdogDue then .next (s.watchdogTrap c)
  else
    match decodeBundle k.fetchWord k.pc with
    | .error r =>
      .next (s.nullify { s with iss := { escr := (k.fetchWord k.pc).getLsbD 18 } } c (decodeTrap r))
    | .ok b =>
      if k.settling && (!b.slots.isEmpty || b.opsel.isSome) then .next (s.freeze c .settle recHeader)
      else
        let s1 := s.startIssue c b
        let s2 := { s1 with iss := { s1.iss with faults := s1.schedule b } }
        match runSlots run (bundleWork b) s2 with
        | .next t => .next (s.finishIssue t c)
        | .fault f => .fault f
        | .refused r => .refused r

/-- One turn of a core that runs a task: a freeze for late data, a bubble tick, a tick or a freeze of WAIT, or the issue of a
bundle. -/
def State.tickCore (run : Instr → State → Res) (s : State) (c : CoreId) : Res :=
  let k := s.core c
  if k.awaitsData then .next (s.freeze c .late 15)
  else if k.bubble ≠ 0 then .next (s.modCore c fun k => { (k.levelled c).idleTick with bubble := k.bubble - 1, wait := none })
  else match k.waitc with
    | none => s.issue run c
    | some w =>
      if !k.waitTickMet w then .next (s.modCore c fun k => { (k.levelled c).idleTick with wait := none })
      else if !k.waitFreezeMet w then .next (s.freeze c .wait ctlSlot)
      else (s.modCore c fun k => { k with waitc := none }).issue run c

end Sys2Proof.Machine
end

