-- ==== Sys2Proof/Machine/RegWrite.lean ====
section
/-! DEFINITION. Writes to configuration space: what each register does when it is written (chapters 9, 12 to 15 and 17 to 21),
and the writes of instruction sides and of supervisors' local memories (R451). Each register's effect is a definition of its
own; `State.regSet` finds it by its address. -/

namespace Sys2Proof.Machine

/-! ## The writers -/

/-- A supervisor core's master ID (R436). -/
def supMid (h : ChaseId) : Nat := 0x060 + h.val

/-- The master ID is a supervisor core's. -/
def isSup (mid : Nat) : Bool := decide (0x060 ≤ mid) && decide (mid ≤ 0x06B)

/-- A write that only supervisors may make, as Make-ready; another master's changes nothing and logs a configuration error (log entry
18). -/
def State.bySup (s : State) (mid : Nat) (f : State → State) : State := if isSup mid then f s else s.cfgError mid

/-- A master ID that some master has (R436). -/
def isMaster (mid : Nat) : Bool :=
  decide (mid < 0x078) || (decide (0x080 ≤ mid) && decide (mid ≤ 0x0E0)) || (decide (0x0E4 ≤ mid) && decide (mid ≤ 0x0F1)) ||
    decide (0x100 ≤ mid)

/-- A bit field of a word that must be zero is zero. -/
def zeroBits (w : Word) (hi lo : Nat) : Bool := bits w hi lo == 0

/-- The address of a register of a partition's block (R250). -/
def partReg (q : PartId) (o : Nat) : Nat := configBase + 0x200000 + 0x1000 * q.val + o

/-! ## Translation (R255, R259) -/

/-- A write of XLINV is refused: scope 11, a partition of 24 or more, or a reserved field not zero. -/
def xlinvBad (v : Word) : Bool := bits v 1 0 == 3 || decide (24 ≤ bits v 11 7) || !zeroBits v 6 2

/-- An entry is one of those that a write of XLINV drops. -/
def xlinvHits (v : Word) (e : TlbEnt) : Bool :=
  match bits v 1 0 with
  | 0 => e.part == bits v 11 7
  | 1 => e.part == bits v 11 7 && decide (e.vbase ≤ bits v 63 12 * 4096) && decide (bits v 63 12 * 4096 < e.vbase + e.size)
  | _ => true

/-- Begin an invalidation: the matching entries of every TLB are dropped, and busy is set until XLINV_COMPLETE. -/
def State.xlinvStart (s : State) (h : ChaseId) (v : Word) : State :=
  let s1 := s.setChase h { s.chase h with xlbusy := true }
  { s1 with
    cores := s1.cores.map fun k => { k with tlb := k.tlb.filter fun e => !xlinvHits v e }
    chases := s1.chases.map fun k => { k with tlb2 := k.tlb2.filter fun e => !xlinvHits v e } }

/-- A write of XLINV (R255): one made while busy is 1 waits. -/
def State.xlinv (s : State) (h : ChaseId) (mid : Nat) (v : Word) : State :=
  if xlinvBad v then s.cfgError mid
  else if (s.chase h).xlbusy then { s with xlwait := s.xlwait ++ [(h, v)] }
  else s.xlinvStart h v

/-- A stopped copy restarts at its progress index. -/
def CopyCmd.restart (x : CopyCmd) : CopyCmd := { x with stopped := false }

/-- The first command of a list restarts. -/
def restartHead : List CopyCmd → List CopyCmd
  | [] => []
  | x :: xs => x.restart :: xs

/-- The core that a write of CXRES of chase `h` names, when the write is allowed (R259). -/
def State.cxresCore (s : State) (h : ChaseId) (v : Word) : Option CoreId :=
  let n := bits v 9 3
  if hn : n < 96 then
    let c : CoreId := ⟨n, hn⟩
    let k := s.core c
    let ok :=
      if v.getLsbD 2 then zeroBits v 1 0 && k.resStop
      else match (k.cx.toList.getD (bits v 1 0) {}).cmds with | x :: _ => x.stopped | [] => false
    if chaseOf c = h ∧ ok then some c else none
  else none

/-- A write of CXRES (R259). -/
def State.cxres (s : State) (h : ChaseId) (mid : Nat) (v : Word) : State :=
  match s.cxresCore h v with
  | none => s.cfgError mid
  | some c =>
    if v.getLsbD 2 then s.modCore c fun k => { k with resStop := false, resLeft := restartHead k.resLeft }
    else
      let i : CtxId := BitVec.toFin (BitVec.ofNat 2 (bits v 1 0))
      s.modCore c fun k => k.setCtx i { k.ctx i with cmds := restartHead (k.ctx i).cmds }

/-! ## Striping windows (R314, R315) -/

/-- The address of a window's descriptor. -/
def stripeReg (w n : Nat) : Nat := configBase + 0x100000 + 32 * w + 8 * n

/-- The bytes of an element size code. -/
def esizeBytes : Nat → Nat
  | 4 => 3
  | n => 2 ^ n

/-- The fields of a descriptor allow v to be set; `top` is the last engine index of the part (R315). -/
def Stripe.ok (d : Stripe) (top : Nat) : Bool :=
  let esize := bits d.w0 47 44
  let rowb := bits d.w0 43 32
  let rpc := bits d.w0 31 16
  let e0 := bits d.w1 41 32
  let count := bits d.w1 26 16
  let step := bits d.w1 9 0
  let nrows := bits d.w2 31 0
  decide (esize ≤ 4) && decide (1 ≤ rowb) && decide (rowb ≤ 64) && decide (1 ≤ rpc) && decide (1 ≤ count) &&
    decide (count ≤ 1024) && decide (1 ≤ step) && decide (1 ≤ nrows) && decide (64 * rowb % esizeBytes esize = 0) &&
    decide (e0 + (count - 1) * step ≤ top) && decide (nrows * 64 * rowb ≤ 2 ^ 32) &&
    decide (bits d.w2 49 32 + d.ct * cdiv nrows (rpc * count) ≤ 2 ^ 18)

/-- Set v to 1 (R315). -/
def State.stripeOn (s : State) (w : Nat) (mid : Nat) (v : Word) : State :=
  let d : Stripe := sget {} s.stripes w
  let d1 := { d with w0 := v &&& w0Mask }
  if d.valid || !d1.ok (if s.half then 511 else 1023) then s.cfgError mid else { s with stripes := sset {} s.stripes w d1 }

/-- Write W0 with v = 0: teardown begins when v was 1; the fields of a valid window stay until v reads 0 (R315). -/
def State.stripeOff (s : State) (w : Nat) (v : Word) : State :=
  let d : Stripe := sget {} s.stripes w
  let d1 : Stripe := if d.valid then { d with pend := some (v &&& w0Mask) } else { d with w0 := v &&& w0Mask }
  { s with stripes := sset {} s.stripes w d1 }

/-- Write W0: Make-ready alone does (R314). -/
def State.stripeW0 (s : State) (w mid : Nat) (v : Word) : State :=
  s.bySup mid fun s => if v.getLsbD 63 then s.stripeOn w mid v else s.stripeOff w v

/-- Write W1 or W2: refused while v is 1 (R315), and to any but Make-ready (R314). -/
def State.stripeW12 (s : State) (w mid : Nat) (second : Bool) (v : Word) : State :=
  let d : Stripe := sget {} s.stripes w
  let d1 : Stripe := if second then { d with w2 := v &&& w2Mask } else { d with w1 := v &&& w1Mask }
  if d.valid || !isSup mid then s.cfgError mid else { s with stripes := sset {} s.stripes w d1 }

/-- A linear address lies under a window: some byte of the window is imposed on it (R316). -/
def Stripe.holds (d : Stripe) (a : Nat) : Bool :=
  let rb := 64 * bits d.w0 43 32
  let rpc := bits d.w0 31 16
  let count := bits d.w1 26 16
  let step := bits d.w1 9 0
  let e := linearEngine a
  let e0 := bits d.w1 41 32
  let L := linearLocal a
  let base := bits d.w2 49 32 * 4096
  if !d.valid || rb = 0 || rpc = 0 || count = 0 || step = 0 || e < e0 || L < base then false
  else
    let off := (L - base) % (d.ct * 4096)
    let g := (L - base) / (d.ct * 4096) * count + (e - e0) / step
    (e - e0) % step == 0 && decide ((e - e0) / step < count) && decide (off < rpc * rb) &&
      decide (g * rpc + off / rb < bits d.w2 31 0)

/-- STRIPE_TEARDOWN_COMPLETE: the host holds no line under the window, v reads 0, and the window has no target (R315). -/
def State.stripeDone (s : State) (w : Nat) : State :=
  let d : Stripe := sget {} s.stripes w
  match d.pend with
  | none => s
  | some x =>
    let d1 : Stripe := { d with w0 := x, pend := none }
    if s.hostLines.any fun l => d.holds (64 * l) then s else { s with stripes := sset {} s.stripes w d1 }

/-! ## Control stores (R298) -/

/-- A call that some engine of a channel, whose engines are a group, has not ended: it is in progress there, or queued (R298; log
entry 92). -/
def State.groupBusy (s : State) (e : Nat) : Bool :=
  s.cores.toList.any fun k => k.gx.cmds.any fun x => (match x.kind with | .call .. => true | _ => false) &&
    x.grp.engines.any fun f => engineChan f == engineChan e && !x.ends.any fun y => y.j == x.grp.indexOf f

/-- An open region holds a tile of the channel of an engine. -/
def State.groupOpen (s : State) (e : Nat) : Bool :=
  let has (r : Nat × Nat) : Bool :=
    (List.range (r.2 / 64)).any fun i => match s.linearOf (r.1 + 64 * i) with
      | some a => engineChan (linearEngine a) == engineChan e
      | none => false
  s.cores.toList.any (fun k => k.gx.regions.any has) || s.tasks.any fun t => t.2.regions.any has

/-- The engine's stack is populated (R2, R18). -/
def State.hasEngine (s : State) (e : Nat) : Bool := decide (e < if s.half then 512 else 1024)

/-- Change what a control store holds, as Make-ready: only while the engine group has no call in progress or queued and no open region
(R298). The groups of a stack that is not populated are fused off (R2). -/
def State.inStore (s : State) (mid e : Nat) (f : Engine → Engine) : State :=
  if !isSup mid || s.groupBusy e || s.groupOpen e then s.cfgError mid
  else if s.hasEngine e then s.setEngine e (f (s.engine e)) else s

/-- Write a micro-word (R298). -/
def State.controlStore (s : State) (e : Nat) (i : Nat) (w : BitVec 128) : State :=
  s.inStore (supMid 0) e fun x => { x with control := sset 0 x.control i w }

/-- Write an entry of the entry table: bit 8 says whether the entry has a micro-address, which bits [7:0] give (R297, R298; log entry
92). -/
def State.entryStore (s : State) (mid e n : Nat) (v : Word) : State :=
  s.inStore mid e fun x => { x with
    entries := x.entries.filter (fun y => y.1 != n) ++ (if v.getLsbD 8 then [(n, v.setWidth 8)] else []) }

/-! ## The host port (R340, R341) -/

/-- Write the register of a virtual function's partition: one partition, with at most 4 functions each (R341, R435; log entry 94). -/
def State.setFuncPart (s : State) (mid : Nat) (f : FuncId) (v : Word) : State :=
  s.bySup mid fun s =>
    if !v.getLsbD 63 then s.setFunc f { s.func f with part := none }
    else if h : bits v 4 0 < 24 then
      let q : PartId := ⟨bits v 4 0, h⟩
      let others := s.funcs.filter fun x => x.1 != f.val && x.2.part == some q
      if f.val = 0 ∨ 4 ≤ others.length then s.cfgError mid else s.setFunc f { s.func f with part := some q }
    else s.cfgError mid

/-- Make-ready raises the fused minimum security version; it never falls (R452; log entry 94). -/
def State.raiseMin (s : State) (mid : Nat) (v : Word) : State := s.bySup mid fun s => { s with secMin := max s.secMin v.toNat }

/-- The device addresses that a decoder may map: the linear view and the striping windows (R340), and the 4 KiB that hold SLPCTL
(R429). -/
def Hdm.ok (d : Hdm) : Bool :=
  decide (d.da + d.len ≤ 0x0200_0000_0000) ||
    (decide (configBase + 0x300000 ≤ d.da) && decide (d.da + d.len ≤ configBase + 0x301000))

/-- Write a register of an HDM decoder: Make-ready alone does (R340, R341; log entry 94). -/
def State.setHdm (s : State) (mid : Nat) (i : Fin 8) (n : Nat) (v : Word) : State :=
  s.bySup mid fun s =>
    let d := s.hdm.get i
    let d1 : Hdm := match n with
      | 0 => { d with hpa := v }
      | 1 => { d with da := bits v 47 0 }
      | _ => { d with v := v.getLsbD 63, len := bits v 47 0 }
    if d1.v && !d1.ok then s.cfgError mid else { s with hdm := s.hdm.set i.val d1 i.isLt }

/-! ## Frisket tables (R438) -/

/-- The address of a window word. -/
def friskReg (t mid n : Nat) : Nat := configBase + 0x1000000 + 0x100000 * t + 64 * mid + 8 * n

/-- A window of processing memory reaches stacks that are not populated (R2). -/
def State.friskAbsent (s : State) (t mid : Nat) (w : Word) : Bool :=
  s.half && (t == 0 || t == 1 || (t == 2 && mid == 0x0F0)) &&
    decide (bits w 25 0 * friskUnit w < Config.linearBytes ∧ s.memTop < (bits w 52 27 + 1) * friskUnit w)

/-- A window word may not be stored in an entry of a target (R438). -/
def State.friskBad (s : State) (t mid : Nat) (w : Word) : Bool :=
  s.friskAbsent t mid w ||
  decide (bits w 52 27 < bits w 25 0) || bits w 54 53 == 3 || w.getLsbD 26 ||
    (windowPaging w && (t != 2 || mid != 0x0F0 || decide (s.memTop < (bits w 52 27 + 1) * friskUnit w)))

/-- Write a window word (R438, R440), which then can be read again (R474). -/
def State.friskSet (s : State) (writer t mid n : Nat) (w : Word) : State :=
  if s.friskBad t mid w || !isSup writer then s.cfgError writer
  else { s with
    friskets := sset 0 s.friskets (friskKey t mid n) w, lostWords := s.lostWords.filter (· != friskKey t mid n) }

/-! ## Partitions' registers -/

/-- A write of PCORE0 or PCORE1 that gives a core to two partitions, or names a retired core (R376). -/
def State.pcoreBad (s : State) (q : PartId) (m : BitVec 96) : Bool :=
  (List.finRange 96).any fun c => m.getLsbD c.val &&
    ((s.core c).st == .lost || (List.finRange 24).any fun r => r != q && (s.part r).pcore.getLsbD c.val)

/-- The task that runs on a core that its partition has lost is pre-empted; one that a trap holds is to be, once it runs again (R376). -/
def Core.removed (k : Core) : Core :=
  match k.st with
  | .running | .trapping | .held => { k with preq := true }
  | _ => k

/-- Write SLKTGT: without the loop the voltage is the nominal one (R428). -/
def Core.setSlktgt (k : Core) (v : Word) : Core :=
  { k with
    slktgtEn := v.getLsbD 8, slktgt := v.setWidth 8
    vtrim := if v.getLsbD 8 then k.vtrim else BitVec.ofNat 10 (nominalMv k.eff) }

/-- A free core's effective point under a cap; a running one's (R423). -/
def Core.capTo (k : Core) (cap : BitVec 3) : Core :=
  let e := if k.task.isSome then effPoint k.opc cap else effPoint k.eff cap
  { k.setEff e with settling := k.settling || (e != k.eff && k.task.isSome) }

/-- Write PCORE0 or PCORE1 (R376). The tasks that had no core to go to are then assigned to a chase (R511). -/
def State.pcore (s : State) (q : PartId) (mid : Nat) (hi : Bool) (v : Word) : State :=
  let old := (s.part q).pcore
  let m : BitVec 96 := if hi then v.setWidth 32 ++ old.extractLsb' 0 64 else old.extractLsb' 64 32 ++ v
  if s.pcoreBad q m then s.cfgError mid
  else
    let s1 := s.modPart q fun p => { p with pcore := m }
    (List.finRange 96).foldl (fun s c =>
      if old.getLsbD c.val && !m.getLsbD c.val && (s.core c).home == some q then s.modCore c Core.removed
      else if !old.getLsbD c.val && m.getLsbD c.val then s.modCore c fun k => k.capTo (s.part q).opcap
      else s) s1

/-- Write PSCH: a zero tpre or tage is refused (R370). -/
def State.psch (s : State) (q : PartId) (mid : Nat) (v : Word) : State :=
  if bits v 31 22 = 0 ∨ bits v 21 12 = 0 then s.cfgError mid
  else s.modPart q fun p => { p with psch := v &&& 0xFFFFF007 }

/-- Write OPCAP: the effective points of the partition's cores follow (R423). -/
def State.setCap (s : State) (q : PartId) (v : Word) : State :=
  let cap : BitVec 3 := v.setWidth 3
  let s1 := s.modPart q fun p => { p with opcap := cap }
  (List.finRange 96).foldl (fun s c => if s.partOf c = some q then s.modCore c fun k => k.capTo cap else s) s1

/-- A value of 11 in an owner register acts as 10 and logs a configuration error once per write (R449). -/
def ownBad (v : BitVec 18) : Bool := (List.range 9).any fun i => v.extractLsb' (2 * i) 2 == 3#2

/-- Write PEVOWN: only by a supervisor (R449). -/
def State.setPevown (s : State) (q : PartId) (mid : Nat) (v : Word) : State :=
  if !isSup mid then s.cfgError mid
  else
    let s1 := s.modPart q fun p => { p with pevown := v.setWidth 18 }
    if ownBad (v.setWidth 18) then s1.cfgError mid else s1

/-- Write DEVOWN (R449). -/
def State.setDevown (s : State) (mid : Nat) (v : Word) : State :=
  if !isSup mid then s.cfgError mid
  else
    let s1 := { s with devown := v.setWidth 18 }
    if ownBad (v.setWidth 18) then s1.cfgError mid else s1

/-- Write STALL: 0 is refused (R375). -/
def State.setStall (s : State) (q : PartId) (mid : Nat) (v : Word) : State :=
  if zeroBits v 15 0 then s.cfgError mid else s.modPart q fun p => { p with stall := v.setWidth 16 }

/-- A core is frozen on MASKW for a condition that a mask sequence register now meets, and has no answer yet (R393). -/
def State.maskMet (s : State) (q : PartId) (m : Fin 16) (c : CoreId) : Bool :=
  s.partOf c == some q &&
    match (s.core c).wait, (s.core c).req, (s.core c).ans with
    | some .maskw, some (.maskw n x), none => n == m.val && decide (x.toNat ≤ ((s.part q).mseq.get m).toNat)
    | _, _, _ => false

/-- Write a mask sequence register (R394): a core frozen on MASKW whose condition holds with it receives its flag (R393, R398). -/
def State.setMseq (s : State) (q : PartId) (m : Fin 16) (v : Word) : State :=
  let s1 := s.modPart q fun p => { p with mseq := p.mseq.set m.val (v.setWidth 32) m.isLt }
  s1.answer ((List.finRange 96).filter (s1.maskMet q m)) true

/-- Write a graph parameter register (R399, R400). -/
def State.setGp (s : State) (q : PartId) (n : BitVec 6) (v : Word) : State :=
  s.modPart q fun p => { p with gp := p.gp.set n.toNat v n.isLt }

/-- Write HBUD: a budget of 0 is refused (R397, R401). -/
def State.setBud (s : State) (q : PartId) (mid : Nat) (v : Word) : State :=
  if zeroBits v 15 0 then s.cfgError mid else s.modPart q fun p => { p with bud := v.setWidth 16 }

/-! ## Cancels (R364) -/

/-- The launches of a graph that a cancel of one launch takes in, after `n` rounds: dependants, and child launches of the tasks
of those. -/
def launchScope (ls : List Launch) (lix : Nat) : Nat → List Nat
  | 0 => [lix]
  | n + 1 =>
    let sc := launchScope ls lix n
    (List.range ls.length).filter fun i =>
      sc.contains i ||
        match ls[i]? with
        | some x => (List.range 64).any (fun m => x.preds.getLsbD m && sc.contains m) ||
            (match x.plix with | some m => sc.contains m | none => false)
        | none => false

/-- The launch of a job is one that a cancel of launch `lix` of graph `gix` takes in. -/
def Job.inScope (j : Job) (gix lix : Nat) : Nat → Nat → Bool :=
  let ls := j.graphs.getD gix []
  let sc := launchScope ls lix ls.length
  fun g l => g == gix && sc.contains l

/-- Something of a job in a scope is not complete. -/
def Job.scopeOpen (j : Job) (sel : Nat → Nat → Bool) : Bool :=
  j.graphs.zipIdx.any fun g => g.1.zipIdx.any fun l => sel g.2 l.2 && !l.1.isOver

/-- A cancel, which changes nothing when it finds its scope complete (R364, R365). -/
def State.cancel (s : State) (q : PartId) (j : Fin 16) (whole : Bool) (sel : Nat → Nat → Bool) : State :=
  if (s.job q j).scopeOpen sel then
    (((s.modJob q j fun x => { x with cancelling := x.cancelling || whole }).cancelScope q j sel).advance q j).regionsClosed s
  else s

/-- Cancel a job by JCAN. -/
def State.cancelJob (s : State) (q : PartId) (mid : Nat) (j : Fin 16) : State :=
  if (s.job q j).live then s.cancel q j true fun _ _ => true else s.cfgError mid

/-- Cancel a graph by JCAN. -/
def State.cancelGraph (s : State) (q : PartId) (mid : Nat) (j : Fin 16) (gix : Nat) : State :=
  if (s.job q j).live && !((s.job q j).graphs.getD gix []).isEmpty then s.cancel q j false fun g _ => g == gix
  else s.cfgError mid

/-- Cancel a launch, its dependants and their children by JCAN. -/
def State.cancelLaunch (s : State) (q : PartId) (mid : Nat) (j : Fin 16) (gix lix : Nat) : State :=
  if (s.job q j).live && decide (lix < ((s.job q j).graphs.getD gix []).length) then
    s.cancel q j false ((s.job q j).inScope gix lix)
  else s.cfgError mid

/-- Write JCAN (R364). -/
def State.jcan (s : State) (q : PartId) (mid : Nat) (v : Word) : State :=
  let j : Fin 16 := BitVec.toFin (BitVec.ofNat 4 (bits v 11 8))
  if !zeroBits v 63 24 || !zeroBits v 15 12 || !zeroBits v 7 2 then s.cfgError mid
  else match bits v 1 0 with
    | 0 => s.cancelJob q mid j
    | 1 => s.cancelGraph q mid j (bits v 17 16)
    | 2 => s.cancelLaunch q mid j (bits v 17 16) (bits v 23 18)
    | _ => s.cfgError mid

/-! ## Sleep (R429, R432) -/

/-- A sleep request: ignored unless the device runs or wakes; while it wakes it takes effect at the end of the wake. Every running task is to
be pre-empted (R430). -/
def State.sleepAsk (s : State) : State :=
  match s.slp with
  | .running => { s with slp := .entering, cores := s.cores.map fun k => if k.st = .running then { k with preq := true } else k }
  | .waking => { s with slpNext := true }
  | _ => s

/-- A wake request: one made while the device enters sleep takes effect when it is asleep. -/
def State.wakeAsk (s : State) : State :=
  match s.slp with
  | .asleep => { s with slp := .waking }
  | .entering => { s with slpNext := true }
  | _ => s

/-- The device takes accesses from outside: it does not sleep, and does not wake (R431). -/
def State.awake (s : State) : Bool :=
  match s.slp with
  | .running | .entering => true
  | _ => false

/-- Hold an access of the host that arrives in sleep; `wakes` says whether it starts a wake (R431). -/
def State.holdHost (s : State) (i : HostAcc) (wakes : Bool) : State :=
  { (if wakes then s.wakeAsk else s) with hostHeld := s.hostHeld ++ [i] }

/-- The master ID is one of the host's functions (R436). -/
def isHost (mid : Nat) : Bool := decide (0x080 ≤ mid) && decide (mid ≤ 0x0E0)

/-- Write SLPCTL. -/
def State.slpctl (s : State) (v : Word) : State :=
  let s1 := if v.getLsbD 2 then s.sleepAsk else s
  if v.getLsbD 3 then s1.wakeAsk else s1

/-! ## Keys (R446 to R448) -/

/-- Replace a key slot. -/
def State.setKey (s : State) (k : KeySlotId) (x : KeySlot) : State := { s with keys := s.keys.set k.val x k.isLt }

/-- The address of KCMD. -/
def kcmdReg : Nat := configBase + 0x500000

/-- New: an empty slot gets generation 0 and a fresh key. -/
def State.keyFresh (s : State) (mid : Nat) (k : KeySlotId) : State :=
  let x := s.keys.get k
  if x.key.isSome then s.cfgError mid
  else { (s.setKey k { x with key := some s.nextKey, prev := none, gen := 0 }) with nextKey := s.nextKey + 1 }

/-- Advance: the current key becomes the previous one, and a fresh key the current one. -/
def State.keyNext (s : State) (mid : Nat) (k : KeySlotId) : State :=
  let x := s.keys.get k
  if x.prev.isSome then s.cfgError mid
  else { (s.setKey k { x with key := some s.nextKey, prev := x.key, gen := x.gen + 1 }) with nextKey := s.nextKey + 1 }

/-- What a re-key does with a listed tile (R448): the state, and whether it is done, failed or left. -/
def State.rekeyTile (s : State) (k : KeySlotId) (t : Nat) : State × Option Bool :=
  let x := s.keys.get k
  let r := s.tileRec t
  if r.keygen = x.gen then (s, none)
  else if r.keygen ≠ x.gen - 1 then (s, some false)
  else
    let ok := match r.sl, x.prev with
      | .sealed i, some p => i == p && r.sealPois == r.poison && r.sealEsc == r.esc
      | .raw g, some p => s.rawTag t p == g
      | _, _ => false
    if ok then
      let s1 := (s.unraw k.val t).dropStale t
      (s1.setRec t { s1.tileRec t with
        sl := match x.key with | some i => .sealed i | none => .unsealed
        version := 0, keygen := x.gen, sealPois := (s1.tileRec t).poison, sealEsc := (s1.tileRec t).esc }, some true)
    else (s, some false)

/-- Re-key the listed tiles of a range: the state and the counts done and failed. -/
def State.rekeyTiles (s : State) (k : KeySlotId) : List Nat → State × Nat × Nat
  | [] => (s, 0, 0)
  | t :: ts =>
    let (s1, r) := s.rekeyTile k t
    let (s2, d, f) := s1.rekeyTiles k ts
    match r with
    | none => (s2, d, f)
    | some true => (s2, d + 1, f)
    | some false => (s2, d, f + 1)

/-- REKEY_COMPLETE: the whole range has been visited (R448). A tile that no seal operation has written fails unless it is of the
current generation. -/
def State.rekeyEnd (s : State) (k : KeySlotId) : State :=
  let x := s.keys.get k
  if !x.busy then s
  else
    let hi := min (x.rbase + x.rlen) (s.memTop / 4096)
    let listed := (s.recs.map (·.1)).filter fun t => decide (x.rbase ≤ t) && decide (t < hi)
    let (s1, d, f) := s.rekeyTiles k listed
    let rest := if x.gen = 0 then 0 else (hi - x.rbase) - listed.length
    s1.setKey k { x with busy := false, done := BitVec.ofNat 24 d, fails := BitVec.ofNat 24 (f + rest) }

/-- Re-key a range: it begins. One that is in progress visits the rest of its range first (R448). -/
def State.rekeyStart (s : State) (mid : Nat) (k : KeySlotId) (n : Nat) : State :=
  let x := s.keys.get k
  if x.prev.isNone then s.cfgError mid
  else (s.rekeyEnd k).setKey k { x with busy := true, done := 0, fails := 0, rbase := bits s.krbase 47 12, rlen := n }

/-- Retire the previous key. -/
def State.keyDrop (s : State) (mid : Nat) (k : KeySlotId) : State :=
  let x := s.keys.get k
  if x.prev.isSome && x.busy then s.cfgError mid else s.setKey k { x with prev := none }

/-- Erase the slot, which rewrites the state that an error has made unreadable (R474). -/
def State.keyWipe (s : State) (mid : Nat) (k : KeySlotId) : State :=
  let x := s.keys.get k
  if x.busy then s.cfgError mid
  else { s.setKey k { x with key := none, prev := none } with lostKeys := s.lostKeys.filter (· != k.val) }

/-- Write KCMD (R447). -/
def State.kcmd (s : State) (mid : Nat) (v : Word) : State :=
  let k : KeySlotId := BitVec.toFin (BitVec.ofNat 5 (bits v 8 4))
  if !isSup mid || !zeroBits v 63 36 || !zeroBits v 11 9 || v.getLsbD 3 then s.cfgError mid
  else match bits v 2 0 with
    | 0 => s
    | 1 => s.keyFresh mid k
    | 2 => s.keyNext mid k
    | 3 => s.rekeyStart mid k (bits v 35 12)
    | 4 => s.keyDrop mid k
    | 5 => s.keyWipe mid k
    | _ => s.cfgError mid

/-! ## Events, traps and rings (R450, R467, R470) -/

/-- Write EVACK: the event of that number is the supervisor's, if its deadline has not come first (R450). -/
def State.evack (s : State) (h : ChaseId) (seq : Word32) : State :=
  { s with unacked := s.unacked.filter fun x => !(x.1 == h && x.2.seq == seq) }

/-- The deadline of an event: it passes to the host, with an MSI-X message of the physical function (R450, R469). -/
def State.evDeadline (s : State) (seq : Word32) : State :=
  match s.unacked.find? fun x => x.2.seq == seq with
  | none => s
  | some x =>
    let s1 : State := { s with unacked := s.unacked.filter fun y => y.2.seq != seq }
    ({ s1 with msix := s1.msix + 1 } : State).post .device x.2

/-- Write EVDL: 0 is refused (R450). -/
def State.setEvdl (s : State) (mid : Nat) (v : Word) : State :=
  if zeroBits v 15 0 then s.cfgError mid else { s with evdl := v.setWidth 16 }

/-- The address of a core's TRCTL. -/
def trctlReg (c : CoreId) : Nat := configBase + 0x700008 + 0x100 * c.val

/-- A write of TRCTL is refused: nothing is held, or a resume or a save of a deferred data trap (R467, R468). -/
def Core.trctlBad (k : Core) (act : Nat) : Bool :=
  k.held.isNone || k.st != .held || act == 3 || (act != 2 && k.trcause == 0x08)

/-- TRCTL := 00, resume on this core (R467, R472). -/
def State.trResume (s : State) (mid : Nat) (c : CoreId) : State :=
  if (s.core c).trctlBad 0 then s.cfgError mid else s.resumeTrap c

/-- TRCTL := 01, save: the core waits for its engine commands, and PREEMPT then writes the full image (R467). -/
def State.trSave (s : State) (mid : Nat) (c : CoreId) : State :=
  if (s.core c).trctlBad 1 then s.cfgError mid
  else s.modCore c fun k => { k with
    st := .preempting, preq := false, wdog := if k.trcause = 0x0A then 0 else k.wdog }

/-- End the task of a core as failed: its engine commands settle as for a cancellation, and its job fails (R339, R363). -/
def State.failHere (s : State) (c : CoreId) (cause : BitVec 8) : State :=
  let i := (s.core c).task
  let s1 := s.settleCore c
  match i with
  | some i => s1.finishTask i (.failed cause)
  | none => s1

/-- TRCTL := 10, end as Failed (R467). -/
def State.trEnd (s : State) (mid : Nat) (c : CoreId) : State :=
  if (s.core c).trctlBad 2 then s.cfgError mid else s.failHere c (s.core c).trcause

/-- Write TRCTL. -/
def State.trctl (s : State) (mid : Nat) (c : CoreId) (v : Word) : State :=
  match bits v 1 0 with
  | 0 => s.trResume mid c
  | 1 => s.trSave mid c
  | 2 => s.trEnd mid c
  | _ => s.cfgError mid

/-- The address of a ring's RGIDX. -/
def rgidxReg : RingId → Nat
  | .device => configBase + 0x600208
  | .chase c => configBase + 0x600408 + 0x40 * c.val

/-- Write RGIDX: a rix beyond wix is refused; else pending records enter (R469, R470). -/
def State.setRgidx (s : State) (i : RingId) (mid : Nat) (v : Word) : State :=
  let r := s.ring i
  let x : BitVec 24 := v.setWidth 24
  if (r.wix - r.rix).ult (x - r.rix) then s.cfgError mid
  else (s.setRing i { r with rix := x, ovf := r.ovf && !v.getLsbD 63 }).ringDrain i r.pend.length

/-- Write RGBASE: lsz 13 to 15 is refused (R469). -/
def State.setRgbase (s : State) (i : RingId) (mid : Nat) (v : Word) : State :=
  if 13 ≤ bits v 3 0 then s.cfgError mid
  else s.setRing i { s.ring i with base := bits v 47 12 * 4096, lsz := v.setWidth 4 }

/-! ## The register file of configuration space -/

/-- A chase number in range. -/
def chaseId (n : Nat) : ChaseId := ⟨n % 12, Nat.mod_lt _ (by decide)⟩

/-- A partition number in range. -/
def partId (n : Nat) : PartId := ⟨n % 24, Nat.mod_lt _ (by decide)⟩

/-- A core number in range. -/
def coreId (n : Nat) : CoreId := ⟨n % 96, Nat.mod_lt _ (by decide)⟩

/-- A write in a partition's scheduler block. -/
def State.partSet (s : State) (q : PartId) (mid o : Nat) (v : Word) : State :=
  if o = 0x000 then s.pcore q mid false v
  else if o = 0x008 then s.pcore q mid true v
  else if o = 0x010 then s.psch q mid v
  else if o = 0x018 then s.setCap q v
  else if o = 0x020 then s.modPart q fun p => { p with gtab := v &&& 0x0000FFFFFFFFFFFF }
  else if o = 0x028 then s.bySup mid fun s => s.modPart q fun p => { p with ptroot := v &&& 0x0000FFFFFFFFF000 }
  else if o = 0x030 then s.setPevown q mid v
  else if o = 0x040 then s.modPart q fun p => { p with ctxa := v &&& 0x0000FFFFFFE00FFF }
  else if o = 0x048 then s.setStall q mid v
  else if o = 0x080 then s.jcan q mid v
  else if 0x200 ≤ o ∧ o < 0x280 then s.bySup mid fun s => s.setMseq q (BitVec.toFin (BitVec.ofNat 4 ((o - 0x200) / 8))) v
  else if o = 0x280 then s.bySup mid fun s => s.setBud q mid v
  else if 0x400 ≤ o ∧ o < 0x600 then s.bySup mid fun s => s.setGp q (BitVec.ofNat 6 ((o - 0x400) / 8)) v
  else s

/-- A function number in range. -/
def funcId (n : Nat) : FuncId := ⟨n % 97, Nat.mod_lt _ (by decide)⟩

/-- A write of the 64-bit register at an 8-aligned offset of configuration space; where no register lies, and of a read-only
one, it is ignored (R10, R11; log entry 18). -/
def State.regSet (s : State) (mid o : Nat) (v : Word) : State :=
  if 0x100000 ≤ o ∧ o < 0x102000 then
    let w := (o - 0x100000) / 32
    match o / 8 % 4 with
    | 0 => s.stripeW0 w mid v
    | 1 => s.stripeW12 w mid false v
    | 2 => s.stripeW12 w mid true v
    | _ => s
  else if 0x200000 ≤ o ∧ o < 0x218000 then s.partSet (partId ((o - 0x200000) / 0x1000)) mid (o % 0x1000) v
  else if o = 0x300000 then s.slpctl v
  else if 0x400000 ≤ o ∧ o < 0x406000 then
    if o % 0x100 = 8 then
      s.modCore (coreId ((o - 0x400000) / 0x100)) fun k => k.setSlktgt v
    else s
  else if o = 0x500000 then s.kcmd mid v
  else if o = 0x500008 then { s with krbase := v &&& 0x0000FFFFFFFFF000 }
  else if o = 0x600000 then s.setDevown mid v
  else if o = 0x600008 then s.setEvdl mid v
  else if 0x600100 ≤ o ∧ o < 0x600160 then s.evack (chaseId ((o - 0x600100) / 8)) (v.setWidth 32)
  else if o = 0x600200 then s.setRgbase .device mid v
  else if o = 0x600208 then s.setRgidx .device mid v
  else if 0x600400 ≤ o ∧ o < 0x600700 then
    let h := chaseId ((o - 0x600400) / 0x40)
    match o % 0x40 with | 0 => s.setRgbase (.chase h) mid v | 8 => s.setRgidx (.chase h) mid v | _ => s
  else if 0x700000 ≤ o ∧ o < 0x706000 then
    if o % 0x100 = 8 then s.trctl mid (coreId ((o - 0x700000) / 0x100)) v else s
  else if 0x800000 ≤ o ∧ o < 0x800C00 then
    let h := chaseId ((o - 0x800000) / 0x100)
    match o % 0x100 with | 0 => s.xlinv h mid v | 0x10 => s.cxres h mid v | _ => s
  else if 0x900000 ≤ o ∧ o < 0x901840 then
    let f := funcId ((o - 0x900000) / 0x40)
    match o % 0x40 with
    | 0 => s.setFunc f { s.func f with cwbase := v &&& 0x0000FFFFFFFFF000 }
    | 8 => s.setFunc f { s.func f with cqbase := v &&& 0x0000FFFFFFFFF800 }
    | 0x10 => s.bySup mid fun s => s.setFunc f { s.func f with pacfg := v &&& 0x0000FFF000000001 }
    | _ => s
  else if o = 0xB00000 then { s with spint := s.spint &&& ~~~v }
  else if o = 0xC02000 then s.raiseMin mid v
  else if 0xC00000 ≤ o ∧ o < 0xC00308 then s.setFuncPart mid (funcId ((o - 0xC00000) / 8)) v
  else if 0xC01000 ≤ o ∧ o < 0xC01100 ∧ o / 8 % 4 ≠ 3 then
    s.setHdm mid (BitVec.toFin (BitVec.ofNat 3 ((o - 0xC01000) / 0x20))) (o / 8 % 4) v
  else if 0xD00000 ≤ o ∧ o < 0xF00000 then s.entryStore mid ((o - 0xD00000) / 0x800) (o / 8 % 256) v
  else if 0x1000000 ≤ o ∧ o < 0x1600000 ∧ o % 0x100000 < 0x8000 then
    s.friskSet mid (o / 0x100000 - 16) (o % 0x8000 / 64) (o % 64 / 8) v
  else s

/-- Merge bytes into the value that a partial write of a register starts from: a bit that is cleared by writing one starts from
zero (R10). -/
def mergeBytes (o : Nat) (old : Word) (bs : List Byte) : Word :=
  let r := o / 8 * 8
  let ring := r == 0x600208 || (decide (0x600400 ≤ o) && decide (o < 0x600700) && r % 0x40 == 8)
  let keep : Word := if r = 0xB00000 then 0 else if ring then old &&& 0x7FFFFFFFFFFFFFFF else old
  let b0 := leBytes 8 keep.toNat
  BitVec.ofNat 64 (ofLe (b0.take (o % 8) ++ bs ++ b0.drop (o % 8 + bs.length)))

/-! ## Instruction sides and local memories (R59, R451) -/

/-- A task runs on a core, so that its active side takes no write (R59); one that a trap stops, or that is held, is still Running
(R366). -/
def Core.runsTask (k : Core) : Bool :=
  match k.st with
  | .running | .preempting | .trapping | .held => k.task.isSome
  | _ => false

/-- A supervisor may write a side of a core: it is that of the core's chase, and the side is not the active side of a running
task (R451). -/
def State.sideWritable (s : State) (mid : Nat) (c : CoreId) (v : Bool) : Bool :=
  mid == supMid (chaseOf c) && !((s.core c).runsTask && (s.core c).side == v)

/-- Write bytes of a side: it then holds no image tag, and the written mark of an inactive side is set (R60, R368). -/
def Core.writeSide (k : Core) (v : Bool) (o : Nat) (bs : List Byte) : Core :=
  { (k.setSide v { bytes := sputBytes (k.sideAt v).bytes o bs, tag := none }) with mark := k.mark || k.side != v }

/-- A write at target 5 by a master: a side, or a supervisor's local memory; refused elsewhere. The Boolean says whether it was
admitted. -/
def State.storeWrite (s : State) (mid o : Nat) (bs : List Byte) : State × Bool :=
  if o < 0x8C00000 then
    let c := coreId ((o - 0x8000000) / 0x20000)
    let v := o / 0x10000 % 2 = 1
    if s.sideWritable mid c v then (s.modCore c fun k => k.writeSide v (o % 0x10000) bs, true) else (s, false)
  else if 0xC000000 ≤ o ∧ o < 0xC600000 ∧ s.friskConfig mid (configBase + o) bs.length false true then
    let h := chaseId ((o - 0xC000000) / 0x80000)
    (s.setChase h { s.chase h with lmem := sputBytes (s.chase h).lmem (o % 0x80000) bs }, true)
  else (s, false)

/-- A write of up to 8 bytes within one 8-byte unit of configuration space by a master; the Boolean says whether the target's
table admitted it (R439). -/
def State.configWrite (s : State) (mid addr : Nat) (bs : List Byte) : State × Bool :=
  let o := addr - configBase
  if 0x8000000 ≤ o then s.storeWrite mid o bs
  else if s.friskConfig mid addr bs.length false true then
    (s.regSet mid (o / 8 * 8) (mergeBytes o ((s.regRead (o / 8 * 8)).getD 0) bs), true)
  else (s, false)

/-- A write that the target refuses is dropped and reported (R439). -/
def State.configStore (s : State) (mid addr : Nat) (bs : List Byte) : State :=
  let (s1, ok) := s.configWrite mid addr bs
  if ok then s1 else s.permEvent mid addr

/-! ## The events -/

/-- A word of XLINV. -/
def xlinvWord (vpage : BitVec 52) (part : BitVec 5) (scope : BitVec 2) : Word := vpage ++ (part ++ (0#5 ++ scope))

/-- XLINV_PARTITION (R255). -/
def execXlinvPartition (h : ChaseId) (part : BitVec 5) (s : State) : Res := .next (s.xlinv h (supMid h) (xlinvWord 0 part 0))

/-- XLINV_PAGE (R255). -/
def execXlinvPage (h : ChaseId) (part : BitVec 5) (vpage : BitVec 52) (s : State) : Res :=
  .next (s.xlinv h (supMid h) (xlinvWord vpage part 1))

/-- XLINV_ALL (R255). -/
def execXlinvAll (h : ChaseId) (s : State) : Res := .next (s.xlinv h (supMid h) (xlinvWord 0 0 2))

/-- Perform the first waiting write of XLINV of each chase. -/
def State.xlinvNext (s : State) : List (ChaseId × Word) → State
  | [] => s
  | (h, v) :: t =>
    (if (s.chase h).xlbusy then { s with xlwait := s.xlwait ++ [(h, v)] } else s.xlinvStart h v).xlinvNext t

/-- XLINV_COMPLETE (R255): the invalidations in progress are complete device-wide, busy clears, and writes that waited begin. -/
def execXlinvComplete (s : State) : Res :=
  let s1 : State := { s with chases := s.chases.map (fun x => { x with xlbusy := false }), xlwait := [] }
  .next (s1.xlinvNext s.xlwait)

/-- A word of CXRES. -/
def cxresWord (core : BitVec 7) (res : Bool) (ctx : BitVec 2) : Word :=
  (0#54) ++ (core ++ ((if res then 1#1 else 0#1) ++ ctx))

/-- CXRES_CONTEXT (R259). -/
def execCxresContext (h : ChaseId) (core : BitVec 7) (ctx : CtxId) (s : State) : Res :=
  .next (s.cxres h (supMid h) (cxresWord core false (BitVec.ofFin (w := 2) ctx)))

/-- CXRES_RESIDENCY (R259). -/
def execCxresResidency (h : ChaseId) (core : BitVec 7) (s : State) : Res :=
  .next (s.cxres h (supMid h) (cxresWord core true 0))

/-- STRIPE_ENABLE (R315): Make-ready writes W0 with v = 1. -/
def execStripeEnable (w : Fin 256) (w0 : Word) (s : State) : Res := .next (s.stripeOn w.val (supMid 0) (w0 ||| 0x8000000000000000))

/-- STRIPE_TEARDOWN (R315): Make-ready writes W0 with v = 0. -/
def execStripeTeardown (w : Fin 256) (w0 : Word) (s : State) : Res := .next (s.stripeOff w.val (w0 &&& 0x7FFFFFFFFFFFFFFF))

/-- STRIPE_TEARDOWN_COMPLETE (R315). -/
def execStripeTeardownComplete (w : Fin 256) (s : State) : Res := .next (s.stripeDone w.val)

/-- CONTROL_STORE_WRITE (R298). -/
def execControlStoreWrite (e : EngineId) (idx : BitVec 8) (word : BitVec 128) (s : State) : Res :=
  .next (s.controlStore e.val idx.toNat word)

/-- FRISKET_WRITE (R438). -/
def execFriskWrite (by_ : BitVec 9) (t : Fin 6) (mid : BitVec 9) (n : Fin 8) (word : Word) (s : State) : Res :=
  .next (if isMaster by_.toNat then s.friskSet by_.toNat t.val mid.toNat n.val word else s)

/-- JCAN_JOB (R364). -/
def execJcanJob (q : PartId) (job : Fin 16) (s : State) : Res := .next (s.cancelJob q (supMid 0) job)

/-- JCAN_GRAPH (R364). -/
def execJcanGraph (q : PartId) (job : Fin 16) (gix : Fin 4) (s : State) : Res :=
  .next (s.cancelGraph q (supMid 0) job gix.val)

/-- JCAN_LAUNCH (R364). -/
def execJcanLaunch (q : PartId) (job : Fin 16) (gix : Fin 4) (lix : BitVec 6) (s : State) : Res :=
  .next (s.cancelLaunch q (supMid 0) job gix.val lix.toNat)

/-- PCORE_WRITE (R376). -/
def execPcoreWrite (q : PartId) (hi : Bool) (v : Word) (s : State) : Res := .next (s.pcore q (supMid 0) hi v)

/-- GPREG_WRITE (R399, R400). -/
def execGpregWrite (q : PartId) (n : BitVec 6) (v : Word) (s : State) : Res := .next (s.setGp q n v)

/-- MSEQ_WRITE (R394). -/
def execMseqWrite (q : PartId) (m : Fin 16) (v : Word) (s : State) : Res := .next (s.setMseq q m v)

/-- HBUD_WRITE (R401). -/
def execHbudWrite (q : PartId) (v : Word) (s : State) : Res := .next (s.setBud q (supMid 0) v)

/-- OPCAP_WRITE (R423). -/
def execOpcapWrite (q : PartId) (v : Word) (s : State) : Res := .next (s.setCap q v)

/-- KEY_NEW (R447). -/
def execKeyNew (k : KeySlotId) (s : State) : Res := .next (s.keyFresh (supMid 0) k)

/-- KEY_ADVANCE (R447). -/
def execKeyAdvance (k : KeySlotId) (s : State) : Res := .next (s.keyNext (supMid 0) k)

/-- KEY_REKEY (R447, R448). -/
def execKeyRekey (k : KeySlotId) (rlen : BitVec 24) (s : State) : Res := .next (s.rekeyStart (supMid 0) k rlen.toNat)

/-- REKEY_COMPLETE (R448). -/
def execRekeyComplete (k : KeySlotId) (s : State) : Res := .next (s.rekeyEnd k)

/-- KEY_RETIRE (R447, R448). -/
def execKeyRetire (k : KeySlotId) (s : State) : Res := .next (s.keyDrop (supMid 0) k)

/-- KEY_ERASE (R447, R448). -/
def execKeyErase (k : KeySlotId) (s : State) : Res := .next (s.keyWipe (supMid 0) k)

/-- EVENT_ACK (R450). -/
def execEventAck (h : ChaseId) (seq : Word32) (s : State) : Res := .next (s.evack h seq)

/-- EVENT_DEADLINE (R450). -/
def execEventDeadline (seq : Word32) (s : State) : Res := .next (s.evDeadline seq)

/-- TRCTL_RESUME (R467). -/
def execTrctlResume (c : CoreId) (s : State) : Res := .next (s.trResume (supMid (chaseOf c)) c)

/-- TRCTL_SAVE (R467). -/
def execTrctlSave (c : CoreId) (s : State) : Res := .next (s.trSave (supMid (chaseOf c)) c)

/-- TRCTL_END (R467). -/
def execTrctlEnd (c : CoreId) (s : State) : Res := .next (s.trEnd (supMid (chaseOf c)) c)

/-- The consumer of a ring: the chase's supervisor, or the host (R469). -/
def ringMid : RingId → Nat
  | .chase c => supMid c
  | .device => 0x080

/-- RING_CONSUME (R470). In sleep the host's is held (R431). -/
def execRingConsume (r : RingId) (v : Word) (s : State) : Res :=
  .next (if !s.awake && isHost (ringMid r) then s.holdHost (.ring v) false else s.setRgidx r (ringMid r) v)

/-- The address of SLPCTL (R429). -/
def slpReg : Nat := configBase + 0x300000

/-- REGISTER_WRITE (R10): a write of 8 bytes of configuration space by a master. In sleep one of the host is held (R431), but for one of
SLPCTL, which stays in power (R430). -/
def execRegisterWrite (mid : BitVec 9) (addr : Nat) (v : Word) (s : State) : Res :=
  .next (
    if isMaster mid.toNat ∧ targetOf addr = .config ∧ addr % 8 = 0 then
      if !s.awake && isHost mid.toNat && addr != slpReg then s.holdHost (.reg mid.toNat addr v) false
      else s.configStore mid.toNat addr (leBytes 8 v.toNat)
    else s)

end Sys2Proof.Machine
end

