-- ==== Sys2Proof/Machine/CoreEvents.lean ====
section
/-! DEFINITION. Events of a core: settling (R421), the end of an abandoned task (R146), the watchdog (R374), stalled waits (R375),
timeouts (R392, R393), late data (R45, R54), page walks (R254) and the performing of stores (R266 to R271, R284, R443). An event
that cannot happen in a state leaves the state as it is (log entry 5). -/

namespace Sys2Proof.Machine

/-! ## Settling and escalation -/

/-- SETTLING_COMPLETE (R421): the transition of the operating point has settled. -/
def execSettlingComplete (c : CoreId) (s : State) : Res := .next (s.modCore c fun k => { k with settling := false })

/-- The end of an abandoned task whose commands have completed (R145, R146). -/
def State.afterEscalation (s : State) (c : CoreId) (i : Nat) (t : Task) (r : TrapRec) : State :=
  (s.releaseCore c).escalated c (s.core c) i t r

/-- ESCALATION_RELAUNCH (R145, R146): every command of the abandoned task has completed, and its stores are performed, so that none can
follow what the relaunch publishes (R275). -/
def execEscalationRelaunch (c : CoreId) (s : State) : Res :=
  .next (let k := s.core c
    if k.st = .escalating ∧ k.commandsDone ∧ k.stores.isEmpty then
      match k.task, s.taskOf c, k.escRec with
      | some i, some t, some r => s.afterEscalation c i t r
      | _, _, _ => s.releaseCore c
    else s)

/-! ## Watchdog, stalls and timeouts -/

/-- A bundle of a running core would issue now: no late data, no bubble, no idle tick of WAIT. -/
def Core.atIssue (k : Core) : Bool :=
  k.st == .running && !k.awaitsData && k.bubble == 0 &&
    match k.waitc with | none => true | some w => k.waitTickMet w && k.waitFreezeMet w

/-- WATCHDOG_TRAP (R374). -/
def execWatchdogTrap (c : CoreId) (s : State) : Res :=
  .next (if (s.core c).atIssue && (s.core c).watchdogDue then s.watchdogTrap c else s)

/-- The detail of a stalled wait (R375). -/
def stallDetail : Wait → Option (BitVec 8)
  | .waittl => some 0
  | .wait => some 1
  | .ifence => some 2
  | .region => some 3
  | .drain => some 4
  | _ => none

/-- The header at the pc carries the escalation-region marker (R71). -/
def Core.escrNext (k : Core) : Bool := (k.fetchWord k.pc).getLsbD 18

/-- STALLED_WAIT (R375): the trap nullifies the frozen bundle, which a resume reissues. -/
def execStalledWait (c : CoreId) (s : State) : Res :=
  .next (let k := s.core c
    match k.wait with
    | some w => match stallDetail w with
      | some d =>
        if k.st = .running then s.trapCore c (s.trapRec c 0x0F d k.waitSlot k.escrNext 0 0 0) true else s
      | none => s
    | none => s)

/-- BAR_TIMEOUT (R392): the core withdraws and receives false; void once its generation is complete. -/
def execBarTimeout (c : CoreId) (s : State) : Res :=
  .next (let k := s.core c
    match k.wait, k.req, k.ans with
    | some .bar, some (.bar id _ _), none => (s.withdraw c id).answer [c] false
    | _, _, _ => s)

/-- The mask sequence register of a core's MASKW has reached its value (R393). -/
def State.maskHolds (s : State) (c : CoreId) (m : Nat) (q : Word32) : Bool :=
  decide (q.toNat ≤ ((s.corePart c).mseq.toList.getD m 0).toNat)

/-- MASKW_TIMEOUT (R393): no flag but true when the condition holds by then. -/
def execMaskwTimeout (c : CoreId) (s : State) : Res :=
  .next (let k := s.core c
    match k.wait, k.req, k.ans with
    | some .maskw, some (.maskw m q), none => s.answer [c] (s.maskHolds c m q)
    | _, _, _ => s)

/-! ## Late data and page walks -/

/-- The payload of a load whose value comes with the event. -/
def Entry.arrived (e : Entry) (v : Word) : Payload :=
  match e.late, e.pay with
  | .host (some t), .scalar c r _ | .stor (some t), .scalar c r _ | .conf (some t) _, .scalar c r _ =>
    .scalar c r (loadValue t (leBytes 8 v.toNat |>.take (tyBytes t)))
  | _, p => p

/-- A load has its data. -/
def Entry.arrive (v : Word) (poison : Bool) (e : Entry) : Entry :=
  { e with pay := e.arrived v, late := .no, poison := e.poison || poison }

/-- A store writes at a port or in configuration space. -/
def PendStore.toPort (x : PendStore) : Bool :=
  x.bytes.any fun b => match targetOf b.1 with | .linear | .window => false | _ => true

/-- The data of a load in flight can come: a load of a port or a register waits for MA's store of its bundle to one,
where they do not meet at one address (R247, R294). -/
def Core.arrivable (k : Core) (e : Entry) : Bool :=
  e.late != .no && !(e.pending && !e.mark.early && k.stores.any fun x => x.toPort && x.itick == e.itick && decide (x.slot < e.slot))

/-- What a load receives: the value that comes with the event, or that of the register that it reads now; none when the target refuses
the read (R439). -/
def State.arrivalValue (s : State) (c : CoreId) (e : Entry) (v : Word) : State × Option Word :=
  match e.late with
  | .conf (some t) da =>
    let (s1, x) := s.configLoad c.val da (tyBytes t)
    (s1, x.map fun bs => BitVec.ofNat 64 (ofLe bs))
  | _ => (s, some v)

/-- What follows when accesses of a core have been performed: child launches that waited for them may be released (R395), and a trap
that waited for data is taken (R458). -/
def State.afterAccess (s : State) (c : CoreId) (kids : List Nat) : State :=
  let s1 := if kids.isEmpty then s else s.advanceAll
  (s1.settled c).trapReady c

/-- LOAD_DATA_ARRIVAL (R45, R54): the oldest late load of the core that can have its data has it; poisoned data poisons its destination,
and an uncorrectable error of late data raises one memory event (R474, R475). -/
def execLoadDataArrival (c : CoreId) (v : Word) (poison : Bool) (s : State) : Res :=
  .next (let k := s.core c
    match k.infl.findIdx? k.arrivable with
    | none => s
    | some i =>
      match k.infl[i]? with
      | none => s
      | some e =>
        let (s1, x) := s.arrivalValue c e v
        let s2 := s1.modCore c fun k => { k with infl := k.infl.modify i (Entry.arrive (x.getD 0) (poison || x.isNone)) }
        let s3 := if poison && e.late == .mem then s2.coreEvent 0x00 e.mark.va c else s2
        s3.afterAccess c e.mark.kids)

/-- PAGE_WALK_COMPLETE (R254, R257): the translation of an address fills the core's TLB, or the walk has faulted. -/
def execPageWalkComplete (c : CoreId) (va : Word) (s : State) : Res := .next (s.translate c va.toNat).1

/-! ## The performing of stores -/

/-- The place of a byte of a store, by its linear address, or by its device address above the linear view. -/
def State.byteSpot (s : State) (b : Nat × Byte) : Nat := (s.linearOf b.1).getD b.1

/-- Two stores write in one line of the L1 (R51). -/
def State.storesMeet (s : State) (x y : PendStore) : Bool :=
  x.bytes.any fun b => y.bytes.any fun d => s.byteSpot b / 64 == s.byteSpot d / 64

/-- An earlier store of the core must be performed before a later one (R51, R247, R266, R267). -/
def State.storeBefore (s : State) (x y : PendStore) : Bool := x.fenced || (x.dev && y.dev) || s.storesMeet x y

/-- A store meets an open region, a line that the host holds, or a channel in self-refresh (R29, R248, R313); the write-backs of a CLEAN
or INVAL meet one too, or a fence (R293, R309). -/
def State.storeStalls (s : State) (x : PendStore) : Bool :=
  (x.lines.any fun l => s.anyRegion (64 * l) || s.tileWaits (l / 64)) || x.bytes.any fun b => match s.linearOf b.1 with
    | some a => s.anyRegion a || s.hostLines.contains (a / 64) || s.tileAsleep (a / 4096)
    | none => false

/-- A load of the core comes before a store: it was issued before, or it is MB's and meets MA's store at one address (R294). -/
def Entry.before (e : Entry) (x : PendStore) : Bool :=
  decide (e.itick.toNat < x.itick.toNat) || (e.itick == x.itick && (e.mark.early || decide (e.slot < x.slot)))

/-- A store waits for an earlier load that is not performed: a release for all (R269), any store for one that an acquire or a fence orders
before it (R267, R269), a DEV access for the DEV accesses before it (R247), one of a port for those of the ports (R266). -/
def storeAwaits (x : PendStore) (e : Entry) : Bool :=
  e.before x && (x.release || (e.mark.early && e.itick == x.itick && x.toPort) || e.mark.thenStores || (x.dev && e.mark.dev) || (x.toPort && e.late.window))

/-- Nothing but the core's earlier stores keeps a store from being performed. -/
def State.storeClear (s : State) (c : CoreId) (x : PendStore) : Bool :=
  !(s.core c).pendingLoads.any (storeAwaits x) && !s.storeStalls x

/-- The store at place `k` of a core's queue can be performed now. -/
def State.storeReady (s : State) (c : CoreId) (k : Nat) : Bool :=
  let q := (s.core c).stores
  match q[k]? with
  | none => false
  | some x => ((!x.release && !x.fenced) || k == 0) && !((q.take k).any fun y => s.storeBefore y x) && s.storeClear c x

/-- Perform a run of a store's bytes at its target, apart from processing memory: configuration space, or a window, whose table checks
it again (R256, R439). What goes to the storage window while the link is down is dropped with a storage event (R353). -/
def State.performRun (s : State) (c : CoreId) (r : Nat × List Byte) : State :=
  match targetOf r.1 with
  | .config => s.configStore c.val r.1 r.2
  | .host =>
    if (s.frisk c.val r.1 r.2.length false true).isSome then { s with hostOut := r :: s.hostOut } else s.permEvent c.val r.1
  | .storage =>
    if (s.frisk c.val r.1 r.2.length false true).isNone then s.permEvent c.val r.1
    else if s.linkDown then s.storEvent c.val
    else { s with ssdOut := r :: s.ssdOut }
  | _ => s

/-- Perform a store at its targets. It is visible to every observer at one moment, those of its chase among them (R271 lets them see it
earlier; log entry 88). -/
def State.performAt (s : State) (c : CoreId) (x : PendStore) : State :=
  (runsOf (x.bytes.filter fun b => (s.linearOf b.1).isNone)).foldl (fun s r => s.performRun c r)
    (x.lines.foldl State.cleanLine (s.performMem c x))

/-- Perform the store at place `k` of a core's queue. -/
def State.performStore (s : State) (c : CoreId) (k : Nat) : State :=
  if s.storeReady c k then
    match (s.core c).stores[k]? with
    | some x => ((s.modCore c fun m => { m with stores := m.stores.eraseIdx k }).performAt c x).afterAccess c x.kids
    | none => s
  else s

/-- STORE_PERFORM (R284). -/
def execStorePerform (c : CoreId) (k : Nat) (s : State) : Res := .next (s.performStore c k)

/-- The stores at the front of a core's queue that write only a tile, and that nothing keeps from being performed. -/
def State.tileStores (s : State) (c : CoreId) (t : Nat) : List PendStore :=
  (s.core c).stores.takeWhile fun x =>
    !x.bytes.isEmpty && s.storeClear c x &&
      x.bytes.all fun b => match s.linearOf b.1 with | some a => a / 4096 == t | none => false

/-- The writes that wait for a tile: the fronts of the cores' queues, each with its core, by ascending core: in what order the writes of
different cores have arrived is open (R262, R443; DESIGN CHOICE, log entry 101). -/
def State.waiting (s : State) (t : Nat) : List (CoreId × List PendStore) :=
  (List.finRange 96).filterMap fun c => match s.tileStores c t with | [] => none | l => some (c, l)

/-- The key slot under which the frisket check of a core admits every run of a store's bytes, if it is one (R439). -/
def State.slotFor (s : State) (c : CoreId) (x : PendStore) : Option Nat :=
  match (runsOf x.bytes).map fun r => (s.frisk c.val r.1 r.2.length true true).map windowSlot with
  | some k :: rest => if rest.all (· == some k) then some k else none
  | _ => none

/-- SEAL_WRITE (R443): the writes that wait for a tile are merged into one seal operation, when every one is admitted under one
key slot; otherwise nothing is merged. The metadata follows the writes in their order. When the tile's version is exhausted, each
write is dropped with its event (R445). -/
def State.sealMerged (s : State) (t : Nat) : State :=
  let ws := s.waiting t
  let all := ws.flatMap fun w => w.2.map fun x => (w.1, x)
  match all with
  | [] => s
  | (c0, x0) :: _ =>
    match s.slotFor c0 x0 with
    | none => s
    | some k =>
      if all.all fun y => s.slotFor y.1 y.2 == some k then
        let s1 := ws.foldl (fun s w => s.modCore w.1 fun m => { m with stores := m.stores.drop w.2.length }) s
        let lin := all.flatMap fun y => y.2.bytes.filterMap fun b => (s.linearOf b.1).map fun a => (a, b.2)
        let (s2, o) := (s1.rowRead t).sealPart k t lin .keep (more := all.map fun y => y.2.upd)
        let s4 := match o with
          | .done => s2.rowWritten t
          | .bad => (s2.sealEvent c0.val (t * 4096) 0).rowWritten t
          | .exhausted => all.foldl (fun s y => s.sealEvent y.1.val (t * 4096) 1) s2
        ws.foldl (fun s w => s.afterAccess w.1 (w.2.flatMap (·.kids))) s4
      else s

/-- SEAL_WRITE (R443): the stores that wait for the tile of a linear address are sealed in one operation. -/
def execSealWrite (da : Nat) (s : State) : Res :=
  .next (if da < s.memTop then s.sealMerged (da / 4096) else s)

end Sys2Proof.Machine
end

