-- ==== Sys2Proof/Machine/Crossbar.lean ====
section
/-! DEFINITION. The XPS slot: the lane crossbar and the sorting network (R224 to R234). -/

namespace Sys2Proof.Machine

/-! ## The lane crossbar -/

/-- Tags that XP.PERM and XP.SHUF accept (R224). -/
def permTag (t : BitVec 4) : Bool := t == 0 || tagF t || t == 6 || t == 7 || t == 8 || tagX t

/-- Tags that XP.ROT, XP.SLIDE and XP.SPLAT accept (R224). -/
def rotTag (t : BitVec 4) : Bool := t == 0 || tagF t || tagI t || tagX t

/-- The control bytes of a control row, for the first `n` lanes. -/
def ctlBytes (y : Row) (n : Nat) : List Nat := (lanesOf y.bits 8).take n

/-- A control byte names a lane: bit 7 is clear. -/
def ctlLane (c : Nat) : Option Nat := if c < 128 then some c else none

/-- Two control bytes name one of the row's `n` lanes (R225). -/
def collides (n : Nat) (cs : List Nat) : Bool :=
  let ds := (cs.filterMap ctlLane).filter (· < n)
  decide (ds.eraseDups.length ≠ ds.length)

/-- A control byte names a lane beyond the row's (R225, R226). -/
def ctlBeyond (n : Nat) (cs : List Nat) : Bool := (cs.filterMap ctlLane).any fun d => decide (n ≤ d)

/-- XP.PERM's lanes (R225). -/
def permLanes (src cs : List Nat) : List Nat :=
  (List.range src.length).map fun d =>
    match cs.findIdx? fun c => ctlLane c == some d with
    | some i => src.getD i 0
    | none => 0

/-- XP.SHUF's lanes (R226). -/
def shufLanes (src cs : List Nat) : List Nat :=
  cs.map fun c => match ctlLane c with | some d => src.getD d 0 | none => 0

/-- XP.PERM and XP.SHUF: the tags, Poison, the faults of the control row, the moved lanes. -/
def State.crossMove (s : State) (p : Pred) (d a b : VReg) (coll : Bool) (f : List Nat → List Nat → List Nat) : State :=
  s.when p xpsSlot fun s =>
    let x := s.rowOp a
    let y := s.rowOp b
    match (tagCheck permTag [x]) <|> tagCheck (fun t => t == 8) [y] with
    | some e => s.fault xpsSlot e
    | none =>
      if x.isPoison || y.isPoison then s.postRow xpsSlot d 3 poisonRow 0 (rowKeys [a, b])
      else
        let n := tagLanes x.tag
        let cs := ctlBytes y n
        let s1 := if coll && collides n cs then s.fault xpsSlot (schedFault 0x05) else s
        if ctlBeyond n cs then s1.fault xpsSlot (formatFault 2)
        else s1.postRow xpsSlot d 3 (mkRow x.tag x.eb (f x.lanes cs)) 0

/-- XP.PERM (R225). -/
def execXpPerm (p : Pred) (d a b : VReg) (s : State) : Res := .next (s.crossMove p d a b true permLanes)

/-- XP.SHUF (R226). -/
def execXpShuf (p : Pred) (d a b : VReg) (s : State) : Res := .next (s.crossMove p d a b false shufLanes)

/-- XP.ROT's lanes (R227). -/
def rotLanes (src : List Nat) (v : Word) : List Nat :=
  let n := src.length
  (List.range n).map fun i => src.getD ((i + n - v.toNat % n) % n) 0

/-- XP.ROT (R227). -/
def execXpRot (p : Pred) (d a : VReg) (c : Cluster) (r : SReg) (s : State) : Res :=
  .next (s.rowScalarInstr xpsSlot p d a c r rotTag 3 fun x v => (mkRow x.tag x.eb (rotLanes x.lanes v), 0))

/-- XP.SLIDE's lanes (R227). -/
def slideLanes (src : List Nat) (v : Word) : List Nat :=
  (List.range src.length).map fun (i : Nat) =>
    let j : Int := (i : Int) - v.toInt
    if 0 ≤ j ∧ j < src.length then src.getD j.toNat 0 else 0

/-- XP.SLIDE (R227). -/
def execXpSlide (p : Pred) (d a : VReg) (c : Cluster) (r : SReg) (s : State) : Res :=
  .next (s.rowScalarInstr xpsSlot p d a c r rotTag 3 fun x v => (mkRow x.tag x.eb (slideLanes x.lanes v), 0))

/-- XP.SPLAT (R227): an index beyond the lanes is a format trap. -/
def execXpSplat (p : Pred) (d a : VReg) (c : Cluster) (r : SReg) (s : State) : Res :=
  .next (s.when p xpsSlot fun s =>
    let x := s.rowOp a
    let y := s.opnd c r
    match tagCheck rotTag [x] with
    | some e => s.fault xpsSlot e
    | none =>
      if x.isPoison || y.pois then s.postRow xpsSlot d 3 poisonRow 0 (rowKeys [a] ++ regKeys c [r])
      else if tagLanes x.tag ≤ y.v.toNat then s.fault xpsSlot (formatFault 2)
      else s.postRow xpsSlot d 3
        (mkRow x.tag x.eb (List.replicate (tagLanes x.tag) (x.lanes.getD y.v.toNat 0))) 0)

/-! ## Ranking -/

/-- The value of a score. -/
def Cand.num (c : Cand) : Num := value .fp32 c.score.toNat

/-- Entry x ranks before entry y, both non-empty (R228). -/
def Cand.before (x y : Cand) : Bool :=
  match ncmp x.num y.num with
  | .gt => true
  | .lt => false
  | .eq => x.id.ult y.id

/-- Insert behind every entry that does not rank after the new one. -/
def rankInsert {α : Type} (lt : α → α → Bool) (c : α) : List α → List α
  | [] => [c]
  | h :: t => if lt c h then c :: h :: t else h :: rankInsert lt c t

/-- Rank a sequence, equal entries in their input order (R228). -/
def rank {α : Type} (lt : α → α → Bool) (xs : List α) : List α := xs.foldl (fun l c => rankInsert lt c l) []

/-- A pair of XS.SORT: score, index, lane. -/
structure SortPair where
  score : Num
  id : Nat
  lane : Nat
  deriving DecidableEq, Repr

/-- The order of XS.SORT: NaN scores last, by index and then by lane (R229). -/
def SortPair.before (x y : SortPair) : Bool :=
  if x.score.isNan then y.score.isNan && decide (x.id < y.id)
  else if y.score.isNan then true
  else match ncmp x.score y.score with
    | .gt => true
    | .lt => false
    | .eq => decide (x.id < y.id)

/-- XS.SORT's control row (R229). -/
def sortLanes (x y : Row) : List Nat :=
  let ps := (List.range 32).map fun i => (⟨value .fp32 (laneAt x.bits 32 i), laneAt y.bits 32 i, i⟩ : SortPair)
  (rank SortPair.before ps).map (·.lane) ++ List.replicate 96 0x80

/-- XS.SORT (R229). -/
def execXsSort (p : Pred) (d a b : VReg) (s : State) : Res :=
  .next (s.when p xpsSlot fun s =>
    let x := s.rowOp a
    let y := s.rowOp b
    match (tagCheck (fun t => t == 1) [x]) <|> tagCheck tagX [y] with
    | some e => s.fault xpsSlot e
    | none =>
      if x.isPoison || y.isPoison then s.postRow xpsSlot d 6 poisonRow 0 (rowKeys [a, b])
      else s.postRow xpsSlot d 6 (mkRow 8 0 (sortLanes x y)) (sigFlags x.nums))

/-! ## Candidate lists -/

/-- A candidate list of the bundle. -/
def State.listOp (s : State) (l : Fin 4) : CList := s.iss.pre.cl.get l

/-- The first 64 of a list's entries followed by new ones, ranked (R231). -/
def mergeCands (old new : List Cand) : List Cand := (rank Cand.before (old ++ new)).take 64

/-- The candidates of a row: lanes that are not NaN, with indices from a base (R231). -/
def rowCands (x : Row) (v : Word) : List Cand :=
  let m := bits v 47 32
  let base := bits v 31 0
  ((x.nums.take m).zipIdx).filterMap fun z =>
    if z.1.isNan || decide (2 ^ 32 - 1 ≤ base + z.2) then none
    else some ⟨BitVec.ofNat 32 (roundTo .fp32 .rne z.1).1, BitVec.ofNat 32 (base + z.2)⟩

/-- XS.MERGE, row form (R231). Into a list that is already poisoned it raises no flag, as a poisoned result raises none (R224; DESIGN
CHOICE, log entry 80). -/
def execXsMerge (p : Pred) (l : Fin 4) (c : Cluster) (r : SReg) (a : VReg) (s : State) : Res :=
  .next (s.when p xpsSlot fun s =>
    let x := s.rowOp a
    let y := s.opnd c r
    let old := s.listOp l
    match tagCheck tagF [x] with
    | some e => s.fault xpsSlot e
    | none =>
      let keys := rowKeys [a] ++ regKeys c [r] ++ [listKey l]
      if x.isPoison || y.pois then s.postList xpsSlot l 4 { old with poison := true } 0 keys
      else
        s.postList xpsSlot l 4 ⟨mergeCands old.ents (rowCands x y.v), old.poison⟩
          (if old.poison then 0 else sigFlags (x.nums.take (bits y.v 47 32))) keys)

/-- XS.MERGE, list form (R231). -/
def execXsMergeL (p : Pred) (l k : Fin 4) (s : State) : Res :=
  .next (s.when p xpsSlot fun s =>
    let old := s.listOp l
    let src := s.listOp k
    s.postList xpsSlot l 4 ⟨mergeCands old.ents src.ents, old.poison || src.poison⟩ 0 [listKey l, listKey k])

/-- XS.CLR (R232). -/
def execXsClr (p : Pred) (l : Fin 4) (s : State) : Res := .next (s.when p xpsSlot fun s => s.postList xpsSlot l 1 {} 0)

/-- XS.RDC (R232). -/
def execXsRdc (p : Pred) (d : SReg) (l : Fin 4) (j : BitVec 6) (s : State) : Res :=
  .next (s.when p xpsSlot fun s =>
    let x := s.listOp l
    s.postScalar xpsSlot .b d 2 (BitVec.ofNat 64 (candWord (x.ents.getD j.toNat emptyCand))) 0 x.poison [listKey l])

/-- XS.KTH's value: the k-th ranked, NaN lanes left out (R233). -/
def kthValue (x : Row) (k : Nat) : Word :=
  let cs := (x.nums.filter fun z => !z.isNan).map fun z => BitVec.ofNat 32 (roundTo .fp32 .rne z).1
  let lt (a b : Word32) : Bool := ncmp (value .fp32 a.toNat) (value .fp32 b.toNat) == .gt
  ((rank lt cs).getD k 0xFF800000).setWidth 64

/-- XS.KTH (R233). -/
def execXsKth (p : Pred) (d : SReg) (a : VReg) (k : BitVec 6) (s : State) : Res :=
  .next (s.when p xpsSlot fun s =>
    let x := s.rowOp a
    match tagCheck tagF [x] with
    | some e => s.fault xpsSlot e
    | none =>
      if x.isPoison then s.postScalar xpsSlot .b d 6 0 0 true (rowKeys [a])
      else s.postScalar xpsSlot .b d 6 (kthValue x k.toNat) (sigFlags x.nums) false)

end Sys2Proof.Machine
end

