-- ==== Sys2Proof/Machine/FpScalar.lean ====
section
/-! DEFINITION. The scalar floating-point instructions of SA and SB (R171 to R177). -/

namespace Sys2Proof.Machine

/-- An FP32 operand: bits [31:0] of a register (R171). -/
def fval (x : Word) : Num := value .fp32 (x.toNat % 2 ^ 32)

/-- An FP32 result with its flags, zero-extended (R171). -/
def fres (m : RMode) (z : Num × Flags) : Word × Flags :=
  let (r, f) := roundTo .fp32 m z.1
  (BitVec.ofNat 64 r, f ||| z.2)

/-- FADD (R172). -/
def execFadd (sl : SSlot) (p : Pred) (d a b : SReg) (m : RMode) (s : State) : Res :=
  .next (s.alu2 sl p d a b 4 fun x y => fres m (nadd m (fval x) (fval y)))

/-- FSUB (R172). -/
def execFsub (sl : SSlot) (p : Pred) (d a b : SReg) (m : RMode) (s : State) : Res :=
  .next (s.alu2 sl p d a b 4 fun x y => fres m (nadd m (fval x) (fval y).neg))

/-- FMUL (R172). -/
def execFmul (sl : SSlot) (p : Pred) (d a b : SReg) (m : RMode) (s : State) : Res :=
  .next (s.alu2 sl p d a b 4 fun x y => fres m (nmul (fval x) (fval y)))

/-- FMA (R172). -/
def execFma (sl : SSlot) (p : Pred) (d a b : SReg) (m : RMode) (s : State) : Res :=
  .next (s.alu3 sl p d a b 4 fun x y z => fres m (nfma m (fval x) (fval y) (fval z)))

/-- FNMA (R172). -/
def execFnma (sl : SSlot) (p : Pred) (d a b : SReg) (m : RMode) (s : State) : Res :=
  .next (s.alu3 sl p d a b 4 fun x y z => fres m (nfma m (fval x).neg (fval y) (fval z)))

/-- The smaller (`lo`) or larger of two FP32 patterns, −0 below +0, a NaN giving the other operand (R173). -/
def fpick (lo : Bool) (x y : Word) : Word × Flags :=
  let u := fval x
  let v := fval y
  let F := flagIf (u.isSig || v.isSig) fIV
  let xb : Word := (x.setWidth 32).setWidth 64
  let yb : Word := (y.setWidth 32).setWidth 64
  (if u.isNan && v.isNan then BitVec.ofNat 64 (canonNan .fp32)
    else if u.isNan then yb
    else if v.isNan then xb
    else if ncmpZ u v = (if lo then Ordering.gt else Ordering.lt) then yb else xb, F)

/-- FMIN (R173). -/
def execFmin (sl : SSlot) (p : Pred) (d a b : SReg) (s : State) : Res :=
  .next (s.alu2 sl p d a b 4 fun x y => fpick true x y)

/-- FMAX (R173). -/
def execFmax (sl : SSlot) (p : Pred) (d a b : SReg) (s : State) : Res :=
  .next (s.alu2 sl p d a b 4 fun x y => fpick false x y)

/-- The condition of FCMP between two values, with its flag (R174). -/
def fcondHolds (c : FCond) (u v : Num) : Bool × Flags :=
  let un := u.isNan || v.isNan
  let quietTraps := match c with | .lt | .ge | .gt | .le => true | _ => false
  let F := flagIf (u.isSig || v.isSig || (un && quietTraps)) fIV
  let o := ncmp u v
  (match c with
    | .eq => !un && o == .eq
    | .ne => un || o != .eq
    | .lt => !un && o == .lt
    | .ge => !un && o != .lt
    | .gt => !un && o == .gt
    | .le => !un && o != .gt
    | .un => un, F)

/-- FCMP; latency 4 (R174). -/
def execFcmp (sl : SSlot) (p : Pred) (d : PReg) (a b : SReg) (c : FCond) (s : State) : Res :=
  .next (s.cmp2 sl p d a b 4 fun x y => fcondHolds c (fval x) (fval y))

/-- An integer result of FCVT (R176). -/
def cvtInt (t : ITy) (m : RMode) (x : Num) : Word × Flags :=
  let (z, f) := roundToInt t.width t.signed m x
  (wrapWord z, f)

/-- A floating result of FCVT (R176). -/
def cvtFmt (f : Fmt) (m : RMode) (x : Num) : Word × Flags :=
  let (r, F) := roundTo f m x
  (BitVec.ofNat 64 r, F)

/-- FCVT's result by kind (R176). -/
def fcvt (k : CvtKind) (m : RMode) (x : Word) : Word × Flags :=
  match k with
  | .i64Fp32 => cvtInt .i64 m (fval x)
  | .i32Fp32 => cvtInt .i32 m (fval x)
  | .n64Fp32 => cvtInt .n64 m (fval x)
  | .n32Fp32 => cvtInt .n32 m (fval x)
  | .fp32I64 => cvtFmt .fp32 m (.ofInt (ival .i64 x))
  | .fp32N64 => cvtFmt .fp32 m (.ofInt (ival .n64 x))
  | .bf16Fp32 => cvtFmt .bf16 m (fval x)
  | .fp16Fp32 => cvtFmt .fp16 m (fval x)
  | .fp32Bf16 => cvtFmt .fp32 .rne (value .bf16 (x.toNat % 2 ^ 16))
  | .fp32Fp16 => cvtFmt .fp32 .rne (value .fp16 (x.toNat % 2 ^ 16))

/-- FCVT (R176). -/
def execFcvt (sl : SSlot) (p : Pred) (d a : SReg) (k : CvtKind) (m : RMode) (s : State) : Res :=
  .next (s.alu1 sl p d a 4 fun x => fcvt k m x)

/-- FSGN's result: the magnitude of x with a sign from both (R175). -/
def fsgn (o : SgnOp) (x y : Word) : Word :=
  let sg := match o with
    | .cp => y.getLsbD 31
    | .neg => !y.getLsbD 31
    | .xor => x.getLsbD 31 != y.getLsbD 31
  setBit ((x.setWidth 31).setWidth 64) 31 sg

/-- FSGN (R175). -/
def execFsgn (sl : SSlot) (p : Pred) (d a b : SReg) (o : SgnOp) (s : State) : Res :=
  .next (s.alu2 sl p d a b 4 fun x y => pure0 (fsgn o x y))

/-- The FP32 divide and square-root unit is occupied for 14 ticks (R43, R177). -/
def State.fpDivide (s : State) (p : Pred) (d a b : SReg) (f : Word → Word → Word × Flags) : State :=
  s.when p 2 fun s =>
    if s.iss.pre.fdiv ≠ 0 then s.fault 2 (schedFault 0x01)
    else
      let x := s.opnd .b a
      let y := s.opnd .b b
      (s.modMe fun k => { k with fdiv := 14 }).postScalar 2 .b d 14 (f x.v y.v).1 (f x.v y.v).2 (x.pois || y.pois)
        (regKeys .b [a, b])

/-- FDIV (R177). -/
def execFdiv (p : Pred) (d a b : SReg) (m : RMode) (s : State) : Res :=
  .next (s.fpDivide p d a b fun x y => fres m (ndiv (fval x) (fval y)))

/-- FSQRT (R177). -/
def execFsqrt (p : Pred) (d a : SReg) (m : RMode) (s : State) : Res :=
  .next (s.fpDivide p d a a fun x _ => fres m (nsqrt (fval x)))

end Sys2Proof.Machine
end

