-- ==== Sys2Proof/Machine/HostPort.lean ====
section
/-! DEFINITION. The host port and the storage port (chapter 14): host and SSD accesses, back-invalidation (R248, R249), command
slots and their kinds (R342 to R346), the peer aperture (R348), timeouts (R349, R353), and the accesses of supervisor cores
(R279). -/

namespace Sys2Proof.Machine

/-! ## Accesses by a master that has no translation -/

/-- Some byte of a device address range satisfies a predicate on linear addresses, line by line. -/
def State.anyLine (s : State) (da n : Nat) (p : Nat → Bool) : Bool :=
  (linePieces (n / 64 + 2) da n).any fun x => match s.linearOf x.1 with | some a => p a | none => false

/-- The host holds a line of a range (R248). -/
def State.rangeHeld (s : State) (da n : Nat) : Bool := s.anyLine da n fun a => s.hostLines.contains (a / 64)

/-- The lines of a range. -/
def State.rangeLines (s : State) (da n : Nat) : List Nat :=
  ((linePieces (n / 64 + 2) da n).filterMap fun x => (s.linearOf x.1).map (· / 64)).eraseDups

/-- Every line of a range has a target in processing memory, and one window of a master covers the range with the rights (R439). -/
def State.rangeAllowed (s : State) (mid da n : Nat) (r w : Bool) : Bool :=
  (linePieces (n / 64 + 2) da n).all (fun x => s.hasTarget x.1) && (s.frisk mid da n r w).isSome

/-- A read by a master at a device address: poisoned data where the target refuses it or there is none, with its permission event
(R341, R439), or where a port does not complete it in time (R349, R353). Data of the storage window and of the host's own space comes
from outside. -/
def State.masterRead (s : State) (mid da n : Nat) : State × Option (List Byte) :=
  match targetOf da with
  | .linear | .window =>
    if s.rangeAllowed mid da n true false then s.readMem mid da n else (s.permEvent mid da, none)
  | .config =>
    if n ≤ 8 && da / 8 == (da + n - 1) / 8 && s.friskConfig mid da n true false then
      let (s1, x) := s.configRead da n
      (s1, some x)
    else (s.permEvent mid da, none)
  | .storage =>
    if (s.frisk mid da n true false).isNone then (s.permEvent mid da, none)
    else
      let (s1, ok) := s.inTime
      if s.linkDown || !ok then (s1.storEvent mid, none) else let (s2, x) := s1.freeBytes n; (s2, some x)
  | .host =>
    if (s.frisk mid da n true false).isNone then (s.permEvent mid da, none)
    else
      let (s1, ok) := s.inTime
      if !ok then (s1.hportEvent mid, none) else let (s2, x) := s1.freeBytes n; (s2, some x)
  | _ => (s.permEvent mid da, none)

/-- A write by a master at a device address: dropped with its permission event where the target refuses it or there is none, or with
the port's event where it cannot be delivered in time (R349, R353). -/
def State.masterWrite (s : State) (mid da : Nat) (bs : List Byte) : State :=
  match targetOf da with
  | .linear | .window =>
    if s.rangeAllowed mid da bs.length true true then s.writeMem mid (addrBytes da bs) .keep else s.permEvent mid da
  | .config =>
    if bs.length ≤ 8 && da / 8 == (da + bs.length - 1) / 8 then s.configStore mid da bs else s.permEvent mid da
  | .storage =>
    if (s.frisk mid da bs.length false true).isNone then s.permEvent mid da
    else
      let (s1, ok) := s.inTime
      if s.linkDown || !ok then s1.storEvent mid else { s1 with ssdOut := (da, bs) :: s1.ssdOut }
  | .host =>
    if (s.frisk mid da bs.length false true).isNone then s.permEvent mid da
    else
      let (s1, ok) := s.inTime
      if ok then { s1 with hostOut := (da, bs) :: s1.hostOut } else s1.hportEvent mid
  | _ => s.permEvent mid da

/-! ## CXL.mem and back-invalidation -/

/-- The device address onto which a decoder maps a range of host physical addresses (R340); none where none does. -/
def State.hostDa (s : State) (hpa n : Nat) : Option Nat :=
  (s.hdm.toList.find? fun d => d.v && decide (d.hpa.toNat ≤ hpa) && decide (hpa + n ≤ d.hpa.toNat + d.len)).map fun d =>
    d.da + (hpa - d.hpa.toNat)

/-- What the host receives: the data, or CXL poison (R340). -/
def State.toHost (s : State) (x : Option (List Byte)) : State :=
  { s with hostData := x.getD [], hostPoison := x.isNone, hostReplies := x :: s.hostReplies }

/-- The lines of processing memory that a range of device addresses names, each with its device address. -/
def State.rangePairs (s : State) (da n : Nat) : List (Nat × Nat) :=
  ((linePieces (n / 64 + 2) da n).filterMap fun x => (s.linearOf x.1).map fun a => (a / 64, x.1 / 64 * 64)).eraseDups

/-- A request under one view recalls what the host holds under the other (R245). -/
def State.otherView (s : State) (da n : Nat) : State :=
  (s.rangePairs da n).foldl (fun s x => if s.heldAt x.1 = x.2 then s else s.recallLine x.1) s

/-- A read by CXL.mem at a device address (R340, R341): the host then holds the lines that it has read (R248). -/
def State.hostRead (s : State) (da n : Nat) : State :=
  let (s1, x) := (s.otherView da n).masterRead 0x080 da n
  let s2 := s1.toHost x
  if x.isSome then (s2.rangePairs da n).foldl (fun s y => s.grantLine y.1 y.2) s2 else s2

/-- A write by CXL.mem at a device address (R340, R341). -/
def State.hostWrite (s : State) (da : Nat) (bs : List Byte) : State := (s.otherView da bs.length).masterWrite 0x080 da bs

/-- BI_SNOOP_RESPONSE (R248): the host gives up a line; a dirty copy is written back at the address under which it was held (R245). In a
channel in self-refresh or behind a fence the write-back waits (R309, R313). -/
def execBiSnoopResponse (line : Nat) (dirty : Option (List Byte)) (s : State) : Res :=
  .next (if s.hostLines.contains line && !(dirty.isSome && s.rangeStalls (64 * line) 64) then
    match dirty with
    | some bs => (s.dropHost line).writeMem 0x080 (addrBytes (s.heldAt line) (bs.take 64)) .keep
    | none => s.dropHost line
  else s)

/-- HOST_SNOOP_TIMEOUT (R249): the host bit of the line is cleared, the line is marked as poisoned (log entry 90), and the owner is
told. -/
def execHostSnoopTimeout (line : Nat) (s : State) : Res :=
  .next (if s.hostLines.contains line then
    ({ s.dropHost line with poisLines := (line :: s.poisLines).eraseDups } : State).event .hcoh { cause := 0x22, mid := 0x0FF }
  else s)

/-! ## Command windows -/

/-- CWCTL_ENABLE: en goes from 0 to 1 (R342). -/
def State.windowOn (s : State) (f : FuncId) : State :=
  let x := s.func f
  if x.en then s
  else
    let s1 := s.setFunc f { x with en := true, e := 1, h := 0, ph := true, pubs := [] }
    let s2 := s1.deviceWrite (funcMid f) x.cq (List.replicate 2048 0)
    s2.setFunc f { s2.func f with rdy := true }

/-- CWCTL_DISABLE: en goes from 1 to 0; rdy reads 0 once all consumed work has completed (R342). -/
def State.windowOff (s : State) (f : FuncId) : State :=
  let x := s.func f
  if x.en then s.setFunc f { x with en := false, rdy := x.rdy && !x.owed.isEmpty } else s

/-- A write at an offset of BAR0 reaches the publishing word of a slot. -/
def publishes (off n : Nat) : Bool := (List.range 64).any fun i => decide (off < 64 * i + 64) && decide (64 * i + 60 < off + n)

/-- The publishing values that a write at an offset of BAR0 gives its slots, with their indices. -/
def published (off : Nat) (bs : List Byte) : List (Nat × Word32) :=
  (List.range 64).filterMap fun i =>
    if off ≤ 64 * i + 60 ∧ 64 * i + 64 ≤ off + bs.length then some (i, BitVec.ofNat 32 (fieldAt bs (64 * i + 60 - off) 4)) else none

/-- Note publishing values that the host has written (R344). -/
def Func.publish (x : Func) (ps : List (Nat × Word32)) : Func :=
  { x with pubs := ps ++ x.pubs.filter fun y => !ps.any fun p => p.1 == y.1 }

/-- A write of BAR0 (R342, R344): a slot's is stored at CWBASE + offset; one of CWCTL's first byte sets en. -/
def State.slotWrite (s : State) (f : FuncId) (off : Nat) (bs : List Byte) : State :=
  let x := s.func f
  if off = 0x1000 then
    match bs with
    | b :: _ => if b.getLsbD 0 then s.windowOn f else s.windowOff f
    | [] => s
  else ((s.setFunc f (x.publish (published off bs))).recallRange (x.cw + off) bs.length).masterWrite (funcMid f) (x.cw + off) bs

/-- The host physical address of BAR0 of function 0; each function has 8 KiB (R342; DESIGN CHOICE, log entry 94). -/
def barBase : Nat := 2 ^ 52

/-- The function and the offset of BAR0 that a read of host physical addresses names. -/
def barAt (hpa n : Nat) : Option (FuncId × Nat) :=
  let f := (hpa - barBase) / 0x2000
  if h : barBase ≤ hpa ∧ f < 97 ∧ (hpa - barBase) % 0x2000 + n ≤ 0x2000 then some (⟨f, h.2.1⟩, (hpa - barBase) % 0x2000) else none

/-- A read of BAR0 (R342): the stored words of the slots; CWCTL and CWSTAT; elsewhere free values (log entry 18). -/
def State.barRead (s : State) (f : FuncId) (off n : Nat) : State :=
  let x := s.func f
  if off + n ≤ 0x1000 then
    let (s1, b) := (s.recallRange (x.cw + off) n).masterRead (funcMid f) (x.cw + off) n
    s1.toHost b
  else if 0x1000 ≤ off ∧ off + n ≤ 0x1010 then
    s.toHost (some (((leBytes 8 x.cwctl.toNat ++ leBytes 8 x.cwstat.toNat).drop (off - 0x1000)).take n))
  else let (s1, b) := s.freeBytes n; s1.toHost (some b)

/-- The words of a slot. -/
def slotWords (bs : List Byte) : List Nat := (List.range 16).map fun i => fieldAt bs (4 * i) 4

/-- The kind of a slot. -/
def slotKind (w : List Nat) : Nat := w.getD 0 0 % 256

/-- The number of patches. -/
def slotNp (w : List Nat) : Nat := w.getD 0 0 / 256 % 4

/-- A slot breaks the layout of R343: a reserved kind, a zero field that is not zero, np or pri set on a kind other than RUN. -/
def slotInvalid (w : List Nat) : Bool :=
  let kind := slotKind w
  let np := if kind = 1 then slotNp w else 0
  decide (3 < kind) || decide (w.getD 0 0 / 2 ^ 12 ≠ 0) || (kind != 1 && decide (w.getD 0 0 / 256 % 16 ≠ 0)) ||
    ((kind == 0 || kind == 3) && w.getD 2 0 != 0) || w.getD 14 0 != 0 ||
    ((List.range 9).any fun i => decide (3 * np ≤ i) && w.getD (4 + i) 0 != 0) ||
    (List.range np).any fun i => decide (64 ≤ w.getD (4 + 3 * i) 0)

/-- Apply the patches of a RUN in ascending order, all in one step (R345, R400). -/
def State.patch (s : State) (q : PartId) (w : List Nat) : State :=
  (List.range (slotNp w)).foldl (fun s i =>
    s.setGp q (BitVec.ofNat 6 (w.getD (4 + 3 * i) 0))
      (BitVec.ofNat 64 (w.getD (5 + 3 * i) 0 + w.getD (6 + 3 * i) 0 * 2 ^ 32))) s

/-! ## Graph records -/

/-- A launch entry (R361); `i` is its index. None when it breaks the layout. -/
def parseLaunch (b : List Byte) (i : Nat) : Option Launch :=
  let nx := fieldAt b 8 2
  let ny := fieldAt b 0x0A 2
  let nz := fieldAt b 0x0C 2
  let dva := fieldAt b 0 8
  let preds := fieldAt b 0x10 8
  if dva % 1024 = 0 ∧ dimsOk nx ny nz ∧ fieldAt b 0x0E 2 = 0 ∧ preds < 2 ^ i ∧ fieldAt b 0x18 8 = 0 then
    some { dva := dva, nx := nx, ny := ny, nz := nz, preds := BitVec.ofNat 64 preds }
  else none

/-- All of a list, or none. -/
def allSome {α : Type} : List (Option α) → Option (List α)
  | [] => some []
  | none :: _ => none
  | some x :: t => (allSome t).map (x :: ·)

/-- A companion field: none when it breaks the layout; else the handle, if valid. -/
def parseComp (v : Nat) : Option (Option Nat) :=
  if v / 2 ^ 12 % 8 ≠ 0 then none else some (if v / 2 ^ 15 = 1 then some (v % 2 ^ 12) else none)

/-- The launches of a graph record; none when it breaks the layout (R361). -/
def parseLaunches (b : List Byte) : Option (List Launch) :=
  let nl := fieldAt b 0 4
  if nl = 0 ∨ 64 < nl ∨ fieldAt b 4 4 ≠ 0 ∨ !allZero ((b.drop 0x0E).take 18) then none
  else allSome ((List.range nl).map fun i => parseLaunch ((b.drop (0x20 + 32 * i)).take 32) i)

/-- The companions that a graph record names; none when a field breaks the layout (R361). -/
def parseComps (b : List Byte) : Option (List (Option Nat)) := allSome ([8, 0x0A, 0x0C].map fun o => parseComp (fieldAt b o 2))

/-- The number of handles of a partition, and the address of a handle's record (R360). -/
def Part.graphAt (p : Part) (g : Nat) : Option Nat :=
  if g < bits p.gtab 11 0 then some (bits p.gtab 47 12 * 4096 + 4096 * g) else none

/-- The device address range of a graph record stalls (R29, R309, R313). -/
def State.graphStalls (s : State) (q : PartId) (g : Nat) : Bool :=
  match (s.part q).graphAt g with | some da => s.rangeStalls da 0x820 | none => false

/-- Read a graph record under the master ID of a chase's task scheduler (R359, R361), once the host has given up its lines (R276). -/
def State.readGraph (s : State) (q : PartId) (g : Nat) : State × Option (List Byte) :=
  match (s.part q).graphAt g with
  | none => (s, none)
  | some da => (s.recallRange da 0x820).readMem (schedMid (s.anyChase q)) da 0x820

/-- Read the records of the companions, whose own companion fields are ignored: a companion that is not valid is an empty graph. -/
def State.readComps (s : State) (q : PartId) : List (Option Nat) → State × Option (List (List Launch))
  | [] => (s, some [])
  | none :: t => let (s1, x) := s.readComps q t; (s1, x.map ([] :: ·))
  | some g :: t =>
    let (s1, x) := s.readGraph q g
    let (s2, y) := s1.readComps q t
    (s2, match x.bind parseLaunches, y with | some ls, some ys => some (ls :: ys) | _, _ => none)

/-- The record of a handle, or one of its companions', cannot be read now. -/
def State.graphsStall (s : State) (q : PartId) (g : Nat) : Bool :=
  s.graphStalls q g ||
    match (s.readGraph q g).2.bind parseComps with
    | some cs => cs.any fun c => match c with | some g => s.graphStalls q g | none => false
    | none => false

/-- The graphs of a job (R361). -/
def State.jobGraphs (s : State) (q : PartId) (g : Nat) : State × Option (List (List Launch)) :=
  let (s1, x) := s.readGraph q g
  match x.bind parseLaunches, x.bind parseComps with
  | some ls, some cs => let (s2, y) := s1.readComps q cs; (s2, y.map (ls :: ·))
  | _, _ => (s1, none)

/-- The lowest-numbered free job slot (R361). -/
def Part.freeJob (p : Part) : Option (Fin 16) := (List.finRange 16).find? fun j => !(p.jobs.get j).live

/-! ## Consumption -/

/-- What a slot is when it is consumed: its index, utag, publishing value and phase. -/
structure SlotUse where
  h : Nat
  utag : Word32
  seq : Word32
  ph : Bool
  deriving DecidableEq, Repr

/-- The record of a slot that ends at once. -/
def State.slotRecord (s : State) (f : FuncId) (u : SlotUse) (status : Nat) : State := s.record f u.h u.utag u.seq 0 0 status u.ph

/-- A RUN (R345, R361): an unknown handle, or a record that breaks its layout, ends it with status 0x02; else the job starts. -/
def State.runSlot (s : State) (f : FuncId) (u : SlotUse) (w : List Nat) : State :=
  match (s.func f).part with
  | none => s.slotRecord f u 2
  | some q =>
    match (s.part q).graphAt (w.getD 2 0), (s.part q).freeJob with
    | some _, some j =>
      let (s1, gs) := (s.patch q w).jobGraphs q (w.getD 2 0)
      match gs with
      | none => s1.slotRecord f u 2
      | some gs =>
        (s1.setJob q j { live := true, pri := BitVec.ofNat 2 (w.getD 0 0 / 2 ^ 10), graphs := gs, func := f, slot := u.h
                         utag := u.utag, seq := u.seq, phase := u.ph }).advance q j
    | _, _ => s.slotRecord f u 2

/-- The job of the RUN slot of a function that has a publishing value. -/
def Part.jobOf (p : Part) (f : FuncId) (seq : Word32) : Option (Fin 16) :=
  (List.finRange 16).find? fun j => let x := p.jobs.get j; x.live && x.func == f && x.seq == seq

/-- A cancel of a job would discard a launch or stop a task (R364, R365). -/
def State.cancellable (s : State) (q : PartId) (j : Fin 16) : Bool :=
  let jb := s.job q j
  jb.failed.isNone && (jb.launches.any (fun l => !l.released && !l.isOver) ||
    s.tasks.any fun t => t.2.q == q && t.2.job == j && t.2.st != .ending)

/-- A CANCEL (R345, R346): exactly one of the two outcomes of R346. -/
def State.cancelSlot (s : State) (f : FuncId) (u : SlotUse) (w : List Nat) : State :=
  match (s.func f).part with
  | none => s.slotRecord f u 5
  | some q =>
    match (s.part q).jobOf f (BitVec.ofNat 32 (w.getD 2 0)) with
    | none => s.slotRecord f u 5
    | some j =>
      if s.cancellable q j then
        ((s.modJob q j fun x => { x with wasCancelled := true }).cancel q j true fun _ _ => true).slotRecord f u 0
      else s.slotRecord f u 5

/-- The device address of the slot at a function's next index. -/
def Func.slotAt (x : Func) : Nat := x.cw + 64 * x.h.toNat

/-- Read the slot at a function's next index, once the host has given up its line (R276, R342): none for poisoned data. -/
def State.readSlot (s : State) (f : FuncId) : State × Option (List Nat) :=
  let da := (s.func f).slotAt
  let (s1, b) := (s.recallRange da 64).readMem (funcMid f) da 64
  (s1, b.map slotWords)

/-- The slot at a function's next index is published and may be consumed: the window is enabled, no sleep has begun (R430), the
record of the index's previous use is written, and S15 reads E (R344); or its read delivers poisoned data, which its record reports
(R342), and the host has written E there. -/
def State.slotReady (s : State) (f : FuncId) : Bool :=
  let x := s.func f
  x.en && x.rdy && s.slp == .running && !x.owed.contains x.h.toNat && !s.rangeStalls x.slotAt 64 &&
    match (s.readSlot f).2 with
    | some w => BitVec.ofNat 32 (w.getD 15 0) == x.e
    | none => x.pubs.contains (x.h.toNat, x.e)

/-- Consume the slot at a function's next index: E, h and ph advance, and its record is owed (R344). -/
def State.takeSlot (s : State) (f : FuncId) : State × SlotUse × Option (List Nat) :=
  let x := s.func f
  let (s1, words) := s.readSlot f
  let h1 : BitVec 6 := x.h + 1
  let s2 := s1.setFunc f { x with
    e := if x.e = 0xFFFFFFFF then 1 else x.e + 1
    h := h1, ph := if h1 = 0 then !x.ph else x.ph, owed := x.owed ++ [x.h.toNat] }
  (s2, ⟨x.h.toNat, match words with | some w => BitVec.ofNat 32 (w.getD 1 0) | none => 0, x.e, x.ph⟩, words)

/-- The slot is a RUN, which waits for a free job slot (R361), or for a graph record in an open region or a channel where reads wait (R29,
R309, R313). -/
def State.jobsFull (s : State) (f : FuncId) (w : List Nat) : Bool :=
  slotKind w == 1 && !slotInvalid w &&
    match (s.func f).part with
    | some q => (s.part q).freeJob.isNone || s.graphsStall q (w.getD 2 0)
    | none => false

/-- The slot is a valid FENCE. -/
def isFence (w : Option (List Nat)) : Bool := match w with | some w => slotKind w == 3 && !slotInvalid w | none => false

/-- The consumption of a slot that is not a FENCE, and what its kind does (R345). -/
def State.consume (s : State) (f : FuncId) (u : SlotUse) (w : Option (List Nat)) : State :=
  match w with
  | none => s.slotRecord f u 6
  | some w =>
    if slotInvalid w then s.slotRecord f u 1
    else match slotKind w with
      | 1 => s.runSlot f u w
      | 2 => s.cancelSlot f u w
      | _ => s.slotRecord f u 0

/-- The pending inputs of the function's partition are checked again at a consumption (R367). -/
def State.recheckOf (s : State) (f : FuncId) : State :=
  match (s.func f).part with
  | some q => s.recheck q
  | none => s

/-- SLOT_CONSUME (R344, R345): a published slot of kind NOP, RUN or CANCEL, or an invalid one. -/
def execSlotConsume (f : FuncId) (s : State) : Res :=
  .next (if s.slotReady f then
    let (s1, u, w) := s.takeSlot f
    if isFence w || (match w with | some w => s.jobsFull f w | none => false) then s
    else (s1.consume f u w).recheckOf f
  else s)

/-- SLOT_FENCE (R345): the record follows those of every earlier-consumed slot. -/
def execSlotFence (f : FuncId) (s : State) : Res :=
  .next (if s.slotReady f then
    let (s1, u, w) := s.takeSlot f
    if isFence w then
      let x := s1.func f
      let s2 := s1.setFunc f { x with fences := x.fences ++ [(u.h, u.utag, u.seq, u.ph, (s.func f).owed)] }
      (s2.answerFences f 64).recheckOf f
    else s
  else s)

/-! ## The peer aperture -/

/-- The device address of an aperture offset; none when the aperture does not decode (R348). -/
def Func.aperture (x : Func) (off : Nat) : Option Nat :=
  if x.pacfg.getLsbD 0 && decide (off < 2 ^ 36) then some (bits x.pacfg 47 36 * 2 ^ 36 + off) else none

/-- A write through a peer aperture (R348). A line that the host holds is recalled first (R248). -/
def State.peerWrite (s : State) (f : FuncId) (off : Nat) (bs : List Byte) : State :=
  match (s.func f).aperture off with
  | none => s.permEvent (funcMid f) off
  | some da => (s.recallRange da bs.length).masterWrite (funcMid f) da bs

/-- A read through a peer aperture (R348). -/
def State.peerRead (s : State) (f : FuncId) (off n : Nat) : State :=
  match (s.func f).aperture off with
  | none => (s.permEvent (funcMid f) off).toHost none
  | some da =>
    let (s1, x) := (s.recallRange da n).masterRead (funcMid f) da n
    s1.toHost x

/-! ## Accesses of the host -/

/-- The range of device addresses that an access of the host touches. -/
def State.accRange (s : State) : HostAcc → Nat × Nat
  | .memRead hpa n =>
    match barAt hpa n, s.hostDa hpa n with
    | some (f, off), _ => if off + n ≤ 0x1000 then ((s.func f).cw + off, n) else (0, 0)
    | none, some da => (da, n)
    | none, none => (0, 0)
  | .memWrite hpa bs => match s.hostDa hpa bs.length with | some da => (da, bs.length) | none => (0, 0)
  | .slotWrite f off bs =>
    if off = 0x1000 then (match bs with | b :: _ => if b.getLsbD 0 then ((s.func f).cq, 2048) else (0, 0) | [] => (0, 0))
    else ((s.func f).cw + off, bs.length)
  | .window f on => if on then ((s.func f).cq, 2048) else (0, 0)
  | .peerWrite f off bs => match (s.func f).aperture off with | some da => (da, bs.length) | none => (0, 0)
  | .peerRead f off n => match (s.func f).aperture off with | some da => (da, n) | none => (0, 0)
  | .ring _ | .reg .. => (0, 0)

/-- An access of the host that starts a wake (R431): one by CXL.mem, or a write of the publishing word of an enabled window. -/
def State.accWakes (s : State) : HostAcc → Bool
  | .memRead hpa n => (barAt hpa n).isNone
  | .memWrite .. => true
  | .slotWrite f off bs => (s.func f).en && publishes off bs.length
  | _ => false

/-- A write by CXL.mem of SLPCTL, which stays in power (R429, R430). -/
def State.accIsland (s : State) : HostAcc → Bool
  | .memWrite hpa bs => match s.hostDa hpa bs.length with | some da => decide (slpReg ≤ da) && decide (da < slpReg + 8) | none => false
  | _ => false

/-- What an access of the host does. -/
def State.accDo (s : State) : HostAcc → State
  | .memRead hpa n =>
    match barAt hpa n, s.hostDa hpa n with
    | some (f, off), _ => s.barRead f off n
    | none, some da => s.hostRead da n
    | none, none => s
  | .memWrite hpa bs => match s.hostDa hpa bs.length with | some da => s.hostWrite da bs | none => s
  | .slotWrite f off bs => s.slotWrite f off bs
  | .window f on => if on then s.windowOn f else s.windowOff f
  | .peerWrite f off bs => s.peerWrite f off bs
  | .peerRead f off n => s.peerRead f off n
  | .ring v => s.setRgidx .device 0x080 v
  | .reg mid addr v => s.configStore mid addr (leBytes 8 v.toNat)

/-- An access of the host waits: a line of its range lies in an open region, or in a channel in self-refresh or behind a fence (R29, R309,
R311, R313). -/
def State.accStalls (s : State) (x : HostAcc) : Bool := s.rangeStalls (s.accRange x).1 (s.accRange x).2

/-- An access of the host: in sleep it is held, and may start a wake (R431); where it stalls it waits. -/
def State.hostAccess (s : State) (x : HostAcc) : State :=
  if !s.awake then (if s.accIsland x then (s.accDo x).wakeAsk else s.holdHost x (s.accWakes x))
  else if s.accStalls x then s else s.accDo x

/-- HOST_MEM_READ (R340 to R342) of host physical addresses that a decoder maps, or of BAR0. -/
def execHostMemRead (da : Nat) (size : Nat) (s : State) : Res :=
  .next (if (barAt da size).isNone && (s.hostDa da size).isNone then s else s.hostAccess (.memRead da size))

/-- HOST_MEM_WRITE (R340, R341) of host physical addresses that a decoder maps. -/
def execHostMemWrite (da : Nat) (bytes : List Byte) (s : State) : Res :=
  .next (if (s.hostDa da bytes.length).isNone then s else s.hostAccess (.memWrite da bytes))

/-- CWCTL_ENABLE (R342). -/
def execCwctlEnable (f : FuncId) (s : State) : Res := .next (s.hostAccess (.window f true))

/-- CWCTL_DISABLE (R342). -/
def execCwctlDisable (f : FuncId) (s : State) : Res := .next (s.hostAccess (.window f false))

/-- COMMAND_SLOT_WRITE (R342, R344) of the slots or of CWCTL. -/
def execCommandSlotWrite (f : FuncId) (off : Nat) (bytes : List Byte) (s : State) : Res :=
  .next (if 0x1000 < off + bytes.length ∧ off ≠ 0x1000 then s else s.hostAccess (.slotWrite f off bytes))

/-- PEER_APERTURE_WRITE (R348). -/
def execPeerApertureWrite (f : FuncId) (off : Nat) (bytes : List Byte) (s : State) : Res :=
  .next (s.hostAccess (.peerWrite f off bytes))

/-- PEER_APERTURE_READ (R348). -/
def execPeerApertureRead (f : FuncId) (off : Nat) (size : Nat) (s : State) : Res := .next (s.hostAccess (.peerRead f off size))

/-! ## Timeouts -/

/-- The load waits for the host window. -/
def isHostLate : Late → Bool
  | .host _ => true
  | _ => false

/-- The load waits for the storage window. -/
def isStorLate : Late → Bool
  | .stor _ => true
  | _ => false

/-- The oldest load of a core that waits for a kind of data receives poisoned data in its place; `tell` reports it. None of that
kind is left as it is. -/
def State.failLoad (s : State) (c : CoreId) (sel : Late → Bool) (tell : State → State) : Option State :=
  let k := s.core c
  match k.infl.findIdx? fun e => sel e.late && k.arrivable e with
  | none => none
  | some i => some ((tell (s.modCore c fun k => { k with infl := k.infl.modify i (Entry.arrive 0 true) })).afterAccess c
      (match k.infl[i]? with | some e => e.mark.kids | none => []))

/-- What a store writes at a target is dropped; when nothing else is left of it, the store is gone. -/
def PendStore.dropAt (x : PendStore) (t : Target) : PendStore := { x with bytes := x.bytes.filter fun b => targetOf b.1 != t }

/-- The oldest store of a core that writes at a port is dropped there; `tell` reports it. -/
def State.failStore (s : State) (c : CoreId) (t : Target) (tell : State → State) : State :=
  let k := s.core c
  match k.stores.findIdx? fun x => x.bytes.any fun b => targetOf b.1 == t with
  | none => s
  | some i =>
    match k.stores[i]? with
    | none => s
    | some x =>
      let left := (x.dropAt t).bytes
      (tell (s.modCore c fun k => { k with
        stores := if left.isEmpty then k.stores.eraseIdx i else k.stores.modify i fun x => x.dropAt t })).afterAccess c
          (if left.isEmpty then x.kids else [])

/-- An access of a core to a window gets no completion: its oldest load there is poisoned, or else its oldest store there is
dropped; `tell` reports it. -/
def State.windowTimeout (s : State) (c : CoreId) (sel : Late → Bool) (t : Target) (tell : State → State) : State :=
  (s.failLoad c sel tell).getD (s.failStore c t tell)

/-- HOST_WINDOW_TIMEOUT (R349). -/
def execHostWindowTimeout (c : CoreId) (s : State) : Res :=
  .next (s.windowTimeout c isHostLate .host fun s => s.hportEvent c.val)

/-- STORAGE_TIMEOUT (R353). -/
def execStorageTimeout (c : CoreId) (s : State) : Res :=
  .next (s.windowTimeout c isStorLate .storage fun s => s.storEvent c.val)

/-! ## The SSD -/

/-- The SSD's master ID (R436). -/
def ssdMid : Nat := 0x0F0

/-- An access of the SSD beyond its windows: a refusal at a target, and a storage event (R352, R439). -/
def State.ssdRefused (s : State) (da : Nat) : State := (s.permEvent ssdMid da).storEvent ssdMid

/-- Read one line's part as the SSD: plaintext, or the stored ciphertext through a paging window, of what every earlier write has made;
poisoned beyond its windows, and where the row cannot be read (R352, R444, R474). -/
def State.ssdPiece (s : State) (da n : Nat) : State × Option (List Byte) :=
  match s.linearOf da, s.frisk ssdMid da n true false with
  | some a, some w =>
    if windowPaging w then
      let t := a / 4096
      let s0 := (s.rowRead t).dropStale t
      let s1 := s0.toRaw t
      (s1, if s.rowBad t || s.badRows.contains t then none else some (sbytes s1.mem a n))
    else s.fill ssdMid da n
  | _, _ => (s.ssdRefused da, none)

/-- Read the pieces of a range as the SSD. -/
def State.ssdPieces (s : State) : List (Nat × Nat) → State × Option (List Byte)
  | [] => (s, some [])
  | (a, n) :: t =>
    let (s1, x) := s.ssdPiece a n
    let (s2, y) := s1.ssdPieces t
    (s2, match x, y with | some x, some y => some (x ++ y) | _, _ => none)

/-- SSD_MEM_READ (R352, R444). -/
def execSsdMemRead (da : Nat) (size : Nat) (s : State) : Res :=
  .next (if s.rangeStalls da size || s.rangeHeld da size || !s.awake then s
    else
      let (s1, x) := s.ssdPieces (linePieces (size / 64 + 2) da size)
      { s1 with ssdData := x.getD [], ssdPoison := x.isNone })

/-- Write one line's part as the SSD: sealed, or as ciphertext through a paging window; dropped beyond its windows (R352,
R444). -/
def State.ssdPut (s : State) (da : Nat) (bs : List Byte) : State :=
  match s.linearOf da, s.frisk ssdMid da bs.length false true with
  | some a, some w =>
    if windowPaging w then
      let t := a / 4096
      let s1 := ((s.rowRead t).dropStale t).toRaw t
      ({ s1 with
        mem := sputBytes s1.mem a bs, badRows := if bs.length = 4096 then s1.badRows.filter (· != t) else s1.badRows } :
        State).rowWritten t
    else if (s.frisk ssdMid da bs.length true true).isSome then s.writeMem ssdMid (addrBytes da bs) .keep
    else s.ssdRefused da
  | _, _ => s.ssdRefused da

/-- Write the pieces of a range as the SSD. -/
def State.ssdPuts (s : State) : List (Nat × Nat) → List Byte → State
  | [], _ => s
  | (a, n) :: t, bs => (s.ssdPut a (bs.take n)).ssdPuts t (bs.drop n)

/-- A range cut at tiles. -/
def tilePieces (da n : Nat) : List (Nat × Nat) := cutAt 4096 (n / 4096 + 2) da n

/-- SSD_MEM_WRITE (R278, R352, R444). -/
def execSsdMemWrite (da : Nat) (bytes : List Byte) (s : State) : Res :=
  .next (if s.rangeStalls da bytes.length || s.rangeHeld da bytes.length || !s.awake then s
    else s.ssdPuts (tilePieces da bytes.length) bytes)

/-- The record of a tile as bytes (R441). -/
def TileRec.bytes (r : TileRec) : List Byte :=
  leBytes 16 (match r.sl with | .raw g => g.toNat | _ => 0) ++ r.meta16

/-- A record from its bytes. -/
def parseRec (b : List Byte) : TileRec :=
  let f := BitVec.ofNat 8 (fieldAt b 0x15 1)
  let g := BitVec.ofNat 8 (fieldAt b 0x16 1)
  { sl := .raw (BitVec.ofNat 128 (fieldAt b 0 16)), version := BitVec.ofNat 32 (fieldAt b 0x10 4)
    keygen := BitVec.ofNat 8 (fieldAt b 0x14 1), ftag := f.extractLsb' 0 4, poison := g.getLsbD 0, esc := g.getLsbD 1
    eb := BitVec.ofNat 16 (fieldAt b 0x17 2)
    rest := (BitVec.ofNat 56 (fieldAt b 0x19 7)) ++ (g.extractLsb' 2 6 ++ f.extractLsb' 4 4) }

/-- SSD_METADATA_ACCESS (R444): the record of a tile of a paging window, read or replaced; refused elsewhere. -/
def execSsdMetadataAccess (da : Nat) (write : Option (List Byte)) (s : State) : Res :=
  .next (
    if targetOf da ≠ .aperture then s
    else
      let t := (da - 0x0200_0000_0000) / 32
      let w := s.frisk ssdMid (t * 4096) 4096 write.isNone write.isSome
      if decide (t * 4096 < s.memTop) && (match w with | some w => windowPaging w | none => false) then
        if s.anyRegion (t * 4096) || s.tileWaits t then s
        else
          let s1 := ((s.rowRead t).dropStale t).toRaw t
          match write with
          | none =>
            let bad := s.rowBad t || s.badRows.contains t
            { s1 with ssdData := if bad then [] else (s1.tileRec t).bytes, ssdPoison := bad }
          | some bs => if bs.length = 32 then s1.setRec t (parseRec bs) else s
      else
        let s1 := s.permEvent ssdMid da
        match write with
        | none => { s1 with ssdData := [], ssdPoison := true }
        | some _ => s1)

/-- SSD_MSIX (R350): bit q of SPINT, and a storage event. -/
def execSsdMsix (q : Fin 64) (s : State) : Res :=
  .next ({ s with spint := s.spint ||| (1 <<< q.val) }.storEvent ssdMid)

/-- The storage loads of a core that wait end as timed out when the link goes down; `n` bounds them (R353). -/
def State.dropStorage (s : State) (c : CoreId) : Nat → State
  | 0 => s
  | n + 1 =>
    match s.failLoad c isStorLate fun s => s.storEvent c.val with
    | some t => t.dropStorage c n
    | none => s

/-- STORAGE_LINK_DOWN (R353). -/
def execStorageLinkDown (s : State) : Res :=
  .next ((List.finRange 96).foldl (fun s c => s.dropStorage c 48) { s with linkDown := true })

/-- STORAGE_LINK_UP (R353). -/
def execStorageLinkUp (s : State) : Res := .next { s with linkDown := false }

/-! ## Supervisor cores -/

/-- A supervisor's access ends in a RISC-V access fault: it writes no register (R439). -/
def State.supTrap (s : State) (h : ChaseId) : State :=
  s.setChase h { s.chase h with supData := none, supFault := true }

/-- A supervisor's access delivers a value, or nothing. -/
def State.supGive (s : State) (h : ChaseId) (v : Option Word) : State :=
  s.setChase h { s.chase h with supData := v, supFault := false }

/-- The bytes of a range read at target 5 by a supervisor: a side of its own chase, or a local memory (R451). -/
def State.storeReadable (s : State) (h : ChaseId) (da n : Nat) : Bool :=
  let o := da - configBase
  if o < 0x8000000 then true
  else s.friskConfig (supMid h) da n true false

/-- A supervisor's load (R279, R439). -/
def State.supLoad (s : State) (h : ChaseId) (da n : Nat) : State :=
  let low := decide (targetOf da = .config) && decide (0x0F00_0800_0000 ≤ da)
  if low then
    if s.storeReadable h da n then
      let (s1, bs) := s.configRead da n
      s1.supGive h (some (BitVec.ofNat 64 (ofLe bs)))
    else (s.permEvent (supMid h) da).supTrap h
  else
    let (s1, x) := s.masterRead (supMid h) da n
    match x with
    | some bs => s1.supGive h (some (BitVec.ofNat 64 (ofLe bs)))
    | none => s1.supTrap h

/-- A supervisor's store: a refused write is dropped (R439), and at a core's side it is a fault of the writer (R59). -/
def State.supStore (s : State) (h : ChaseId) (da : Nat) (bs : List Byte) : State :=
  if targetOf da = .config ∧ 0x0F00_0800_0000 ≤ da then
    let (s1, ok) := s.configWrite (supMid h) da bs
    if ok then s1.supGive h none
    else if da < 0x0F00_0C00_0000 then (s.permEvent (supMid h) da).supTrap h
    else (s.permEvent (supMid h) da).supGive h none
  else (s.masterWrite (supMid h) da bs).supGive h none

/-- A supervisor's atomic: an operation of R291 on 8 bytes of processing memory, and no other form; elsewhere it is refused (R279 leaves
the forms to RISC-V; DESIGN CHOICE, log entry 99). -/
def State.supAmo (s : State) (h : ChaseId) (o : AmoOp) (da : Nat) (v : Word) : State :=
  if (targetOf da ≠ .linear ∧ targetOf da ≠ .window) ∨ (s.frisk (supMid h) da 8 true true).isNone then
    (s.permEvent (supMid h) da).supTrap h
  else
    let (s1, x) := s.readMem (supMid h) da 8
    match x with
    | some bs =>
      let old : Word := BitVec.ofNat 64 (ofLe bs)
      (s1.masterWrite (supMid h) da (leBytes 8 (amoFn o old v).toNat)).supGive h (some old)
    | none => s1.supTrap h

/-- The bytes that a supervisor's operation touches. -/
def supSpan : SupOp → Nat × Nat
  | .load a n => (a, n)
  | .store a bs => (a, bs.length)
  | .amo _ a _ => (a, 8)
  | .fence => (0, 0)

/-- A supervisor core runs: Make-ready has been started (R452), and the logic die has power (R430). -/
def State.supervised (s : State) : Bool := s.booted && s.awake

/-- SUPERVISOR_ACCESS (R279, R439, R451): a load, store or atomic of a supervisor core, after its own translation, or a fence. An
access to an open region stalls; a line that the host holds is recalled first (R248). -/
def execSupervisorAccess (h : ChaseId) (op : SupOp) (s : State) : Res :=
  .next (
    if !s.supervised || s.rangeStalls (supSpan op).1 (supSpan op).2 then s
    else
      let s := s.recallRange (supSpan op).1 (supSpan op).2
      match op with
      | .load a n => s.supLoad h a n
      | .store a bs => s.supStore h a bs
      | .amo o a v => s.supAmo h o a v
      | .fence => s)

end Sys2Proof.Machine
end

