-- ==== Sys2Proof/Machine/Image.lean ====
section
/-! DEFINITION. A core from the bytes of a context image (R461 to R464, R472): what resume finds in a slot that has been written since the
image was saved. What the layout does not hold, as the origins of poisoned values, is as it was when the image was saved. -/

namespace Sys2Proof.Machine

/-- The bytes of a context slot, by tiles. -/
abbrev ImageBytes := List (List Byte)

/-- A little-endian number of `n` bytes at an offset of an image, within one tile (R9). -/
def imageNat (img : ImageBytes) (off n : Nat) : Nat := ofLe (((img.getD (off / 4096) []).drop (off % 4096)).take n)

/-- `n` bytes from an offset on. -/
def imageRun (img : ImageBytes) (off n : Nat) : List Byte := (List.range n).map fun i => BitVec.ofNat 8 (imageNat img (off + i) 1)

/-- Bit `i` of a number. -/
def bitAt (x i : Nat) : Bool := x / 2 ^ i % 2 == 1

/-- The bank format of a code (R461); a reserved code stands for Poison. -/
def bankOfCode : Nat → BankFmt
  | 0 => .none | 1 => .tf8 | 2 => .tf6 | 3 => .int8 | 4 => .bf16 | 5 => .fp16 | _ => .poison

/-- The drain format of a code. -/
def dfmtOfCode : Nat → DrainFmt
  | 1 => .bf16 | 2 => .fp16 | _ => .fp32

/-- The sequencer kind of a code (R461). -/
def seqOfCode : Nat → SeqKind
  | 1 => .mac | 2 => .maca | 3 => .wload | 4 => .drain | 5 => .clr | _ => .idle

/-- The fields of the header (R462). -/
def Core.withHeader (k : Core) (img : ImageBytes) : Core :=
  let w := imageNat img 0x08 8
  let o := imageNat img 0x18 8
  let g := imageNat img 0x30 8 % 2 ^ 17
  { k with
    taskid := BitVec.ofNat 32 (imageNat img 0x04 4), pc := w % 2 ^ 16, side := bitAt w 16, opc := BitVec.ofNat 3 (w / 2 ^ 17)
    mark := bitAt w 20, bubble := w / 2 ^ 21 % 4, relaunch := bitAt w 31
    rstack := ((List.range (w / 2 ^ 24 % 16)).map fun i => imageNat img (0x340 + 2 * i) 2).reverse
    tick := BitVec.ofNat 64 (imageNat img 0x10 8), wdog := o % 2 ^ 17, idiv := o / 2 ^ 32 % 32, fdiv := o / 2 ^ 40 % 32
    fsr := BitVec.ofNat 5 (imageNat img 0x20 8), thr := BitVec.ofNat 16 (imageNat img 0x28 8)
    porig := if g = 0x1FFFF then []
      else if (k.earliest.map fun x => x.2 % 2 ^ 17) == some g then k.porig else k.porig.map fun x => (x.1, g)
    cx := Vector.ofFn fun i => { k.cx.get i with icount := imageNat img (0x50 + 16 * i.val) 8, tl := imageNat img (0x58 + 16 * i.val) 8 }
    gx := { k.gx with
      icount := imageNat img 0x90 8, tl := imageNat img 0x98 8
      regions := ((List.range 4).map fun i => (imageNat img (0xA0 + 16 * i) 8, imageNat img (0xA8 + 16 * i) 8)).filter (·.2 != 0) } }

/-- The loop counters and their order (R461). -/
def Core.withLoops (k : Core) (img : ImageBytes) : Core :=
  let second (l : Fin 4) : Nat := imageNat img (0x308 + 16 * l.val) 8
  let active := (List.finRange 4).filter fun l => bitAt (second l) 0
  { k with
    lc := Vector.ofFn fun l => let w := imageNat img (0x300 + 16 * l.val) 8
      ⟨bitAt (second l) 0, BitVec.ofNat 32 w, BitVec.ofNat 16 (w / 2 ^ 32), BitVec.ofNat 16 (w / 2 ^ 48)⟩
    order := (List.range 4).flatMap fun d => active.filter fun l => second l / 2 % 4 == d }

/-- A candidate of its word (R232). -/
def candOf (w : Nat) : Cand := ⟨BitVec.ofNat 32 w, BitVec.ofNat 32 (w / 2 ^ 32)⟩

/-- The scalar registers, predicates and candidate lists (R461). -/
def Core.withScalars (k : Core) (img : ImageBytes) : Core :=
  let reg (i : Nat) : Word := if i % 32 = 0 then 0 else BitVec.ofNat 64 (imageNat img (0x100 + 8 * i) 8)
  let q := imageNat img 0x350 8
  let m := imageNat img 0x358 8
  { k with
    a := Vector.ofFn fun i => reg i.val, b := Vector.ofFn fun i => reg (32 + i.val)
    p := BitVec.ofNat 12 q, pPois := BitVec.ofNat 12 (q / 2 ^ 16)
    aPois := BitVec.ofNat 32 m &&& ~~~1#32, bPois := BitVec.ofNat 32 (m / 2 ^ 32) &&& ~~~1#32
    cl := Vector.ofFn fun l =>
      ⟨((List.range 64).map fun j => candOf (imageNat img (0x400 + 0x210 * l.val + 8 * j) 8)).filter (· != emptyCand),
        bitAt (imageNat img (0x600 + 0x210 * l.val) 8) 0⟩ }

/-- A row of 128 bytes at an offset. -/
def imageRow (img : ImageBytes) (off : Nat) : RowBits := bytesRow (imageRun img off 128)

/-- A weight bank: its two words and its columns (R461). -/
def imageBank (img : ImageBytes) (words cols : Nat) : Bank :=
  let w := imageNat img words 8
  ⟨Vector.ofFn fun i => imageRow img (cols + 128 * i.val), bankOfCode (w % 8), BitVec.ofNat 16 (w / 2 ^ 16),
    BitVec.ofNat 32 (imageNat img (words + 8) 8), BitVec.ofNat 16 (w / 2 ^ 32)⟩

/-- The rows with their metadata and the matrix state (R461). -/
def Core.withRows (k : Core) (img : ImageBytes) : Core :=
  let m := imageNat img 0x12A0 8
  { k with
    v := Vector.ofFn fun i => let x := imageNat img (0x1000 + 4 * i.val) 4
      ⟨imageRow img (0xA000 + 128 * i.val), BitVec.ofNat 4 (x / 2 ^ 16), BitVec.ofNat 16 x⟩
    ss := Vector.ofFn fun i => BitVec.ofNat 16 (imageNat img (0x1200 + 2 * i.val) 2)
    w0 := imageBank img 0x1280 0xE000, w1 := imageBank img 0x1290 0xF000
    sel := bitAt m 0, nsc := bitAt m 1, h := bitAt m 2, dfmt := dfmtOfCode (m / 8 % 4) }

/-- The beat sequencer (R461); its issue tick and its origin are the saved ones. -/
def imageSeq (old : Seq) (img : ImageBytes) : Seq :=
  let w := imageNat img 0x12A8 8
  { old with
    kind := seqOfCode (w % 8), vd := w / 2 ^ 3 % 128, vs := w / 2 ^ 10 % 128, n := w / 2 ^ 17 % 128, next := w / 2 ^ 24 % 64
    bank := bitAt w 30, h := bitAt w 31, dfmt := dfmtOfCode (w / 2 ^ 32 % 4), tag := BitVec.ofNat 4 (w / 2 ^ 34), poison := bitAt w 38
    eb := BitVec.ofNat 16 (w / 2 ^ 48), w := BitVec.ofNat 32 (imageNat img 0x12B0 8)
    cols := if w % 8 = 3 then (List.range (w / 2 ^ 24 % 64)).map fun i => imageRow img (0x9000 + 128 * i) else [] }

/-- What an in-flight entry writes, from its words (R463); a reserved kind writes a0, which stays zero (log entry 17). The bank that a
beat carries is the saved one. -/
def imagePay (img : ImageBytes) (base : Nat) (bank : Bool) : Payload :=
  let w := imageNat img base 8
  let d := w / 2 ^ 4 % 128
  let md := imageNat img (base + 0x10) 8
  let sp := imageNat img (base + 0x18) 8
  match w % 8 with
  | 2 => .pred ⟨d % 12, Nat.mod_lt _ (by decide)⟩ (bitAt (imageNat img (base + 0x40) 8) 0)
  | 3 => .row (BitVec.ofNat 7 d) ⟨imageRow img (base + 0x40), BitVec.ofNat 4 (md / 2 ^ 16), BitVec.ofNat 16 md⟩
  | 4 => .beat (BitVec.ofNat 7 d) (bitAt sp 32) (Vector.ofFn fun j => BitVec.ofNat 32 (imageNat img (base + 0x40 + 4 * j.val) 4))
      (BitVec.ofNat 32 sp) (BitVec.ofNat 16 md) bank
  | 5 => .list ⟨d % 4, Nat.mod_lt _ (by decide)⟩
      ⟨((List.range 64).map fun j => candOf (imageNat img (base + 0x40 + 8 * j) 8)).filter (· != emptyCand), bitAt w 3⟩
  | 1 => .scalar (if d / 32 % 2 = 0 then .a else .b) (BitVec.ofNat 5 d) (BitVec.ofNat 64 (imageNat img (base + 0x40) 8))
  | _ => .scalar .a 0 0

/-- The bank that a saved entry carries. -/
def Entry.beatBank (e : Entry) : Bool := match e.pay with | .beat _ _ _ _ _ b => b | _ => false

/-- In-flight entry `i` (R463). -/
def imageEntry (old : Option Entry) (img : ImageBytes) (i : Nat) : Entry :=
  let base := 0x2000 + 576 * i
  let w := imageNat img base 8
  ⟨imagePay img base (match old with | some e => e.beatBank | none => false), bitAt w 3, w / 2 ^ 11 % 64, BitVec.ofNat 5 (w / 2 ^ 17),
    w / 2 ^ 22 % 8, BitVec.ofNat 64 (imageNat img (base + 8) 8), .no, match old with | some e => e.org | none => noOrigin,
    match old with | some e => e.mark | none => {}⟩

/-- The sequencer and the results in flight, which only a full image holds (R461, R463). -/
def Core.withFlight (k : Core) (img : ImageBytes) : Core :=
  if imageNat img 0 1 ≠ 1 then k
  else { k with
    seq := imageSeq k.seq img
    infl := (List.range (imageNat img 0x18 8 / 2 ^ 48 % 64)).map fun i => imageEntry k.infl[i]? img i }

/-- The scratchpad, its metadata and the sides that the image holds (R461, R464). -/
def Core.withStores (k : Core) (img : ImageBytes) (recto verso : Bool) : Core :=
  let side (s : Side) (off : Nat) : Side := { s with bytes := sputBytes [] 0 (imageRun img off 0x10000) }
  { k with
    smeta := (List.range 8192).foldl (fun m i => sset 0 m i (BitVec.ofNat 20 (imageNat img (0x10000 + 4 * i) 4))) []
    spad := sputBytes [] 0 (imageRun img 0x100000 0x100000)
    recto := if recto then side k.recto 0x20000 else k.recto
    verso := if verso then side k.verso 0x30000 else k.verso }

/-- The core that an image's bytes describe, `k` being the one that was saved (R472). -/
def Core.ofImage (k : Core) (img : ImageBytes) (recto verso : Bool) : Core :=
  (((((k.withHeader img).withLoops img).withScalars img).withRows img).withFlight img).withStores img recto verso

end Sys2Proof.Machine
end

