-- ==== Sys2Proof/Machine/Scheduler.lean ====
section
/-! DEFINITION. The task schedulers' events: input checks (R367), dispatch, placement and staging (R366, R368, R370, R372), the
start of a task (R32, R381, R472), aging (R370, R371), pre-emption (R373, R471), publication (R369), and the answers to LAUNCH
(R395) and to the admission heap (R396, R397). An event that cannot happen in a state leaves the state as it is (log entry 5). -/

namespace Sys2Proof.Machine

/-- INPUT_RECHECK (R367). -/
def execInputRecheck (q : PartId) (s : State) : Res := .next (s.recheck q)

/-! ## The ready queues -/

/-- The place of a ready task in its chase's queues: the aged queue, effective levels 3 down to 0, then ready time, job slot,
graph index, launch index and ℓ (R370). -/
def Task.rank (t : Task) : List Nat :=
  [4 - min 4 (t.level.toNat + t.age), t.stamp, t.job.val, t.gix, t.lix, t.ell]

/-- Lists of numbers in dictionary order. -/
def listBefore : List Nat → List Nat → Bool
  | x :: xs, y :: ys => decide (x < y) || (x == y && listBefore xs ys)
  | _, _ => false

/-- The first entry of a list by a key. -/
def firstBy {α : Type} (key : α → List Nat) : List α → Option α
  | [] => none
  | x :: xs =>
    match firstBy key xs with
    | none => some x
    | some y => if listBefore (key y) (key x) then some y else some x

/-- The ready tasks of a partition in a chase; one whose table entry is lost waits (R474). -/
def State.readyTasks (s : State) (q : PartId) (h : ChaseId) : List (Nat × Task) :=
  s.tasks.filter fun x => x.2.q == q && x.2.st == .ready && x.2.chase == some h && !s.lostTasks.contains x.1

/-- The ready task that is dispatched next (R370). -/
def State.nextReady (s : State) (q : PartId) (h : ChaseId) : Option (Nat × Task) :=
  firstBy (fun x => x.2.rank) (s.readyTasks q h)

/-- A task waits in the aged queue (R370). -/
def Task.aged (t : Task) : Bool := decide (4 ≤ t.level.toNat + t.age)

/-- AGING_EXPIRY (R370): a ready task has waited another aging interval. -/
def execAgingExpiry (i : Nat) (s : State) : Res :=
  .next (s.modTask i fun t => if t.st = .ready then { t with age := min (t.age + 1) 4 } else t)

/-! ## Placement -/

/-- The partition's cores in a chase, from the round-robin pointer on (R372). -/
def State.placeRing (s : State) (q : PartId) (h : ChaseId) : List CoreId :=
  let cs := (List.finRange 96).filter fun c => chaseOf c == h && (s.part q).pcore.getLsbD c.val
  let p := ((s.part q).rr.get h).val
  (cs.filter fun c => decide (p ≤ c.val % 8)) ++ cs.filter fun c => decide (c.val % 8 < p)

/-- The weights of candidates: die temperature, a free value, and droop events (R372; log entry 11). -/
def State.weights (s : State) : List CoreId → State × List (CoreId × List Nat)
  | [] => (s, [])
  | c :: cs =>
    let (s1, T) := (s.droopNow c).takeFree 8
    let (s2, l) := s1.weights cs
    (s2, (c, [T.toNat + 8 * (s1.core c).dr.toNat]) :: l)

/-- The core that follows another in a ring. -/
def ringAfter (ring : List CoreId) (c : CoreId) : CoreId := ring.getD ((ring.idxOf c + 1) % ring.length) c

/-- Choose a free core: the candidate of least weight among the first D + 1, the earlier on a tie; the pointer moves past it
(R372). A core under retest is taken when no other is free (R485). -/
def State.choose (s : State) (q : PartId) (h : ChaseId) : State × Option CoreId :=
  let ring := s.placeRing q h
  let free := ring.filter fun c => (s.core c).st == .free
  let cands := if free.isEmpty then (ring.filter fun c => (s.core c).st == .retest).take 1
    else free.take (bits (s.part q).psch 2 0 + 1)
  let (s1, ws) := s.weights cands
  match firstBy (·.2) ws with
  | none => (s, none)
  | some (c, _) =>
    (s1.modPart q fun p => { p with rr := p.rr.set h.val ⟨(ringAfter ring c).val % 8, Nat.mod_lt _ (by decide)⟩ h.isLt }, some c)

/-! ## Staging -/

/-- The copy of a task's code image into its entry side; none when there is no image, when the side holds its tag, or when a
saved context image holds the sides (R368, R464, R472). -/
def Task.imageCopy (t : Task) (k : Core) : List CopyCmd :=
  let d := t.desc
  if d.cva = 0 || (t.image.isSome && d.sov) || (k.sideAt d.eside).tag == some d.ctag then []
  else [⟨0, .isp d.eside, 0, d.cva.toNat, d.clen, false, 0, false, []⟩]

/-- The residency copies of a task's inputs; a saved context image holds the scratchpad (R368, R461). -/
def Task.inputCopies (t : Task) : List CopyCmd :=
  if t.image.isSome then []
  else t.desc.ins.map fun e => ⟨0, .lin, e.spoff, e.addr t.tilex t.tiley t.tilez, e.bytes, e.nc, 0, false, []⟩

/-- The lines of a task's output regions get tag 0 and bound 0 (R368). -/
def Core.clearOutputs (k : Core) (outs : List TileEnt) : Core :=
  outs.foldl (fun k e => (linesOf e.spoff e.bytes).foldl (fun k l => k.setLine l 0) k) k

/-- A core takes a task and begins to stage it (R366, R368). -/
def Core.stage (k : Core) (i : Nat) (t : Task) : Core :=
  let k1 := if t.image.isSome then k else k.clearOutputs t.desc.outs
  { k1 with
    st := .staging, home := some t.q, task := some i, relaunch := t.relaunch, sov := t.desc.sov, taskid := t.desc.taskid
    resStop := false, resLeft := t.imageCopy k ++ t.inputCopies, creq := false, preq := false }

/-- Dispatch a partition's next ready task of a chase to a core (R366, R370, R372). Nothing is dispatched while the device
enters, or is in, sleep (R430). A task with an address that R359 forbids fails as it is placed. -/
def State.dispatch (s : State) (h : ChaseId) (q : PartId) : State :=
  if s.slp ≠ .running then s
  else
    match s.nextReady q h with
    | none => s
    | some (i, t) =>
      match s.choose q h with
      | (_, none) => s
      | (s1, some c) =>
        if t.desc.placeOk t.tilex t.tiley t.tilez t.ell then (s1.modCore c fun k => k.free.stage i t).modTask i fun t => { t with st := .staging, core := some c }
        else s.failPlace i t

/-- TASK_DISPATCH. -/
def execTaskDispatch (h : ChaseId) (q : PartId) (s : State) : Res := .next (s.dispatch h q)

/-! ## Residency copies and the start of a task -/

/-- A side that a code image has been copied to holds the image's tag (R368). -/
def Core.tagSide (k : Core) (x : CopyCmd) (tag : Word32) : Core :=
  match x.kind with
  | .isp v => k.setSide v { k.sideAt v with tag := some tag }
  | _ => k

/-- Run residency or write-back copies in order: whether all have completed. A fault stops them until CXRES resumes them, and is
recorded (R258, R368, R369). -/
def State.residency (s : State) (c : CoreId) (tag : Word32) (esc : Bool) : List CopyCmd → State × Bool
  | [] => (s.modCore c fun k => { k with resLeft := [] }, true)
  | x :: xs =>
    if s.copyStalls c x then (s.modCore c fun k => { k with resLeft := x :: xs }, false)
    else
      let (s1, stop, y) := s.copyRun c x esc
      match stop with
      | none => (s1.modCore c fun k => k.tagSide x tag).residency c tag esc xs
      | some f => ((s1.copyRecord c none y f).modCore c fun k => { k with resStop := true, resLeft := y :: xs }, false)

/-- A new task's state on a core (R32, R37, R208, R381): what belongs to the core stays (R317). -/
def Core.begin (k : Core) (t : Task) : Core :=
  let d := t.desc
  { st := .running, home := k.home, task := k.task, relaunch := t.relaunch, sov := d.sov, taskid := d.taskid
    tilex := t.tilex, tiley := t.tiley, tilez := t.tilez, thr := d.thr, opc := d.opc
    side := if t.relaunch then d.xside else d.eside
    pc := if t.relaunch then d.xoff.toNat else d.eoff.toNat
    cx := k.cx, gx := k.gx, spad := k.spad, smeta := k.smeta, recto := k.recto, verso := k.verso, tlb := k.tlb
    cancelled := k.cancelled, trseq := k.trseq, trcause := k.trcause, eff := k.eff, dr := k.dr, slack := k.slack
    vtrim := k.vtrim, stretch := k.stretch, slktgtEn := k.slktgtEn, slktgt := k.slktgt, press := k.press, ticks := k.ticks, l1 := k.l1, l2 := k.l2 }

/-- The side that a resumed task sees: from the image when it holds the side, and then without a tag, else the core's
(R464, R472). -/
def Core.imageSide (k img : Core) (d : Desc) (v : Bool) : Side :=
  if d.sov || (d.cva == 0 && img.side == v) then { img.sideAt v with tag := none } else k.sideAt v

/-- A core that resumes a saved image (R472): every field of the image; what belongs to the core stays. -/
def Core.resumed (k img : Core) (d : Desc) : Core :=
  { img with
    st := .running, home := k.home, task := k.task, held := none, escRec := none, wait := none, waitSlot := 0, req := none, ans := none
    preq := false, creq := false, resStop := false, resLeft := [], stores := []
    recto := k.imageSide img d false, verso := k.imageSide img d true, tlb := k.tlb
    cancelled := k.cancelled, trseq := k.trseq, trcause := k.trcause, dr := k.dr, slack := k.slack
    vtrim := k.vtrim, stretch := k.stretch, slktgtEn := k.slktgtEn, slktgt := k.slktgt, press := k.press, ticks := k.ticks, eff := k.eff, l1 := k.l1, l2 := k.l2 }

/-- A core starts its task, or resumes it from an image, settled to the effective point (R366, R423, R424). -/
def Core.start (k : Core) (t : Task) (img : Option Core) (cap : BitVec 3) : Core :=
  let k1 := match img with | none => k.begin t | some m => k.resumed m t.desc
  { k1.setEff (effPoint k1.opc cap) with settling := false }

/-- An image holds a side: both under the self-overlay right, the active one of a task without a code image (R464). -/
def imageHasSide (k : Core) (d : Desc) (v : Bool) : Bool := d.sov || (d.cva == 0 && k.side == v)

/-- The device address of a context slot of a partition (R471). -/
def Part.slotBase (p : Part) (n : Nat) : Nat := bits p.ctxa 47 21 * 2 ^ 21 + 2 ^ 21 * n

/-- Read tiles of a context image as the supervisor core of a chase (R471); none when one does not deliver its data (R474). -/
def State.readImage (s : State) (h : ChaseId) (da : Nat) : Nat → State × Option ImageBytes
  | 0 => (s, some [])
  | n + 1 =>
    let (s1, x) := s.readImage h da n
    let (s2, y) := (s1.recallRange (da + 4096 * n) 4096).readMem (supMid h) (da + 4096 * n) 4096
    (s2, match x, y with | some img, some bs => some (img ++ [bs]) | _, _ => none)

/-- The records of the tiles of a context slot. -/
def State.slotRecs (s : State) (da : Nat) : List TileRec :=
  (List.range 512).map fun i => match s.linearOf (da + 4096 * i) with | some a => s.tileRec (a / 4096) | none => {}

/-- The core of the image that a task resumes from; none for a new task, and an error when the slot cannot be read. A slot that nothing has
written since holds the image that was saved; else its bytes say what is resumed (R472). -/
def State.imageReads (s : State) (c : CoreId) (t : Task) : State × Except Unit (Option Core) :=
  match t.image with
  | none => (s, .ok none)
  | some m =>
    match m.slot with
    | none => (s, .ok (some m.core))
    | some n =>
      let da := (s.part t.q).slotBase n
      let (s1, x) := (s.recallRange da (2 ^ 21)).readImage (chaseOf c) da 512
      match x with
      | none => (s1, .error ())
      | some img =>
        (s1, .ok (some (if s1.slotRecs da = m.recs then m.core
          else m.core.ofImage img (imageHasSide m.core t.desc false) (imageHasSide m.core t.desc true))))

/-- Something makes accesses stall: an open region, a fence that has not been passed, or a channel in self-refresh. -/
def State.anyStall (s : State) : Bool :=
  s.cores.toList.any (fun k => !k.gx.regions.isEmpty) || s.tasks.any (fun t => !t.2.regions.isEmpty) ||
    s.chans.any fun h => h.2.selfRefresh || decide (0 < h.2.fences)

/-- An access to a context slot stalls (R29, R309, R313). -/
def State.slotStalls (s : State) (q : PartId) (n : Option Nat) : Bool :=
  match n with
  | none => false
  | some n => s.anyStall && s.rangeStalls ((s.part q).slotBase n) (2 ^ 21)

/-- A core gives its task back to Ready: its ready time, chase and relaunch status stay (R376, R377). -/
def State.backToReady (s : State) (c : CoreId) (i : Nat) (f : Task → Task) : State :=
  (s.modCore c Core.free).modTask i fun t => { f t with st := .ready, core := none }

/-- What follows the residency copies: a cancel that has arrived, a return to Ready when the core has been removed, or the start
of the task (R364, R366, R376). An image that cannot be read is given up: the task starts again from its entry (R474). -/
def State.startTask (s : State) (c : CoreId) (i : Nat) (t : Task) : State :=
  if (s.core c).creq then s.cancelHere c
  else if !(s.part t.q).pcore.getLsbD c.val then s.backToReady c i id
  else
    let (s1, x) := s.imageReads c t
    match x with
    | .ok img =>
      let s2 := (s1.modCore c fun k => { k.start t img (s.part t.q).opcap with preq := s.slp == .entering }).modTask i fun t =>
        { t with st := .running, image := none }
      if img.isSome then s2.regionsClosed s else s2
    | .error _ => (s1.backToReady c i fun t => { t with image := none }).regionsClosed s

/-- TASK_START (R366, R368, R472): the stores of the core's earlier task are performed, every copy completes, the image's slot can be read
(R29, R309, R313), and the first bundle may issue. A copy that a fault stops, for a task that a cancel waits for, ends the task (R364). -/
def execTaskStart (c : CoreId) (s : State) : Res :=
  .next (let k := s.core c
    match k.task, s.taskOf c with
    | some i, some t =>
      if k.st = .staging ∧ !k.resStop ∧ k.stores.isEmpty ∧ !s.slotStalls t.q (t.image.bind (·.slot)) then
        let (s1, done) := s.residency c t.desc.ctag false k.resLeft
        if done then s1.startTask c i t
        else if (s1.core c).resStop && (s1.core c).creq then s1.cancelHere c else s1
      else s
    | _, _ => s)

/-! ## Pre-emption -/

/-- A task of a partition runs on a core, with no pre-emption under way there. -/
def State.victims (s : State) (q : PartId) (ring : List CoreId) : List (CoreId × List Nat) :=
  ring.filterMap fun c =>
    match s.taskOf c with
    | some t => if (s.core c).st == .running && t.q == q then some (c, [t.level.toNat, 2 ^ 64 - t.stamp]) else none
    | none => none

/-- A pre-emption that the chase's scheduler has requested for a partition has not freed its core (R371). -/
def State.preemptPending (s : State) (ring : List CoreId) : Bool :=
  ring.any fun c => (s.core c).preq || (s.core c).st == .preempting

/-- AGED_PREEMPT_REQUEST (R371): the head of the aged queue has waited tpre, no core has freed: the running task of lowest level,
and among those of latest ready time, is to be pre-empted. -/
def execAgedPreemptRequest (h : ChaseId) (q : PartId) (s : State) : Res :=
  .next (let ring := s.placeRing q h
    match s.nextReady q h with
    | some (_, t) =>
      if t.aged && !(ring.any fun c => (s.core c).st == .free) && !s.preemptPending ring && (s.freeSlot q).isSome then
        match firstBy (·.2) (s.victims q ring) with
        | some (c, _) => s.modCore c fun k => { k with preq := true }
        | none => s
      else s
    | none => s)

/-- A byte of a context image of 2 MiB: `full` for the image of a trap, else a safe-point image (R461, R462, R464). -/
def contextByte (k : Core) (d : Desc) (full : Bool) (children off : Nat) : Byte :=
  if off = 0 then (if full then 0x01 else 0x02)
  else if off < 0x18000 then imageByte k children off
  else if 0x20000 ≤ off ∧ off < 0x30000 then (if imageHasSide k d false then sget 0 k.recto.bytes (off - 0x20000) else 0)
  else if 0x30000 ≤ off ∧ off < 0x40000 then (if imageHasSide k d true then sget 0 k.verso.bytes (off - 0x30000) else 0)
  else if 0x100000 ≤ off then sget 0 k.spad (off - 0x100000)
  else 0

/-- Write a whole tile as a master, once the host has given it up (R248, R439, R443, R445). -/
def State.tileWrite (s : State) (mid da : Nat) (bs : List Byte) : State :=
  match s.frisk mid da 4096 false true, s.linearOf da with
  | some w, some a =>
    let (s1, o) := (s.recallRange da 4096).sealPart (windowSlot w) (a / 4096) (addrBytes a bs) .keep true
    if o = .exhausted then s1.sealEvent mid (a / 4096 * 4096) 1 else s1.rowWritten (a / 4096)
  | _, _ => s.permEvent mid da

/-- Write an image into a context slot, tile by tile, as the supervisor core of a chase (R471). -/
def State.writeImage (s : State) (h : ChaseId) (da : Nat) (k : Core) (d : Desc) (full : Bool) (children : Nat) : State :=
  (List.range 512).foldl (fun s i =>
    s.tileWrite (supMid h) (da + 4096 * i) ((List.range 4096).map fun j => contextByte k d full children (4096 * i + j))) s

/-- Save the image of a core's task, return the task to Ready with a new ready time and chase, and free the core (R366, R471,
R511). -/
def State.saveTask (s : State) (c : CoreId) (i : Nat) (t : Task) (slot : Option Nat) : State :=
  let k := s.core c
  let full := k.held.isSome
  let s1 := match slot with
    | some n => s.writeImage (chaseOf c) ((s.part t.q).slotBase n) k t.desc full (s.childCount c)
    | none => s
  let img : SavedImage := ⟨k, slot, match slot with | some n => s1.slotRecs ((s.part t.q).slotBase n) | none => []⟩
  (((s1.modTask i fun t => { t with image := some img }).releaseCore c).makeReady i).later.assign i t.q

/-- PREEMPT (R373, R467, R471): the core's engine commands have completed, its stores are performed and a context slot is
free; at sleep an image without a free slot goes to Make-ready's reserved memory. A cancel that has arrived takes the task. -/
def execPreempt (c : CoreId) (s : State) : Res :=
  .next (let k := s.core c
    match k.task, s.taskOf c with
    | some i, some t =>
      if k.st = .preempting ∧ k.creq then s.cancelHere c
      else if k.st = .preempting ∧ k.commandsDone ∧ k.stores.isEmpty ∧ ((s.freeSlot t.q).isSome ∨ s.slp = .entering) ∧
          !s.slotStalls t.q (s.freeSlot t.q) then
        s.saveTask c i t (s.freeSlot t.q)
      else s
    | _, _ => s)

/-! ## Publication -/

/-- The pieces of tiles that an output of a task covers: device address and length. -/
def State.outputTiles (s : State) (c : CoreId) (t : Task) (e : TileEnt) : List (Nat × Nat) :=
  (cutAt 4096 (e.bytes / 4096 + 2) (e.addr t.tilex t.tiley t.tilez) e.bytes).filterMap fun p =>
    match (s.translate c p.1).2 with
    | .ok x => some (x.da p.1, p.2)
    | .error _ => none

/-- Set a tile's escalated flag by a seal operation of the core's own, unless it is set (R147, R441, R443, R445). -/
def State.markTile (s : State) (c : CoreId) (da n : Nat) : State :=
  match s.linearOf da with
  | none => s
  | some a =>
    if (s.tileRec (a / 4096)).esc then s
    else match s.frisk c.val da n true true with
      | none => s.permEvent c.val da
      | some w =>
        let t := a / 4096
        let (s1, o) := (s.rowRead t).sealPart (windowSlot w) t [] .mark
        match o with
        | .done => s1
        | .bad => s1.sealEvent c.val (t * 4096) 0
        | .exhausted => s1.sealEvent c.val (t * 4096) 1

/-- The outputs that an escalation relaunch publishes carry the escalated flag (R147). -/
def State.markEscalated (s : State) (c : CoreId) (t : Task) : State :=
  if t.relaunch then (t.desc.outs.flatMap (s.outputTiles c t)).foldl (fun s x => s.markTile c x.1 x.2) s else s

/-- Add 1 to an output's timeline word as the core: false when it faults (R369). -/
def State.incOutput (s : State) (c : CoreId) (va : Nat) : State × Bool :=
  let (s1, x) := s.translate c va
  match x with
  | .error _ => (s1, false)
  | .ok e =>
    if (match s1.linearOf (e.da va) with | some a => s1.ownRegion c a | none => false) then (s1, false)
    else s1.addOne c.val e va

/-- Advance the timeline words of outputs in ascending k; the address of a word that faults (R369). -/
def State.advanceLines (s : State) (c : CoreId) (ell : Nat) : List TileEnt → State × Option Nat
  | [] => (s, none)
  | e :: es =>
    if e.tlva = 0 then s.advanceLines c ell es
    else
      let (s1, ok) := s.incOutput c (e.tl ell)
      if ok then s1.advanceLines c ell es else (s1, some (e.tl ell))

/-- A timeline word of the outputs lies in a region that another context holds open, where an atomic stalls (R29), or in a channel where
it waits (R309, R313). -/
def State.linesStall (s : State) (c : CoreId) (t : Task) : Bool :=
  t.desc.outs.any fun e => e.tlva != 0 &&
    match (s.translate c (e.tl t.ell)).2 with
    | .ok x => (match s.linearOf (x.da (e.tl t.ell)) with | some a => (s.anyRegion a && !s.ownRegion c a) || s.tileWaits (a / 4096) | none => false)
    | .error _ => false

/-- The end of a task that has published, or failed to (R366, R369). -/
def State.endPublish (s : State) (c : CoreId) (i : Nat) (t : Task) (bad : Option Nat) : State :=
  match bad with
  | none => ((s.releaseCore c).finishTask i .done).recheck t.q
  | some va =>
    let s1 := s.inform (chaseOf c) (s.trapRec c 0x0E 1 15 false va 0 0)
    ((s1.releaseCore c).finishTask i (.failed 0x0E)).recheck t.q

/-- DONE_PUBLISH (R369, R275): the task's commands have completed and its stores are performed; the write-backs, then the
timeline increments. -/
def execDonePublish (c : CoreId) (s : State) : Res :=
  .next (let k := s.core c
    match k.task, s.taskOf c with
    | some i, some t =>
      if k.st = .ending ∧ k.commandsDone ∧ !k.resStop ∧ k.stores.isEmpty ∧ !s.linesStall c t then
        let (s1, done) := s.residency c t.desc.ctag t.relaunch k.resLeft
        if done then
          let (s2, bad) := (s1.markEscalated c t).advanceLines c t.ell t.desc.outs
          s2.endPublish c i t bad
        else s1
      else s
    | _, _ => s)

/-! ## Answers -/

/-- The child launches of a graph that are not complete (R395). -/
def openChildren (ls : List Launch) : Nat := (ls.filter fun l => l.parent.isSome && !l.isOver).length

/-- LAUNCH_ANSWER (R395): the scheduler accepts the launch, or refuses it at the limit of 64 children. -/
def execLaunchAnswer (c : CoreId) (s : State) : Res :=
  .next (let k := s.core c
    match k.wait, k.req, k.ans, s.taskOf c with
    | some .launch, some (.launch ..), none, some t =>
      let a := if 64 ≤ openChildren ((s.job t.q t.job).graphs.getD t.gix []) then Ans.limit else Ans.accepted
      s.modCore c fun k => { k with ans := some a }
    | _, _, _, _ => s)

/-- Insert an entry in heap order: d ascending, then s ascending (R396). -/
def heapInsert (e : HeapEnt) : List HeapEnt → List HeapEnt
  | [] => [e]
  | x :: xs => if e.d.toNat < x.d.toNat then e :: x :: xs else x :: heapInsert e xs

/-- The word of an entry (R396). -/
def HeapEnt.word (e : HeapEnt) : Word := e.d ++ (e.t ++ e.id)

/-- HEAP.PUSH at the heap: the heap, and the status word (R396). -/
def Part.push (p : Part) (e : Word) : Part × Nat :=
  if 1024 ≤ p.heap.length then (p, 0x4000000000000000)
  else
    ({ p with heap := heapInsert ⟨e.extractLsb' 32 32, e.extractLsb' 16 16, e.extractLsb' 0 16, p.hseq⟩ p.heap, hseq := p.hseq + 1 },
      p.hseq % 2 ^ 48)

/-- The entries that a HEAP.POP of at most `m` more admits, after `c` with token sum `sum`, and what stays (R397). -/
def popHeap (bud : Nat) : Nat → Nat → Nat → List HeapEnt → List HeapEnt × List HeapEnt
  | 0, _, _, l => ([], l)
  | _ + 1, _, _, [] => ([], [])
  | m + 1, c, sum, x :: xs =>
    if 0 < c ∧ bud < sum + x.t.toNat then ([], x :: xs)
    else
      let (out, rest) := popHeap bud m (c + 1) (sum + x.t.toNat) xs
      (x :: out, rest)

/-- The token sum of entries. -/
def tokenSum (l : List HeapEnt) : Nat := (l.map fun e => e.t.toNat).sum

/-- The heap serves a request: the heap, the scratchpad offset of the result words, and the words. -/
def Part.serve (p : Part) : Req → Option (Part × Nat × List Nat)
  | .push e st => let (p1, w) := p.push e; some (p1, st, [w])
  | .pop o m =>
    let (out, rest) := popHeap p.bud.toNat m 0 0 p.heap
    some ({ p with heap := rest }, o, (tokenSum out * 2 ^ 32 + out.length) :: out.map fun e => e.word.toNat)
  | _ => none

/-- HEAP_ANSWER (R396, R397): the heap serves the core's request once every earlier access of the core is performed (R269), and the result
words are stored. -/
def execHeapAnswer (c : CoreId) (s : State) : Res :=
  .next (let k := s.core c
    match k.wait, k.req, k.ans, s.partOf c with
    | some .heap, some r, none, some q =>
      if k.stores.isEmpty && k.pendingLoads.isEmpty then
        match (s.part q).serve r with
        | some (p, o, ws) =>
          (s.setPart q p).modCore c fun k => { k.spadPut o (ws.flatMap (leBytes 8)) with ans := some .served }
        | none => s
      else s
    | _, _, _, _ => s)

end Sys2Proof.Machine
end

