-- ==== Sys2Proof/Machine/Repair.lean ====
section
/-! DEFINITION. Errors, spares and retest: self-refresh of a channel (R313), loss and retirement of a core (R377, R481), errors of a
core's SRAM (R473 to R475, R477), repair of DRAM rows and patrol scrub (R476, R484), and the idle-time retest (R482, R483,
R485). -/

namespace Sys2Proof.Machine

/-! ## Self-refresh -/

/-- Park a live engine at the entry to self-refresh: its live bit stays set, and a park row of its own stays valid (R313). -/
def State.parkLive (s : State) (e : EngineId) : State :=
  let g := s.engine e.val
  let k := s.keySlot parkSlot
  if g.live then s.setEngine e.val { g.emptied k with sleepRow := some (g.toPark k) } else s

/-- The channels whose stacks are populated (R2, R18). -/
def State.hasChan (s : State) (h : Nat) : Bool := !s.half || decide (h < Config.channels / 2)

/-- A channel enters self-refresh (R313). -/
def State.refreshIn (s : State) (h : Nat) : State :=
  if (s.chan h).selfRefresh || !s.hasChan h then s
  else
    let s1 := (chanEngines h).foldl State.parkLive s
    s1.setChan h { s1.chan h with selfRefresh := true }

/-- Restore an engine that the entry to self-refresh parked; a restore that fails its tag is reported by the next call (R313). -/
def State.unparkLive (s : State) (e : EngineId) : State :=
  let g := s.engine e.val
  match g.sleepRow with
  | some p =>
    if p.passes (s.keySlot parkSlot) && s.parkReads e.val then s.setEngine e.val { g.refilled p with sleepRow := none }
    else (s.parkRead e.val).setEngine e.val { g with badPark := true, sleepRow := none }
  | none => s

/-- A channel leaves self-refresh and resumes the commands that wait (R313). -/
def State.refreshOut (s : State) (h : Nat) : State :=
  if (s.chan h).selfRefresh then
    let s1 := (chanEngines h).foldl State.unparkLive s
    ((s1.setChan h { s1.chan h with selfRefresh := false }).endUnknowns h).unstall
  else s

/-- SELF_REFRESH_ENTRY (R313). -/
def execSelfRefreshEntry (h : ChanId) (s : State) : Res := .next (s.refreshIn h.val)

/-- SELF_REFRESH_EXIT (R313). -/
def execSelfRefreshExit (h : ChanId) (s : State) : Res := .next (s.refreshOut h.val)

/-! ## Loss of a core -/

/-- A core whose work is lost: copies end, galley commands that were not dispatched are discarded, dispatched calls end with
their landing writes discarded (R339). Its task stays with it until that has settled (R377). -/
def Core.lostWork (k : Core) : Core :=
  { k with
    st := .settling, held := none, trap := none, infl := [], seq := {}, wait := none, waitc := none, req := none
    ans := none, preq := false, resStop := false, resLeft := []
    cx := k.cx.map fun x => { x with cmds := [] }
    gx := { k.gx with
      cmds := (k.gx.cmds.filter fun x => x.dispatched && !x.barrier).map fun x => { x with mute := true } } }

/-- A core is lost to its task (R377): its work settles, and what becomes of the task then is `State.returnTask`'s. -/
def State.loseCore (s : State) (c : CoreId) : State := (((s.leaveBar c).modCore c Core.lostWork).kidsFreed (s.core c)).settled c

/-- The physical position of local core `k` in a chase (R480). -/
def Chase.pos (x : Chase) (k : Nat) : Nat := (x.crepPos >>> (4 * k)).toNat % 16

/-- Bind local core `k` to a position; 0xF is lost. -/
def Chase.bind (x : Chase) (k p : Nat) : Chase :=
  { x with
    crepPos := (x.crepPos &&& ~~~(0xF#32 <<< (4 * k))) ||| (BitVec.ofNat 32 p <<< (4 * k))
    crepRet := if x.pos k < 9 then x.crepRet ||| (1#9 <<< (x.pos k)) else x.crepRet }

/-- A physical position of a chase that is healthy and that no logical core uses (R479, R481). -/
def Chase.sparePos (x : Chase) : Option Nat :=
  (List.range 9).find? fun p => !x.crepRet.getLsbD p && (List.range 8).all fun k => x.pos k != p

/-- The sides of a new physical core hold no code image, its TLB no entry. -/
def Core.newPlace (k : Core) : Core :=
  { k with recto := { k.recto with tag := none }, verso := { k.verso with tag := none }, tlb := [] }

/-- Retire a core (R481): its task follows R377; the spare position takes its number, with spare columns of its own (R480, R482), or the
number is lost and leaves its partition. -/
def State.retireCore (s : State) (c : CoreId) : State :=
  let s1 := s.loseCore c
  let h := chaseOf c
  let x := s1.chase h
  match x.sparePos with
  | some p =>
    ({ (s1.setChase h (x.bind (c.val % 8) p)).modCore c Core.newPlace with ccol := sset 0x1FBF#14 s1.ccol c.val 0x1FBF#14 } :
      State).coreEvent 0x04 0 c
  | none =>
    let s2 := (s1.setChase h (x.bind (c.val % 8) 0xF)).modCore c fun k => { k with st := .lost }
    let s3 : State := { s2 with parts := s2.parts.map fun q => { q with pcore := q.pcore &&& ~~~(1#96 <<< c.val) } }
    (s3.settled c).coreEvent 0x05 0 c

/-- CORE_RETIRE (R481). A task in Ending publishes first; a lost core stays lost. -/
def execCoreRetire (c : CoreId) (s : State) : Res :=
  .next (if (s.core c).st = .ending ∨ (s.core c).st = .lost then s else s.retireCore c)

/-! ## Errors of a core's storage -/

/-- Poison the register, predicate or row of an origin key (R54, R474); no bundle has loaded it. -/
def Core.poisonDest (k : Core) (key : Nat) : Core :=
  let i := key % 128
  let k1 := match key / 128 with
    | 1 =>
      if i % 32 = 0 then k
      else if i < 32 then { k with aPois := k.aPois ||| (1#32 <<< i) }
      else { k with bPois := k.bPois ||| (1#32 <<< (i % 32)) }
    | 2 => { k with pPois := k.pPois ||| (1#12 <<< i) }
    | _ => k.setRow (BitVec.ofNat 7 i) poisonRow
  k1.noteDest key true noOrigin

/-- The configuration-space address of an instruction side (R451). -/
def sideAddr (c : CoreId) (v : Bool) : Nat := configBase + 0x8000000 + 0x20000 * c.val + 0x10000 * b2n v

/-- The device address of a window word of a FRISKET table, by its key (R437). -/
def wordAddr (n : Nat) : Nat := configBase + 0x1000000 + 0x100000 * (n / 4096) + 8 * (n % 4096)

/-- What an error that stands does where a check meets it (R474, R475). Of a core: a scratchpad line is tagged Poison; a register, row,
list, weight bank or special register is poisoned; a side from which a task fetches loses its code image, and the task starts again under
R377; a correctable one is counted. Of a table: what depends on the entry is refused until it is rewritten. A DRAM row, a park row and a
galley engine meet theirs at the next access or call. -/
def State.meetError (s : State) (x : SoftErr) : State :=
  match x with
  | .list c l => (s.modCore c fun k =>
      ({ k with cl := k.cl.set l.val { k.cl.get l with poison := true } l.isLt } : Core).noteShared (listKey l) true noOrigin).coreEvent
        0x00 0 c
  | .bank c b => (s.modCore c fun k =>
      (if b then { k with w1 := { k.w1 with fmt := .poison } } else { k with w0 := { k.w0 with fmt := .poison } } : Core).noteShared
        (bankKey b) true noOrigin).coreEvent 0x00 0 c
  | .weakCore c => s.countCorrected (0x1000 + c.val) fun s => s.coreEvent 0x03 0 c
  | .weakTable => s.countCorrected 0x3000 fun s => s.memEvent 0x03 0 0
  | .special c n => (s.modCore c fun k =>
      ({ k with lostSr := (n :: k.lostSr).eraseDups } : Core).noteShared (srKey n) true noOrigin).coreEvent 0x00 0 c
  | .weakEngine e => s.countCorrected (0x2000 + e.val) fun s => s.engEvent 0x03 e.val
  | .window n => ({ s with lostWords := n :: s.lostWords } : State).memEvent 0x00 (wordAddr n) 0
  | .keySlot k => ({ s with lostKeys := k :: s.lostKeys } : State).memEvent 0x00 (configBase + 0x500100 + 8 * k) 0
  | .task i => ({ s with lostTasks := i :: s.lostTasks } : State).memEvent 0x00 0 0
  | .line c l => (s.modCore c fun k => k.setLine l (mkMeta tagPoison (metaEb (sget 0 k.smeta l)))).coreEvent 0x00 (128 * l) c
  | .reg c key =>
    let (s1, a) := s.takeFree 48
    (s1.modCore c fun k => k.poisonDest key).coreEvent 0x00 a.toNat c
  | .side c v =>
    ((s.modCore c fun k => k.setSide v { k.sideAt v with tag := none }).coreEvent 0x00 (sideAddr c v) c).loseCore c
  | .dram _ | .burst _ | .wburst _ | .weak _ | .engine _ | .control _ | .park _ => s

/-- An error that waits: for the next access of its row, for the next call of its engine, or for a fetch from its side. -/
def State.errWaits (s : State) : SoftErr → Bool
  | .dram _ | .burst _ | .wburst _ | .weak _ | .engine _ | .control _ | .park _ => true
  | .side c v => !((s.core c).st == .running && (s.core c).side == v)
  | _ => false

/-- The checks meet the errors that stand in the storage of cores and tables (R473 to R475; log entry 20). -/
def State.meetErrors (s : State) : State :=
  (s.soft.filter fun x => !s.errWaits x).foldl State.meetError { s with soft := s.soft.filter s.errWaits }

/-! ## DRAM rows -/

/-- The bank of a tile: four to each bank group (R295). -/
def tileBank (t : Nat) : Nat := 4 * linearEngine (4096 * t) + t / 8 % 4

/-- An uncorrectable error stands in a DRAM row. -/
def State.failRow (s : State) (t : Nat) : State := if s.soft.contains (SoftErr.dram t) then s else { s with soft := .dram t :: s.soft }

/-- ROW_REPAIR (R484): the row of a tile, due because it has shown an error twice within 24 h (R479; log entry 66), is read through
on-die ECC and moves to a spare row of its bank, of which there are four, with its stored bits; a tile that cannot be read is poisoned, and
keeps that; with no spare row left the tile stays poisoned. The read waits its turn in the channel (R309, R313). -/
def execRowRepair (da : Nat) (readable due : Bool) (s : State) : Res :=
  .next (
    if s.memTop ≤ da || !due || decide (sget 0 s.rowErrs (da / 4096) < 2) || s.tileWaits (da / 4096) then s
    else
      let t := da / 4096
      let used := sget 0 s.rowSpares (tileBank t)
      let s1 := (if readable then s else s.failRow t).rowRead t
      if used < 4 then
        ({ s1 with
          badRows := s1.badRows.filter (· != t), rowErrs := sset 0 s1.rowErrs t 0
          rowSpares := sset 0 s1.rowSpares (tileBank t) (used + 1) } : State).memEvent 0x06 (t * 4096) (tileChan t)
      else s1.memEvent 0x07 (t * 4096) (tileChan t))

/-- PATROL_SCRUB (R476): a row is read through on-die ECC; an uncorrectable error sets the tile's poison flag. The read waits its turn
in the channel like any other (R309, R313). -/
def execPatrolScrub (da : Nat) (uncorrectable : Bool) (s : State) : Res :=
  .next (
    if s.memTop ≤ da || s.tileWaits (da / 4096) then s
    else
      (if uncorrectable then s.failRow (da / 4096) else s).rowRead (da / 4096))

/-! ## Idle-time retest -/

/-- CORE_RETEST (R485): a core that holds no task is tested, and is no candidate for placement. -/
def execCoreRetest (c : CoreId) (s : State) : Res :=
  .next (if (s.core c).st = .free then s.modCore c fun k => { k with st := .retest } else s)

/-- The logical column that a spare column carries; 0x3F is none (R480). -/
def ccolS0 (x : BitVec 14) : BitVec 6 := x.extractLsb' 0 6

/-- As `ccolS0`, for spare column 1. -/
def ccolS1 (x : BitVec 14) : BitVec 6 := x.extractLsb' 7 6

/-- The map of a core's columns. -/
def ccolOf (s0 s1 : BitVec 6) : BitVec 14 := (0#1 ++ s1) ++ (0#1 ++ s0)

/-- Map a failing column onto a free spare; none when there is none (R482). -/
def mapColumn (x : BitVec 14) (j : Fin 32) : Option (BitVec 14) :=
  if ccolS0 x = 0x3F#6 then some (ccolOf (BitVec.ofNat 6 j.val) (ccolS1 x))
  else if ccolS1 x = 0x3F#6 then some (ccolOf (ccolS0 x) (BitVec.ofNat 6 j.val))
  else none

/-- Map failing columns in turn. -/
def mapColumns (x : BitVec 14) : List (Fin 32) → Option (BitVec 14)
  | [] => some x
  | j :: js => (mapColumn x j).bind fun y => mapColumns y js

/-- CORE_RETEST_END (R475, R482, R485): the count of corrected errors restarts; failing columns move to spare columns; a third one
retires the core. -/
def execCoreRetestEnd (c : CoreId) (badCols : List (Fin 32)) (s : State) : Res :=
  .next (
    if (s.core c).st ≠ .retest then s
    else
      let s1 := ({ s with corr := sset 0 s.corr (0x1000 + c.val) 0 } : State).modCore c fun k => { k with st := .free }
      match mapColumns (sget 0x1FBF#14 s.ccol c.val) badCols.eraseDups with
      | some x => { s1 with ccol := sset 0x1FBF#14 s1.ccol c.val x }
      | none => { s1 with ccol := sset 0x1FBF#14 s1.ccol c.val 0x1FBF#14 }.retireCore c)

/-- ENGINE_RETEST (R485): one engine of an idle channel is tested; an engine whose live bit is set never is. -/
def execEngineRetest (h : ChanId) (g : Fin 4) (s : State) : Res :=
  .next (
    let e := 4 * h.val + g.val
    let busy := (chanEngines h.val).any fun x => (s.engine x.val).testing
    if !s.hasEngine e || busy || !(s.chan h.val).queue.isEmpty || (s.chan h.val).selfRefresh || (s.engine e).live || (s.engine e).absent then s
    else s.setEngine e { s.engine e with testing := true })

/-- ENGINE_RETEST_END (R475, R483, R485): the count of corrected errors restarts; a failed engine is retired before any call reaches
it; held calls proceed. -/
def execEngineRetestEnd (e : EngineId) (failed : Bool) (s : State) : Res :=
  .next (
    if s.hasEngine e.val && (s.engine e.val).testing then
      let s1 := ({ s with corr := sset 0 s.corr (0x2000 + e.val) 0 } : State).setEngine e.val { s.engine e.val with testing := false }
      (if failed then s1.retireEngine e.val else s1).endUnknowns (engineChan e.val)
    else s)

/-- CORRECTED_COUNT_RESTART (R475, R479): 24 h have passed. -/
def execCorrectedCountRestart (s : State) : Res := .next { s with corr := [], rowErrs := [] }

end Sys2Proof.Machine
end

