-- ==== Sys2Proof/Machine/Power.lean ====
section
/-! DEFINITION. Power, boot and attestation: sleep and wake (R429 to R432), the slack loop and droop events (R425, R427, R428,
R372), power-up and power loss (R446, R510), device reset (R452), and SPDM (R453). -/

namespace Sys2Proof.Machine

/-! ## Sleep -/

/-- SLEEP_REQUEST (R429, R430, R432). -/
def execSleepRequest (s : State) : Res := .next s.sleepAsk

/-- Nothing of a core keeps the device awake: it holds no task, or a held one, and its commands and stores are done (R430). -/
def Core.quiet (k : Core) : Bool :=
  (k.st == .free || k.st == .held || k.st == .retest || k.st == .lost) && k.commandsDone && k.stores.isEmpty

/-- SLEEP_ENTERED (R430, R432): every channel enters self-refresh; a wake that was requested meanwhile begins. -/
def execSleepEntered (s : State) : Res :=
  .next (
    if s.slp = .entering ∧ s.cores.all Core.quiet then
      let s1 := (List.range Config.channels).foldl State.refreshIn s
      { s1 with slp := if s.slpNext then .waking else .asleep, slpNext := false }
    else s)

/-- WAKE_REQUEST (R429, R431, R432). -/
def execWakeRequest (s : State) : Res := .next s.wakeAsk

/-- The host accesses that were held in sleep happen, in the order they arrived (R431); one that stalls stays held. -/
def State.heldAccesses (s : State) : List HostAcc → State
  | [] => s
  | x :: xs => (if s.accStalls x then { s with hostHeld := s.hostHeld ++ [x] } else s.accDo x).heldAccesses xs

/-- The device runs again (R431, R432): every channel leaves self-refresh; a sleep that was requested meanwhile begins. -/
def State.wakeUp (s : State) : State :=
  let s1 : State := { (List.range Config.channels).foldl State.refreshOut s with slp := .running, slpNext := false, hostHeld := [] }
  if s.slpNext then s1.sleepAsk else s1

/-- WAKE_COMPLETE (R431, R432): the tasks are in the ready queues in the order they had, and the host accesses that were held happen. Those
that stalled then happen at a later one, once nothing stalls them. -/
def execWakeComplete (s : State) : Res :=
  .next (
    if s.slp = .waking then s.wakeUp.heldAccesses s.hostHeld
    else if s.awake then { s with hostHeld := [] }.heldAccesses s.hostHeld
    else s)

/-! ## Slack and droop -/

/-- The voltage from which the loop steps: the one applied, or before the first step the nominal one (R428). -/
def Core.voltage (k : Core) : Nat := if k.vtrim = 0 then nominalMv k.eff else k.vtrim.toNat

/-- The voltage after a step of the loop that has measured a slack: 1 mV up below the target, 1 mV down above it, from 50 mV below to
25 mV above the nominal one; without the loop the nominal one (R428). -/
def Core.trimmed (k : Core) (slack : BitVec 8) : Nat :=
  let n := nominalMv k.eff
  if !k.slktgtEn then n
  else if slack.ult k.slktgt then min (k.voltage + 1) (n + 25)
  else if k.slktgt.ult slack then max (k.voltage - 1) (n - 50)
  else k.voltage

/-- VOLTAGE_TRIM (R428): the loop measures a slack and takes its step, which is the one that the event names. At the upper end, or
without the loop, a slack below the target stretches the cycles, and the loop raises a slack-deficit event when that begins. -/
def execVoltageTrim (c : CoreId) (slack : BitVec 8) (mv : BitVec 10) (s : State) : Res :=
  .next (
    let k := s.core c
    let n := nominalMv k.eff
    let v := k.trimmed slack
    if k.slktgtEn && v != mv.toNat then s
    else
      let short := slack.ult k.slktgt
      let stretch := short && (!k.slktgtEn || v == n + 25)
      let s1 := s.modCore c fun k => { k with slack := slack, vtrim := BitVec.ofNat 10 v, stretch := stretch }
      if stretch && k.slktgtEn && !k.stretch then s1.event .pwr { cause := 0x25, mid := BitVec.ofNat 9 c.val } else s1)

/-- DROOP_EVENT (R372, R427): one more event in the last 100 µs, beside the free number of earlier ones that lie there (log entry
46). -/
def execDroopEvent (c : CoreId) (s : State) : Res :=
  .next ((s.droopNow c).modCore c fun k => { k with dr := BitVec.ofNat 4 (min 15 (k.dr.toNat + 1)) })

/-! ## Power-up, power loss and reset -/

/-- POWER_UP (R510) of a logic die that is off: every tile's record is that of a tile never sealed, every park row is invalid; the
tiles' data bits are not defined (log entry 6). -/
def execPowerUp (s : State) : Res :=
  .next (if !s.off then s else { s with
    off := false, mem := [], recs := [], poisLines := [], stale := []
    badRows := [], rowErrs := []
    engines := (s.engines.map fun x => (x.1, { x.2 with park := none, sleepRow := none })).filter fun x => x.2 != {} })

/-- What a reset leaves as it is: the part's ordering code, the memory dies and their control stores, the errors that stand in them,
the fused minimum version; and the model's own counters. -/
def State.afterReset (s : State) : State :=
  { State.reset with
    half := s.half, mem := s.mem, recs := s.recs, poisLines := s.poisLines, off := s.off
    engines := s.engines.filterMap fun x =>
      if x.2.control.isEmpty && x.2.entries.isEmpty then none else some (x.1, { control := x.2.control, entries := x.2.entries })
    soft := s.soft, badRows := s.badRows, rowSpares := s.rowSpares, secMin := s.secMin, nextKey := s.nextKey, fresh := s.fresh, agenda := s.agenda }

/-- DEVICE_RESET (R297, R317, R452): the state of reset; the boot ROM starts Make-ready when the image's signature and its security
version pass, and else presents a boot failure. Identity and attestation keys are derived, and the boot ROM with the fused configuration,
and the image of Make-ready, whose digest is a free value, are measured (R453; log entry 14). -/
def execDeviceReset (sigOk : Bool) (secVer : Nat) (s : State) : Res :=
  .next (
    let ok := sigOk && decide (s.secMin ≤ secVer)
    let (s1, y) := s.afterReset.takeFree 384
    { s1 with
      booted := ok, bootFail := !ok, meas1 := Config.digest 1 [b2n s.half, s.secMin], meas2 := y
      idKey := Config.identityKey, attKey := Config.attestationKey Config.identityKey y })

/-- LOGIC_DIE_POWER_LOSS (R446): outside sleep the keys are lost, with everything that the logic die holds, and nothing happens before
POWER_UP (R510); the park rows and the engines are of the memory dies (log entry 14). The repair map is that of the fuses again, and so
is each engine (R480). -/
def execLogicDiePowerLoss (s : State) : Res :=
  .next (if s.slp = .asleep then s else { s.afterReset with
    engines := (s.engines.map fun x => (x.1, { x.2 with absent := false })).filter fun x => x.2 != {}, off := true })

/-! ## Attestation -/

/-- An answer to an SPDM request: its code, and what the answer holds, which the spec leaves to SPDM 1.2 and to the keys (R453; log
entry 14). The device answers once Make-ready has been started. -/
def State.spdmAnswer (s : State) (code : Nat) : State :=
  if s.booted then
    let (s1, x) := s.takeFree 512
    { s1 with spdm := some (code, x.toNat) }
  else s

/-- SPDM_GET_VERSION: VERSION answers. -/
def execSpdmGetVersion (s : State) : Res := .next (s.spdmAnswer 0x04)

/-- SPDM_GET_CAPABILITIES: CAPABILITIES answers. -/
def execSpdmGetCapabilities (s : State) : Res := .next (s.spdmAnswer 0x61)

/-- The algorithms that the device answers with: ECDSA P-384 and SHA-384 only (R453), by their selection words of SPDM 1.2 (log entry 14). -/
def spdmAlgorithms : Nat := 0x80 + 0x2 * 2 ^ 32

/-- SPDM_NEGOTIATE_ALGORITHMS: ALGORITHMS answers. -/
def execSpdmNegotiateAlgorithms (s : State) : Res :=
  .next (if s.booted then { s with spdm := some (0x63, spdmAlgorithms) } else s)

/-- SPDM_GET_DIGESTS: DIGESTS answers. -/
def execSpdmGetDigests (s : State) : Res := .next (s.spdmAnswer 0x01)

/-- SPDM_GET_CERTIFICATE: CERTIFICATE answers. -/
def execSpdmGetCertificate (s : State) : Res := .next (s.spdmAnswer 0x02)

/-- SPDM_CHALLENGE: CHALLENGE_AUTH answers, with a signature over the nonce, among others. -/
def execSpdmChallenge (_nonce : BitVec 256) (s : State) : Res := .next (s.spdmAnswer 0x03)

/-- Answer with MEASUREMENTS, which hold a value. -/
def State.measured (s : State) (v : Nat) : State := { s with spdm := some (0x60, v) }

/-- What measurement 3 is of: the control stores (R298, R453). -/
def State.storeImage (s : State) : List Nat :=
  s.engines.flatMap fun x => (x.2.control.flatMap fun w => [x.1, w.1, w.2.toNat]) ++ x.2.entries.flatMap fun y => [x.1, y.1, y.2.toNat]

/-- What measurement 4 is of: the frisket tables, the assignment of functions, and the states of the key slots (R453). -/
def State.wallImage (s : State) : List Nat :=
  (s.friskets.flatMap fun x => [x.1, x.2.toNat]) ++ (s.funcs.map fun x => x.2.partReg.toNat + x.1) ++
    s.keys.toList.map fun k => k.stat.toNat

/-- Measurement 4 as the device gives it: of what stands now, extended with what Make-ready has extended it with (R453). -/
def State.measure4 (s : State) : BitVec 384 :=
  let m := Config.digest 4 s.wallImage
  match s.meas4 with
  | none => m
  | some x => Config.digest 5 [m.toNat, x.toNat]

/-- SPDM_GET_MEASUREMENTS (R453): measurements 1 and 2 as they were made at reset; 3 and 4 of what stands now. SPDM's indices 0 and 0xFF ask for their number and for all of them; any other index is an
error (log entry 14). -/
def execSpdmGetMeasurements (idx : BitVec 8) (s : State) : Res :=
  .next (
    if !s.booted then s
    else match idx.toNat with
      | 0 => s.measured 4
      | 1 => s.measured s.meas1.toNat
      | 2 => s.measured s.meas2.toNat
      | 3 => s.measured (Config.digest 3 s.storeImage).toNat
      | 4 => s.measured s.measure4.toNat
      | 0xFF => s.spdmAnswer 0x60
      | _ => s.spdmAnswer 0x7F)

/-- MEASUREMENT_EXTEND (R453): measurement 4 is extended with a value, after those it is extended with already. -/
def execMeasurementExtend (v : BitVec 384) (s : State) : Res :=
  .next (if s.booted then
    { s with meas4 := some (match s.meas4 with | none => v | some x => Config.digest 5 [x.toNat, v.toNat]) }
  else s)

end Sys2Proof.Machine
end

