-- ==== Sys2Proof/Machine/Sampler.lean ====
section
/-! DEFINITION. The sampler instructions of the XPS slot (R403 to R414). -/

namespace Sys2Proof.Machine

/-! ## Draws -/

/-- The rounds of Draw (R407), on 32-bit words. -/
def drawRounds : Nat → Word32 → Word32 → Word32 → Word32 → Word32 → Word32 → Word
  | 0, x0, x1, _, _, _, _ => x1 ++ x0
  | n + 1, x0, x1, x2, x3, k0, k1 =>
    let P : Word := x0.setWidth 64 * 0xD2511F53
    let Q : Word := x2.setWidth 64 * 0xCD9E8D57
    drawRounds n (Q.extractLsb' 32 32 ^^^ x1 ^^^ k0) (Q.setWidth 32) (P.extractLsb' 32 32 ^^^ x3 ^^^ k1) (P.setWidth 32)
      (k0 + 0x9E3779B9) (k1 + 0xBB67AE85)

/-- Draw of R407. -/
def draw (seed : Word) (pos kind rank : Word32) : Word :=
  drawRounds 10 pos kind rank 0x5853414D (seed.setWidth 32) (seed.extractLsb' 32 32)

/-- U of R407. -/
def unitDraw (seed : Word) (pos kind rank : Word32) : Num :=
  .fin false ((draw seed pos kind rank).toNat % 2 ^ 32 / 256) (-24) false

/-! ## Records -/

/-- What a record read gives: its content, a fault, or poisoned data. -/
inductive RecRead (α : Type) where
  | ok (x : α)
  | bad (f : AccFault)
  | poison
  deriving Repr

/-- Read `n` bytes of the scratchpad at the operand read, with the checks of R406. -/
def Core.recBytes (k : Core) (off n al : Nat) : RecRead (List Byte) :=
  if off % al ≠ 0 ∨ Config.spadBytes < off + n then .bad alignFault
  else if k.spadPoison off n then .poison
  else .ok (k.spadRead off n)

/-- A sampling record (R403). -/
structure SampRec where
  seed : Word
  temp : Nat
  topp : Num
  deriving DecidableEq, Repr

/-- A positive finite value. -/
def posFinite (x : Num) : Bool := x.isFin && !x.isZero && !x.sign

/-- A value in (0, 1]. -/
def unitRange (x : Num) : Bool := posFinite x && ncmp x (.pow2 0) != .gt

/-- Read a sampling record (R403, R406). -/
def Core.sampRec (k : Core) (off : Nat) : RecRead SampRec :=
  match k.recBytes off 64 64 with
  | .bad f => .bad f
  | .poison => .poison
  | .ok b =>
    let temp := fieldAt b 8 4
    let topp := value .fp32 (fieldAt b 12 4)
    if fieldAt b 16 48 ≠ 0 ∨ !(temp == 0 || posFinite (value .fp32 temp)) ∨ !unitRange topp then .bad (formatFault 4)
    else .ok ⟨BitVec.ofNat 64 (fieldAt b 0 8), temp, topp⟩

/-- A penalty record: the factors and the (token, count) entries (R404). -/
structure PenRec where
  rep : Num
  freq : Num
  ents : List (Nat × Nat)
  deriving DecidableEq, Repr

/-- Read a penalty record (R404, R406). With `n` in its range the record's extent is known, and one that passes the scratchpad is
an alignment fault before any other field is looked at (R55). -/
def Core.penRec (k : Core) (off : Nat) : RecRead PenRec :=
  match k.recBytes off 16 16 with
  | .bad f => .bad f
  | .poison => .poison
  | .ok h =>
    let n := fieldAt h 0 4
    let rep := value .fp32 (fieldAt h 4 4)
    let freq := value .fp32 (fieldAt h 8 4)
    if 2048 < n then .bad (formatFault 4)
    else if Config.spadBytes < off + 16 + 8 * n then .bad alignFault
    else if fieldAt h 12 4 ≠ 0 ∨ !posFinite rep ∨ !freq.isFin then .bad (formatFault 4)
    else match k.recBytes off (16 + 8 * n) 16 with
      | .bad f => .bad f
      | .poison => .poison
      | .ok b =>
        let es := (List.range n).map fun i => fieldAt b (16 + 8 * i) 8
        let toks := es.map (· % 2 ^ 32)
        if es.any (fun w => w % 2 ^ 32 == 0xFFFFFFFF || w / 2 ^ 32 % 2 ^ 16 == 0 || w / 2 ^ 48 != 0) ||
            decide (toks.eraseDups.length ≠ n) then .bad (formatFault 4)
        else .ok ⟨rep, freq, es.map fun w => (w % 2 ^ 32, w / 2 ^ 32 % 2 ^ 16)⟩

/-- Read a mask image: V and the bitmap (R405, R406). -/
def Core.maskImage (k : Core) (off : Nat) : RecRead (Nat × List Byte) :=
  match k.recBytes off 8 8 with
  | .bad f => .bad f
  | .poison => .poison
  | .ok h =>
    let v := fieldAt h 0 4
    if v = 0 ∨ 2 ^ 20 < v then .bad (formatFault 4)
    else match k.recBytes off (8 + cdiv v 8) 8 with
      | .bad f => .bad f
      | .poison => .poison
      | .ok b => .ok (v, b.drop 8)

/-- Record the format trap of a zero field of rs that is not zero (R409). -/
def State.zeroField (s : State) (bad : Bool) : State := if bad then s.fault xpsSlot (formatFault 3) else s

/-- The fault of a record: an alignment fault names the record's offset, a format trap no address (R406, R466). -/
def State.recFault (s : State) (f : AccFault) (off : Nat) : State :=
  s.fault xpsSlot f (if f.cause = 0x07 then 0 else off)

/-! ## Weights, Truncate and Choose -/

/-- RoundTo(FP32, RNE) as a value. -/
def rnd32 (x : Num) (F : Flags) : Num × Flags :=
  let (r, f) := roundTo .fp32 .rne x
  (value .fp32 r, F ||| f)

/-- Weights of R408 over the entries in rank order. -/
def weights (temp : Nat) (es : List Cand) : List Num × Flags :=
  match es with
  | [] => ([], 0)
  | c :: cs =>
    let s0 := c.num
    if temp = 0 ∨ s0.isInf then (.pow2 0 :: cs.map fun _ => .zero, 0)
    else
      let (k, F) := rnd32 (ndiv (value .fp32 0x3FB8AA3B) (value .fp32 temp)).1 0
      let rs := (c :: cs).map fun e =>
        let (x, f) := rnd32 (nadd .rne e.num s0.neg).1 0
        if x.isZero then (Num.pow2 0, f)
        else
          let (y, g) := rnd32 (nmul x k).1 f
          rnd32 (nexp2 y).1 g
      (rs.map (·.1), F ||| orFlags (rs.map (·.2)))

/-- The running sums C of R408. -/
def cumSums : Num → List Num → List Num × Flags
  | _, [] => ([], 0)
  | c, e :: t =>
    let (x, f) := rnd32 (nadd .rne c e).1 0
    let (xs, g) := cumSums x t
    (x :: xs, f ||| g)

/-- Truncate of R408: the sums and K, for a sequence that is not empty. -/
def truncateMass (topp : Num) (es : List Num) : List Num × Nat × Flags :=
  match es with
  | [] => ([], 0, 0)
  | e :: t =>
    let (cs, F) := cumSums e t
    let c := e :: cs
    let (tau, G) := rnd32 (nmul topp (c.getLastD .zero)).1 F
    (c, ((c.findIdx? fun x => ncmp x tau != .lt).getD (c.length - 1)) + 1, G)

/-- Choose of R408: the index of the entry chosen. -/
def choose (topp : Num) (es : List Num) (u : Num) : Nat × Flags :=
  let (c, k, F) := truncateMass topp es
  let (t, G) := rnd32 (nmul u (c.getD (k - 1) .zero)).1 F
  (((c.take k).findIdx? fun x => ncmp x t == .gt).getD (k - 1), G)

/-! ## The instructions -/

/-- A poisoned list in place of a result (R230), from operands of some origins. -/
def State.poisonList (s : State) (l : Fin 4) (keys : List Nat) : State :=
  s.postList xpsSlot l 6 { s.listOp l with poison := true } 0 (listKey l :: keys)

/-- One entry with its penalty (R410). -/
def penalise (r : PenRec) (path : List Nat) (e : Cand) : Cand × Flags :=
  let id := e.id.toNat
  let c := ((r.ents.find? fun x => x.1 == id).map (·.2)).getD 0 + (path.filter fun t => t == id).length
  if c = 0 then (e, 0)
  else
    let s := e.num
    let (s1, F) := if ncmp s .zero = .gt then rnd32 (ndiv s r.rep).1 0 else rnd32 (nmul s r.rep).1 0
    let (b, G) := roundTo .fp32 .rne (nadd .rne s1 (nmul r.freq (.ofNat c)).1.neg).1
    (⟨BitVec.ofNat 32 b, e.id⟩, F ||| G)

/-- XS.PENAL (R410). -/
def execXsPenal (p : Pred) (l : Fin 4) (c : Cluster) (r : SReg) (a : VReg) (n : BitVec 6) (s : State) : Res :=
  .next (s.when p xpsSlot fun s =>
    let y := s.opnd c r
    let rows := (s.rowOp a) :: (if 32 < n.toNat then [s.rowOp (a + 1)] else [])
    let old := s.listOp l
    let s1 := match tagCheck tagX rows with | some e => s.fault xpsSlot e | none => s
    let keys := regKeys c [r] ++ rowKeys (a :: (if 32 < n.toNat then [a + 1] else []))
    if y.pois then s1.poisonList l keys
    else
      let s2 := s1.zeroField (bits y.v 63 20 != 0)
      match s.iss.pre.penRec (bits y.v 19 0) with
      | .bad f => s2.recFault f (bits y.v 19 0)
      | .poison => s2.poisonList l keys
      | .ok pr =>
        if old.poison || rows.any (·.isPoison) then s2.poisonList l keys
        else
          let path := (rows.flatMap fun x => lanesOf x.bits 32).take n.toNat
          let es := old.ents.map (penalise pr path)
          s2.postList xpsSlot l 6 ⟨rank Cand.before (es.map (·.1)), false⟩ (orFlags (es.map (·.2))))

/-- XS.MASK keeps an entry (R411). -/
def maskKeeps (v : Nat) (bm : List Byte) (e : Cand) : Bool :=
  decide (e.id.toNat < v) && (bm.getD (e.id.toNat / 8) 0).getLsbD (e.id.toNat % 8)

/-- XS.MASK (R411). -/
def execXsMask (p : Pred) (l : Fin 4) (c : Cluster) (r : SReg) (s : State) : Res :=
  .next (s.when p xpsSlot fun s =>
    let y := s.opnd c r
    let old := s.listOp l
    if y.pois then s.poisonList l (regKeys c [r])
    else
      let s1 := s.zeroField (bits y.v 63 20 != 0)
      match s.iss.pre.maskImage (bits y.v 19 0) with
      | .bad f => s1.recFault f (bits y.v 19 0)
      | .poison => s1.poisonList l []
      | .ok (v, bm) =>
        if old.poison then s1.poisonList l []
        else s1.postList xpsSlot l 6 ⟨old.ents.filter (maskKeeps v bm), false⟩ 0)

/-- XS.RAND (R412): the seed is in the register after bd. -/
def execXsRand (p : Pred) (d : SReg) (k : BitVec 6) (s : State) : Res :=
  .next (s.when p xpsSlot fun s =>
    let y := s.opnd .b d
    let sd := s.opnd .b (d + 1)
    let s1 := if y.pois then s else s.zeroField (bits y.v 31 28 != 0 || bits y.v 19 0 != 0)
    s1.postScalar xpsSlot .b d 4
      (draw sd.v (y.v.extractLsb' 32 32) (k.setWidth 32) (BitVec.ofNat 32 (bits y.v 27 20))) 0 (y.pois || sd.pois)
      (regKeys .b [d, d + 1]))

/-- The empty result of XS.PICK and XS.VERIFY (R413, R414). -/
def noPick : Word := 0x00000000FFFFFFFF

/-- XS.PICK (R413). -/
def execXsPick (p : Pred) (d : SReg) (l : Fin 4) (s : State) : Res :=
  .next (s.when p xpsSlot fun s =>
    let y := s.opnd .b d
    let src := s.listOp l
    let poisoned (s : State) : State := s.postScalar xpsSlot .b d 8 0 0 true (regKeys .b [d] ++ [listKey l])
    if y.pois then poisoned s
    else
      let s1 := s.zeroField (bits y.v 31 20 != 0)
      match s.iss.pre.sampRec (bits y.v 19 0) with
      | .bad f => s1.recFault f (bits y.v 19 0)
      | .poison => poisoned s1
      | .ok rc =>
        if src.poison then poisoned s1
        else if src.ents.isEmpty then s1.postScalar xpsSlot .b d 8 noPick 0 false
        else
          let (w, F) := weights rc.temp src.ents
          let (i, G) := choose rc.topp w (unitDraw rc.seed (y.v.extractLsb' 32 32) 0 0)
          s1.postScalar xpsSlot .b d 8 (BitVec.ofNat 32 i ++ (src.ents.getD i emptyCand).id) (F ||| G) false)

/-- The sibling tests of XS.VERIFY from rank `r` on (R414): `R` holds the entries left with their weights. A refused token leaves R
with every entry that has it, since it "is never returned" and a list may hold it twice (R231). -/
def verifyLoop (rc : SampRec) (pos : Word32) : Nat → List (Nat × Num) → List (Cand × Num) → Flags → Word × Flags
  | _, [], R, F =>
    if R.isEmpty then (noPick, F)
    else
      let (i, G) := choose rc.topp (R.map (·.2)) (unitDraw rc.seed pos 2 0)
      (((R.getD i (emptyCand, .zero)).1.id).setWidth 64, F ||| G)
  | r, (d, q) :: t, R, F =>
    let (c, k, G) := truncateMass rc.topp (R.map (·.2))
    match R.findIdx? fun e => e.1.id.toNat == d with
    | none => verifyLoop rc pos (r + 1) t R (F ||| G)
    | some j =>
      let e := (R.getD j (emptyCand, .zero)).2
      let lhs := (nmul (nmul (unitDraw rc.seed pos 1 (BitVec.ofNat 32 r)) q).1 (c.getD (k - 1) .zero)).1
      if decide (j < k) && ncmp lhs e == .lt then (BitVec.ofNat 64 (2 ^ 63 + r * 2 ^ 32 + d), F ||| G)
      else verifyLoop rc pos (r + 1) t (R.filter fun x => x.1.id.toNat != d) (F ||| G)

/-- XS.VERIFY (R414). -/
def execXsVerify (p : Pred) (d : SReg) (l : Fin 4) (a : VReg) (m : BitVec 6) (s : State) : Res :=
  .next (s.when p xpsSlot fun s =>
    let y := s.opnd .b d
    let src := s.listOp l
    let x := s.rowOp a
    let z := s.rowOp (a + 1)
    let poisoned (s : State) : State :=
      s.postScalar xpsSlot .b d 10 0 0 true (regKeys .b [d] ++ rowKeys [a, a + 1] ++ [listKey l])
    let qs := z.nums.take m.toNat
    let s1 := match (tagCheck tagX [x]) <|> tagCheck (fun t => t == 1) [z] <|>
        (if !z.isPoison && qs.any (fun q => !unitRange q) then some (formatFault 2) else none) with
      | some e => s.fault xpsSlot e
      | none => s
    if y.pois then poisoned s1
    else
      let s2 := s1.zeroField (bits y.v 31 20 != 0)
      match s.iss.pre.sampRec (bits y.v 19 0) with
      | .bad f => s2.recFault f (bits y.v 19 0)
      | .poison => poisoned s2
      | .ok rc =>
        if src.poison || x.isPoison || z.isPoison then poisoned s2
        else
          let (w, F) := weights rc.temp src.ents
          let (v, G) := verifyLoop rc (y.v.extractLsb' 32 32) 0 (List.zip ((lanesOf x.bits 32).take m.toNat) qs)
            (List.zip src.ents w) F
          s2.postScalar xpsSlot .b d 10 v G false)

end Sys2Proof.Machine
end

