-- ==== Sys2Proof/Machine/Scalar.lean ====
section
/-! DEFINITION. The integer instructions of SA and SB, the moves, compares, predicates and special registers
(R149 to R170). -/

namespace Sys2Proof.Machine

/-- Bring an exact integer into a type by wrapping or saturation, then into the register (R150, R153). -/
def narrow (sat : Bool) (t : ITy) (z : Int) : Word :=
  wrapWord (if sat then satInt t.width t.signed z else wrapInt t.width t.signed z)

/-- ADD (R153). -/
def execAdd (sl : SSlot) (p : Pred) (d a b : SReg) (sat : Bool) (t : ITy) (s : State) : Res :=
  .next (s.alu2 sl p d a b 1 fun x y => pure0 (narrow sat t (ival t x + ival t y)))

/-- SUB (R153). -/
def execSub (sl : SSlot) (p : Pred) (d a b : SReg) (sat : Bool) (t : ITy) (s : State) : Res :=
  .next (s.alu2 sl p d a b 1 fun x y => pure0 (narrow sat t (ival t x - ival t y)))

/-- MUL (R153); latency 3 (R149). -/
def execMul (sl : SSlot) (p : Pred) (d a b : SReg) (sat : Bool) (t : ITy) (s : State) : Res :=
  .next (s.alu2 sl p d a b 3 fun x y => pure0 (narrow sat t (ival t x * ival t y)))

/-- The high half of the full product (R154). -/
def mulHigh (t : ITy) (x y : Word) : Word := wrapWord ((ival t x * ival t y) / 2 ^ t.width)

/-- MULH (R154). -/
def execMulh (sl : SSlot) (p : Pred) (d a b : SReg) (t : ITy) (s : State) : Res :=
  .next (s.alu2 sl p d a b 3 fun x y => pure0 (mulHigh t x y))

/-- MULHN (R154). -/
def execMulhn (sl : SSlot) (p : Pred) (d a b : SReg) (t : ITy) (s : State) : Res :=
  .next (s.alu2 sl p d a b 3 fun x y => pure0 (mulHigh t x y))

/-- AND (R157). -/
def execAnd (sl : SSlot) (p : Pred) (d a b : SReg) (s : State) : Res :=
  .next (s.alu2 sl p d a b 1 fun x y => pure0 (x &&& y))

/-- OR (R157). -/
def execOr (sl : SSlot) (p : Pred) (d a b : SReg) (s : State) : Res :=
  .next (s.alu2 sl p d a b 1 fun x y => pure0 (x ||| y))

/-- XOR (R157). -/
def execXor (sl : SSlot) (p : Pred) (d a b : SReg) (s : State) : Res :=
  .next (s.alu2 sl p d a b 1 fun x y => pure0 (x ^^^ y))

/-- ANDN (R157). -/
def execAndn (sl : SSlot) (p : Pred) (d a b : SReg) (s : State) : Res :=
  .next (s.alu2 sl p d a b 1 fun x y => pure0 (x &&& ~~~y))

/-- x × 2^n wrapped to the type; 0 when n is at least its width (R158). -/
def shlBy (t : ITy) (x : Word) (n : Nat) : Word :=
  wrapWord (if t.width ≤ n then 0 else wrapInt t.width t.signed (ival t x * 2 ^ n))

/-- ⌊x / 2^n⌋ in the type; an amount of the width or more leaves 0 or −1 (R158). -/
def shrBy (t : ITy) (x : Word) (n : Nat) : Word := wrapWord (ival t x / 2 ^ (min n 64))

/-- SHL (R158). -/
def execShl (sl : SSlot) (p : Pred) (d a b : SReg) (t : ITy) (s : State) : Res :=
  .next (s.alu2 sl p d a b 1 fun x y => pure0 (shlBy t x y.toNat))

/-- SHR (R158). -/
def execShr (sl : SSlot) (p : Pred) (d a b : SReg) (t : ITy) (s : State) : Res :=
  .next (s.alu2 sl p d a b 1 fun x y => pure0 (shrBy t x y.toNat))

/-- SRA (R158). -/
def execSra (sl : SSlot) (p : Pred) (d a b : SReg) (t : ITy) (s : State) : Res :=
  .next (s.alu2 sl p d a b 1 fun x y => pure0 (shrBy t x y.toNat))

/-- The smaller of two integers in the type (R159). -/
def imin (t : ITy) (x y : Word) : Word := wrapWord (min (ival t x) (ival t y))

/-- The larger of two integers in the type (R159). -/
def imax (t : ITy) (x y : Word) : Word := wrapWord (max (ival t x) (ival t y))

/-- MIN (R159). -/
def execMin (sl : SSlot) (p : Pred) (d a b : SReg) (t : ITy) (s : State) : Res :=
  .next (s.alu2 sl p d a b 1 fun x y => pure0 (imin t x y))

/-- MAX (R159). -/
def execMax (sl : SSlot) (p : Pred) (d a b : SReg) (t : ITy) (s : State) : Res :=
  .next (s.alu2 sl p d a b 1 fun x y => pure0 (imax t x y))

/-- MINN (R159). -/
def execMinn (sl : SSlot) (p : Pred) (d a b : SReg) (t : ITy) (s : State) : Res :=
  .next (s.alu2 sl p d a b 1 fun x y => pure0 (imin t x y))

/-- MAXN (R159). -/
def execMaxn (sl : SSlot) (p : Pred) (d a b : SReg) (t : ITy) (s : State) : Res :=
  .next (s.alu2 sl p d a b 1 fun x y => pure0 (imax t x y))

/-- ADDI (R155). -/
def execAddi (sl : SSlot) (p : Pred) (d a : SReg) (i : BitVec 11) (s : State) : Res :=
  .next (s.alu1 sl p d a 1 fun x => pure0 (x + i.signExtend 64))

/-- ANDI (R155). -/
def execAndi (sl : SSlot) (p : Pred) (d a : SReg) (i : BitVec 11) (s : State) : Res :=
  .next (s.alu1 sl p d a 1 fun x => pure0 (x &&& i.signExtend 64))

/-- ORI (R155). -/
def execOri (sl : SSlot) (p : Pred) (d a : SReg) (i : BitVec 11) (s : State) : Res :=
  .next (s.alu1 sl p d a 1 fun x => pure0 (x ||| i.signExtend 64))

/-- XORI (R155). -/
def execXori (sl : SSlot) (p : Pred) (d a : SReg) (i : BitVec 11) (s : State) : Res :=
  .next (s.alu1 sl p d a 1 fun x => pure0 (x ^^^ i.signExtend 64))

/-- SHLI (R158). -/
def execShli (sl : SSlot) (p : Pred) (d a : SReg) (t : ITy) (n : BitVec 6) (s : State) : Res :=
  .next (s.alu1 sl p d a 1 fun x => pure0 (shlBy t x n.toNat))

/-- SHRI (R158). -/
def execShri (sl : SSlot) (p : Pred) (d a : SReg) (t : ITy) (n : BitVec 6) (s : State) : Res :=
  .next (s.alu1 sl p d a 1 fun x => pure0 (shrBy t x n.toNat))

/-- SRAI (R158). -/
def execSrai (sl : SSlot) (p : Pred) (d a : SReg) (t : ITy) (n : BitVec 6) (s : State) : Res :=
  .next (s.alu1 sl p d a 1 fun x => pure0 (shrBy t x n.toNat))

/-- The condition of CMPI between a register and the extended immediate (R166). -/
def condIHolds (c : CondI) (x y : Word) : Bool :=
  match c with
  | .eq => x == y
  | .ne => x != y
  | .lt => x.slt y
  | .ge => y.sle x
  | .ltn => x.ult y
  | .gen => y.ule x
  | .tst => x &&& y != 0

/-- CMPI (R166). -/
def execCmpi (sl : SSlot) (p : Pred) (d : PReg) (a : SReg) (c : CondI) (i : BitVec 9) (s : State) : Res :=
  .next (s.when p (slotS sl) fun s =>
    let x := s.opnd sl.cluster a
    s.postPred (slotS sl) d 1 (condIHolds c x.v (i.signExtend 64)) 0 x.pois (regKeys sl.cluster [a]))

/-- How many of the bits w−1, w−2, … of x are zero before the first one. -/
def clzFrom (x : Word) : Nat → Nat
  | 0 => 0
  | w + 1 => if x.getLsbD w then 0 else clzFrom x w + 1

/-- How many of the bits from position `i` on, of `n` that remain, are zero before the first one. -/
def ctzFrom (x : Word) (i : Nat) : Nat → Nat
  | 0 => 0
  | n + 1 => if x.getLsbD i then 0 else ctzFrom x (i + 1) n + 1

/-- How many of the low `w` bits of x are one. -/
def popFrom (x : Word) : Nat → Nat
  | 0 => 0
  | w + 1 => popFrom x w + if x.getLsbD w then 1 else 0

/-- CLZ (R160). -/
def execClz (sl : SSlot) (p : Pred) (d a : SReg) (t : ITy) (s : State) : Res :=
  .next (s.alu1 sl p d a 1 fun x => pure0 (BitVec.ofNat 64 (clzFrom x t.width)))

/-- CTZ (R160). -/
def execCtz (sl : SSlot) (p : Pred) (d a : SReg) (t : ITy) (s : State) : Res :=
  .next (s.alu1 sl p d a 1 fun x => pure0 (BitVec.ofNat 64 (ctzFrom x 0 t.width)))

/-- POPC (R160). -/
def execPopc (sl : SSlot) (p : Pred) (d a : SReg) (t : ITy) (s : State) : Res :=
  .next (s.alu1 sl p d a 1 fun x => pure0 (BitVec.ofNat 64 (popFrom x t.width)))

/-- The position in a field operand (R161). -/
def fieldPos (y : Word) : Nat := y.toNat % 64

/-- The length in a field operand; 0 stands for 64 (R161). -/
def fieldLen (y : Word) : Nat := if y.toNat / 256 % 64 = 0 then 64 else y.toNat / 256 % 64

/-- EXTN's result (R161). -/
def extractField (x y : Word) : Nat := x.toNat / 2 ^ fieldPos y % 2 ^ fieldLen y

/-- EXT (R161). -/
def execExt (sl : SSlot) (p : Pred) (d a b : SReg) (s : State) : Res :=
  .next (s.alu2 sl p d a b 1 fun x y =>
    let f := extractField x y
    pure0 (wrapWord (if 2 ^ (fieldLen y - 1) ≤ f then (f : Int) - 2 ^ fieldLen y else f)))

/-- EXTN (R161). -/
def execExtn (sl : SSlot) (p : Pred) (d a b : SReg) (s : State) : Res :=
  .next (s.alu2 sl p d a b 1 fun x y => pure0 (BitVec.ofNat 64 (extractField x y)))

/-- INS's result: the low bits of x at the field's place in z; bits past 63 are dropped (R161). -/
def insertField (x y z : Word) : Word :=
  let m : Word := BitVec.ofNat 64 (2 ^ fieldLen y - 1) <<< fieldPos y
  ((x <<< fieldPos y) &&& m) ||| (z &&& ~~~m)

/-- INS (R161). -/
def execIns (sl : SSlot) (p : Pred) (d a b : SReg) (s : State) : Res :=
  .next (s.alu3 sl p d a b 1 fun x y z => pure0 (insertField x y z))

/-- SEL: the selected register with its mark; a poisoned selecting predicate traps (R152, R163). -/
def execSel (sl : SSlot) (p : Pred) (d a b : SReg) (ps : PReg) (s : State) : Res :=
  .next (s.when p (slotS sl) fun s =>
    if s.iss.pre.pPois.getLsbD ps.val then s.deferPred (slotS sl) ps
    else
      let r := if s.iss.pre.p.getLsbD ps.val then a else b
      let x := s.opnd sl.cluster r
      s.postScalar (slotS sl) sl.cluster d 1 x.v 0 x.pois (regKeys sl.cluster [r]))

/-- The index of LEA as its type reads it (R164). -/
def leaIndex (t : LeaTy) (y : Word) : Word :=
  match t with
  | .i64 => y
  | .i32 => (y.setWidth 32).signExtend 64
  | .n32 => (y.setWidth 32).setWidth 64

/-- LEA (R164). -/
def execLea (sl : SSlot) (p : Pred) (d a b : SReg) (sh : BitVec 3) (t : LeaTy) (s : State) : Res :=
  .next (s.alu2 sl p d a b 1 fun x y => pure0 (x + (leaIndex t y <<< sh.toNat)))

/-- MOVI, SM form (R79, R162). -/
def execMovi (sl : SSlot) (p : Pred) (d : SReg) (i : BitVec 16) (s : State) : Res :=
  .next (s.when p (slotS sl) fun s => s.postScalar (slotS sl) sl.cluster d 1 (i.signExtend 64) 0 false)

/-- MOVHI (R162). -/
def execMovhi (sl : SSlot) (p : Pred) (d : SReg) (i : BitVec 16) (s : State) : Res :=
  .next (s.alu1 sl p d d 1 fun x => pure0 ((x <<< 16) + i.setWidth 64))

/-- MOVI, SL form (R79). -/
def execMoviSl (sl : SSlot) (p : Pred) (d : SReg) (l : Fin 3) (wide : Bool) (s : State) : Res :=
  .next (s.when p (slotS sl) fun s =>
    let v : Word := if wide then s.lit (l.val + 1) ++ s.lit l.val else (s.lit l.val).signExtend 64
    s.postScalar (slotS sl) sl.cluster d 1 v 0 false)

/-- The other cluster. -/
def otherCluster : Cluster → Cluster
  | .a => .b
  | .b => .a

/-- CMV: a register of the other cluster, with its mark (R165). -/
def execCmv (sl : SSlot) (p : Pred) (d a : SReg) (s : State) : Res :=
  .next (s.when p (slotS sl) fun s =>
    let x := s.opnd (otherCluster sl.cluster) a
    s.postScalar (slotS sl) sl.cluster d 1 x.v 0 x.pois (regKeys (otherCluster sl.cluster) [a]))

/-- The condition of CMP (R166). -/
def condHolds (c : Cond) (t : ITy) (x y : Word) : Bool :=
  match c with
  | .eq => ival t x == ival t y
  | .ne => ival t x != ival t y
  | .lt => decide (ival t x < ival t y)
  | .ge => decide (ival t y ≤ ival t x)
  | .gt => decide (ival t y < ival t x)
  | .le => decide (ival t x ≤ ival t y)
  | .tst => decide ((x &&& y).toNat % 2 ^ t.width ≠ 0)

/-- CMP (R166). -/
def execCmp (sl : SSlot) (p : Pred) (d : PReg) (a b : SReg) (c : Cond) (t : ITy) (s : State) : Res :=
  .next (s.cmp2 sl p d a b 1 fun x y => pure0 (condHolds c t x y))

/-- PSET: tt[2 × pa + pb] (R167). -/
def execPset (sl : SSlot) (p : Pred) (d x y : PReg) (tt : BitVec 4) (s : State) : Res :=
  .next (s.when p (slotS sl) fun s =>
    let k := s.iss.pre
    let i := (if k.p.getLsbD x.val then 2 else 0) + (if k.p.getLsbD y.val then 1 else 0)
    s.postPred (slotS sl) d 1 (tt.getLsbD i) 0 (k.pPois.getLsbD x.val || k.pPois.getLsbD y.val)
      [porigKey 2 x.val, porigKey 2 y.val])

/-- The value of a special register, zero-extended (R37, R39, R40, R169). -/
def State.readSr (s : State) (n : BitVec 11) : Word :=
  let k := s.iss.pre
  let i := n.toNat
  if i = 0x000 then k.fsr.setWidth 64
  else if i = 0x001 then k.tick
  else if i = 0x002 then k.taskid.setWidth 64
  else if i = 0x003 then k.tilex.setWidth 64
  else if i = 0x004 then k.tiley.setWidth 64
  else if i = 0x005 then k.tilez.setWidth 64
  else if i = 0x006 then k.thr.setWidth 64
  else if i = 0x007 then k.opc.setWidth 64
  else if i = 0x008 then BitVec.ofNat 64 s.cur.val
  else if i = 0x009 then (match s.partOf s.cur with | some q => BitVec.ofNat 64 q.val | none => 0)
  else if i = 0x00A then (if k.side then 1 else 0)
  else if i = 0x00B then k.p.setWidth 64
  else if i < 0x010 then (k.lc.toList.getD (i - 0x00C) {}).count.setWidth 64
  else if i < 0x014 then BitVec.ofNat 64 (k.cx.toList.getD (i - 0x010) {}).tl
  else if i = 0x014 then BitVec.ofNat 64 k.gx.tl
  else (s.corePart s.cur).gp.toList.getD (i - 0x040) 0

/-- RDSR (R169). A special register whose parity has failed gives a poisoned result (R474). -/
def execRdsr (sl : SSlot) (p : Pred) (d : SReg) (n : BitVec 11) (s : State) : Res :=
  .next (s.when p (slotS sl) fun s =>
    s.postScalar (slotS sl) sl.cluster d 1 (s.readSr n) 0 (s.iss.pre.lostSr.contains n.toNat) [srKey n.toNat])

/-- What a write of thr stores (R170). -/
def clampThr (x : BitVec 16) : BitVec 16 :=
  if x.msb then 0 else if (0x7C00#16).ule x then 0x7BFF else x

/-- A write of a special register restores its parity (R474). -/
def Core.srWritten (k : Core) (n : Nat) : Core :=
  { k.noteShared (srKey n) false 0 with lostSr := k.lostSr.filter (· != n) }

/-- WRSR: the write takes effect at the end of the issuing tick (R170); a poisoned source traps as a register-borne operand (R152,
R455). Of two writes of fsr in one bundle, which R48 allows, the spec does not say which value stands: SB's does (DESIGN CHOICE, log entry
95). -/
def execWrsr (sl : SSlot) (p : Pred) (a : SReg) (n : BitVec 11) (s : State) : Res :=
  .next (s.when p (slotS sl) fun s =>
    let x := s.opnd sl.cluster a
    if x.pois then s.deferReg (slotS sl) 4 sl.cluster a
    else
      let s := s.modMe fun k => k.srWritten n.toNat
      if n = 0x000#11 then { s with iss := { s.iss with wfsr := some (x.v.setWidth 5) } }
      else if n = 0x006#11 then s.modMe fun k => { k with thr := clampThr (x.v.setWidth 16) }
      else { s with iss := { s.iss with wpfile := some (x.v.setWidth 12) } })

/-- The integer divider is busy: a divide issued earlier occupies it (R43, R156). -/
def State.intDivide (s : State) (p : Pred) (d a b : SReg) (f : Word → Word → Word) : State :=
  s.when p 2 fun s =>
    if s.iss.pre.idiv ≠ 0 then s.fault 2 (schedFault 0x01)
    else
      let x := s.opnd .b a
      let y := s.opnd .b b
      (s.modMe fun k => { k with idiv := 18 }).postScalar 2 .b d 18 (f x.v y.v) 0 (x.pois || y.pois)
        (regKeys .b [a, b])

/-- The quotient of DIV and DIVN (R156). -/
def divQuot (t : ITy) (x y : Word) : Word :=
  let u := ival t x
  let v := ival t y
  if v = 0 then wrapWord (if t.signed then -1 else 2 ^ t.width - 1)
  else wrapWord (wrapInt t.width t.signed (Int.tdiv u v))

/-- The remainder of REM and REMN (R156). -/
def divRem (t : ITy) (x y : Word) : Word :=
  let u := ival t x
  let v := ival t y
  if v = 0 then wrapWord u else wrapWord (Int.tmod u v)

/-- DIV (R156). -/
def execDiv (p : Pred) (d a b : SReg) (t : ITy) (s : State) : Res := .next (s.intDivide p d a b (divQuot t))

/-- DIVN (R156). -/
def execDivn (p : Pred) (d a b : SReg) (t : ITy) (s : State) : Res := .next (s.intDivide p d a b (divQuot t))

/-- REM (R156). -/
def execRem (p : Pred) (d a b : SReg) (t : ITy) (s : State) : Res := .next (s.intDivide p d a b (divRem t))

/-- REMN (R156). -/
def execRemn (p : Pred) (d a b : SReg) (t : ITy) (s : State) : Res := .next (s.intDivide p d a b (divRem t))

end Sys2Proof.Machine
end

