-- ==== Sys2Proof/Machine/Dispatch.lean ====
section
/-! DEFINITION. The meaning of every instruction and event: one arm per constructor, each one call of its meaning. -/

namespace Sys2Proof.Machine

/-- The meaning of an instruction in a state: a slot instruction acts in the bundle being issued, an event on the machine. -/
def exec (i : Instr) (s : State) : Host.Outcome State Fault Refusal :=
  match i with
  | .add sl p d a b sat t => Sys2Proof.Machine.execAdd sl p d a b sat t s
  | .sub sl p d a b sat t => Sys2Proof.Machine.execSub sl p d a b sat t s
  | .mul sl p d a b sat t => Sys2Proof.Machine.execMul sl p d a b sat t s
  | .mulh sl p d a b t => Sys2Proof.Machine.execMulh sl p d a b t s
  | .mulhn sl p d a b t => Sys2Proof.Machine.execMulhn sl p d a b t s
  | .and sl p d a b => Sys2Proof.Machine.execAnd sl p d a b s
  | .or sl p d a b => Sys2Proof.Machine.execOr sl p d a b s
  | .xor sl p d a b => Sys2Proof.Machine.execXor sl p d a b s
  | .andn sl p d a b => Sys2Proof.Machine.execAndn sl p d a b s
  | .shl sl p d a b t => Sys2Proof.Machine.execShl sl p d a b t s
  | .shr sl p d a b t => Sys2Proof.Machine.execShr sl p d a b t s
  | .sra sl p d a b t => Sys2Proof.Machine.execSra sl p d a b t s
  | .min sl p d a b t => Sys2Proof.Machine.execMin sl p d a b t s
  | .max sl p d a b t => Sys2Proof.Machine.execMax sl p d a b t s
  | .minn sl p d a b t => Sys2Proof.Machine.execMinn sl p d a b t s
  | .maxn sl p d a b t => Sys2Proof.Machine.execMaxn sl p d a b t s
  | .addi sl p d a n1 => Sys2Proof.Machine.execAddi sl p d a n1 s
  | .andi sl p d a n1 => Sys2Proof.Machine.execAndi sl p d a n1 s
  | .ori sl p d a n1 => Sys2Proof.Machine.execOri sl p d a n1 s
  | .xori sl p d a n1 => Sys2Proof.Machine.execXori sl p d a n1 s
  | .shli sl p d a t n => Sys2Proof.Machine.execShli sl p d a t n s
  | .shri sl p d a t n => Sys2Proof.Machine.execShri sl p d a t n s
  | .srai sl p d a t n => Sys2Proof.Machine.execSrai sl p d a t n s
  | .cmpi sl p d a c n1 => Sys2Proof.Machine.execCmpi sl p d a c n1 s
  | .clz sl p d a t => Sys2Proof.Machine.execClz sl p d a t s
  | .ctz sl p d a t => Sys2Proof.Machine.execCtz sl p d a t s
  | .popc sl p d a t => Sys2Proof.Machine.execPopc sl p d a t s
  | .ext sl p d a b => Sys2Proof.Machine.execExt sl p d a b s
  | .extn sl p d a b => Sys2Proof.Machine.execExtn sl p d a b s
  | .ins sl p d a b => Sys2Proof.Machine.execIns sl p d a b s
  | .sel sl p d a b ps => Sys2Proof.Machine.execSel sl p d a b ps s
  | .lea sl p d a b sh t => Sys2Proof.Machine.execLea sl p d a b sh t s
  | .movi sl p d n1 => Sys2Proof.Machine.execMovi sl p d n1 s
  | .movhi sl p d n1 => Sys2Proof.Machine.execMovhi sl p d n1 s
  | .moviSl sl p d lsel wide => Sys2Proof.Machine.execMoviSl sl p d lsel wide s
  | .cmv sl p d a => Sys2Proof.Machine.execCmv sl p d a s
  | .cmp sl p d a b c t => Sys2Proof.Machine.execCmp sl p d a b c t s
  | .pset sl p d pa pb tt => Sys2Proof.Machine.execPset sl p d pa pb tt s
  | .rdsr sl p d n => Sys2Proof.Machine.execRdsr sl p d n s
  | .wrsr sl p a n => Sys2Proof.Machine.execWrsr sl p a n s
  | .fadd sl p d a b m => Sys2Proof.Machine.execFadd sl p d a b m s
  | .fsub sl p d a b m => Sys2Proof.Machine.execFsub sl p d a b m s
  | .fmul sl p d a b m => Sys2Proof.Machine.execFmul sl p d a b m s
  | .fma sl p d a b m => Sys2Proof.Machine.execFma sl p d a b m s
  | .fnma sl p d a b m => Sys2Proof.Machine.execFnma sl p d a b m s
  | .fmin sl p d a b => Sys2Proof.Machine.execFmin sl p d a b s
  | .fmax sl p d a b => Sys2Proof.Machine.execFmax sl p d a b s
  | .fcmp sl p d a b c => Sys2Proof.Machine.execFcmp sl p d a b c s
  | .fcvt sl p d a k m => Sys2Proof.Machine.execFcvt sl p d a k m s
  | .fsgn sl p d a b o => Sys2Proof.Machine.execFsgn sl p d a b o s
  | .div p d a b t => Sys2Proof.Machine.execDiv p d a b t s
  | .divn p d a b t => Sys2Proof.Machine.execDivn p d a b t s
  | .rem p d a b t => Sys2Proof.Machine.execRem p d a b t s
  | .remn p d a b t => Sys2Proof.Machine.execRemn p d a b t s
  | .fdiv p d a b m => Sys2Proof.Machine.execFdiv p d a b m s
  | .fsqrt p d a m => Sys2Proof.Machine.execFsqrt p d a m s
  | .br p t => Sys2Proof.Machine.execBr p t s
  | .bri p r => Sys2Proof.Machine.execBri p r s
  | .call p t => Sys2Proof.Machine.execCall p t s
  | .ret p => Sys2Proof.Machine.execRet p s
  | .brSide p t => Sys2Proof.Machine.execBrSide p t s
  | .loop p l r e => Sys2Proof.Machine.execLoop p l r e s
  | .loopi p l n e => Sys2Proof.Machine.execLoopi p l n e s
  | .done p => Sys2Proof.Machine.execDone p s
  | .abort p code => Sys2Proof.Machine.execAbort p code s
  | .trap p code => Sys2Proof.Machine.execTrap p code s
  | .escal p => Sys2Proof.Machine.execEscal p s
  | .wait p ld st cp mx => Sys2Proof.Machine.execWait p ld st cp mx s
  | .waittl p r t => Sys2Proof.Machine.execWaittl p r t s
  | .ifence p => Sys2Proof.Machine.execIfence p s
  | .bar p r d => Sys2Proof.Machine.execBar p r d s
  | .maskw p r d => Sys2Proof.Machine.execMaskw p r d s
  | .cpLin p k c x y z nc => Sys2Proof.Machine.execCpLin p k c x y z nc s
  | .cpTensor p k c x y z nc => Sys2Proof.Machine.execCpTensor p k c x y z nc s
  | .cpFill p k c x y z nc => Sys2Proof.Machine.execCpFill p k c x y z nc s
  | .cpIsp p k c x y z => Sys2Proof.Machine.execCpIsp p k c x y z s
  | .geBcast p c x y z => Sys2Proof.Machine.execGeBcast p c x y z s
  | .geCall p c x y z => Sys2Proof.Machine.execGeCall p c x y z s
  | .geFence p c x => Sys2Proof.Machine.execGeFence p c x s
  | .geOpen p c x y z => Sys2Proof.Machine.execGeOpen p c x y z s
  | .geClose p c x z => Sys2Proof.Machine.execGeClose p c x z s
  | .launch p c x y z => Sys2Proof.Machine.execLaunch p c x y z s
  | .heapPush p c x y => Sys2Proof.Machine.execHeapPush p c x y s
  | .heapPop p c x y => Sys2Proof.Machine.execHeapPop p c x y s
  | .ld sl p r b t d => Sys2Proof.Machine.execLd sl p r b t d s
  | .st sl p r b t d => Sys2Proof.Machine.execSt sl p r b t d s
  | .lda sl p r b t sc d => Sys2Proof.Machine.execLda sl p r b t sc d s
  | .stl sl p r b t sc d => Sys2Proof.Machine.execStl sl p r b t sc d s
  | .ldm sl p r b d => Sys2Proof.Machine.execLdm sl p r b d s
  | .vld sl p v b d => Sys2Proof.Machine.execVld sl p v b d s
  | .vst sl p v b d => Sys2Proof.Machine.execVst sl p v b d s
  | .vlds sl p v b sr f => Sys2Proof.Machine.execVlds sl p v b sr f s
  | .vgath sl p v b n1 f => Sys2Proof.Machine.execVgath sl p v b n1 f s
  | .vscat sl p v b n1 f => Sys2Proof.Machine.execVscat sl p v b n1 f s
  | .amo sl p r b rs o e sys => Sys2Proof.Machine.execAmo sl p r b rs o e sys s
  | .cas sl p r b rs e sys => Sys2Proof.Machine.execCas sl p r b rs e sys s
  | .fence sl p k sc => Sys2Proof.Machine.execFence sl p k sc s
  | .drain sl p sc => Sys2Proof.Machine.execDrain sl p sc s
  | .pref sl p b h d => Sys2Proof.Machine.execPref sl p b h d s
  | .clean sl p b g d => Sys2Proof.Machine.execClean sl p b g d s
  | .inval sl p b g d => Sys2Proof.Machine.execInval sl p b g d s
  | .vadd p d a b => Sys2Proof.Machine.execVadd p d a b s
  | .vsub p d a b => Sys2Proof.Machine.execVsub p d a b s
  | .vmul p d a b => Sys2Proof.Machine.execVmul p d a b s
  | .vfma p d a b => Sys2Proof.Machine.execVfma p d a b s
  | .vfms p d a b => Sys2Proof.Machine.execVfms p d a b s
  | .vmin p d a b => Sys2Proof.Machine.execVmin p d a b s
  | .vmax p d a b => Sys2Proof.Machine.execVmax p d a b s
  | .vabs p d a => Sys2Proof.Machine.execVabs p d a s
  | .vneg p d a => Sys2Proof.Machine.execVneg p d a s
  | .vand p d a b => Sys2Proof.Machine.execVand p d a b s
  | .vor p d a b => Sys2Proof.Machine.execVor p d a b s
  | .vxor p d a b => Sys2Proof.Machine.execVxor p d a b s
  | .vnot p d a => Sys2Proof.Machine.execVnot p d a s
  | .vshl p d a b => Sys2Proof.Machine.execVshl p d a b s
  | .vshr p d a b => Sys2Proof.Machine.execVshr p d a b s
  | .vsra p d a b => Sys2Proof.Machine.execVsra p d a b s
  | .vcmp p d a b => Sys2Proof.Machine.execVcmp p d a b s
  | .vsel p d a b => Sys2Proof.Machine.execVsel p d a b s
  | .vbcast p d t c r => Sys2Proof.Machine.execVbcast p d t c r s
  | .vext p d a j => Sys2Proof.Machine.execVext p d a j s
  | .vins p d j c r => Sys2Proof.Machine.execVins p d j c r s
  | .vexp2 p d a => Sys2Proof.Machine.execVexp2 p d a s
  | .vlog2 p d a => Sys2Proof.Machine.execVlog2 p d a s
  | .vrcp p d a => Sys2Proof.Machine.execVrcp p d a s
  | .vrsq p d a => Sys2Proof.Machine.execVrsq p d a s
  | .vtanh p d a => Sys2Proof.Machine.execVtanh p d a s
  | .vrsum p d a => Sys2Proof.Machine.execVrsum p d a s
  | .vrmax p d a => Sys2Proof.Machine.execVrmax p d a s
  | .vrmin p d a => Sys2Proof.Machine.execVrmin p d a s
  | .vcvt p d a part m t => Sys2Proof.Machine.execVcvt p d a part m t s
  | .vscale p d a c r => Sys2Proof.Machine.execVscale p d a c r s
  | .vquant p d a c r => Sys2Proof.Machine.execVquant p d a c r s
  | .vnib p d a uns ilv half => Sys2Proof.Machine.execVnib p d a uns ilv half s
  | .vbperm p d a b => Sys2Proof.Machine.execVbperm p d a b s
  | .vtag p d a t => Sys2Proof.Machine.execVtag p d a t s
  | .vbnd p d a o k => Sys2Proof.Machine.execVbnd p d a o k s
  | .mxMac p d sl n => Sys2Proof.Machine.execMxMac p d sl n s
  | .mxMaca p d sl n => Sys2Proof.Machine.execMxMaca p d sl n s
  | .mxWload p w sl n => Sys2Proof.Machine.execMxWload p w sl n s
  | .mxWswap p f => Sys2Proof.Machine.execMxWswap p f s
  | .mxDrain p d sl n => Sys2Proof.Machine.execMxDrain p d sl n s
  | .mxClr p d n => Sys2Proof.Machine.execMxClr p d n s
  | .mxSscale p v => Sys2Proof.Machine.execMxSscale p v s
  | .mxSscaleB p a => Sys2Proof.Machine.execMxSscaleB p a s
  | .mxWscale p w a => Sys2Proof.Machine.execMxWscale p w a s
  | .mxMode p f h nsc => Sys2Proof.Machine.execMxMode p f h nsc s
  | .xpPerm p d a b => Sys2Proof.Machine.execXpPerm p d a b s
  | .xpShuf p d a b => Sys2Proof.Machine.execXpShuf p d a b s
  | .xpRot p d a c r => Sys2Proof.Machine.execXpRot p d a c r s
  | .xpSlide p d a c r => Sys2Proof.Machine.execXpSlide p d a c r s
  | .xpSplat p d a c r => Sys2Proof.Machine.execXpSplat p d a c r s
  | .xsSort p d a b => Sys2Proof.Machine.execXsSort p d a b s
  | .xsMerge p l c r a => Sys2Proof.Machine.execXsMerge p l c r a s
  | .xsMergeL p l k => Sys2Proof.Machine.execXsMergeL p l k s
  | .xsClr p l => Sys2Proof.Machine.execXsClr p l s
  | .xsRdc p d l j => Sys2Proof.Machine.execXsRdc p d l j s
  | .xsKth p d a k => Sys2Proof.Machine.execXsKth p d a k s
  | .xsPenal p l c r a n => Sys2Proof.Machine.execXsPenal p l c r a n s
  | .xsMask p l c r => Sys2Proof.Machine.execXsMask p l c r s
  | .xsRand p d k => Sys2Proof.Machine.execXsRand p d k s
  | .xsPick p d l => Sys2Proof.Machine.execXsPick p d l s
  | .xsVerify p d l a m => Sys2Proof.Machine.execXsVerify p d l a m s
  | .pause => Sys2Proof.Machine.execPause s
  | .opsel op => Sys2Proof.Machine.execOpsel op s
  | .settlingComplete c => Sys2Proof.Machine.execSettlingComplete c s
  | .escalationRelaunch c => Sys2Proof.Machine.execEscalationRelaunch c s
  | .watchdogTrap c => Sys2Proof.Machine.execWatchdogTrap c s
  | .stalledWait c => Sys2Proof.Machine.execStalledWait c s
  | .barTimeout c => Sys2Proof.Machine.execBarTimeout c s
  | .maskwTimeout c => Sys2Proof.Machine.execMaskwTimeout c s
  | .loadDataArrival c v poison => Sys2Proof.Machine.execLoadDataArrival c v poison s
  | .pageWalkComplete c va => Sys2Proof.Machine.execPageWalkComplete c va s
  | .storePerform c k => Sys2Proof.Machine.execStorePerform c k s
  | .sealWrite da => Sys2Proof.Machine.execSealWrite da s
  | .copyComplete c k => Sys2Proof.Machine.execCopyComplete c k s
  | .copyStop c k => Sys2Proof.Machine.execCopyStop c k s
  | .cpIspComplete c k => Sys2Proof.Machine.execCpIspComplete c k s
  | .galleyDispatch c => Sys2Proof.Machine.execGalleyDispatch c s
  | .geBcastWrite e => Sys2Proof.Machine.execGeBcastWrite e s
  | .geFencePass h => Sys2Proof.Machine.execGeFencePass h s
  | .geOpenComplete c => Sys2Proof.Machine.execGeOpenComplete c s
  | .geCloseComplete c => Sys2Proof.Machine.execGeCloseComplete c s
  | .fill e => Sys2Proof.Machine.execFill e s
  | .copy e => Sys2Proof.Machine.execCopy e s
  | .csum e => Sys2Proof.Machine.execCsum e s
  | .gemvI8 e => Sys2Proof.Machine.execGemvI8 e s
  | .gemvI4 e => Sys2Proof.Machine.execGemvI4 e s
  | .gemvTf8 e => Sys2Proof.Machine.execGemvTf8 e s
  | .kvapp e => Sys2Proof.Machine.execKvapp e s
  | .qk e => Sys2Proof.Machine.execQk e s
  | .av e => Sys2Proof.Machine.execAv e s
  | .park e => Sys2Proof.Machine.execPark e s
  | .unpark e => Sys2Proof.Machine.execUnpark e s
  | .selfRefreshEntry h => Sys2Proof.Machine.execSelfRefreshEntry h s
  | .selfRefreshExit h => Sys2Proof.Machine.execSelfRefreshExit h s
  | .rowRepair da readable due => Sys2Proof.Machine.execRowRepair da readable due s
  | .patrolScrub da uncorrectable => Sys2Proof.Machine.execPatrolScrub da uncorrectable s
  | .coreRetest c => Sys2Proof.Machine.execCoreRetest c s
  | .engineRetest h g => Sys2Proof.Machine.execEngineRetest h g s
  | .coreRetire c => Sys2Proof.Machine.execCoreRetire c s
  | .hostMemRead da size => Sys2Proof.Machine.execHostMemRead da size s
  | .hostMemWrite da bytes => Sys2Proof.Machine.execHostMemWrite da bytes s
  | .biSnoopResponse line dirty => Sys2Proof.Machine.execBiSnoopResponse line dirty s
  | .hostSnoopTimeout line => Sys2Proof.Machine.execHostSnoopTimeout line s
  | .commandSlotWrite f off bytes => Sys2Proof.Machine.execCommandSlotWrite f off bytes s
  | .slotConsume f => Sys2Proof.Machine.execSlotConsume f s
  | .slotFence f => Sys2Proof.Machine.execSlotFence f s
  | .cwctlEnable f => Sys2Proof.Machine.execCwctlEnable f s
  | .cwctlDisable f => Sys2Proof.Machine.execCwctlDisable f s
  | .peerApertureWrite f off bytes => Sys2Proof.Machine.execPeerApertureWrite f off bytes s
  | .peerApertureRead f off size => Sys2Proof.Machine.execPeerApertureRead f off size s
  | .hostWindowTimeout c => Sys2Proof.Machine.execHostWindowTimeout c s
  | .ssdMemRead da size => Sys2Proof.Machine.execSsdMemRead da size s
  | .ssdMemWrite da bytes => Sys2Proof.Machine.execSsdMemWrite da bytes s
  | .ssdMetadataAccess da write => Sys2Proof.Machine.execSsdMetadataAccess da write s
  | .ssdMsix q => Sys2Proof.Machine.execSsdMsix q s
  | .storageTimeout c => Sys2Proof.Machine.execStorageTimeout c s
  | .storageLinkDown => Sys2Proof.Machine.execStorageLinkDown s
  | .xlinvPartition h part => Sys2Proof.Machine.execXlinvPartition h part s
  | .xlinvPage h part vpage => Sys2Proof.Machine.execXlinvPage h part vpage s
  | .xlinvAll h => Sys2Proof.Machine.execXlinvAll h s
  | .xlinvComplete => Sys2Proof.Machine.execXlinvComplete s
  | .cxresContext h core ctx => Sys2Proof.Machine.execCxresContext h core ctx s
  | .cxresResidency h core => Sys2Proof.Machine.execCxresResidency h core s
  | .stripeEnable w w0 => Sys2Proof.Machine.execStripeEnable w w0 s
  | .stripeTeardown w w0 => Sys2Proof.Machine.execStripeTeardown w w0 s
  | .stripeTeardownComplete w => Sys2Proof.Machine.execStripeTeardownComplete w s
  | .controlStoreWrite e idx word => Sys2Proof.Machine.execControlStoreWrite e idx word s
  | .friskWrite by_ t mid n word => Sys2Proof.Machine.execFriskWrite by_ t mid n word s
  | .jcanJob q job => Sys2Proof.Machine.execJcanJob q job s
  | .jcanGraph q job gix => Sys2Proof.Machine.execJcanGraph q job gix s
  | .jcanLaunch q job gix lix => Sys2Proof.Machine.execJcanLaunch q job gix lix s
  | .pcoreWrite q hi v => Sys2Proof.Machine.execPcoreWrite q hi v s
  | .gpregWrite q n v => Sys2Proof.Machine.execGpregWrite q n v s
  | .mseqWrite q m v => Sys2Proof.Machine.execMseqWrite q m v s
  | .hbudWrite q v => Sys2Proof.Machine.execHbudWrite q v s
  | .opcapWrite q v => Sys2Proof.Machine.execOpcapWrite q v s
  | .sleepRequest => Sys2Proof.Machine.execSleepRequest s
  | .sleepEntered => Sys2Proof.Machine.execSleepEntered s
  | .wakeRequest => Sys2Proof.Machine.execWakeRequest s
  | .wakeComplete => Sys2Proof.Machine.execWakeComplete s
  | .keyNew k => Sys2Proof.Machine.execKeyNew k s
  | .keyAdvance k => Sys2Proof.Machine.execKeyAdvance k s
  | .keyRekey k rlen => Sys2Proof.Machine.execKeyRekey k rlen s
  | .rekeyComplete k => Sys2Proof.Machine.execRekeyComplete k s
  | .keyRetire k => Sys2Proof.Machine.execKeyRetire k s
  | .keyErase k => Sys2Proof.Machine.execKeyErase k s
  | .eventAck h seq => Sys2Proof.Machine.execEventAck h seq s
  | .eventDeadline seq => Sys2Proof.Machine.execEventDeadline seq s
  | .trctlResume c => Sys2Proof.Machine.execTrctlResume c s
  | .trctlSave c => Sys2Proof.Machine.execTrctlSave c s
  | .trctlEnd c => Sys2Proof.Machine.execTrctlEnd c s
  | .ringConsume r v => Sys2Proof.Machine.execRingConsume r v s
  | .registerWrite mid addr v => Sys2Proof.Machine.execRegisterWrite mid addr v s
  | .inputRecheck q => Sys2Proof.Machine.execInputRecheck q s
  | .taskDispatch h q => Sys2Proof.Machine.execTaskDispatch h q s
  | .taskStart c => Sys2Proof.Machine.execTaskStart c s
  | .agingExpiry task => Sys2Proof.Machine.execAgingExpiry task s
  | .agedPreemptRequest h q => Sys2Proof.Machine.execAgedPreemptRequest h q s
  | .preempt c => Sys2Proof.Machine.execPreempt c s
  | .donePublish c => Sys2Proof.Machine.execDonePublish c s
  | .launchAnswer c => Sys2Proof.Machine.execLaunchAnswer c s
  | .heapAnswer c => Sys2Proof.Machine.execHeapAnswer c s
  | .voltageTrim c slack mv => Sys2Proof.Machine.execVoltageTrim c slack mv s
  | .powerUp => Sys2Proof.Machine.execPowerUp s
  | .deviceReset sigOk secVer => Sys2Proof.Machine.execDeviceReset sigOk secVer s
  | .spdmGetVersion => Sys2Proof.Machine.execSpdmGetVersion s
  | .spdmGetCapabilities => Sys2Proof.Machine.execSpdmGetCapabilities s
  | .spdmNegotiateAlgorithms => Sys2Proof.Machine.execSpdmNegotiateAlgorithms s
  | .spdmGetDigests => Sys2Proof.Machine.execSpdmGetDigests s
  | .spdmGetCertificate => Sys2Proof.Machine.execSpdmGetCertificate s
  | .spdmChallenge nonce => Sys2Proof.Machine.execSpdmChallenge nonce s
  | .spdmGetMeasurements idx => Sys2Proof.Machine.execSpdmGetMeasurements idx s
  | .measurementExtend v => Sys2Proof.Machine.execMeasurementExtend v s
  | .storageLinkUp => Sys2Proof.Machine.execStorageLinkUp s
  | .logicDiePowerLoss => Sys2Proof.Machine.execLogicDiePowerLoss s
  | .supervisorAccess h op => Sys2Proof.Machine.execSupervisorAccess h op s
  | .coreRetestEnd c badCols => Sys2Proof.Machine.execCoreRetestEnd c badCols s
  | .engineRetestEnd e failed => Sys2Proof.Machine.execEngineRetestEnd e failed s
  | .correctedCountRestart => Sys2Proof.Machine.execCorrectedCountRestart s
  | .droopEvent c => Sys2Proof.Machine.execDroopEvent c s

end Sys2Proof.Machine
end

