-- ==== Sys2Proof/Machine/Turn.lean ====
section
/-! DEFINITION. Turns of cores (log entry 1): a core that runs a task issues; where it has frozen, or holds no running task, its turn
makes the event happen that it waits for, if the machine can make it happen by itself. -/

namespace Sys2Proof.Machine

/-! ## Work beside the cores -/

/-- The call or broadcast that an engine works on next. -/
def State.engineStep (s : State) (e : EngineId) : Res :=
  match s.engineNext e with
  | none => .next s
  | some (_, x) =>
    match x.kind with
    | .bcast .. => execGeBcastWrite e s
    | .call entry .. =>
      match entry with
      | 0x00 => execFill e s
      | 0x01 => execCopy e s
      | 0x02 => execCsum e s
      | 0x03 => execGemvI8 e s
      | 0x04 => execGemvI4 e s
      | 0x05 => execGemvTf8 e s
      | 0x08 => execKvapp e s
      | 0x09 => execQk e s
      | 0x0A => execAv e s
      | 0x0E => execPark e s
      | 0x0F => execUnpark e s
      | _ => .next (s.endUnknown e 1)
    | _ => .next s

/-- A fence stands at the head of a channel's queue. -/
def State.fenceFirst (s : State) (h : Nat) : Bool :=
  match (s.chan h).queue with
  | .fence .. :: _ => true
  | _ => false

/-- A channel as an identifier. -/
def chanId (h : Nat) : ChanId := ⟨h % 256, Nat.mod_lt _ (by decide)⟩

/-- The next event of the channel of an engine: a fence at its head is passed, else the engine works. -/
def State.channelStep (s : State) (e : Nat) : Res :=
  if s.fenceFirst (engineChan e) then execGeFencePass (chanId (engineChan e)) s else s.engineStep (engineId e)

/-- The next event of the first command of a galley context. -/
def State.galleyStep (s : State) (c : CoreId) : Res :=
  match nextDispatch (s.core c).gx.cmds with
  | some _ => execGalleyDispatch c s
  | none =>
    match (s.core c).gx.cmds with
    | [] => .next s
    | x :: _ =>
      match x.kind with
      | .opn .. => execGeOpenComplete c s
      | .cls .. => execGeCloseComplete c s
      | .fence =>
        match x.grp.engines.find? fun e => !x.ends.any fun y => y.j == engineChan e with
        | some e => s.channelStep e
        | none => .next s
      | .bcast .. | .call .. =>
        match x.grp.engines.find? fun e => !x.ends.any fun y => y.j == x.grp.indexOf e with
        | some e => s.channelStep e
        | none => .next s

/-- The next event of a core's engine commands: the first command that can run of a copy context, else of the galley context. -/
def State.engineMove (s : State) (c : CoreId) : Res :=
  match (List.finRange 4).find? fun k => (s.copyHead c k).isSome with
  | none => s.galleyStep c
  | some k =>
    match s.copyHead c k with
    | none => .next s
    | some x =>
      let (_, stop, _) := s.copyRun c x
      if stop.isSome then execCopyStop c k s
      else if x.isIsp then execCpIspComplete c k s else execCopyComplete c k s

/-- The first line that the host holds and that a store waits for. -/
def State.heldLine (s : State) (x : PendStore) : Option Nat :=
  x.bytes.findSome? fun b => match s.linearOf b.1 with
    | some a => if s.hostLines.contains (a / 64) then some (a / 64) else none
    | none => none

/-- The next event of a core's stores: the oldest is performed, or the host gives up a line that it holds clean; without stores
the engines move. -/
def State.storeMove (s : State) (c : CoreId) : Res :=
  match (s.core c).stores with
  | [] => s.engineMove c
  | x :: _ =>
    if s.storeReady c 0 then execStorePerform c 0 s
    else match s.heldLine x with
      | some l => execBiSnoopResponse l none s
      | none => s.engineMove c

/-- The next event of a core's accesses: the data of its oldest load that can have it comes, else its stores go on. -/
def State.accessMove (s : State) (c : CoreId) : Res :=
  if (s.core c).infl.any (s.core c).arrivable then let (s1, v) := s.takeFree 64; execLoadDataArrival c v false s1
  else s.storeMove c

/-- The event that ends, or comes nearer to ending, a wait for data or for a line: data comes, a store goes on, or the host gives up a
line that it holds clean. -/
def State.lateMove (s : State) (c : CoreId) : Res :=
  if (s.core c).infl.any (s.core c).arrivable || !(s.core c).stores.isEmpty then s.accessMove c
  else match s.hostLines with
    | l :: _ => execBiSnoopResponse l none s
    | [] => s.engineMove c

/-- The event that ends, or comes nearer to ending, a wait. -/
def State.waitMove (s : State) (c : CoreId) (w : Wait) : Res :=
  match w with
  | .late => s.lateMove c
  | .settle => execSettlingComplete c s
  | .launch => execLaunchAnswer c s
  | .heap => if (s.core c).stores.isEmpty && (s.core c).pendingLoads.isEmpty then execHeapAnswer c s else s.accessMove c
  | .bar | .maskw | .region => s.accessMove c
  | .waittl | .wait | .ifence | .ctxFull | .drain | .store => s.accessMove c

/-! ## The turn of a core -/

/-- A core whose commands and stores must be done first. -/
def State.afterWork (s : State) (c : CoreId) (ev : State → Res) : Res :=
  if (s.core c).stores.isEmpty && (s.core c).commandsDone then ev s else s.storeMove c

/-- A partition that has tasks to place, or to check, in the chase of a free core of its own. -/
def State.wanting (s : State) (c : CoreId) : Option PartId :=
  (List.finRange 24).find? fun q => (s.part q).pcore.getLsbD c.val && s.tasks.any fun x =>
    x.2.q == q && ((x.2.st == .ready && x.2.chase == some (chaseOf c)) || x.2.st == .pending)

/-- A free core's turn: the next ready task of its partition in its chase is dispatched, or pending inputs are checked. -/
def State.freeMove (s : State) (c : CoreId) : Res :=
  match (if s.slp = .running then s.wanting c else none) with
  | none => .next s
  | some q => if (s.nextReady q (chaseOf c)).isSome then execTaskDispatch (chaseOf c) q s else execInputRecheck q s

/-- A core that issues also lets, every 64th tick, the next event of its stores and engine commands happen: a program that polls
sees its own commands end, and other observers its stores (R263, R318; log entry 1). -/
def State.issueMove (run : Instr → State → Res) (s : State) (c : CoreId) : Res :=
  match s.tickCore run c with
  | .next t => if (s.core c).tick % 64 = 63 then t.storeMove c else .next t
  | .fault f => .fault f
  | .refused r => .refused r

/-- A running core's turn: it issues; one that was frozen, and freezes again on the same wait, gets the event that it
waits for. -/
def State.runMove (run : Instr → State → Res) (s : State) (c : CoreId) : Res :=
  match (s.core c).wait with
  | none => s.issueMove run c
  | some w =>
    match s.tickCore run c with
    | .next t => if (t.core c).wait == some w then t.waitMove c w else .next t
    | .fault f => .fault f
    | .refused r => .refused r

/-- A core's turn. -/
def State.runCore (run : Instr → State → Res) (s : State) (c : CoreId) : Res :=
  match (s.core c).st with
  | .running => s.runMove run c
  | .staging => if (s.core c).stores.isEmpty then execTaskStart c s else s.storeMove c
  | .ending => s.afterWork c (execDonePublish c)
  | .preempting => s.afterWork c (execPreempt c)
  | .escalating => s.afterWork c (execEscalationRelaunch c)
  | .trapping => s.accessMove c
  | .settling | .held | .lost => s.storeMove c
  | .free => if (s.core c).stores.isEmpty then s.freeMove c else s.storeMove c
  | .retest => .next s

/-- A core's turn can do something. -/
def State.active (s : State) (c : CoreId) : Bool :=
  match (s.core c).st with
  | .retest => false
  | .held | .lost => !(s.core c).stores.isEmpty || !(s.core c).commandsDone
  | .free => !(s.core c).stores.isEmpty || (s.wanting c).isSome
  | _ => true

/-! ## What can happen -/

/-- An event that needs no power on the logic die: those of sleep and power, and the host's accesses, which are held (R430, R431). -/
def Instr.asleep : Instr → Bool
  | .sleepRequest | .wakeRequest | .wakeComplete | .deviceReset .. | .logicDiePowerLoss | .hostMemRead .. | .hostMemWrite ..
  | .commandSlotWrite .. | .peerApertureWrite .. | .peerApertureRead .. | .cwctlEnable _ | .cwctlDisable _ | .ringConsume .device _ => true
  | .registerWrite mid .. => isHost mid.toNat
  | _ => false

/-- An event that a device takes part in before Make-ready has been started, or when its boot has failed: it presents its configuration
space alone (R452). -/
def Instr.unbooted : Instr → Bool
  | .deviceReset .. | .logicDiePowerLoss | .spdmGetVersion | .spdmGetCapabilities | .spdmNegotiateAlgorithms | .spdmGetDigests
  | .spdmGetCertificate | .spdmChallenge _ | .spdmGetMeasurements _ => true
  | _ => false

/-- The event can happen in the state that the device's power and boot have reached (R430, R452, R510). -/
def State.happens (s : State) (i : Instr) : Bool :=
  if s.off then i == .powerUp
  else if !s.booted then Instr.unbooted i
  else s.awake || Instr.asleep i

/-- The core whose turn follows: the next one in order whose turn can do something. -/
def State.nextCore (s : State) (c : CoreId) : CoreId :=
  (((List.finRange 96).filter fun d => decide (c.val < d.val)) ++ List.finRange 96).find? s.active |>.getD c

end Sys2Proof.Machine
end

