-- ==== Sys2Proof/Machine/Step.lean ====
section
/-! DEFINITION. One step of the machine: the event or the core's turn at the head of the agenda, or, with an empty agenda, the
turn of the next core in order (log entry 1). -/

namespace Sys2Proof.Machine

/-- An event has happened: the issue record that it used is cleared. -/
def afterEvent : Res → Res
  | .next s => .next { s with iss := {} }
  | .fault f => .fault f
  | .refused r => .refused r

/-- Run an entry of the agenda. An instruction of a slot is no event of its own; nor does an event happen for which the device has no
power, or has not started. -/
def runAct (a : Act) (s : State) : Res :=
  match a with
  | .ev i => if i.isEvent && s.happens i then afterEvent (exec i { s with iss := {} }) else .next s
  | .core c => s.runCore exec c

/-- The head of the agenda, or the turn of the core in order. -/
def runNext (s : State) : Res :=
  match s.agenda with
  | a :: rest => runAct a { s with agenda := rest }
  | [] => { s with turn := s.nextCore s.turn }.runCore exec s.turn

/-- The state once checks have met the errors that stand in the cores' storage (log entry 20). -/
def State.checked (s : State) : State :=
  match s.soft with
  | [] => s
  | _ :: _ => s.meetErrors

/-- One step of the machine. -/
def step (s : State) : Host.Outcome State Fault Refusal := runNext s.checked

/-- A bundle of one slot that holds a word, with three literal words of zero (see `aloneSlot`). -/
def aloneBytes (w : Word32) : List Byte :=
  let h : Nat := match aloneSlot w with
    | some k => 2 ^ (24 + k.num) + 3 * 2 ^ 16
    | none => 2 ^ 24 + 3 * 2 ^ 16
  leBytes 4 h ++ leBytes 4 w.toNat ++ List.replicate 12 0

/-- Place an instruction where `step` fetches next: core 0 runs a task at offset 0 of its recto side, which holds the bundle, waits
for nothing, and has the turn; Make-ready has been started (log entry 3). -/
def State.withFetchWord (s : State) (_nbits w : Nat) : State :=
  { (s.modCore 0 fun k => { k with
      st := .running, pc := 0, side := false, bubble := 0, waitc := none, wait := none, req := none, ans := none
      settling := false, wdog := 0, infl := k.infl.filter fun e => e.late == .no
      recto := { k.recto with bytes := sputBytes k.recto.bytes 0 (aloneBytes (BitVec.ofNat 32 w)) } }) with
    booted := true, agenda := [], turn := 0, iss := {}, soft := [] }

end Sys2Proof.Machine
end

