-- ==== Sys2Proof/Laws/Bits.lean ====
section
/-! SUPPORT. Bit fields of concatenations and of slot words, and that every field's code reads back as what it stands for. -/

namespace Sys2Proof

/-! ### Fields of a concatenation -/

theorem extract_append_low {a b : Nat} (x : BitVec a) (y : BitVec b) (i n : Nat) (h : i + n ≤ b) :
    (x ++ y).extractLsb' i n = y.extractLsb' i n := by
  ext j hj; simp only [BitVec.getElem_extractLsb', BitVec.getLsbD_append]; rw [if_pos (by omega)]

theorem extract_append_high {a b : Nat} (x : BitVec a) (y : BitVec b) (i n : Nat) (h : b ≤ i) :
    (x ++ y).extractLsb' i n = x.extractLsb' (i - b) n := by
  ext j hj
  simp only [BitVec.getElem_extractLsb', BitVec.getLsbD_append]
  rw [if_neg (by omega)]; congr 1; omega

@[simp] theorem extract_all {a : Nat} (x : BitVec a) : x.extractLsb' 0 a = x := by
  ext j hj; simp

/-! ### Fields of a slot word (R74) -/

@[simp] theorem slotWord_op (op : BitVec 6) (p : Pred) (x : BitVec 21) : (slotWord op p x).extractLsb' 26 6 = op := by
  unfold slotWord; rw [extract_append_high _ _ _ _ (by decide)]; exact extract_all op

@[simp] theorem slotWord_pred (op : BitVec 6) (p : Pred) (x : BitVec 21) : (slotWord op p x).extractLsb' 21 5 = p.code := by
  unfold slotWord
  rw [extract_append_low _ _ _ _ (by decide), extract_append_high _ _ _ _ (by decide)]; exact extract_all p.code

theorem slotWord_ops (op : BitVec 6) (p : Pred) (x : BitVec 21) (i n : Nat) (h : i + n ≤ 21) :
    (slotWord op p x).extractLsb' i n = x.extractLsb' i n := by
  unfold slotWord; rw [extract_append_low _ _ _ _ (by omega), extract_append_low _ _ _ _ h]

/-! ### Codes -/

@[simp] theorem pred?_code (p : Pred) : pred? p.code = some p := by
  cases p with
  | always => rfl
  | whenSet p => revert p; decide
  | whenClear p => revert p; decide

@[simp] theorem preg?_pcode (p : PReg) : preg? (pcode p) = some p := by revert p; decide
@[simp] theorem flag_bit (b : Bool) : flag (bit b) = b := by cases b <;> rfl
@[simp] theorem ityOf_code (t : ITy) : ityOf t.code = t := by cases t <;> rfl
@[simp] theorem rmodeOf_code (m : RMode) : rmodeOf m.code = m := by cases m <;> rfl
@[simp] theorem clusterOf_code (c : Cluster) : clusterOf c.code = c := by cases c <;> rfl
@[simp] theorem cond?_code (c : Cond) : cond? c.code = some c := by cases c <;> rfl
@[simp] theorem condI?_code (c : CondI) : condI? c.code = some c := by cases c <;> rfl
@[simp] theorem fcond?_code (c : FCond) : fcond? c.code = some c := by cases c <;> rfl
@[simp] theorem leaTy?_code (t : LeaTy) : leaTy? t.code = some t := by cases t <;> rfl
@[simp] theorem cvtKind?_code (k : CvtKind) : cvtKind? k.code = some k := by cases k <;> rfl
@[simp] theorem sgnOp?_code (o : SgnOp) : sgnOp? o.code = some o := by cases o <;> rfl
@[simp] theorem scopeOf_code (s : Scope) : scopeOf s.code = s := by cases s <;> rfl
@[simp] theorem fenceKind?_code (k : FenceKind) : fenceKind? k.code = some k := by cases k <;> rfl
@[simp] theorem amoOpOf_code (o : AmoOp) : amoOpOf o.code = o := by cases o <;> rfl
@[simp] theorem amoOrdOf_code (o : AmoOrd) : amoOrdOf o.code = o := by cases o <;> rfl
@[simp] theorem prefHint?_code (h : PrefHint) : prefHint? h.code = some h := by cases h <;> rfl
@[simp] theorem granule?_code (g : Granule) : granule? g.code = some g := by cases g <;> rfl
@[simp] theorem laneTag?_code (t : LaneTag) : laneTag? t.code = some t := by cases t <;> rfl
@[simp] theorem cvtDstOf_code (t : CvtDst) : cvtDstOf t.code = t := by cases t <;> rfl
@[simp] theorem bndOp?_code (o : BndOp) : bndOp? o.code = some o := by cases o <;> rfl
@[simp] theorem swapSel?_code (f : SwapSel) : swapSel? f.code = some f := by cases f <;> rfl
@[simp] theorem drainFmt?_code (f : DrainFmt) : drainFmt? f.code = some f := by cases f <;> rfl

@[simp] theorem newTag?_code (t : NewTag) : newTag? t.code = some t := by
  rcases t with _ | t | _ <;> first | rfl | (cases t <;> rfl)

@[simp] theorem tline?_code (t : Tline) : tline? t.code = some t := by
  rcases t with k | _
  · revert k; decide
  · rfl

@[simp] theorem flag_code_b : flag Cluster.b.code = true := rfl
@[simp] theorem code_a_zero : (Cluster.a.code == 0#1) = true := rfl
@[simp] theorem ctxCode_toFin (k : CtxId) : (ctxCode k).toFin = k := by revert k; decide

theorem cvtFn?_code (k : CvtKind) (m : RMode) (h : (!k.isExact || m == .rne) = true) :
    cvtFn? k.code m.code = some (k, m) := by
  revert h; cases k <;> cases m <;> decide

theorem lsel?_code (l : Fin 3) (w : Bool) (h : (!w || l.val < 2) = true) :
    lsel? (BitVec.ofNat 2 l.val) (bit w) = some l := by
  revert l w; decide

/-- A literal operand's field keeps its zero bits. -/
@[simp] theorem earBits_field (z : EArg) : earBits z.isLit z.field = true := by
  rcases z with r | k
  · rfl
  · revert k; decide

/-- An engine-command operand's field reads back as the operand (R321). -/
@[simp] theorem ear?_field (z : EArg) : ear? z.isLit z.field = some z := by
  rcases z with r | k
  · rfl
  · revert k; decide

/-- A literal operand whose words are present is covered (R72). -/
theorem earCovered_field (litc n : Nat) (z : EArg)
    (h : (match z with | .lit k => decide (k.val + n ≤ litc) | .reg _ => true) = true) :
    earCovered litc n z.isLit z.field = true := by
  rcases z with r | k
  · rfl
  · have : k.val % 32 = k.val := by omega
    simpa [earCovered, EArg.isLit, EArg.field, this] using h

/-! ### Finishing a decoding -/

@[simp] theorem finish_ok {α β : Type} (f : α) (p : Pred) (o : β) (k : Pred → α → β → Instr) :
    finish (some f) p.code (some o) true k = .ok (k p f o) := by simp [finish]

@[simp] theorem must_true : must true = some () := rfl
@[simp] theorem keep_true {α : Type} (x : α) : keep true x = some x := rfl
@[simp] theorem both_some {α β : Type} (x : α) (y : β) : both (some x) (some y) = some (x, y) := rfl

end Sys2Proof
end

