-- ==== Sys2Proof/Laws/PerInstr.lean ====
section
/-! SUPPORT. The per-instruction family "Codec": what the decoder makes of an instruction's encoding. -/

namespace Sys2Proof.Laws.Codec

/-- Where a well-formed slot instruction fits the bundle, its slot's map decodes its slot word to it (R74 to R89). -/
def Statement (i : Instr) : Prop :=
  ∀ c k w, i.wf = true → i.fits c = true → i.slot? = some k → encode i = some w → decodeSlot c k w = .ok i

/-- An instruction with no slot states nothing. -/
theorem of_event {i : Instr} (h : i.slot? = none) : Statement i := by
  intro c k w _ _ hk; rw [h] at hk; exact nomatch hk

/-- The statement of an instruction with one slot and one slot word. -/
theorem of_word {i : Instr} {k : Slot} {w : Word32} (hk : i.slot? = some k) (he : encode i = some w)
    (h : ∀ c, i.wf = true → i.fits c = true → decodeSlot c k w = .ok i) : Statement i := by
  intro c k' w' hw hf hk' he'
  obtain rfl := Option.some.inj (hk ▸ hk')
  obtain rfl := Option.some.inj (he ▸ he')
  exact h c hw hf

/-- The same for a scalar slot. -/
theorem of_slotS {i : Instr} {w : Word32} (s : SSlot) (hk : i.slot? = some (match s with | .sa => .sa | .sb => .sb))
    (he : encode i = some w) (h : ∀ c, i.wf = true → i.fits c = true → decodeScalar c s w = .ok i) : Statement i := by
  cases s <;> exact of_word hk he h

/-- The same for a memory slot. -/
theorem of_slotM {i : Instr} {w : Word32} (s : MSlot) (hk : i.slot? = some (match s with | .ma => .ma | .mb => .mb))
    (he : encode i = some w) (h : ∀ c : DCtx, i.wf = true → i.fits c = true → decodeMem s w = .ok i) : Statement i := by
  cases s <;> exact of_word hk he h

theorem add (s : SSlot) (p : Pred) (d a b : SReg) (sat : Bool) (t : ITy) : Statement (.add s p d a b sat t) := by
  refine of_slotS s rfl rfl fun cx _ _ => ?_
  show decodeScalar cx s _ = _
  unfold decodeScalar; rw [slotWord_op]; show finish _ _ _ _ _ = _
  simp (disch := decide) only [opsSR, fnSat, slotWord_pred, slotWord_ops, extract_append_low, extract_append_high, extract_all,
    Nat.reduceSub]
  simp

theorem sub (s : SSlot) (p : Pred) (d a b : SReg) (sat : Bool) (t : ITy) : Statement (.sub s p d a b sat t) := by
  refine of_slotS s rfl rfl fun cx _ _ => ?_
  show decodeScalar cx s _ = _
  unfold decodeScalar; rw [slotWord_op]; show finish _ _ _ _ _ = _
  simp (disch := decide) only [opsSR, fnSat, slotWord_pred, slotWord_ops, extract_append_low, extract_append_high, extract_all,
    Nat.reduceSub]
  simp

theorem mul (s : SSlot) (p : Pred) (d a b : SReg) (sat : Bool) (t : ITy) : Statement (.mul s p d a b sat t) := by
  refine of_slotS s rfl rfl fun cx _ _ => ?_
  show decodeScalar cx s _ = _
  unfold decodeScalar; rw [slotWord_op]; show finish _ _ _ _ _ = _
  simp (disch := decide) only [opsSR, fnSat, slotWord_pred, slotWord_ops, extract_append_low, extract_append_high, extract_all,
    Nat.reduceSub]
  simp

theorem mulh (s : SSlot) (p : Pred) (d a b : SReg) (t : ITy) : Statement (.mulh s p d a b t) := by
  refine of_slotS s rfl rfl fun cx hw _ => ?_
  have ht : t.isN = false := by simpa using (show (!t.isN) = true from hw)
  show decodeScalar cx s _ = _
  unfold decodeScalar; rw [slotWord_op]; show finish _ _ _ _ _ = _
  simp (disch := decide) only [opsSR, fnTy, slotWord_pred, slotWord_ops, extract_append_low, extract_append_high, extract_all,
    Nat.reduceSub]
  simp [sty?, ht]

theorem mulhn (s : SSlot) (p : Pred) (d a b : SReg) (t : ITy) : Statement (.mulhn s p d a b t) := by
  refine of_slotS s rfl rfl fun cx hw _ => ?_
  have ht : t.isN = true := by simpa using (show t.isN = true from hw)
  show decodeScalar cx s _ = _
  unfold decodeScalar; rw [slotWord_op]; show finish _ _ _ _ _ = _
  simp (disch := decide) only [opsSR, fnTy, slotWord_pred, slotWord_ops, extract_append_low, extract_append_high, extract_all,
    Nat.reduceSub]
  simp [uty?, ht]

theorem and (s : SSlot) (p : Pred) (d a b : SReg) : Statement (.and s p d a b) := by
  refine of_slotS s rfl rfl fun cx _ _ => ?_
  show decodeScalar cx s _ = _
  unfold decodeScalar; rw [slotWord_op]; show finish _ _ _ _ _ = _
  simp (disch := decide) only [opsSR, slotWord_pred, slotWord_ops, extract_append_low, extract_append_high, extract_all,
    Nat.reduceSub]
  simp

theorem or (s : SSlot) (p : Pred) (d a b : SReg) : Statement (.or s p d a b) := by
  refine of_slotS s rfl rfl fun cx _ _ => ?_
  show decodeScalar cx s _ = _
  unfold decodeScalar; rw [slotWord_op]; show finish _ _ _ _ _ = _
  simp (disch := decide) only [opsSR, slotWord_pred, slotWord_ops, extract_append_low, extract_append_high, extract_all,
    Nat.reduceSub]
  simp

theorem xor (s : SSlot) (p : Pred) (d a b : SReg) : Statement (.xor s p d a b) := by
  refine of_slotS s rfl rfl fun cx _ _ => ?_
  show decodeScalar cx s _ = _
  unfold decodeScalar; rw [slotWord_op]; show finish _ _ _ _ _ = _
  simp (disch := decide) only [opsSR, slotWord_pred, slotWord_ops, extract_append_low, extract_append_high, extract_all,
    Nat.reduceSub]
  simp

theorem andn (s : SSlot) (p : Pred) (d a b : SReg) : Statement (.andn s p d a b) := by
  refine of_slotS s rfl rfl fun cx _ _ => ?_
  show decodeScalar cx s _ = _
  unfold decodeScalar; rw [slotWord_op]; show finish _ _ _ _ _ = _
  simp (disch := decide) only [opsSR, slotWord_pred, slotWord_ops, extract_append_low, extract_append_high, extract_all,
    Nat.reduceSub]
  simp

theorem shl (s : SSlot) (p : Pred) (d a b : SReg) (t : ITy) : Statement (.shl s p d a b t) := by
  refine of_slotS s rfl rfl fun cx _ _ => ?_
  show decodeScalar cx s _ = _
  unfold decodeScalar; rw [slotWord_op]; show finish _ _ _ _ _ = _
  simp (disch := decide) only [opsSR, fnTy, slotWord_pred, slotWord_ops, extract_append_low, extract_append_high, extract_all,
    Nat.reduceSub]
  simp

theorem shr (s : SSlot) (p : Pred) (d a b : SReg) (t : ITy) : Statement (.shr s p d a b t) := by
  refine of_slotS s rfl rfl fun cx hw _ => ?_
  have ht : t.isN = true := by simpa using (show t.isN = true from hw)
  show decodeScalar cx s _ = _
  unfold decodeScalar; rw [slotWord_op]; show finish _ _ _ _ _ = _
  simp (disch := decide) only [opsSR, fnTy, slotWord_pred, slotWord_ops, extract_append_low, extract_append_high, extract_all,
    Nat.reduceSub]
  simp [uty?, ht]

theorem sra (s : SSlot) (p : Pred) (d a b : SReg) (t : ITy) : Statement (.sra s p d a b t) := by
  refine of_slotS s rfl rfl fun cx hw _ => ?_
  have ht : t.isN = false := by simpa using (show (!t.isN) = true from hw)
  show decodeScalar cx s _ = _
  unfold decodeScalar; rw [slotWord_op]; show finish _ _ _ _ _ = _
  simp (disch := decide) only [opsSR, fnTy, slotWord_pred, slotWord_ops, extract_append_low, extract_append_high, extract_all,
    Nat.reduceSub]
  simp [sty?, ht]

theorem min (s : SSlot) (p : Pred) (d a b : SReg) (t : ITy) : Statement (.min s p d a b t) := by
  refine of_slotS s rfl rfl fun cx hw _ => ?_
  have ht : t.isN = false := by simpa using (show (!t.isN) = true from hw)
  show decodeScalar cx s _ = _
  unfold decodeScalar; rw [slotWord_op]; show finish _ _ _ _ _ = _
  simp (disch := decide) only [opsSR, fnTy, slotWord_pred, slotWord_ops, extract_append_low, extract_append_high, extract_all,
    Nat.reduceSub]
  simp [sty?, ht]

theorem max (s : SSlot) (p : Pred) (d a b : SReg) (t : ITy) : Statement (.max s p d a b t) := by
  refine of_slotS s rfl rfl fun cx hw _ => ?_
  have ht : t.isN = false := by simpa using (show (!t.isN) = true from hw)
  show decodeScalar cx s _ = _
  unfold decodeScalar; rw [slotWord_op]; show finish _ _ _ _ _ = _
  simp (disch := decide) only [opsSR, fnTy, slotWord_pred, slotWord_ops, extract_append_low, extract_append_high, extract_all,
    Nat.reduceSub]
  simp [sty?, ht]

theorem minn (s : SSlot) (p : Pred) (d a b : SReg) (t : ITy) : Statement (.minn s p d a b t) := by
  refine of_slotS s rfl rfl fun cx hw _ => ?_
  have ht : t.isN = true := by simpa using (show t.isN = true from hw)
  show decodeScalar cx s _ = _
  unfold decodeScalar; rw [slotWord_op]; show finish _ _ _ _ _ = _
  simp (disch := decide) only [opsSR, fnTy, slotWord_pred, slotWord_ops, extract_append_low, extract_append_high, extract_all,
    Nat.reduceSub]
  simp [uty?, ht]

theorem maxn (s : SSlot) (p : Pred) (d a b : SReg) (t : ITy) : Statement (.maxn s p d a b t) := by
  refine of_slotS s rfl rfl fun cx hw _ => ?_
  have ht : t.isN = true := by simpa using (show t.isN = true from hw)
  show decodeScalar cx s _ = _
  unfold decodeScalar; rw [slotWord_op]; show finish _ _ _ _ _ = _
  simp (disch := decide) only [opsSR, fnTy, slotWord_pred, slotWord_ops, extract_append_low, extract_append_high, extract_all,
    Nat.reduceSub]
  simp [uty?, ht]

theorem addi (s : SSlot) (p : Pred) (d a : SReg) (i : BitVec 11) : Statement (.addi s p d a i) := by
  refine of_slotS s rfl rfl fun cx _ _ => ?_
  show decodeScalar cx s _ = _
  unfold decodeScalar; rw [slotWord_op]; show finish _ _ _ _ _ = _
  simp (disch := decide) only [opsSI, slotWord_pred, slotWord_ops, extract_append_low, extract_append_high, extract_all,
    Nat.reduceSub]
  simp

theorem andi (s : SSlot) (p : Pred) (d a : SReg) (i : BitVec 11) : Statement (.andi s p d a i) := by
  refine of_slotS s rfl rfl fun cx _ _ => ?_
  show decodeScalar cx s _ = _
  unfold decodeScalar; rw [slotWord_op]; show finish _ _ _ _ _ = _
  simp (disch := decide) only [opsSI, slotWord_pred, slotWord_ops, extract_append_low, extract_append_high, extract_all,
    Nat.reduceSub]
  simp

theorem ori (s : SSlot) (p : Pred) (d a : SReg) (i : BitVec 11) : Statement (.ori s p d a i) := by
  refine of_slotS s rfl rfl fun cx _ _ => ?_
  show decodeScalar cx s _ = _
  unfold decodeScalar; rw [slotWord_op]; show finish _ _ _ _ _ = _
  simp (disch := decide) only [opsSI, slotWord_pred, slotWord_ops, extract_append_low, extract_append_high, extract_all,
    Nat.reduceSub]
  simp

theorem xori (s : SSlot) (p : Pred) (d a : SReg) (i : BitVec 11) : Statement (.xori s p d a i) := by
  refine of_slotS s rfl rfl fun cx _ _ => ?_
  show decodeScalar cx s _ = _
  unfold decodeScalar; rw [slotWord_op]; show finish _ _ _ _ _ = _
  simp (disch := decide) only [opsSI, slotWord_pred, slotWord_ops, extract_append_low, extract_append_high, extract_all,
    Nat.reduceSub]
  simp

theorem shli (s : SSlot) (p : Pred) (d a : SReg) (t : ITy) (n : BitVec 6) : Statement (.shli s p d a t n) := by
  refine of_slotS s rfl rfl fun cx _ _ => ?_
  show decodeScalar cx s _ = _
  unfold decodeScalar; rw [slotWord_op]; show finish _ _ _ _ _ = _
  simp (disch := decide) only [opsSI, shImm, slotWord_pred, slotWord_ops, extract_append_low, extract_append_high, extract_all,
    Nat.reduceSub]
  simp

theorem shri (s : SSlot) (p : Pred) (d a : SReg) (t : ITy) (n : BitVec 6) : Statement (.shri s p d a t n) := by
  refine of_slotS s rfl rfl fun cx hw _ => ?_
  have ht : t.isN = true := by simpa using (show t.isN = true from hw)
  show decodeScalar cx s _ = _
  unfold decodeScalar; rw [slotWord_op]; show finish _ _ _ _ _ = _
  simp (disch := decide) only [opsSI, shImm, slotWord_pred, slotWord_ops, extract_append_low, extract_append_high, extract_all,
    Nat.reduceSub]
  simp [uty?, ht]

theorem srai (s : SSlot) (p : Pred) (d a : SReg) (t : ITy) (n : BitVec 6) : Statement (.srai s p d a t n) := by
  refine of_slotS s rfl rfl fun cx hw _ => ?_
  have ht : t.isN = false := by simpa using (show (!t.isN) = true from hw)
  show decodeScalar cx s _ = _
  unfold decodeScalar; rw [slotWord_op]; show finish _ _ _ _ _ = _
  simp (disch := decide) only [opsSI, shImm, slotWord_pred, slotWord_ops, extract_append_low, extract_append_high, extract_all,
    Nat.reduceSub]
  simp [sty?, ht]

theorem cmpi (s : SSlot) (p : Pred) (d : PReg) (a : SReg) (c : CondI) (i : BitVec 9) : Statement (.cmpi s p d a c i) := by
  refine of_slotS s rfl rfl fun cx _ _ => ?_
  show decodeScalar cx s _ = _
  unfold decodeScalar; rw [slotWord_op]; show finish _ _ _ _ _ = _
  simp (disch := decide) only [slotWord_pred, slotWord_ops, extract_append_low, extract_append_high, extract_all,
    Nat.reduceSub]
  simp

theorem clz (s : SSlot) (p : Pred) (d a : SReg) (t : ITy) : Statement (.clz s p d a t) := by
  refine of_slotS s rfl rfl fun cx hw _ => ?_
  have ht : t.isN = true := by simpa using (show t.isN = true from hw)
  show decodeScalar cx s _ = _
  unfold decodeScalar; rw [slotWord_op]; show finish _ _ _ _ _ = _
  simp (disch := decide) only [opsSR, fnTy, slotWord_pred, slotWord_ops, extract_append_low, extract_append_high, extract_all,
    Nat.reduceSub]
  simp [uty?, ht]

theorem ctz (s : SSlot) (p : Pred) (d a : SReg) (t : ITy) : Statement (.ctz s p d a t) := by
  refine of_slotS s rfl rfl fun cx hw _ => ?_
  have ht : t.isN = true := by simpa using (show t.isN = true from hw)
  show decodeScalar cx s _ = _
  unfold decodeScalar; rw [slotWord_op]; show finish _ _ _ _ _ = _
  simp (disch := decide) only [opsSR, fnTy, slotWord_pred, slotWord_ops, extract_append_low, extract_append_high, extract_all,
    Nat.reduceSub]
  simp [uty?, ht]

theorem popc (s : SSlot) (p : Pred) (d a : SReg) (t : ITy) : Statement (.popc s p d a t) := by
  refine of_slotS s rfl rfl fun cx hw _ => ?_
  have ht : t.isN = true := by simpa using (show t.isN = true from hw)
  show decodeScalar cx s _ = _
  unfold decodeScalar; rw [slotWord_op]; show finish _ _ _ _ _ = _
  simp (disch := decide) only [opsSR, fnTy, slotWord_pred, slotWord_ops, extract_append_low, extract_append_high, extract_all,
    Nat.reduceSub]
  simp [uty?, ht]

theorem ext (s : SSlot) (p : Pred) (d a b : SReg) : Statement (.ext s p d a b) := by
  refine of_slotS s rfl rfl fun cx _ _ => ?_
  show decodeScalar cx s _ = _
  unfold decodeScalar; rw [slotWord_op]; show finish _ _ _ _ _ = _
  simp (disch := decide) only [opsSR, slotWord_pred, slotWord_ops, extract_append_low, extract_append_high, extract_all,
    Nat.reduceSub]
  simp

theorem extn (s : SSlot) (p : Pred) (d a b : SReg) : Statement (.extn s p d a b) := by
  refine of_slotS s rfl rfl fun cx _ _ => ?_
  show decodeScalar cx s _ = _
  unfold decodeScalar; rw [slotWord_op]; show finish _ _ _ _ _ = _
  simp (disch := decide) only [opsSR, slotWord_pred, slotWord_ops, extract_append_low, extract_append_high, extract_all,
    Nat.reduceSub]
  simp

theorem ins (s : SSlot) (p : Pred) (d a b : SReg) : Statement (.ins s p d a b) := by
  refine of_slotS s rfl rfl fun cx _ _ => ?_
  show decodeScalar cx s _ = _
  unfold decodeScalar; rw [slotWord_op]; show finish _ _ _ _ _ = _
  simp (disch := decide) only [opsSR, slotWord_pred, slotWord_ops, extract_append_low, extract_append_high, extract_all,
    Nat.reduceSub]
  simp

theorem sel (s : SSlot) (p : Pred) (d a b : SReg) (ps : PReg) : Statement (.sel s p d a b ps) := by
  refine of_slotS s rfl rfl fun cx _ _ => ?_
  show decodeScalar cx s _ = _
  unfold decodeScalar; rw [slotWord_op]; show finish _ _ _ _ _ = _
  simp (disch := decide) only [opsSR, slotWord_pred, slotWord_ops, extract_append_low, extract_append_high, extract_all,
    Nat.reduceSub]
  simp

theorem lea (s : SSlot) (p : Pred) (d a b : SReg) (sh : BitVec 3) (t : LeaTy) : Statement (.lea s p d a b sh t) := by
  refine of_slotS s rfl rfl fun cx _ _ => ?_
  show decodeScalar cx s _ = _
  unfold decodeScalar; rw [slotWord_op]; show finish _ _ _ _ _ = _
  simp (disch := decide) only [opsSR, slotWord_pred, slotWord_ops, extract_append_low, extract_append_high, extract_all,
    Nat.reduceSub]
  simp

theorem movi (s : SSlot) (p : Pred) (d : SReg) (i : BitVec 16) : Statement (.movi s p d i) := by
  refine of_slotS s rfl rfl fun cx _ _ => ?_
  show decodeScalar cx s _ = _
  unfold decodeScalar; rw [slotWord_op]; show finish _ _ _ _ _ = _
  simp (disch := decide) only [slotWord_pred, slotWord_ops, extract_append_low, extract_append_high, extract_all,
    Nat.reduceSub]
  simp

theorem movhi (s : SSlot) (p : Pred) (d : SReg) (i : BitVec 16) : Statement (.movhi s p d i) := by
  refine of_slotS s rfl rfl fun cx _ _ => ?_
  show decodeScalar cx s _ = _
  unfold decodeScalar; rw [slotWord_op]; show finish _ _ _ _ _ = _
  simp (disch := decide) only [slotWord_pred, slotWord_ops, extract_append_low, extract_append_high, extract_all,
    Nat.reduceSub]
  simp

theorem moviSl (s : SSlot) (p : Pred) (d : SReg) (lsel : Fin 3) (wide : Bool) : Statement (.moviSl s p d lsel wide) := by
  refine of_slotS s rfl rfl fun cx hw hf => ?_
  have hw : (!wide || lsel.val < 2) = true := hw
  have hf : decide (lsel.val + (if wide then 2 else 1) ≤ cx.litc) = true := hf
  show decodeScalar cx s _ = _
  unfold decodeScalar; rw [slotWord_op]; show finish _ _ _ _ _ = _
  simp (disch := decide) only [slotWord_pred, slotWord_ops, extract_append_low, extract_append_high, extract_all,
    Nat.reduceSub]
  have h4 : lsel.val % 4 = lsel.val := by omega
  have h5 := of_decide_eq_true hf
  simp [lsel?_code _ _ hw, h4, h5]

theorem cmv (s : SSlot) (p : Pred) (d a : SReg) : Statement (.cmv s p d a) := by
  refine of_slotS s rfl rfl fun cx _ _ => ?_
  show decodeScalar cx s _ = _
  unfold decodeScalar; rw [slotWord_op]; show finish _ _ _ _ _ = _
  simp (disch := decide) only [opsSR, slotWord_pred, slotWord_ops, extract_append_low, extract_append_high, extract_all,
    Nat.reduceSub]
  simp

theorem cmp (s : SSlot) (p : Pred) (d : PReg) (a b : SReg) (c : Cond) (t : ITy) : Statement (.cmp s p d a b c t) := by
  refine of_slotS s rfl rfl fun cx _ _ => ?_
  show decodeScalar cx s _ = _
  unfold decodeScalar; rw [slotWord_op]; show finish _ _ _ _ _ = _
  simp (disch := decide) only [opsSC, slotWord_pred, slotWord_ops, extract_append_low, extract_append_high, extract_all,
    Nat.reduceSub]
  simp

theorem pset (s : SSlot) (p : Pred) (d pa pb : PReg) (tt : BitVec 4) : Statement (.pset s p d pa pb tt) := by
  refine of_slotS s rfl rfl fun cx _ _ => ?_
  show decodeScalar cx s _ = _
  unfold decodeScalar; rw [slotWord_op]; show finish _ _ _ _ _ = _
  simp (disch := decide) only [slotWord_pred, slotWord_ops, extract_append_low, extract_append_high, extract_all,
    Nat.reduceSub]
  simp

theorem rdsr (s : SSlot) (p : Pred) (d : SReg) (n : BitVec 11) : Statement (.rdsr s p d n) := by
  refine of_slotS s rfl rfl fun cx hw _ => ?_
  have hw : srExists n = true := hw
  show decodeScalar cx s _ = _
  unfold decodeScalar; rw [slotWord_op]; show finish _ _ _ _ _ = _
  simp (disch := decide) only [opsSI, slotWord_pred, slotWord_ops, extract_append_low, extract_append_high, extract_all,
    Nat.reduceSub]
  simp [hw]

theorem wrsr (s : SSlot) (p : Pred) (a : SReg) (n : BitVec 11) : Statement (.wrsr s p a n) := by
  refine of_slotS s rfl rfl fun cx hw _ => ?_
  have hw : srWritable n = true := hw
  show decodeScalar cx s _ = _
  unfold decodeScalar; rw [slotWord_op]; show finish _ _ _ _ _ = _
  simp (disch := decide) only [opsSI, slotWord_pred, slotWord_ops, extract_append_low, extract_append_high, extract_all,
    Nat.reduceSub]
  simp [hw]

theorem fadd (s : SSlot) (p : Pred) (d a b : SReg) (m : RMode) : Statement (.fadd s p d a b m) := by
  refine of_slotS s rfl rfl fun cx _ _ => ?_
  show decodeScalar cx s _ = _
  unfold decodeScalar; rw [slotWord_op]; show finish _ _ _ _ _ = _
  simp (disch := decide) only [opsSR, fnRm, slotWord_pred, slotWord_ops, extract_append_low, extract_append_high, extract_all,
    Nat.reduceSub]
  simp

theorem fsub (s : SSlot) (p : Pred) (d a b : SReg) (m : RMode) : Statement (.fsub s p d a b m) := by
  refine of_slotS s rfl rfl fun cx _ _ => ?_
  show decodeScalar cx s _ = _
  unfold decodeScalar; rw [slotWord_op]; show finish _ _ _ _ _ = _
  simp (disch := decide) only [opsSR, fnRm, slotWord_pred, slotWord_ops, extract_append_low, extract_append_high, extract_all,
    Nat.reduceSub]
  simp

theorem fmul (s : SSlot) (p : Pred) (d a b : SReg) (m : RMode) : Statement (.fmul s p d a b m) := by
  refine of_slotS s rfl rfl fun cx _ _ => ?_
  show decodeScalar cx s _ = _
  unfold decodeScalar; rw [slotWord_op]; show finish _ _ _ _ _ = _
  simp (disch := decide) only [opsSR, fnRm, slotWord_pred, slotWord_ops, extract_append_low, extract_append_high, extract_all,
    Nat.reduceSub]
  simp

theorem fma (s : SSlot) (p : Pred) (d a b : SReg) (m : RMode) : Statement (.fma s p d a b m) := by
  refine of_slotS s rfl rfl fun cx _ _ => ?_
  show decodeScalar cx s _ = _
  unfold decodeScalar; rw [slotWord_op]; show finish _ _ _ _ _ = _
  simp (disch := decide) only [opsSR, fnRm, slotWord_pred, slotWord_ops, extract_append_low, extract_append_high, extract_all,
    Nat.reduceSub]
  simp

theorem fnma (s : SSlot) (p : Pred) (d a b : SReg) (m : RMode) : Statement (.fnma s p d a b m) := by
  refine of_slotS s rfl rfl fun cx _ _ => ?_
  show decodeScalar cx s _ = _
  unfold decodeScalar; rw [slotWord_op]; show finish _ _ _ _ _ = _
  simp (disch := decide) only [opsSR, fnRm, slotWord_pred, slotWord_ops, extract_append_low, extract_append_high, extract_all,
    Nat.reduceSub]
  simp

theorem fmin (s : SSlot) (p : Pred) (d a b : SReg) : Statement (.fmin s p d a b) := by
  refine of_slotS s rfl rfl fun cx _ _ => ?_
  show decodeScalar cx s _ = _
  unfold decodeScalar; rw [slotWord_op]; show finish _ _ _ _ _ = _
  simp (disch := decide) only [opsSR, slotWord_pred, slotWord_ops, extract_append_low, extract_append_high, extract_all,
    Nat.reduceSub]
  simp

theorem fmax (s : SSlot) (p : Pred) (d a b : SReg) : Statement (.fmax s p d a b) := by
  refine of_slotS s rfl rfl fun cx _ _ => ?_
  show decodeScalar cx s _ = _
  unfold decodeScalar; rw [slotWord_op]; show finish _ _ _ _ _ = _
  simp (disch := decide) only [opsSR, slotWord_pred, slotWord_ops, extract_append_low, extract_append_high, extract_all,
    Nat.reduceSub]
  simp

theorem fcmp (s : SSlot) (p : Pred) (d : PReg) (a b : SReg) (c : FCond) : Statement (.fcmp s p d a b c) := by
  refine of_slotS s rfl rfl fun cx _ _ => ?_
  show decodeScalar cx s _ = _
  unfold decodeScalar; rw [slotWord_op]; show finish _ _ _ _ _ = _
  simp (disch := decide) only [opsSC, slotWord_pred, slotWord_ops, extract_append_low, extract_append_high, extract_all,
    Nat.reduceSub]
  simp

theorem fcvt (s : SSlot) (p : Pred) (d a : SReg) (k : CvtKind) (m : RMode) : Statement (.fcvt s p d a k m) := by
  refine of_slotS s rfl rfl fun cx hw hf => ?_
  have hw : (!k.isExact || m == .rne) = true := hw
  show decodeScalar cx s _ = _
  unfold decodeScalar; rw [slotWord_op]; show finish _ _ _ _ _ = _
  simp (disch := decide) only [opsSR, slotWord_pred, slotWord_ops, extract_append_low, extract_append_high, extract_all,
    Nat.reduceSub]
  simp [cvtFn?_code _ _ hw]

theorem fsgn (s : SSlot) (p : Pred) (d a b : SReg) (o : SgnOp) : Statement (.fsgn s p d a b o) := by
  refine of_slotS s rfl rfl fun cx _ _ => ?_
  show decodeScalar cx s _ = _
  unfold decodeScalar; rw [slotWord_op]; show finish _ _ _ _ _ = _
  simp (disch := decide) only [opsSR, slotWord_pred, slotWord_ops, extract_append_low, extract_append_high, extract_all,
    Nat.reduceSub]
  simp

theorem div (p : Pred) (d a b : SReg) (t : ITy) : Statement (.div p d a b t) := by
  refine of_word rfl rfl fun cx hw _ => ?_
  have ht : t.isN = false := by simpa using (show (!t.isN) = true from hw)
  show decodeScalar cx .sb _ = _
  unfold decodeScalar; rw [slotWord_op]; show (if SSlot.sb = SSlot.sb then finish _ _ _ _ _ else _) = _
  rw [if_pos rfl]
  simp (disch := decide) only [opsSR, fnTy, slotWord_pred, slotWord_ops, extract_append_low, extract_append_high, extract_all,
    Nat.reduceSub]
  simp [sty?, ht]

theorem divn (p : Pred) (d a b : SReg) (t : ITy) : Statement (.divn p d a b t) := by
  refine of_word rfl rfl fun cx hw _ => ?_
  have ht : t.isN = true := by simpa using (show t.isN = true from hw)
  show decodeScalar cx .sb _ = _
  unfold decodeScalar; rw [slotWord_op]; show (if SSlot.sb = SSlot.sb then finish _ _ _ _ _ else _) = _
  rw [if_pos rfl]
  simp (disch := decide) only [opsSR, fnTy, slotWord_pred, slotWord_ops, extract_append_low, extract_append_high, extract_all,
    Nat.reduceSub]
  simp [uty?, ht]

theorem rem (p : Pred) (d a b : SReg) (t : ITy) : Statement (.rem p d a b t) := by
  refine of_word rfl rfl fun cx hw _ => ?_
  have ht : t.isN = false := by simpa using (show (!t.isN) = true from hw)
  show decodeScalar cx .sb _ = _
  unfold decodeScalar; rw [slotWord_op]; show (if SSlot.sb = SSlot.sb then finish _ _ _ _ _ else _) = _
  rw [if_pos rfl]
  simp (disch := decide) only [opsSR, fnTy, slotWord_pred, slotWord_ops, extract_append_low, extract_append_high, extract_all,
    Nat.reduceSub]
  simp [sty?, ht]

theorem remn (p : Pred) (d a b : SReg) (t : ITy) : Statement (.remn p d a b t) := by
  refine of_word rfl rfl fun cx hw _ => ?_
  have ht : t.isN = true := by simpa using (show t.isN = true from hw)
  show decodeScalar cx .sb _ = _
  unfold decodeScalar; rw [slotWord_op]; show (if SSlot.sb = SSlot.sb then finish _ _ _ _ _ else _) = _
  rw [if_pos rfl]
  simp (disch := decide) only [opsSR, fnTy, slotWord_pred, slotWord_ops, extract_append_low, extract_append_high, extract_all,
    Nat.reduceSub]
  simp [uty?, ht]

theorem fdiv (p : Pred) (d a b : SReg) (m : RMode) : Statement (.fdiv p d a b m) := by
  refine of_word rfl rfl fun cx _ _ => ?_
  show decodeScalar cx .sb _ = _
  unfold decodeScalar; rw [slotWord_op]; show (if SSlot.sb = SSlot.sb then finish _ _ _ _ _ else _) = _
  rw [if_pos rfl]
  simp (disch := decide) only [opsSR, fnRm, slotWord_pred, slotWord_ops, extract_append_low, extract_append_high, extract_all,
    Nat.reduceSub]
  simp

theorem fsqrt (p : Pred) (d a : SReg) (m : RMode) : Statement (.fsqrt p d a m) := by
  refine of_word rfl rfl fun cx _ _ => ?_
  show decodeScalar cx .sb _ = _
  unfold decodeScalar; rw [slotWord_op]; show (if SSlot.sb = SSlot.sb then finish _ _ _ _ _ else _) = _
  rw [if_pos rfl]
  simp (disch := decide) only [opsSR, fnRm, slotWord_pred, slotWord_ops, extract_append_low, extract_append_high, extract_all,
    Nat.reduceSub]
  simp

theorem br (p : Pred) (t : BitVec 14) : Statement (.br p t) := by
  refine of_word rfl rfl fun cx _ _ => ?_
  show decodeCtl cx _ = _
  unfold decodeCtl; rw [slotWord_op]; show finish _ _ _ _ _ = _
  simp (disch := decide) only [slotWord_pred, slotWord_ops, extract_append_low, extract_append_high, extract_all,
    Nat.reduceSub]
  simp

theorem bri (p : Pred) (r : CReg) : Statement (.bri p r) := by
  refine of_word rfl rfl fun cx _ _ => ?_
  show decodeCtl cx _ = _
  unfold decodeCtl; rw [slotWord_op]; show finish _ _ _ _ _ = _
  simp (disch := decide) only [opsCR, slotWord_pred, slotWord_ops, extract_append_low, extract_append_high, extract_all,
    Nat.reduceSub]
  simp

theorem call (p : Pred) (t : BitVec 14) : Statement (.call p t) := by
  refine of_word rfl rfl fun cx _ _ => ?_
  show decodeCtl cx _ = _
  unfold decodeCtl; rw [slotWord_op]; show finish _ _ _ _ _ = _
  simp (disch := decide) only [slotWord_pred, slotWord_ops, extract_append_low, extract_append_high, extract_all,
    Nat.reduceSub]
  simp

theorem ret (p : Pred) : Statement (.ret p) := by
  refine of_word rfl rfl fun cx _ _ => ?_
  show decodeCtl cx _ = _
  unfold decodeCtl; rw [slotWord_op]; show finish _ _ _ _ _ = _
  simp (disch := decide) only [slotWord_pred, slotWord_ops, extract_append_low, extract_append_high, extract_all,
    Nat.reduceSub]
  simp

theorem brSide (p : Pred) (t : BitVec 14) : Statement (.brSide p t) := by
  refine of_word rfl rfl fun cx _ _ => ?_
  show decodeCtl cx _ = _
  unfold decodeCtl; rw [slotWord_op]; show finish _ _ _ _ _ = _
  simp (disch := decide) only [slotWord_pred, slotWord_ops, extract_append_low, extract_append_high, extract_all,
    Nat.reduceSub]
  simp

theorem loop (p : Pred) (l : Fin 4) (r : CReg) (e : BitVec 13) : Statement (.loop p l r e) := by
  refine of_word rfl rfl fun cx _ hf => ?_
  have hf : loopEndOk cx e = true := hf
  show decodeCtl cx _ = _
  unfold decodeCtl; rw [slotWord_op]; show finish _ _ _ _ _ = _
  simp (disch := decide) only [slotWord_pred, slotWord_ops, extract_append_low, extract_append_high, extract_all,
    Nat.reduceSub]
  simp [hf]

theorem loopi (p : Pred) (l : Fin 4) (n : BitVec 6) (e : BitVec 13) : Statement (.loopi p l n e) := by
  refine of_word rfl rfl fun cx hw hf => ?_
  have hw : (n != 0) = true := hw
  have hf : loopEndOk cx e = true := hf
  show decodeCtl cx _ = _
  unfold decodeCtl; rw [slotWord_op]; show finish _ _ _ _ _ = _
  simp (disch := decide) only [slotWord_pred, slotWord_ops, extract_append_low, extract_append_high, extract_all,
    Nat.reduceSub]
  have hn : (n != 0#6) = true := hw
  simp only [hf, hn, Bool.and_self, must_true, finish_ok]
  simp

theorem done (p : Pred) : Statement (.done p) := by
  refine of_word rfl rfl fun cx _ _ => ?_
  show decodeCtl cx _ = _
  unfold decodeCtl; rw [slotWord_op]; show finish _ _ _ _ _ = _
  simp (disch := decide) only [slotWord_pred, slotWord_ops, extract_append_low, extract_append_high, extract_all,
    Nat.reduceSub]
  simp

theorem abort (p : Pred) (code : BitVec 16) : Statement (.abort p code) := by
  refine of_word rfl rfl fun cx _ _ => ?_
  show decodeCtl cx _ = _
  unfold decodeCtl; rw [slotWord_op]; show finish _ _ _ _ _ = _
  simp (disch := decide) only [slotWord_pred, slotWord_ops, extract_append_low, extract_append_high, extract_all,
    Nat.reduceSub]
  simp

theorem trap (p : Pred) (code : BitVec 16) : Statement (.trap p code) := by
  refine of_word rfl rfl fun cx _ _ => ?_
  show decodeCtl cx _ = _
  unfold decodeCtl; rw [slotWord_op]; show finish _ _ _ _ _ = _
  simp (disch := decide) only [slotWord_pred, slotWord_ops, extract_append_low, extract_append_high, extract_all,
    Nat.reduceSub]
  simp

theorem escal (p : Pred) : Statement (.escal p) := by
  refine of_word rfl rfl fun cx _ _ => ?_
  show decodeCtl cx _ = _
  unfold decodeCtl; rw [slotWord_op]; show finish _ _ _ _ _ = _
  simp (disch := decide) only [slotWord_pred, slotWord_ops, extract_append_low, extract_append_high, extract_all,
    Nat.reduceSub]
  simp

theorem wait (p : Pred) (ld st cp mx : BitVec 5) : Statement (.wait p ld st cp mx) := by
  refine of_word rfl rfl fun cx _ _ => ?_
  show decodeCtl cx _ = _
  unfold decodeCtl; rw [slotWord_op]; show finish _ _ _ _ _ = _
  simp (disch := decide) only [slotWord_pred, slotWord_ops, extract_append_low, extract_append_high, extract_all,
    Nat.reduceSub]
  simp

theorem waittl (p : Pred) (r : CReg) (t : Tline) : Statement (.waittl p r t) := by
  refine of_word rfl rfl fun cx _ _ => ?_
  show decodeCtl cx _ = _
  unfold decodeCtl; rw [slotWord_op]; show finish _ _ _ _ _ = _
  simp (disch := decide) only [opsCR, slotWord_pred, slotWord_ops, extract_append_low, extract_append_high, extract_all,
    Nat.reduceSub]
  simp

theorem ifence (p : Pred) : Statement (.ifence p) := by
  refine of_word rfl rfl fun cx _ _ => ?_
  show decodeCtl cx _ = _
  unfold decodeCtl; rw [slotWord_op]; show finish _ _ _ _ _ = _
  simp (disch := decide) only [slotWord_pred, slotWord_ops, extract_append_low, extract_append_high, extract_all,
    Nat.reduceSub]
  simp

theorem bar (p : Pred) (r : CReg) (d : PReg) : Statement (.bar p r d) := by
  refine of_word rfl rfl fun cx _ _ => ?_
  show decodeCtl cx _ = _
  unfold decodeCtl; rw [slotWord_op]; show finish _ _ _ _ _ = _
  simp (disch := decide) only [opsCR, slotWord_pred, slotWord_ops, extract_append_low, extract_append_high, extract_all,
    Nat.reduceSub]
  simp

theorem maskw (p : Pred) (r : CReg) (d : PReg) : Statement (.maskw p r d) := by
  refine of_word rfl rfl fun cx _ _ => ?_
  show decodeCtl cx _ = _
  unfold decodeCtl; rw [slotWord_op]; show finish _ _ _ _ _ = _
  simp (disch := decide) only [opsCR, slotWord_pred, slotWord_ops, extract_append_low, extract_append_high, extract_all,
    Nat.reduceSub]
  simp

theorem cpLin (p : Pred) (k : CtxId) (c : Cluster) (x y : SReg) (z : EArg) (nc : Bool) : Statement (.cpLin p k c x y z nc) := by
  refine of_word rfl rfl fun cx hw hf => ?_
  show decodeCtl cx _ = _
  unfold decodeCtl; rw [slotWord_op]; show finish _ _ _ _ _ = _
  simp (disch := decide) only [opsCE, slotWord_pred, slotWord_ops, extract_append_low, extract_append_high, extract_all,
    Nat.reduceSub]
  have hc := earCovered_field cx.litc 1 z hf
  simp [hc]

theorem cpTensor (p : Pred) (k : CtxId) (c : Cluster) (x y z : SReg) (nc : Bool) : Statement (.cpTensor p k c x y z nc) := by
  refine of_word rfl rfl fun cx _ _ => ?_
  show decodeCtl cx _ = _
  unfold decodeCtl; rw [slotWord_op]; show finish _ _ _ _ _ = _
  simp (disch := decide) only [opsCE, slotWord_pred, slotWord_ops, extract_append_low, extract_append_high, extract_all,
    Nat.reduceSub]
  simp

theorem cpFill (p : Pred) (k : CtxId) (c : Cluster) (x y z : SReg) (nc : Bool) : Statement (.cpFill p k c x y z nc) := by
  refine of_word rfl rfl fun cx _ _ => ?_
  show decodeCtl cx _ = _
  unfold decodeCtl; rw [slotWord_op]; show finish _ _ _ _ _ = _
  simp (disch := decide) only [opsCE, slotWord_pred, slotWord_ops, extract_append_low, extract_append_high, extract_all,
    Nat.reduceSub]
  simp

theorem cpIsp (p : Pred) (k : CtxId) (c : Cluster) (x y z : SReg) : Statement (.cpIsp p k c x y z) := by
  refine of_word rfl rfl fun cx _ _ => ?_
  show decodeCtl cx _ = _
  unfold decodeCtl; rw [slotWord_op]; show finish _ _ _ _ _ = _
  simp (disch := decide) only [opsCE, slotWord_pred, slotWord_ops, extract_append_low, extract_append_high, extract_all,
    Nat.reduceSub]
  simp

theorem geBcast (p : Pred) (c : Cluster) (x y z : SReg) : Statement (.geBcast p c x y z) := by
  refine of_word rfl rfl fun cx _ _ => ?_
  show decodeCtl cx _ = _
  unfold decodeCtl; rw [slotWord_op]; show finish _ _ _ _ _ = _
  simp (disch := decide) only [opsCE, slotWord_pred, slotWord_ops, extract_append_low, extract_append_high, extract_all,
    Nat.reduceSub]
  simp

theorem geCall (p : Pred) (c : Cluster) (x : SReg) (y z : EArg) : Statement (.geCall p c x y z) := by
  refine of_word rfl rfl fun cx hw hf => ?_
  show decodeCtl cx _ = _
  unfold decodeCtl; rw [slotWord_op]; show finish _ _ _ _ _ = _
  simp (disch := decide) only [opsCE, slotWord_pred, slotWord_ops, extract_append_low, extract_append_high, extract_all,
    Nat.reduceSub]
  have h2 := Bool.and_eq_true_iff.1 hf
  simp [earCovered_field cx.litc 2 y h2.1, earCovered_field cx.litc 2 z h2.2]

theorem geFence (p : Pred) (c : Cluster) (x : SReg) : Statement (.geFence p c x) := by
  refine of_word rfl rfl fun cx _ _ => ?_
  show decodeCtl cx _ = _
  unfold decodeCtl; rw [slotWord_op]; show finish _ _ _ _ _ = _
  simp (disch := decide) only [opsCE, slotWord_pred, slotWord_ops, extract_append_low, extract_append_high, extract_all,
    Nat.reduceSub]
  simp

theorem geOpen (p : Pred) (c : Cluster) (x y z : SReg) : Statement (.geOpen p c x y z) := by
  refine of_word rfl rfl fun cx _ _ => ?_
  show decodeCtl cx _ = _
  unfold decodeCtl; rw [slotWord_op]; show finish _ _ _ _ _ = _
  simp (disch := decide) only [opsCE, slotWord_pred, slotWord_ops, extract_append_low, extract_append_high, extract_all,
    Nat.reduceSub]
  simp

theorem geClose (p : Pred) (c : Cluster) (x z : SReg) : Statement (.geClose p c x z) := by
  refine of_word rfl rfl fun cx _ _ => ?_
  show decodeCtl cx _ = _
  unfold decodeCtl; rw [slotWord_op]; show finish _ _ _ _ _ = _
  simp (disch := decide) only [opsCE, slotWord_pred, slotWord_ops, extract_append_low, extract_append_high, extract_all,
    Nat.reduceSub]
  simp

theorem launch (p : Pred) (c : Cluster) (x : SReg) (y : EArg) (z : SReg) : Statement (.launch p c x y z) := by
  refine of_word rfl rfl fun cx hw hf => ?_
  show decodeCtl cx _ = _
  unfold decodeCtl; rw [slotWord_op]; show finish _ _ _ _ _ = _
  simp (disch := decide) only [opsCE, slotWord_pred, slotWord_ops, extract_append_low, extract_append_high, extract_all,
    Nat.reduceSub]
  simp [earCovered_field cx.litc 2 y hf]

theorem heapPush (p : Pred) (c : Cluster) (x y : SReg) : Statement (.heapPush p c x y) := by
  refine of_word rfl rfl fun cx _ _ => ?_
  show decodeCtl cx _ = _
  unfold decodeCtl; rw [slotWord_op]; show finish _ _ _ _ _ = _
  simp (disch := decide) only [opsCE, slotWord_pred, slotWord_ops, extract_append_low, extract_append_high, extract_all,
    Nat.reduceSub]
  simp

theorem heapPop (p : Pred) (c : Cluster) (x y : SReg) : Statement (.heapPop p c x y) := by
  refine of_word rfl rfl fun cx _ _ => ?_
  show decodeCtl cx _ = _
  unfold decodeCtl; rw [slotWord_op]; show finish _ _ _ _ _ = _
  simp (disch := decide) only [opsCE, slotWord_pred, slotWord_ops, extract_append_low, extract_append_high, extract_all,
    Nat.reduceSub]
  simp

theorem ld (s : MSlot) (p : Pred) (r b : SReg) (t : ITy) (d : BitVec 8) : Statement (.ld s p r b t d) := by
  refine of_slotM s rfl rfl fun cx _ _ => ?_
  show decodeMem s _ = _
  unfold decodeMem; rw [slotWord_op]; show finish _ _ _ _ _ = _
  simp (disch := decide) only [opsMS, slotWord_pred, slotWord_ops, extract_append_low, extract_append_high, extract_all,
    Nat.reduceSub]
  simp

theorem st (s : MSlot) (p : Pred) (r b : SReg) (t : ITy) (d : BitVec 8) : Statement (.st s p r b t d) := by
  refine of_slotM s rfl rfl fun cx hw _ => ?_
  have ht : t.isN = false := by simpa using (show (!t.isN) = true from hw)
  show decodeMem s _ = _
  unfold decodeMem; rw [slotWord_op]; show finish _ _ _ _ _ = _
  simp (disch := decide) only [opsMS, slotWord_pred, slotWord_ops, extract_append_low, extract_append_high, extract_all,
    Nat.reduceSub]
  simp [sty?, ht]

theorem lda (s : MSlot) (p : Pred) (r b : SReg) (t : ITy) (sc : Scope) (d : BitVec 6) : Statement (.lda s p r b t sc d) := by
  refine of_slotM s rfl rfl fun cx _ _ => ?_
  show decodeMem s _ = _
  unfold decodeMem; rw [slotWord_op]; show finish _ _ _ _ _ = _
  simp (disch := decide) only [opsMS, slotWord_pred, slotWord_ops, extract_append_low, extract_append_high, extract_all,
    Nat.reduceSub]
  simp

theorem stl (s : MSlot) (p : Pred) (r b : SReg) (t : ITy) (sc : Scope) (d : BitVec 6) : Statement (.stl s p r b t sc d) := by
  refine of_slotM s rfl rfl fun cx hw _ => ?_
  have ht : t.isN = false := by simpa using (show (!t.isN) = true from hw)
  show decodeMem s _ = _
  unfold decodeMem; rw [slotWord_op]; show finish _ _ _ _ _ = _
  simp (disch := decide) only [opsMS, slotWord_pred, slotWord_ops, extract_append_low, extract_append_high, extract_all,
    Nat.reduceSub]
  simp [sty?, ht]

theorem ldm (s : MSlot) (p : Pred) (r b : SReg) (d : BitVec 8) : Statement (.ldm s p r b d) := by
  refine of_slotM s rfl rfl fun cx _ _ => ?_
  show decodeMem s _ = _
  unfold decodeMem; rw [slotWord_op]; show finish _ _ _ _ _ = _
  simp (disch := decide) only [opsMS, slotWord_pred, slotWord_ops, extract_append_low, extract_append_high, extract_all,
    Nat.reduceSub]
  simp

theorem vld (s : MSlot) (p : Pred) (v : VReg) (b : SReg) (d : BitVec 9) : Statement (.vld s p v b d) := by
  refine of_slotM s rfl rfl fun cx _ _ => ?_
  show decodeMem s _ = _
  unfold decodeMem; rw [slotWord_op]; show finish _ _ _ _ _ = _
  simp (disch := decide) only [slotWord_pred, slotWord_ops, extract_append_low, extract_append_high, extract_all,
    Nat.reduceSub]
  simp

theorem vst (s : MSlot) (p : Pred) (v : VReg) (b : SReg) (d : BitVec 9) : Statement (.vst s p v b d) := by
  refine of_slotM s rfl rfl fun cx _ _ => ?_
  show decodeMem s _ = _
  unfold decodeMem; rw [slotWord_op]; show finish _ _ _ _ _ = _
  simp (disch := decide) only [slotWord_pred, slotWord_ops, extract_append_low, extract_append_high, extract_all,
    Nat.reduceSub]
  simp

theorem vlds (s : MSlot) (p : Pred) (v : VReg) (b sr : SReg) (f : LaneTag) : Statement (.vlds s p v b sr f) := by
  refine of_slotM s rfl rfl fun cx _ _ => ?_
  show decodeMem s _ = _
  unfold decodeMem; rw [slotWord_op]; show finish _ _ _ _ _ = _
  simp (disch := decide) only [slotWord_pred, slotWord_ops, extract_append_low, extract_append_high, extract_all,
    Nat.reduceSub]
  simp

theorem vgath (s : MSlot) (p : Pred) (v : VReg) (b : SReg) (i : VReg) (f : BitVec 2) : Statement (.vgath s p v b i f) := by
  refine of_slotM s rfl rfl fun cx _ _ => ?_
  show decodeMem s _ = _
  unfold decodeMem; rw [slotWord_op]; show finish _ _ _ _ _ = _
  simp (disch := decide) only [slotWord_pred, slotWord_ops, extract_append_low, extract_append_high, extract_all,
    Nat.reduceSub]
  simp

theorem vscat (s : MSlot) (p : Pred) (v : VReg) (b : SReg) (i : VReg) (f : BitVec 2) : Statement (.vscat s p v b i f) := by
  refine of_slotM s rfl rfl fun cx _ _ => ?_
  show decodeMem s _ = _
  unfold decodeMem; rw [slotWord_op]; show finish _ _ _ _ _ = _
  simp (disch := decide) only [slotWord_pred, slotWord_ops, extract_append_low, extract_append_high, extract_all,
    Nat.reduceSub]
  simp

theorem amo (s : MSlot) (p : Pred) (r b rs : SReg) (o : AmoOp) (e : AmoOrd) (sys : Bool) : Statement (.amo s p r b rs o e sys) := by
  refine of_slotM s rfl rfl fun cx _ _ => ?_
  show decodeMem s _ = _
  unfold decodeMem; rw [slotWord_op]; show finish _ _ _ _ _ = _
  simp (disch := decide) only [opsSR, slotWord_pred, slotWord_ops, extract_append_low, extract_append_high, extract_all,
    Nat.reduceSub]
  simp

theorem cas (s : MSlot) (p : Pred) (r b rs : SReg) (e : AmoOrd) (sys : Bool) : Statement (.cas s p r b rs e sys) := by
  refine of_slotM s rfl rfl fun cx _ _ => ?_
  show decodeMem s _ = _
  unfold decodeMem; rw [slotWord_op]; show finish _ _ _ _ _ = _
  simp (disch := decide) only [opsSR, slotWord_pred, slotWord_ops, extract_append_low, extract_append_high, extract_all,
    Nat.reduceSub]
  simp

theorem fence (s : MSlot) (p : Pred) (k : FenceKind) (sc : Scope) : Statement (.fence s p k sc) := by
  refine of_slotM s rfl rfl fun cx _ _ => ?_
  show decodeMem s _ = _
  unfold decodeMem; rw [slotWord_op]; show finish _ _ _ _ _ = _
  simp (disch := decide) only [slotWord_pred, slotWord_ops, extract_append_low, extract_append_high, extract_all,
    Nat.reduceSub]
  simp

theorem drain (s : MSlot) (p : Pred) (sc : Scope) : Statement (.drain s p sc) := by
  refine of_slotM s rfl rfl fun cx _ _ => ?_
  show decodeMem s _ = _
  unfold decodeMem; rw [slotWord_op]; show finish _ _ _ _ _ = _
  simp (disch := decide) only [slotWord_pred, slotWord_ops, extract_append_low, extract_append_high, extract_all,
    Nat.reduceSub]
  simp

theorem pref (s : MSlot) (p : Pred) (b : SReg) (h : PrefHint) (d : BitVec 8) : Statement (.pref s p b h d) := by
  refine of_slotM s rfl rfl fun cx _ _ => ?_
  show decodeMem s _ = _
  unfold decodeMem; rw [slotWord_op]; show finish _ _ _ _ _ = _
  simp (disch := decide) only [opsMS, slotWord_pred, slotWord_ops, extract_append_low, extract_append_high, extract_all,
    Nat.reduceSub]
  simp

theorem clean (s : MSlot) (p : Pred) (b : SReg) (g : Granule) (d : BitVec 8) : Statement (.clean s p b g d) := by
  refine of_slotM s rfl rfl fun cx _ _ => ?_
  show decodeMem s _ = _
  unfold decodeMem; rw [slotWord_op]; show finish _ _ _ _ _ = _
  simp (disch := decide) only [opsMS, slotWord_pred, slotWord_ops, extract_append_low, extract_append_high, extract_all,
    Nat.reduceSub]
  simp

theorem inval (s : MSlot) (p : Pred) (b : SReg) (g : Granule) (d : BitVec 8) : Statement (.inval s p b g d) := by
  refine of_slotM s rfl rfl fun cx _ _ => ?_
  show decodeMem s _ = _
  unfold decodeMem; rw [slotWord_op]; show finish _ _ _ _ _ = _
  simp (disch := decide) only [opsMS, slotWord_pred, slotWord_ops, extract_append_low, extract_append_high, extract_all,
    Nat.reduceSub]
  simp

theorem vadd (p : Pred) (d a b : VReg) : Statement (.vadd p d a b) := by
  refine of_word rfl rfl fun cx _ _ => ?_
  show decodeVec _ = _
  unfold decodeVec; rw [slotWord_op]; show finish _ _ _ _ _ = _
  simp (disch := decide) only [opsVV, slotWord_pred, slotWord_ops, extract_append_low, extract_append_high, extract_all,
    Nat.reduceSub]
  simp

theorem vsub (p : Pred) (d a b : VReg) : Statement (.vsub p d a b) := by
  refine of_word rfl rfl fun cx _ _ => ?_
  show decodeVec _ = _
  unfold decodeVec; rw [slotWord_op]; show finish _ _ _ _ _ = _
  simp (disch := decide) only [opsVV, slotWord_pred, slotWord_ops, extract_append_low, extract_append_high, extract_all,
    Nat.reduceSub]
  simp

theorem vmul (p : Pred) (d a b : VReg) : Statement (.vmul p d a b) := by
  refine of_word rfl rfl fun cx _ _ => ?_
  show decodeVec _ = _
  unfold decodeVec; rw [slotWord_op]; show finish _ _ _ _ _ = _
  simp (disch := decide) only [opsVV, slotWord_pred, slotWord_ops, extract_append_low, extract_append_high, extract_all,
    Nat.reduceSub]
  simp

theorem vfma (p : Pred) (d a b : VReg) : Statement (.vfma p d a b) := by
  refine of_word rfl rfl fun cx _ _ => ?_
  show decodeVec _ = _
  unfold decodeVec; rw [slotWord_op]; show finish _ _ _ _ _ = _
  simp (disch := decide) only [opsVV, slotWord_pred, slotWord_ops, extract_append_low, extract_append_high, extract_all,
    Nat.reduceSub]
  simp

theorem vfms (p : Pred) (d a b : VReg) : Statement (.vfms p d a b) := by
  refine of_word rfl rfl fun cx _ _ => ?_
  show decodeVec _ = _
  unfold decodeVec; rw [slotWord_op]; show finish _ _ _ _ _ = _
  simp (disch := decide) only [opsVV, slotWord_pred, slotWord_ops, extract_append_low, extract_append_high, extract_all,
    Nat.reduceSub]
  simp

theorem vmin (p : Pred) (d a b : VReg) : Statement (.vmin p d a b) := by
  refine of_word rfl rfl fun cx _ _ => ?_
  show decodeVec _ = _
  unfold decodeVec; rw [slotWord_op]; show finish _ _ _ _ _ = _
  simp (disch := decide) only [opsVV, slotWord_pred, slotWord_ops, extract_append_low, extract_append_high, extract_all,
    Nat.reduceSub]
  simp

theorem vmax (p : Pred) (d a b : VReg) : Statement (.vmax p d a b) := by
  refine of_word rfl rfl fun cx _ _ => ?_
  show decodeVec _ = _
  unfold decodeVec; rw [slotWord_op]; show finish _ _ _ _ _ = _
  simp (disch := decide) only [opsVV, slotWord_pred, slotWord_ops, extract_append_low, extract_append_high, extract_all,
    Nat.reduceSub]
  simp

theorem vabs (p : Pred) (d a : VReg) : Statement (.vabs p d a) := by
  refine of_word rfl rfl fun cx _ _ => ?_
  show decodeVec _ = _
  unfold decodeVec; rw [slotWord_op]; show finish _ _ _ _ _ = _
  simp (disch := decide) only [opsVV, slotWord_pred, slotWord_ops, extract_append_low, extract_append_high, extract_all,
    Nat.reduceSub]
  simp

theorem vneg (p : Pred) (d a : VReg) : Statement (.vneg p d a) := by
  refine of_word rfl rfl fun cx _ _ => ?_
  show decodeVec _ = _
  unfold decodeVec; rw [slotWord_op]; show finish _ _ _ _ _ = _
  simp (disch := decide) only [opsVV, slotWord_pred, slotWord_ops, extract_append_low, extract_append_high, extract_all,
    Nat.reduceSub]
  simp

theorem vand (p : Pred) (d a b : VReg) : Statement (.vand p d a b) := by
  refine of_word rfl rfl fun cx _ _ => ?_
  show decodeVec _ = _
  unfold decodeVec; rw [slotWord_op]; show finish _ _ _ _ _ = _
  simp (disch := decide) only [opsVV, slotWord_pred, slotWord_ops, extract_append_low, extract_append_high, extract_all,
    Nat.reduceSub]
  simp

theorem vor (p : Pred) (d a b : VReg) : Statement (.vor p d a b) := by
  refine of_word rfl rfl fun cx _ _ => ?_
  show decodeVec _ = _
  unfold decodeVec; rw [slotWord_op]; show finish _ _ _ _ _ = _
  simp (disch := decide) only [opsVV, slotWord_pred, slotWord_ops, extract_append_low, extract_append_high, extract_all,
    Nat.reduceSub]
  simp

theorem vxor (p : Pred) (d a b : VReg) : Statement (.vxor p d a b) := by
  refine of_word rfl rfl fun cx _ _ => ?_
  show decodeVec _ = _
  unfold decodeVec; rw [slotWord_op]; show finish _ _ _ _ _ = _
  simp (disch := decide) only [opsVV, slotWord_pred, slotWord_ops, extract_append_low, extract_append_high, extract_all,
    Nat.reduceSub]
  simp

theorem vnot (p : Pred) (d a : VReg) : Statement (.vnot p d a) := by
  refine of_word rfl rfl fun cx _ _ => ?_
  show decodeVec _ = _
  unfold decodeVec; rw [slotWord_op]; show finish _ _ _ _ _ = _
  simp (disch := decide) only [opsVV, slotWord_pred, slotWord_ops, extract_append_low, extract_append_high, extract_all,
    Nat.reduceSub]
  simp

theorem vshl (p : Pred) (d a b : VReg) : Statement (.vshl p d a b) := by
  refine of_word rfl rfl fun cx _ _ => ?_
  show decodeVec _ = _
  unfold decodeVec; rw [slotWord_op]; show finish _ _ _ _ _ = _
  simp (disch := decide) only [opsVV, slotWord_pred, slotWord_ops, extract_append_low, extract_append_high, extract_all,
    Nat.reduceSub]
  simp

theorem vshr (p : Pred) (d a b : VReg) : Statement (.vshr p d a b) := by
  refine of_word rfl rfl fun cx _ _ => ?_
  show decodeVec _ = _
  unfold decodeVec; rw [slotWord_op]; show finish _ _ _ _ _ = _
  simp (disch := decide) only [opsVV, slotWord_pred, slotWord_ops, extract_append_low, extract_append_high, extract_all,
    Nat.reduceSub]
  simp

theorem vsra (p : Pred) (d a b : VReg) : Statement (.vsra p d a b) := by
  refine of_word rfl rfl fun cx _ _ => ?_
  show decodeVec _ = _
  unfold decodeVec; rw [slotWord_op]; show finish _ _ _ _ _ = _
  simp (disch := decide) only [opsVV, slotWord_pred, slotWord_ops, extract_append_low, extract_append_high, extract_all,
    Nat.reduceSub]
  simp

theorem vcmp (p : Pred) (d a b : VReg) : Statement (.vcmp p d a b) := by
  refine of_word rfl rfl fun cx _ _ => ?_
  show decodeVec _ = _
  unfold decodeVec; rw [slotWord_op]; show finish _ _ _ _ _ = _
  simp (disch := decide) only [opsVV, slotWord_pred, slotWord_ops, extract_append_low, extract_append_high, extract_all,
    Nat.reduceSub]
  simp

theorem vsel (p : Pred) (d a b : VReg) : Statement (.vsel p d a b) := by
  refine of_word rfl rfl fun cx _ _ => ?_
  show decodeVec _ = _
  unfold decodeVec; rw [slotWord_op]; show finish _ _ _ _ _ = _
  simp (disch := decide) only [opsVV, slotWord_pred, slotWord_ops, extract_append_low, extract_append_high, extract_all,
    Nat.reduceSub]
  simp

theorem vbcast (p : Pred) (d : VReg) (t : LaneTag) (c : Cluster) (r : SReg) : Statement (.vbcast p d t c r) := by
  refine of_word rfl rfl fun cx _ _ => ?_
  show decodeVec _ = _
  unfold decodeVec; rw [slotWord_op]; show finish _ _ _ _ _ = _
  simp (disch := decide) only [opsVS, slotWord_pred, slotWord_ops, extract_append_low, extract_append_high, extract_all,
    Nat.reduceSub]
  simp

theorem vext (p : Pred) (d : SReg) (a : VReg) (j : BitVec 7) : Statement (.vext p d a j) := by
  refine of_word rfl rfl fun cx _ _ => ?_
  show decodeVec _ = _
  unfold decodeVec; rw [slotWord_op]; show finish _ _ _ _ _ = _
  simp (disch := decide) only [opsVS, slotWord_pred, slotWord_ops, extract_append_low, extract_append_high, extract_all,
    Nat.reduceSub]
  simp

theorem vins (p : Pred) (d : VReg) (j : BitVec 7) (c : Cluster) (r : SReg) : Statement (.vins p d j c r) := by
  refine of_word rfl rfl fun cx _ _ => ?_
  show decodeVec _ = _
  unfold decodeVec; rw [slotWord_op]; show finish _ _ _ _ _ = _
  simp (disch := decide) only [opsVS, slotWord_pred, slotWord_ops, extract_append_low, extract_append_high, extract_all,
    Nat.reduceSub]
  simp

theorem vexp2 (p : Pred) (d a : VReg) : Statement (.vexp2 p d a) := by
  refine of_word rfl rfl fun cx _ _ => ?_
  show decodeVec _ = _
  unfold decodeVec; rw [slotWord_op]; show finish _ _ _ _ _ = _
  simp (disch := decide) only [opsVV, slotWord_pred, slotWord_ops, extract_append_low, extract_append_high, extract_all,
    Nat.reduceSub]
  simp

theorem vlog2 (p : Pred) (d a : VReg) : Statement (.vlog2 p d a) := by
  refine of_word rfl rfl fun cx _ _ => ?_
  show decodeVec _ = _
  unfold decodeVec; rw [slotWord_op]; show finish _ _ _ _ _ = _
  simp (disch := decide) only [opsVV, slotWord_pred, slotWord_ops, extract_append_low, extract_append_high, extract_all,
    Nat.reduceSub]
  simp

theorem vrcp (p : Pred) (d a : VReg) : Statement (.vrcp p d a) := by
  refine of_word rfl rfl fun cx _ _ => ?_
  show decodeVec _ = _
  unfold decodeVec; rw [slotWord_op]; show finish _ _ _ _ _ = _
  simp (disch := decide) only [opsVV, slotWord_pred, slotWord_ops, extract_append_low, extract_append_high, extract_all,
    Nat.reduceSub]
  simp

theorem vrsq (p : Pred) (d a : VReg) : Statement (.vrsq p d a) := by
  refine of_word rfl rfl fun cx _ _ => ?_
  show decodeVec _ = _
  unfold decodeVec; rw [slotWord_op]; show finish _ _ _ _ _ = _
  simp (disch := decide) only [opsVV, slotWord_pred, slotWord_ops, extract_append_low, extract_append_high, extract_all,
    Nat.reduceSub]
  simp

theorem vtanh (p : Pred) (d a : VReg) : Statement (.vtanh p d a) := by
  refine of_word rfl rfl fun cx _ _ => ?_
  show decodeVec _ = _
  unfold decodeVec; rw [slotWord_op]; show finish _ _ _ _ _ = _
  simp (disch := decide) only [opsVV, slotWord_pred, slotWord_ops, extract_append_low, extract_append_high, extract_all,
    Nat.reduceSub]
  simp

theorem vrsum (p : Pred) (d a : VReg) : Statement (.vrsum p d a) := by
  refine of_word rfl rfl fun cx _ _ => ?_
  show decodeVec _ = _
  unfold decodeVec; rw [slotWord_op]; show finish _ _ _ _ _ = _
  simp (disch := decide) only [opsVV, slotWord_pred, slotWord_ops, extract_append_low, extract_append_high, extract_all,
    Nat.reduceSub]
  simp

theorem vrmax (p : Pred) (d a : VReg) : Statement (.vrmax p d a) := by
  refine of_word rfl rfl fun cx _ _ => ?_
  show decodeVec _ = _
  unfold decodeVec; rw [slotWord_op]; show finish _ _ _ _ _ = _
  simp (disch := decide) only [opsVV, slotWord_pred, slotWord_ops, extract_append_low, extract_append_high, extract_all,
    Nat.reduceSub]
  simp

theorem vrmin (p : Pred) (d a : VReg) : Statement (.vrmin p d a) := by
  refine of_word rfl rfl fun cx _ _ => ?_
  show decodeVec _ = _
  unfold decodeVec; rw [slotWord_op]; show finish _ _ _ _ _ = _
  simp (disch := decide) only [opsVV, slotWord_pred, slotWord_ops, extract_append_low, extract_append_high, extract_all,
    Nat.reduceSub]
  simp

theorem vcvt (p : Pred) (d a : VReg) (part : BitVec 2) (m : RMode) (t : CvtDst) : Statement (.vcvt p d a part m t) := by
  refine of_word rfl rfl fun cx _ _ => ?_
  show decodeVec _ = _
  unfold decodeVec; rw [slotWord_op]; show finish _ _ _ _ _ = _
  simp (disch := decide) only [opsVV, slotWord_pred, slotWord_ops, extract_append_low, extract_append_high, extract_all,
    Nat.reduceSub]
  simp

theorem vscale (p : Pred) (d a : VReg) (c : Cluster) (r : SReg) : Statement (.vscale p d a c r) := by
  refine of_word rfl rfl fun cx _ _ => ?_
  show decodeVec _ = _
  unfold decodeVec; rw [slotWord_op]; show finish _ _ _ _ _ = _
  simp (disch := decide) only [opsVS, slotWord_pred, slotWord_ops, extract_append_low, extract_append_high, extract_all,
    Nat.reduceSub]
  simp

theorem vquant (p : Pred) (d a : VReg) (c : Cluster) (r : SReg) : Statement (.vquant p d a c r) := by
  refine of_word rfl rfl fun cx _ _ => ?_
  show decodeVec _ = _
  unfold decodeVec; rw [slotWord_op]; show finish _ _ _ _ _ = _
  simp (disch := decide) only [opsVS, slotWord_pred, slotWord_ops, extract_append_low, extract_append_high, extract_all,
    Nat.reduceSub]
  simp

theorem vnib (p : Pred) (d a : VReg) (uns ilv half : Bool) : Statement (.vnib p d a uns ilv half) := by
  refine of_word rfl rfl fun cx _ _ => ?_
  show decodeVec _ = _
  unfold decodeVec; rw [slotWord_op]; show finish _ _ _ _ _ = _
  simp (disch := decide) only [opsVV, slotWord_pred, slotWord_ops, extract_append_low, extract_append_high, extract_all,
    Nat.reduceSub]
  simp

theorem vbperm (p : Pred) (d a b : VReg) : Statement (.vbperm p d a b) := by
  refine of_word rfl rfl fun cx _ _ => ?_
  show decodeVec _ = _
  unfold decodeVec; rw [slotWord_op]; show finish _ _ _ _ _ = _
  simp (disch := decide) only [opsVV, slotWord_pred, slotWord_ops, extract_append_low, extract_append_high, extract_all,
    Nat.reduceSub]
  simp

theorem vtag (p : Pred) (d a : VReg) (t : NewTag) : Statement (.vtag p d a t) := by
  refine of_word rfl rfl fun cx _ _ => ?_
  show decodeVec _ = _
  unfold decodeVec; rw [slotWord_op]; show finish _ _ _ _ _ = _
  simp (disch := decide) only [opsVV, slotWord_pred, slotWord_ops, extract_append_low, extract_append_high, extract_all,
    Nat.reduceSub]
  simp

theorem vbnd (p : Pred) (d a : VReg) (o : BndOp) (k : BitVec 5) : Statement (.vbnd p d a o k) := by
  refine of_word rfl rfl fun cx hw hf => ?_
  show decodeVec _ = _
  unfold decodeVec; rw [slotWord_op]; show finish _ _ _ _ _ = _
  simp (disch := decide) only [opsVV, slotWord_pred, slotWord_ops, extract_append_low, extract_append_high, extract_all,
    Nat.reduceSub]
  cases o
  · rw [bndOp?_code]; simp [BndOp.code]
  · rw [bndOp?_code]; simp [BndOp.code]
  · rw [bndOp?_code]; have h : (d == 0#7 && k == 0#5) = true := hw
    simp_all [BndOp.code]

theorem mxMac (p : Pred) (d s : VReg) (n : BitVec 7) : Statement (.mxMac p d s n) := by
  refine of_word rfl rfl fun cx hw _ => ?_
  have hw : (beatCount n && rowsFit d n && rowsFit s n) = true := hw
  show decodeMat _ = _
  unfold decodeMat; rw [slotWord_op]; show finish _ _ _ _ _ = _
  simp (disch := decide) only [opsVV, slotWord_pred, slotWord_ops, extract_append_low, extract_append_high, extract_all,
    Nat.reduceSub]
  simp [hw]

theorem mxMaca (p : Pred) (d s : VReg) (n : BitVec 7) : Statement (.mxMaca p d s n) := by
  refine of_word rfl rfl fun cx hw _ => ?_
  have hw : (beatCount n && rowsFit d n && rowsFit s n) = true := hw
  show decodeMat _ = _
  unfold decodeMat; rw [slotWord_op]; show finish _ _ _ _ _ = _
  simp (disch := decide) only [opsVV, slotWord_pred, slotWord_ops, extract_append_low, extract_append_high, extract_all,
    Nat.reduceSub]
  simp [hw]

theorem mxWload (p : Pred) (w : Bool) (s : VReg) (n : BitVec 7) : Statement (.mxWload p w s n) := by
  refine of_word rfl rfl fun cx hw hf => ?_
  have hw : ((1#7).ule n && n.ule 32#7 && rowsFit s n) = true := hw
  show decodeMat _ = _
  unfold decodeMat; rw [slotWord_op]; show finish _ _ _ _ _ = _
  simp (disch := decide) only [slotWord_pred, slotWord_ops, extract_append_low, extract_append_high, extract_all,
    Nat.reduceSub]
  have h := Bool.and_eq_true_iff.1 hw
  have h1 := (Bool.and_eq_true_iff.1 h.1).2
  have : (33#7).ule n = false := by simp [BitVec.ule] at h1 ⊢; omega
  simp [this, hw]

theorem mxWswap (p : Pred) (f : SwapSel) : Statement (.mxWswap p f) := by
  refine of_word rfl rfl fun cx _ _ => ?_
  show decodeMat _ = _
  unfold decodeMat; rw [slotWord_op]; show finish _ _ _ _ _ = _
  simp (disch := decide) only [slotWord_pred, slotWord_ops, extract_append_low, extract_append_high, extract_all,
    Nat.reduceSub]
  simp

theorem mxDrain (p : Pred) (d s : VReg) (n : BitVec 7) : Statement (.mxDrain p d s n) := by
  refine of_word rfl rfl fun cx hw _ => ?_
  have hw : (beatCount n && rowsFit d n && rowsFit s n) = true := hw
  show decodeMat _ = _
  unfold decodeMat; rw [slotWord_op]; show finish _ _ _ _ _ = _
  simp (disch := decide) only [opsVV, slotWord_pred, slotWord_ops, extract_append_low, extract_append_high, extract_all,
    Nat.reduceSub]
  simp [hw]

theorem mxClr (p : Pred) (d : VReg) (n : BitVec 7) : Statement (.mxClr p d n) := by
  refine of_word rfl rfl fun cx hw _ => ?_
  have hw : (beatCount n && rowsFit d n) = true := hw
  show decodeMat _ = _
  unfold decodeMat; rw [slotWord_op]; show finish _ _ _ _ _ = _
  simp (disch := decide) only [opsVV, slotWord_pred, slotWord_ops, extract_append_low, extract_append_high, extract_all,
    Nat.reduceSub]
  simp [hw]

theorem mxSscale (p : Pred) (v : VReg) : Statement (.mxSscale p v) := by
  refine of_word rfl rfl fun cx _ _ => ?_
  show decodeMat _ = _
  unfold decodeMat; rw [slotWord_op]; show (if flag _ = true then finish _ _ _ _ _ else finish _ _ _ _ _) = _
  rw [if_neg (by simp (disch := decide) only [opsXC, slotWord_ops, extract_append_low, extract_append_high, extract_all]; decide)]
  simp (disch := decide) only [opsXC, slotWord_pred, slotWord_ops, extract_append_low, extract_append_high, extract_all,
    Nat.reduceSub]
  simp

theorem mxSscaleB (p : Pred) (a : SReg) : Statement (.mxSscaleB p a) := by
  refine of_word rfl rfl fun cx _ _ => ?_
  show decodeMat _ = _
  unfold decodeMat; rw [slotWord_op]; show (if flag _ = true then finish _ _ _ _ _ else finish _ _ _ _ _) = _
  rw [if_pos (by simp (disch := decide) only [opsXC, slotWord_ops, extract_append_low, extract_append_high, extract_all]; decide)]
  simp (disch := decide) only [opsXC, slotWord_pred, slotWord_ops, extract_append_low, extract_append_high, extract_all,
    Nat.reduceSub]
  simp

theorem mxWscale (p : Pred) (w : Bool) (a : SReg) : Statement (.mxWscale p w a) := by
  refine of_word rfl rfl fun cx _ _ => ?_
  show decodeMat _ = _
  unfold decodeMat; rw [slotWord_op]; show finish _ _ _ _ _ = _
  simp (disch := decide) only [opsXC, slotWord_pred, slotWord_ops, extract_append_low, extract_append_high, extract_all,
    Nat.reduceSub]
  simp

theorem mxMode (p : Pred) (f : DrainFmt) (h nsc : Bool) : Statement (.mxMode p f h nsc) := by
  refine of_word rfl rfl fun cx _ _ => ?_
  show decodeMat _ = _
  unfold decodeMat; rw [slotWord_op]; show finish _ _ _ _ _ = _
  simp (disch := decide) only [opsXC, slotWord_pred, slotWord_ops, extract_append_low, extract_append_high, extract_all,
    Nat.reduceSub]
  simp

theorem xpPerm (p : Pred) (d a b : VReg) : Statement (.xpPerm p d a b) := by
  refine of_word rfl rfl fun cx _ _ => ?_
  show decodeXps _ = _
  unfold decodeXps; rw [slotWord_op]; show finish _ _ _ _ _ = _
  simp (disch := decide) only [opsVV, slotWord_pred, slotWord_ops, extract_append_low, extract_append_high, extract_all,
    Nat.reduceSub]
  simp

theorem xpShuf (p : Pred) (d a b : VReg) : Statement (.xpShuf p d a b) := by
  refine of_word rfl rfl fun cx _ _ => ?_
  show decodeXps _ = _
  unfold decodeXps; rw [slotWord_op]; show finish _ _ _ _ _ = _
  simp (disch := decide) only [opsVV, slotWord_pred, slotWord_ops, extract_append_low, extract_append_high, extract_all,
    Nat.reduceSub]
  simp

theorem xpRot (p : Pred) (d a : VReg) (c : Cluster) (r : SReg) : Statement (.xpRot p d a c r) := by
  refine of_word rfl rfl fun cx _ _ => ?_
  show decodeXps _ = _
  unfold decodeXps; rw [slotWord_op]; show finish _ _ _ _ _ = _
  simp (disch := decide) only [opsVS, slotWord_pred, slotWord_ops, extract_append_low, extract_append_high, extract_all,
    Nat.reduceSub]
  simp

theorem xpSlide (p : Pred) (d a : VReg) (c : Cluster) (r : SReg) : Statement (.xpSlide p d a c r) := by
  refine of_word rfl rfl fun cx _ _ => ?_
  show decodeXps _ = _
  unfold decodeXps; rw [slotWord_op]; show finish _ _ _ _ _ = _
  simp (disch := decide) only [opsVS, slotWord_pred, slotWord_ops, extract_append_low, extract_append_high, extract_all,
    Nat.reduceSub]
  simp

theorem xpSplat (p : Pred) (d a : VReg) (c : Cluster) (r : SReg) : Statement (.xpSplat p d a c r) := by
  refine of_word rfl rfl fun cx _ _ => ?_
  show decodeXps _ = _
  unfold decodeXps; rw [slotWord_op]; show finish _ _ _ _ _ = _
  simp (disch := decide) only [opsVS, slotWord_pred, slotWord_ops, extract_append_low, extract_append_high, extract_all,
    Nat.reduceSub]
  simp

theorem xsSort (p : Pred) (d a b : VReg) : Statement (.xsSort p d a b) := by
  refine of_word rfl rfl fun cx _ _ => ?_
  show decodeXps _ = _
  unfold decodeXps; rw [slotWord_op]; show finish _ _ _ _ _ = _
  simp (disch := decide) only [opsVV, slotWord_pred, slotWord_ops, extract_append_low, extract_append_high, extract_all,
    Nat.reduceSub]
  simp

theorem xsMerge (p : Pred) (l : Fin 4) (c : Cluster) (r : SReg) (a : VReg) : Statement (.xsMerge p l c r a) := by
  refine of_word rfl rfl fun cx _ _ => ?_
  show decodeXps _ = _
  unfold decodeXps; rw [slotWord_op]; show (if flag _ = true then finish _ _ _ _ _ else finish _ _ _ _ _) = _
  rw [if_neg (by simp (disch := decide) only [opsPL, slotWord_ops, extract_append_low, extract_append_high, extract_all]; decide)]
  simp (disch := decide) only [opsPL, slotWord_pred, slotWord_ops, extract_append_low, extract_append_high, extract_all,
    Nat.reduceSub]
  simp

theorem xsMergeL (p : Pred) (l k : Fin 4) : Statement (.xsMergeL p l k) := by
  refine of_word rfl rfl fun cx _ _ => ?_
  show decodeXps _ = _
  unfold decodeXps; rw [slotWord_op]; show (if flag _ = true then finish _ _ _ _ _ else finish _ _ _ _ _) = _
  rw [if_pos (by simp (disch := decide) only [opsPL, slotWord_ops, extract_append_low, extract_append_high, extract_all]; decide)]
  simp (disch := decide) only [opsPL, slotWord_pred, slotWord_ops, extract_append_low, extract_append_high, extract_all,
    Nat.reduceSub]
  simp

theorem xsClr (p : Pred) (l : Fin 4) : Statement (.xsClr p l) := by
  refine of_word rfl rfl fun cx _ _ => ?_
  show decodeXps _ = _
  unfold decodeXps; rw [slotWord_op]; show finish _ _ _ _ _ = _
  simp (disch := decide) only [opsPL, slotWord_pred, slotWord_ops, extract_append_low, extract_append_high, extract_all,
    Nat.reduceSub]
  simp

theorem xsRdc (p : Pred) (d : SReg) (l : Fin 4) (j : BitVec 6) : Statement (.xsRdc p d l j) := by
  refine of_word rfl rfl fun cx _ _ => ?_
  show decodeXps _ = _
  unfold decodeXps; rw [slotWord_op]; show finish _ _ _ _ _ = _
  simp (disch := decide) only [opsPL, slotWord_pred, slotWord_ops, extract_append_low, extract_append_high, extract_all,
    Nat.reduceSub]
  simp

theorem xsKth (p : Pred) (d : SReg) (a : VReg) (k : BitVec 6) : Statement (.xsKth p d a k) := by
  refine of_word rfl rfl fun cx _ _ => ?_
  show decodeXps _ = _
  unfold decodeXps; rw [slotWord_op]; show finish _ _ _ _ _ = _
  simp (disch := decide) only [opsPL, slotWord_pred, slotWord_ops, extract_append_low, extract_append_high, extract_all,
    Nat.reduceSub]
  simp

theorem xsPenal (p : Pred) (l : Fin 4) (c : Cluster) (r : SReg) (a : VReg) (n : BitVec 6) : Statement (.xsPenal p l c r a n) := by
  refine of_word rfl rfl fun cx hw _ => ?_
  have hw : (!(a == 127#7 && (32#6).ult n)) = true := hw
  show decodeXps _ = _
  unfold decodeXps; rw [slotWord_op]; show finish _ _ _ _ _ = _
  simp (disch := decide) only [opsPL, slotWord_pred, slotWord_ops, extract_append_low, extract_append_high, extract_all,
    Nat.reduceSub]
  simp [hw]

theorem xsMask (p : Pred) (l : Fin 4) (c : Cluster) (r : SReg) : Statement (.xsMask p l c r) := by
  refine of_word rfl rfl fun cx _ _ => ?_
  show decodeXps _ = _
  unfold decodeXps; rw [slotWord_op]; show finish _ _ _ _ _ = _
  simp (disch := decide) only [opsPL, slotWord_pred, slotWord_ops, extract_append_low, extract_append_high, extract_all,
    Nat.reduceSub]
  simp

theorem xsRand (p : Pred) (d : SReg) (k : BitVec 6) : Statement (.xsRand p d k) := by
  refine of_word rfl rfl fun cx hw _ => ?_
  have hw : (d != 31#5) = true := hw
  show decodeXps _ = _
  unfold decodeXps; rw [slotWord_op]; show finish _ _ _ _ _ = _
  simp (disch := decide) only [opsPL, slotWord_pred, slotWord_ops, extract_append_low, extract_append_high, extract_all,
    Nat.reduceSub]
  simp [hw]

theorem xsPick (p : Pred) (d : SReg) (l : Fin 4) : Statement (.xsPick p d l) := by
  refine of_word rfl rfl fun cx _ _ => ?_
  show decodeXps _ = _
  unfold decodeXps; rw [slotWord_op]; show finish _ _ _ _ _ = _
  simp (disch := decide) only [opsPL, slotWord_pred, slotWord_ops, extract_append_low, extract_append_high, extract_all,
    Nat.reduceSub]
  simp

theorem xsVerify (p : Pred) (d : SReg) (l : Fin 4) (a : VReg) (m : BitVec 6) : Statement (.xsVerify p d l a m) := by
  refine of_word rfl rfl fun cx hw hf => ?_
  have hw : (a != 127#7 && (1#6).ule m && m.ule 32#6) = true := hw
  show decodeXps _ = _
  unfold decodeXps; rw [slotWord_op]; show finish _ _ _ _ _ = _
  simp (disch := decide) only [opsPL, slotWord_pred, slotWord_ops, extract_append_low, extract_append_high, extract_all,
    Nat.reduceSub]
  simp [hw]

theorem pause : Statement (.pause) := of_event rfl

theorem opsel (op : BitVec 3) : Statement (.opsel op) := of_event rfl

theorem settlingComplete (c : CoreId) : Statement (.settlingComplete c) := of_event rfl

theorem escalationRelaunch (c : CoreId) : Statement (.escalationRelaunch c) := of_event rfl

theorem watchdogTrap (c : CoreId) : Statement (.watchdogTrap c) := of_event rfl

theorem stalledWait (c : CoreId) : Statement (.stalledWait c) := of_event rfl

theorem barTimeout (c : CoreId) : Statement (.barTimeout c) := of_event rfl

theorem maskwTimeout (c : CoreId) : Statement (.maskwTimeout c) := of_event rfl

theorem loadDataArrival (c : CoreId) (v : Word) (poison : Bool) : Statement (.loadDataArrival c v poison) := of_event rfl

theorem pageWalkComplete (c : CoreId) (va : Word) : Statement (.pageWalkComplete c va) := of_event rfl

theorem storePerform (c : CoreId) (k : Nat) : Statement (.storePerform c k) := of_event rfl

theorem sealWrite (da : Nat) : Statement (.sealWrite da) := of_event rfl

theorem copyComplete (c : CoreId) (k : CtxId) : Statement (.copyComplete c k) := of_event rfl

theorem copyStop (c : CoreId) (k : CtxId) : Statement (.copyStop c k) := of_event rfl

theorem cpIspComplete (c : CoreId) (k : CtxId) : Statement (.cpIspComplete c k) := of_event rfl

theorem galleyDispatch (c : CoreId) : Statement (.galleyDispatch c) := of_event rfl

theorem geBcastWrite (e : EngineId) : Statement (.geBcastWrite e) := of_event rfl

theorem geFencePass (h : ChanId) : Statement (.geFencePass h) := of_event rfl

theorem geOpenComplete (c : CoreId) : Statement (.geOpenComplete c) := of_event rfl

theorem geCloseComplete (c : CoreId) : Statement (.geCloseComplete c) := of_event rfl

theorem fill (e : EngineId) : Statement (.fill e) := of_event rfl

theorem copy (e : EngineId) : Statement (.copy e) := of_event rfl

theorem csum (e : EngineId) : Statement (.csum e) := of_event rfl

theorem gemvI8 (e : EngineId) : Statement (.gemvI8 e) := of_event rfl

theorem gemvI4 (e : EngineId) : Statement (.gemvI4 e) := of_event rfl

theorem gemvTf8 (e : EngineId) : Statement (.gemvTf8 e) := of_event rfl

theorem kvapp (e : EngineId) : Statement (.kvapp e) := of_event rfl

theorem qk (e : EngineId) : Statement (.qk e) := of_event rfl

theorem av (e : EngineId) : Statement (.av e) := of_event rfl

theorem park (e : EngineId) : Statement (.park e) := of_event rfl

theorem unpark (e : EngineId) : Statement (.unpark e) := of_event rfl

theorem selfRefreshEntry (h : ChanId) : Statement (.selfRefreshEntry h) := of_event rfl

theorem selfRefreshExit (h : ChanId) : Statement (.selfRefreshExit h) := of_event rfl

theorem rowRepair (da : Nat) (readable due : Bool) : Statement (.rowRepair da readable due) := of_event rfl

theorem patrolScrub (da : Nat) (uncorrectable : Bool) : Statement (.patrolScrub da uncorrectable) := of_event rfl

theorem coreRetest (c : CoreId) : Statement (.coreRetest c) := of_event rfl

theorem engineRetest (h : ChanId) (g : Fin 4) : Statement (.engineRetest h g) := of_event rfl

theorem coreRetire (c : CoreId) : Statement (.coreRetire c) := of_event rfl

theorem hostMemRead (da : Nat) (size : Nat) : Statement (.hostMemRead da size) := of_event rfl

theorem hostMemWrite (da : Nat) (bytes : List Byte) : Statement (.hostMemWrite da bytes) := of_event rfl

theorem biSnoopResponse (line : Nat) (dirty : Option (List Byte)) : Statement (.biSnoopResponse line dirty) := of_event rfl

theorem hostSnoopTimeout (line : Nat) : Statement (.hostSnoopTimeout line) := of_event rfl

theorem commandSlotWrite (f : FuncId) (off : Nat) (bytes : List Byte) : Statement (.commandSlotWrite f off bytes) := of_event rfl

theorem slotConsume (f : FuncId) : Statement (.slotConsume f) := of_event rfl

theorem slotFence (f : FuncId) : Statement (.slotFence f) := of_event rfl

theorem cwctlEnable (f : FuncId) : Statement (.cwctlEnable f) := of_event rfl

theorem cwctlDisable (f : FuncId) : Statement (.cwctlDisable f) := of_event rfl

theorem peerApertureWrite (f : FuncId) (off : Nat) (bytes : List Byte) : Statement (.peerApertureWrite f off bytes) := of_event rfl

theorem peerApertureRead (f : FuncId) (off : Nat) (size : Nat) : Statement (.peerApertureRead f off size) := of_event rfl

theorem hostWindowTimeout (c : CoreId) : Statement (.hostWindowTimeout c) := of_event rfl

theorem ssdMemRead (da : Nat) (size : Nat) : Statement (.ssdMemRead da size) := of_event rfl

theorem ssdMemWrite (da : Nat) (bytes : List Byte) : Statement (.ssdMemWrite da bytes) := of_event rfl

theorem ssdMetadataAccess (da : Nat) (write : Option (List Byte)) : Statement (.ssdMetadataAccess da write) := of_event rfl

theorem ssdMsix (q : Fin 64) : Statement (.ssdMsix q) := of_event rfl

theorem storageTimeout (c : CoreId) : Statement (.storageTimeout c) := of_event rfl

theorem storageLinkDown : Statement (.storageLinkDown) := of_event rfl

theorem xlinvPartition (h : ChaseId) (part : BitVec 5) : Statement (.xlinvPartition h part) := of_event rfl

theorem xlinvPage (h : ChaseId) (part : BitVec 5) (vpage : BitVec 52) : Statement (.xlinvPage h part vpage) := of_event rfl

theorem xlinvAll (h : ChaseId) : Statement (.xlinvAll h) := of_event rfl

theorem xlinvComplete : Statement (.xlinvComplete) := of_event rfl

theorem cxresContext (h : ChaseId) (core : BitVec 7) (ctx : CtxId) : Statement (.cxresContext h core ctx) := of_event rfl

theorem cxresResidency (h : ChaseId) (core : BitVec 7) : Statement (.cxresResidency h core) := of_event rfl

theorem stripeEnable (w : Fin 256) (w0 : Word) : Statement (.stripeEnable w w0) := of_event rfl

theorem stripeTeardown (w : Fin 256) (w0 : Word) : Statement (.stripeTeardown w w0) := of_event rfl

theorem stripeTeardownComplete (w : Fin 256) : Statement (.stripeTeardownComplete w) := of_event rfl

theorem controlStoreWrite (e : EngineId) (idx : BitVec 8) (word : BitVec 128) : Statement (.controlStoreWrite e idx word) := of_event rfl

theorem friskWrite (by_ : BitVec 9) (t : Fin 6) (mid : BitVec 9) (n : Fin 8) (word : Word) : Statement (.friskWrite by_ t mid n word) := of_event rfl

theorem jcanJob (q : PartId) (job : Fin 16) : Statement (.jcanJob q job) := of_event rfl

theorem jcanGraph (q : PartId) (job : Fin 16) (gix : Fin 4) : Statement (.jcanGraph q job gix) := of_event rfl

theorem jcanLaunch (q : PartId) (job : Fin 16) (gix : Fin 4) (lix : BitVec 6) : Statement (.jcanLaunch q job gix lix) := of_event rfl

theorem pcoreWrite (q : PartId) (hi : Bool) (v : Word) : Statement (.pcoreWrite q hi v) := of_event rfl

theorem gpregWrite (q : PartId) (n : BitVec 6) (v : Word) : Statement (.gpregWrite q n v) := of_event rfl

theorem mseqWrite (q : PartId) (m : Fin 16) (v : Word) : Statement (.mseqWrite q m v) := of_event rfl

theorem hbudWrite (q : PartId) (v : Word) : Statement (.hbudWrite q v) := of_event rfl

theorem opcapWrite (q : PartId) (v : Word) : Statement (.opcapWrite q v) := of_event rfl

theorem sleepRequest : Statement (.sleepRequest) := of_event rfl

theorem sleepEntered : Statement (.sleepEntered) := of_event rfl

theorem wakeRequest : Statement (.wakeRequest) := of_event rfl

theorem wakeComplete : Statement (.wakeComplete) := of_event rfl

theorem keyNew (k : KeySlotId) : Statement (.keyNew k) := of_event rfl

theorem keyAdvance (k : KeySlotId) : Statement (.keyAdvance k) := of_event rfl

theorem keyRekey (k : KeySlotId) (rlen : BitVec 24) : Statement (.keyRekey k rlen) := of_event rfl

theorem rekeyComplete (k : KeySlotId) : Statement (.rekeyComplete k) := of_event rfl

theorem keyRetire (k : KeySlotId) : Statement (.keyRetire k) := of_event rfl

theorem keyErase (k : KeySlotId) : Statement (.keyErase k) := of_event rfl

theorem eventAck (h : ChaseId) (seq : Word32) : Statement (.eventAck h seq) := of_event rfl

theorem eventDeadline (seq : Word32) : Statement (.eventDeadline seq) := of_event rfl

theorem trctlResume (c : CoreId) : Statement (.trctlResume c) := of_event rfl

theorem trctlSave (c : CoreId) : Statement (.trctlSave c) := of_event rfl

theorem trctlEnd (c : CoreId) : Statement (.trctlEnd c) := of_event rfl

theorem ringConsume (r : RingId) (v : Word) : Statement (.ringConsume r v) := of_event rfl

theorem registerWrite (mid : BitVec 9) (addr : Nat) (v : Word) : Statement (.registerWrite mid addr v) := of_event rfl

theorem inputRecheck (q : PartId) : Statement (.inputRecheck q) := of_event rfl

theorem taskDispatch (h : ChaseId) (q : PartId) : Statement (.taskDispatch h q) := of_event rfl

theorem taskStart (c : CoreId) : Statement (.taskStart c) := of_event rfl

theorem agingExpiry (task : Nat) : Statement (.agingExpiry task) := of_event rfl

theorem agedPreemptRequest (h : ChaseId) (q : PartId) : Statement (.agedPreemptRequest h q) := of_event rfl

theorem preempt (c : CoreId) : Statement (.preempt c) := of_event rfl

theorem donePublish (c : CoreId) : Statement (.donePublish c) := of_event rfl

theorem launchAnswer (c : CoreId) : Statement (.launchAnswer c) := of_event rfl

theorem heapAnswer (c : CoreId) : Statement (.heapAnswer c) := of_event rfl

theorem voltageTrim (c : CoreId) (slack : BitVec 8) (mv : BitVec 10) : Statement (.voltageTrim c slack mv) := of_event rfl

theorem powerUp : Statement (.powerUp) := of_event rfl

theorem deviceReset (sigOk : Bool) (secVer : Nat) : Statement (.deviceReset sigOk secVer) := of_event rfl

theorem spdmGetVersion : Statement (.spdmGetVersion) := of_event rfl

theorem spdmGetCapabilities : Statement (.spdmGetCapabilities) := of_event rfl

theorem spdmNegotiateAlgorithms : Statement (.spdmNegotiateAlgorithms) := of_event rfl

theorem spdmGetDigests : Statement (.spdmGetDigests) := of_event rfl

theorem spdmGetCertificate : Statement (.spdmGetCertificate) := of_event rfl

theorem spdmChallenge (nonce : BitVec 256) : Statement (.spdmChallenge nonce) := of_event rfl

theorem spdmGetMeasurements (idx : BitVec 8) : Statement (.spdmGetMeasurements idx) := of_event rfl

theorem measurementExtend (v : BitVec 384) : Statement (.measurementExtend v) := of_event rfl

theorem storageLinkUp : Statement (.storageLinkUp) := of_event rfl

theorem logicDiePowerLoss : Statement (.logicDiePowerLoss) := of_event rfl

theorem supervisorAccess (h : ChaseId) (op : SupOp) : Statement (.supervisorAccess h op) := of_event rfl

theorem coreRetestEnd (c : CoreId) (badCols : List (Fin 32)) : Statement (.coreRetestEnd c badCols) := of_event rfl

theorem engineRetestEnd (e : EngineId) (failed : Bool) : Statement (.engineRetestEnd e failed) := of_event rfl

theorem correctedCountRestart : Statement (.correctedCountRestart) := of_event rfl

theorem droopEvent (c : CoreId) : Statement (.droopEvent c) := of_event rfl

end Sys2Proof.Laws.Codec
end

