-- ==== Sys2Proof/Laws/SMap.lean ====
section
/-! SUPPORT. Sparse storage: a read after a write, what a write leaves alone, and that writes keep the canonical form. -/

namespace Sys2Proof.Machine

variable {α : Type}

/-! ### Reads after writes -/

theorem sget_serase_same (d : α) (m : List (Nat × α)) (k : Nat) : sget d (serase k m) k = d := by
  induction m with
  | nil => rfl
  | cons x t ih => obtain ⟨j, v⟩ := x; simp only [serase]; split <;> simp_all [sget]

theorem sget_serase_other (d : α) (m : List (Nat × α)) {k i : Nat} (h : i ≠ k) : sget d (serase k m) i = sget d m i := by
  induction m with
  | nil => rfl
  | cons x t ih => obtain ⟨j, v⟩ := x; simp only [serase]; split <;> simp_all [sget, Ne.symm h]

theorem serase_keys (m : List (Nat × α)) (k : Nat) : ∀ x ∈ serase k m, x.1 ≠ k ∧ x ∈ m := by
  induction m with
  | nil => simp [serase]
  | cons x t ih =>
    obtain ⟨j, v⟩ := x
    simp only [serase]; split
    · exact fun y hy => ⟨(ih y hy).1, .tail _ (ih y hy).2⟩
    · intro y hy
      rcases List.mem_cons.1 hy with rfl | hy
      · exact ⟨by assumption, .head _⟩
      · exact ⟨(ih y hy).1, .tail _ (ih y hy).2⟩

theorem sget_sinsert_same (d : α) (m : List (Nat × α)) (k : Nat) (v : α) (h : ∀ x ∈ m, x.1 ≠ k) :
    sget d (sinsert k v m) k = v := by
  induction m with
  | nil => simp [sinsert, sget]
  | cons x t ih =>
    obtain ⟨j, w⟩ := x
    have hj : j ≠ k := h _ (.head _)
    simp only [sinsert]; split
    · simp [sget]
    · simp [sget, hj, ih fun y hy => h y (.tail _ hy)]

theorem sget_sinsert_other (d : α) (m : List (Nat × α)) {k i : Nat} (v : α) (h : i ≠ k) :
    sget d (sinsert k v m) i = sget d m i := by
  induction m with
  | nil => simp [sinsert, sget, Ne.symm h]
  | cons x t ih => obtain ⟨j, w⟩ := x; simp only [sinsert]; split <;> simp_all [sget, Ne.symm h]

/-- A read after a write to the same key gives the value written. -/
@[simp] theorem sget_sset_same [DecidableEq α] (d : α) (m : List (Nat × α)) (k : Nat) (v : α) :
    sget d (sset d m k v) k = v := by
  unfold sset; split
  · rename_i h; rw [h, sget_serase_same]
  · exact sget_sinsert_same d _ k v fun x hx => (serase_keys m k x hx).1

/-- A write leaves every other key alone. -/
theorem sget_sset_other [DecidableEq α] (d : α) (m : List (Nat × α)) {k i : Nat} (v : α) (h : i ≠ k) :
    sget d (sset d m k v) i = sget d m i := by
  unfold sset; split
  · exact sget_serase_other d m h
  · rw [sget_sinsert_other d _ v h, sget_serase_other d m h]

/-! ### The canonical form -/

theorem swf_nil (d : α) : swf d ([] : List (Nat × α)) := ⟨.nil, by simp⟩

theorem serase_pairwise {m : List (Nat × α)} (k : Nat) (h : m.Pairwise fun x y => x.1 < y.1) :
    (serase k m).Pairwise fun x y => x.1 < y.1 := by
  induction m with
  | nil => exact .nil
  | cons x t ih =>
    obtain ⟨j, v⟩ := x
    rw [List.pairwise_cons] at h
    simp only [serase]; split
    · exact ih h.2
    · exact List.pairwise_cons.2 ⟨fun y hy => h.1 y (serase_keys t k y hy).2, ih h.2⟩

theorem sinsert_mem {m : List (Nat × α)} {k : Nat} {v : α} : ∀ x ∈ sinsert k v m, x = (k, v) ∨ x ∈ m := by
  induction m with
  | nil => simp [sinsert]
  | cons y t ih =>
    obtain ⟨j, w⟩ := y
    simp only [sinsert]; split
    · simp
    · intro x hx
      rcases List.mem_cons.1 hx with rfl | hx
      · exact .inr (.head _)
      · exact (ih x hx).imp_right (.tail _)

theorem sinsert_pairwise {m : List (Nat × α)} {k : Nat} {v : α} (h : m.Pairwise fun x y => x.1 < y.1)
    (hk : ∀ x ∈ m, x.1 ≠ k) : (sinsert k v m).Pairwise fun x y => x.1 < y.1 := by
  induction m with
  | nil => simp [sinsert]
  | cons y t ih =>
    obtain ⟨j, w⟩ := y
    rw [List.pairwise_cons] at h
    simp only [sinsert]; split
    · rename_i hlt
      refine List.pairwise_cons.2 ⟨fun x hx => ?_, List.pairwise_cons.2 h⟩
      rcases List.mem_cons.1 hx with rfl | hx
      · exact hlt
      · exact Nat.lt_trans hlt (h.1 x hx)
    · have hj : j ≠ k := hk _ (.head _)
      refine List.pairwise_cons.2 ⟨fun x hx => ?_, ih h.2 fun x hx => hk x (.tail _ hx)⟩
      rcases sinsert_mem x hx with rfl | hx
      · simp only; omega
      · exact h.1 x hx

/-- A write keeps the canonical form. -/
theorem swf_sset [DecidableEq α] {d : α} {m : List (Nat × α)} (h : swf d m) (k : Nat) (v : α) : swf d (sset d m k v) := by
  unfold sset; split
  · exact ⟨serase_pairwise k h.1, fun x hx => h.2 x (serase_keys m k x hx).2⟩
  · rename_i hv
    refine ⟨sinsert_pairwise (serase_pairwise k h.1) fun x hx => (serase_keys m k x hx).1, fun x hx => ?_⟩
    rcases sinsert_mem x hx with rfl | hx
    · exact hv
    · exact h.2 x (serase_keys m k x hx).2

/-- Writing bytes from a key on keeps the canonical form. -/
theorem swf_sputBytes {m : List (Nat × Byte)} (h : swf 0 m) (a : Nat) (bs : List Byte) : swf 0 (sputBytes m a bs) := by
  induction bs generalizing m a with
  | nil => exact h
  | cons b bs ih => exact ih (swf_sset h a b) (a + 1)

/-- Writing bytes at given keys keeps the canonical form. -/
theorem swf_sputAll {m : List (Nat × Byte)} (h : swf 0 m) (xs : List (Nat × Byte)) : swf 0 (sputAll m xs) := by
  induction xs generalizing m with
  | nil => exact h
  | cons x xs ih => obtain ⟨a, b⟩ := x; exact ih (swf_sset h a b)

/-! ### Bytes -/

/-- A byte below the first written one, or past the last, stays. -/
theorem sget_sputBytes_other (m : List (Nat × Byte)) (a : Nat) (bs : List Byte) (i : Nat) (h : i < a ∨ a + bs.length ≤ i) :
    sget 0 (sputBytes m a bs) i = sget 0 m i := by
  induction bs generalizing m a with
  | nil => rfl
  | cons b bs ih =>
    simp only [List.length_cons] at h
    rw [sputBytes, ih _ _ (by omega), sget_sset_other _ _ _ (by omega)]

/-- A written byte reads as written. -/
theorem sget_sputBytes_at (m : List (Nat × Byte)) (a : Nat) (bs : List Byte) (i : Nat) (h : i < bs.length) :
    sget 0 (sputBytes m a bs) (a + i) = bs[i] := by
  induction bs generalizing m a i with
  | nil => simp at h
  | cons b bs ih =>
    cases i with
    | zero => rw [sputBytes, sget_sputBytes_other _ _ _ _ (by omega), Nat.add_zero, sget_sset_same]; rfl
    | succ i =>
      have := ih (sset 0 m a b) (a + 1) i (by simpa using h)
      rw [sputBytes, show a + (i + 1) = a + 1 + i by omega, this]; rfl

/-- A byte at no written key stays. -/
theorem sget_sputAll_other (m : List (Nat × Byte)) (xs : List (Nat × Byte)) (i : Nat) (h : ∀ x ∈ xs, x.1 ≠ i) :
    sget 0 (sputAll m xs) i = sget 0 m i := by
  induction xs generalizing m with
  | nil => rfl
  | cons x xs ih =>
    obtain ⟨a, b⟩ := x
    rw [sputAll, ih _ fun y hy => h y (.tail _ hy), sget_sset_other _ _ _ (h _ (.head _)).symm]

@[simp] theorem leBytes_length (n v : Nat) : (leBytes n v).length = n := by
  induction n generalizing v with
  | zero => rfl
  | succ n ih => simp [leBytes, ih]

@[simp] theorem sbytes_length (m : List (Nat × Byte)) (a n : Nat) : (sbytes m a n).length = n := by
  induction n generalizing a with
  | zero => rfl
  | succ n ih => simp [sbytes, ih]

/-- The number that the bytes of a number spell is its residue. -/
theorem ofLe_leBytes (n v : Nat) : ofLe (leBytes n v) = v % 256 ^ n := by
  induction n generalizing v with
  | zero => simp [leBytes, ofLe, Nat.mod_one]
  | succ n ih => simp [leBytes, ofLe, ih, Nat.pow_succ', Nat.mod_mul]

end Sys2Proof.Machine
end

