-- ==== Sys2Proof/Laws/State.lean ====
section
/-! SUPPORT. What each update of the state leaves: one lemma per field per update, and how the parts of the state read after an
update. -/

namespace Sys2Proof.Machine

/-- A vector read at a number is its element there. -/
theorem vget_eq {α : Type} {n : Nat} (v : Vector α n) (i : Fin n) : v.get i = v[i.val] := rfl

variable (s : State)

/-! ### `State.setCore` -/

@[simp] theorem State.setCore_half (c : CoreId) (k : Core) : (s.setCore c k).half = s.half := rfl
@[simp] theorem State.setCore_mem (c : CoreId) (k : Core) : (s.setCore c k).mem = s.mem := rfl
@[simp] theorem State.setCore_recs (c : CoreId) (k : Core) : (s.setCore c k).recs = s.recs := rfl
@[simp] theorem State.setCore_poisLines (c : CoreId) (k : Core) : (s.setCore c k).poisLines = s.poisLines := rfl
@[simp] theorem State.setCore_stale (c : CoreId) (k : Core) : (s.setCore c k).stale = s.stale := rfl
@[simp] theorem State.setCore_engines (c : CoreId) (k : Core) : (s.setCore c k).engines = s.engines := rfl
@[simp] theorem State.setCore_chans (c : CoreId) (k : Core) : (s.setCore c k).chans = s.chans := rfl
@[simp] theorem State.setCore_stripes (c : CoreId) (k : Core) : (s.setCore c k).stripes = s.stripes := rfl
@[simp] theorem State.setCore_friskets (c : CoreId) (k : Core) : (s.setCore c k).friskets = s.friskets := rfl
@[simp] theorem State.setCore_keys (c : CoreId) (k : Core) : (s.setCore c k).keys = s.keys := rfl
@[simp] theorem State.setCore_krbase (c : CoreId) (k : Core) : (s.setCore c k).krbase = s.krbase := rfl
@[simp] theorem State.setCore_nextKey (c : CoreId) (k : Core) : (s.setCore c k).nextKey = s.nextKey := rfl
@[simp] theorem State.setCore_devown (c : CoreId) (k : Core) : (s.setCore c k).devown = s.devown := rfl
@[simp] theorem State.setCore_evdl (c : CoreId) (k : Core) : (s.setCore c k).evdl = s.evdl := rfl
@[simp] theorem State.setCore_evseq (c : CoreId) (k : Core) : (s.setCore c k).evseq = s.evseq := rfl
@[simp] theorem State.setCore_msix (c : CoreId) (k : Core) : (s.setCore c k).msix = s.msix := rfl
@[simp] theorem State.setCore_unacked (c : CoreId) (k : Core) : (s.setCore c k).unacked = s.unacked := rfl
@[simp] theorem State.setCore_rings (c : CoreId) (k : Core) : (s.setCore c k).rings = s.rings := rfl
@[simp] theorem State.setCore_devRing (c : CoreId) (k : Core) : (s.setCore c k).devRing = s.devRing := rfl
@[simp] theorem State.setCore_parts (c : CoreId) (k : Core) : (s.setCore c k).parts = s.parts := rfl
@[simp] theorem State.setCore_chases (c : CoreId) (k : Core) : (s.setCore c k).chases = s.chases := rfl
@[simp] theorem State.setCore_bars (c : CoreId) (k : Core) : (s.setCore c k).bars = s.bars := rfl
@[simp] theorem State.setCore_tasks (c : CoreId) (k : Core) : (s.setCore c k).tasks = s.tasks := rfl
@[simp] theorem State.setCore_nextTask (c : CoreId) (k : Core) : (s.setCore c k).nextTask = s.nextTask := rfl
@[simp] theorem State.setCore_stamp (c : CoreId) (k : Core) : (s.setCore c k).stamp = s.stamp := rfl
@[simp] theorem State.setCore_xlwait (c : CoreId) (k : Core) : (s.setCore c k).xlwait = s.xlwait := rfl
@[simp] theorem State.setCore_funcs (c : CoreId) (k : Core) : (s.setCore c k).funcs = s.funcs := rfl
@[simp] theorem State.setCore_hdm (c : CoreId) (k : Core) : (s.setCore c k).hdm = s.hdm := rfl
@[simp] theorem State.setCore_hostHeld (c : CoreId) (k : Core) : (s.setCore c k).hostHeld = s.hostHeld := rfl
@[simp] theorem State.setCore_hostLines (c : CoreId) (k : Core) : (s.setCore c k).hostLines = s.hostLines := rfl
@[simp] theorem State.setCore_hostVia (c : CoreId) (k : Core) : (s.setCore c k).hostVia = s.hostVia := rfl
@[simp] theorem State.setCore_hostData (c : CoreId) (k : Core) : (s.setCore c k).hostData = s.hostData := rfl
@[simp] theorem State.setCore_hostPoison (c : CoreId) (k : Core) : (s.setCore c k).hostPoison = s.hostPoison := rfl
@[simp] theorem State.setCore_hostReplies (c : CoreId) (k : Core) : (s.setCore c k).hostReplies = s.hostReplies := rfl
@[simp] theorem State.setCore_ssdData (c : CoreId) (k : Core) : (s.setCore c k).ssdData = s.ssdData := rfl
@[simp] theorem State.setCore_ssdPoison (c : CoreId) (k : Core) : (s.setCore c k).ssdPoison = s.ssdPoison := rfl
@[simp] theorem State.setCore_hostOut (c : CoreId) (k : Core) : (s.setCore c k).hostOut = s.hostOut := rfl
@[simp] theorem State.setCore_ssdOut (c : CoreId) (k : Core) : (s.setCore c k).ssdOut = s.ssdOut := rfl
@[simp] theorem State.setCore_linkDown (c : CoreId) (k : Core) : (s.setCore c k).linkDown = s.linkDown := rfl
@[simp] theorem State.setCore_spint (c : CoreId) (k : Core) : (s.setCore c k).spint = s.spint := rfl
@[simp] theorem State.setCore_slp (c : CoreId) (k : Core) : (s.setCore c k).slp = s.slp := rfl
@[simp] theorem State.setCore_slpNext (c : CoreId) (k : Core) : (s.setCore c k).slpNext = s.slpNext := rfl
@[simp] theorem State.setCore_ccol (c : CoreId) (k : Core) : (s.setCore c k).ccol = s.ccol := rfl
@[simp] theorem State.setCore_corr (c : CoreId) (k : Core) : (s.setCore c k).corr = s.corr := rfl
@[simp] theorem State.setCore_rowSpares (c : CoreId) (k : Core) : (s.setCore c k).rowSpares = s.rowSpares := rfl
@[simp] theorem State.setCore_lostWords (c : CoreId) (k : Core) : (s.setCore c k).lostWords = s.lostWords := rfl
@[simp] theorem State.setCore_lostKeys (c : CoreId) (k : Core) : (s.setCore c k).lostKeys = s.lostKeys := rfl
@[simp] theorem State.setCore_lostTasks (c : CoreId) (k : Core) : (s.setCore c k).lostTasks = s.lostTasks := rfl
@[simp] theorem State.setCore_soft (c : CoreId) (k : Core) : (s.setCore c k).soft = s.soft := rfl
@[simp] theorem State.setCore_badRows (c : CoreId) (k : Core) : (s.setCore c k).badRows = s.badRows := rfl
@[simp] theorem State.setCore_rowErrs (c : CoreId) (k : Core) : (s.setCore c k).rowErrs = s.rowErrs := rfl
@[simp] theorem State.setCore_heldRecords (c : CoreId) (k : Core) : (s.setCore c k).heldRecords = s.heldRecords := rfl
@[simp] theorem State.setCore_off (c : CoreId) (k : Core) : (s.setCore c k).off = s.off := rfl
@[simp] theorem State.setCore_booted (c : CoreId) (k : Core) : (s.setCore c k).booted = s.booted := rfl
@[simp] theorem State.setCore_bootFail (c : CoreId) (k : Core) : (s.setCore c k).bootFail = s.bootFail := rfl
@[simp] theorem State.setCore_secMin (c : CoreId) (k : Core) : (s.setCore c k).secMin = s.secMin := rfl
@[simp] theorem State.setCore_idKey (c : CoreId) (k : Core) : (s.setCore c k).idKey = s.idKey := rfl
@[simp] theorem State.setCore_attKey (c : CoreId) (k : Core) : (s.setCore c k).attKey = s.attKey := rfl
@[simp] theorem State.setCore_meas1 (c : CoreId) (k : Core) : (s.setCore c k).meas1 = s.meas1 := rfl
@[simp] theorem State.setCore_meas2 (c : CoreId) (k : Core) : (s.setCore c k).meas2 = s.meas2 := rfl
@[simp] theorem State.setCore_meas4 (c : CoreId) (k : Core) : (s.setCore c k).meas4 = s.meas4 := rfl
@[simp] theorem State.setCore_spdm (c : CoreId) (k : Core) : (s.setCore c k).spdm = s.spdm := rfl
@[simp] theorem State.setCore_cur (c : CoreId) (k : Core) : (s.setCore c k).cur = s.cur := rfl
@[simp] theorem State.setCore_iss (c : CoreId) (k : Core) : (s.setCore c k).iss = s.iss := rfl
@[simp] theorem State.setCore_fresh (c : CoreId) (k : Core) : (s.setCore c k).fresh = s.fresh := rfl
@[simp] theorem State.setCore_agenda (c : CoreId) (k : Core) : (s.setCore c k).agenda = s.agenda := rfl
@[simp] theorem State.setCore_turn (c : CoreId) (k : Core) : (s.setCore c k).turn = s.turn := rfl

/-! ### `State.setPart` -/

@[simp] theorem State.setPart_half (q : PartId) (x : Part) : (s.setPart q x).half = s.half := rfl
@[simp] theorem State.setPart_cores (q : PartId) (x : Part) : (s.setPart q x).cores = s.cores := rfl
@[simp] theorem State.setPart_mem (q : PartId) (x : Part) : (s.setPart q x).mem = s.mem := rfl
@[simp] theorem State.setPart_recs (q : PartId) (x : Part) : (s.setPart q x).recs = s.recs := rfl
@[simp] theorem State.setPart_poisLines (q : PartId) (x : Part) : (s.setPart q x).poisLines = s.poisLines := rfl
@[simp] theorem State.setPart_stale (q : PartId) (x : Part) : (s.setPart q x).stale = s.stale := rfl
@[simp] theorem State.setPart_engines (q : PartId) (x : Part) : (s.setPart q x).engines = s.engines := rfl
@[simp] theorem State.setPart_chans (q : PartId) (x : Part) : (s.setPart q x).chans = s.chans := rfl
@[simp] theorem State.setPart_stripes (q : PartId) (x : Part) : (s.setPart q x).stripes = s.stripes := rfl
@[simp] theorem State.setPart_friskets (q : PartId) (x : Part) : (s.setPart q x).friskets = s.friskets := rfl
@[simp] theorem State.setPart_keys (q : PartId) (x : Part) : (s.setPart q x).keys = s.keys := rfl
@[simp] theorem State.setPart_krbase (q : PartId) (x : Part) : (s.setPart q x).krbase = s.krbase := rfl
@[simp] theorem State.setPart_nextKey (q : PartId) (x : Part) : (s.setPart q x).nextKey = s.nextKey := rfl
@[simp] theorem State.setPart_devown (q : PartId) (x : Part) : (s.setPart q x).devown = s.devown := rfl
@[simp] theorem State.setPart_evdl (q : PartId) (x : Part) : (s.setPart q x).evdl = s.evdl := rfl
@[simp] theorem State.setPart_evseq (q : PartId) (x : Part) : (s.setPart q x).evseq = s.evseq := rfl
@[simp] theorem State.setPart_msix (q : PartId) (x : Part) : (s.setPart q x).msix = s.msix := rfl
@[simp] theorem State.setPart_unacked (q : PartId) (x : Part) : (s.setPart q x).unacked = s.unacked := rfl
@[simp] theorem State.setPart_rings (q : PartId) (x : Part) : (s.setPart q x).rings = s.rings := rfl
@[simp] theorem State.setPart_devRing (q : PartId) (x : Part) : (s.setPart q x).devRing = s.devRing := rfl
@[simp] theorem State.setPart_chases (q : PartId) (x : Part) : (s.setPart q x).chases = s.chases := rfl
@[simp] theorem State.setPart_bars (q : PartId) (x : Part) : (s.setPart q x).bars = s.bars := rfl
@[simp] theorem State.setPart_tasks (q : PartId) (x : Part) : (s.setPart q x).tasks = s.tasks := rfl
@[simp] theorem State.setPart_nextTask (q : PartId) (x : Part) : (s.setPart q x).nextTask = s.nextTask := rfl
@[simp] theorem State.setPart_stamp (q : PartId) (x : Part) : (s.setPart q x).stamp = s.stamp := rfl
@[simp] theorem State.setPart_xlwait (q : PartId) (x : Part) : (s.setPart q x).xlwait = s.xlwait := rfl
@[simp] theorem State.setPart_funcs (q : PartId) (x : Part) : (s.setPart q x).funcs = s.funcs := rfl
@[simp] theorem State.setPart_hdm (q : PartId) (x : Part) : (s.setPart q x).hdm = s.hdm := rfl
@[simp] theorem State.setPart_hostHeld (q : PartId) (x : Part) : (s.setPart q x).hostHeld = s.hostHeld := rfl
@[simp] theorem State.setPart_hostLines (q : PartId) (x : Part) : (s.setPart q x).hostLines = s.hostLines := rfl
@[simp] theorem State.setPart_hostVia (q : PartId) (x : Part) : (s.setPart q x).hostVia = s.hostVia := rfl
@[simp] theorem State.setPart_hostData (q : PartId) (x : Part) : (s.setPart q x).hostData = s.hostData := rfl
@[simp] theorem State.setPart_hostPoison (q : PartId) (x : Part) : (s.setPart q x).hostPoison = s.hostPoison := rfl
@[simp] theorem State.setPart_hostReplies (q : PartId) (x : Part) : (s.setPart q x).hostReplies = s.hostReplies := rfl
@[simp] theorem State.setPart_ssdData (q : PartId) (x : Part) : (s.setPart q x).ssdData = s.ssdData := rfl
@[simp] theorem State.setPart_ssdPoison (q : PartId) (x : Part) : (s.setPart q x).ssdPoison = s.ssdPoison := rfl
@[simp] theorem State.setPart_hostOut (q : PartId) (x : Part) : (s.setPart q x).hostOut = s.hostOut := rfl
@[simp] theorem State.setPart_ssdOut (q : PartId) (x : Part) : (s.setPart q x).ssdOut = s.ssdOut := rfl
@[simp] theorem State.setPart_linkDown (q : PartId) (x : Part) : (s.setPart q x).linkDown = s.linkDown := rfl
@[simp] theorem State.setPart_spint (q : PartId) (x : Part) : (s.setPart q x).spint = s.spint := rfl
@[simp] theorem State.setPart_slp (q : PartId) (x : Part) : (s.setPart q x).slp = s.slp := rfl
@[simp] theorem State.setPart_slpNext (q : PartId) (x : Part) : (s.setPart q x).slpNext = s.slpNext := rfl
@[simp] theorem State.setPart_ccol (q : PartId) (x : Part) : (s.setPart q x).ccol = s.ccol := rfl
@[simp] theorem State.setPart_corr (q : PartId) (x : Part) : (s.setPart q x).corr = s.corr := rfl
@[simp] theorem State.setPart_rowSpares (q : PartId) (x : Part) : (s.setPart q x).rowSpares = s.rowSpares := rfl
@[simp] theorem State.setPart_lostWords (q : PartId) (x : Part) : (s.setPart q x).lostWords = s.lostWords := rfl
@[simp] theorem State.setPart_lostKeys (q : PartId) (x : Part) : (s.setPart q x).lostKeys = s.lostKeys := rfl
@[simp] theorem State.setPart_lostTasks (q : PartId) (x : Part) : (s.setPart q x).lostTasks = s.lostTasks := rfl
@[simp] theorem State.setPart_soft (q : PartId) (x : Part) : (s.setPart q x).soft = s.soft := rfl
@[simp] theorem State.setPart_badRows (q : PartId) (x : Part) : (s.setPart q x).badRows = s.badRows := rfl
@[simp] theorem State.setPart_rowErrs (q : PartId) (x : Part) : (s.setPart q x).rowErrs = s.rowErrs := rfl
@[simp] theorem State.setPart_heldRecords (q : PartId) (x : Part) : (s.setPart q x).heldRecords = s.heldRecords := rfl
@[simp] theorem State.setPart_off (q : PartId) (x : Part) : (s.setPart q x).off = s.off := rfl
@[simp] theorem State.setPart_booted (q : PartId) (x : Part) : (s.setPart q x).booted = s.booted := rfl
@[simp] theorem State.setPart_bootFail (q : PartId) (x : Part) : (s.setPart q x).bootFail = s.bootFail := rfl
@[simp] theorem State.setPart_secMin (q : PartId) (x : Part) : (s.setPart q x).secMin = s.secMin := rfl
@[simp] theorem State.setPart_idKey (q : PartId) (x : Part) : (s.setPart q x).idKey = s.idKey := rfl
@[simp] theorem State.setPart_attKey (q : PartId) (x : Part) : (s.setPart q x).attKey = s.attKey := rfl
@[simp] theorem State.setPart_meas1 (q : PartId) (x : Part) : (s.setPart q x).meas1 = s.meas1 := rfl
@[simp] theorem State.setPart_meas2 (q : PartId) (x : Part) : (s.setPart q x).meas2 = s.meas2 := rfl
@[simp] theorem State.setPart_meas4 (q : PartId) (x : Part) : (s.setPart q x).meas4 = s.meas4 := rfl
@[simp] theorem State.setPart_spdm (q : PartId) (x : Part) : (s.setPart q x).spdm = s.spdm := rfl
@[simp] theorem State.setPart_cur (q : PartId) (x : Part) : (s.setPart q x).cur = s.cur := rfl
@[simp] theorem State.setPart_iss (q : PartId) (x : Part) : (s.setPart q x).iss = s.iss := rfl
@[simp] theorem State.setPart_fresh (q : PartId) (x : Part) : (s.setPart q x).fresh = s.fresh := rfl
@[simp] theorem State.setPart_agenda (q : PartId) (x : Part) : (s.setPart q x).agenda = s.agenda := rfl
@[simp] theorem State.setPart_turn (q : PartId) (x : Part) : (s.setPart q x).turn = s.turn := rfl

/-! ### `State.setChase` -/

@[simp] theorem State.setChase_half (h : ChaseId) (x : Chase) : (s.setChase h x).half = s.half := rfl
@[simp] theorem State.setChase_cores (h : ChaseId) (x : Chase) : (s.setChase h x).cores = s.cores := rfl
@[simp] theorem State.setChase_mem (h : ChaseId) (x : Chase) : (s.setChase h x).mem = s.mem := rfl
@[simp] theorem State.setChase_recs (h : ChaseId) (x : Chase) : (s.setChase h x).recs = s.recs := rfl
@[simp] theorem State.setChase_poisLines (h : ChaseId) (x : Chase) : (s.setChase h x).poisLines = s.poisLines := rfl
@[simp] theorem State.setChase_stale (h : ChaseId) (x : Chase) : (s.setChase h x).stale = s.stale := rfl
@[simp] theorem State.setChase_engines (h : ChaseId) (x : Chase) : (s.setChase h x).engines = s.engines := rfl
@[simp] theorem State.setChase_chans (h : ChaseId) (x : Chase) : (s.setChase h x).chans = s.chans := rfl
@[simp] theorem State.setChase_stripes (h : ChaseId) (x : Chase) : (s.setChase h x).stripes = s.stripes := rfl
@[simp] theorem State.setChase_friskets (h : ChaseId) (x : Chase) : (s.setChase h x).friskets = s.friskets := rfl
@[simp] theorem State.setChase_keys (h : ChaseId) (x : Chase) : (s.setChase h x).keys = s.keys := rfl
@[simp] theorem State.setChase_krbase (h : ChaseId) (x : Chase) : (s.setChase h x).krbase = s.krbase := rfl
@[simp] theorem State.setChase_nextKey (h : ChaseId) (x : Chase) : (s.setChase h x).nextKey = s.nextKey := rfl
@[simp] theorem State.setChase_devown (h : ChaseId) (x : Chase) : (s.setChase h x).devown = s.devown := rfl
@[simp] theorem State.setChase_evdl (h : ChaseId) (x : Chase) : (s.setChase h x).evdl = s.evdl := rfl
@[simp] theorem State.setChase_evseq (h : ChaseId) (x : Chase) : (s.setChase h x).evseq = s.evseq := rfl
@[simp] theorem State.setChase_msix (h : ChaseId) (x : Chase) : (s.setChase h x).msix = s.msix := rfl
@[simp] theorem State.setChase_unacked (h : ChaseId) (x : Chase) : (s.setChase h x).unacked = s.unacked := rfl
@[simp] theorem State.setChase_rings (h : ChaseId) (x : Chase) : (s.setChase h x).rings = s.rings := rfl
@[simp] theorem State.setChase_devRing (h : ChaseId) (x : Chase) : (s.setChase h x).devRing = s.devRing := rfl
@[simp] theorem State.setChase_parts (h : ChaseId) (x : Chase) : (s.setChase h x).parts = s.parts := rfl
@[simp] theorem State.setChase_bars (h : ChaseId) (x : Chase) : (s.setChase h x).bars = s.bars := rfl
@[simp] theorem State.setChase_tasks (h : ChaseId) (x : Chase) : (s.setChase h x).tasks = s.tasks := rfl
@[simp] theorem State.setChase_nextTask (h : ChaseId) (x : Chase) : (s.setChase h x).nextTask = s.nextTask := rfl
@[simp] theorem State.setChase_stamp (h : ChaseId) (x : Chase) : (s.setChase h x).stamp = s.stamp := rfl
@[simp] theorem State.setChase_xlwait (h : ChaseId) (x : Chase) : (s.setChase h x).xlwait = s.xlwait := rfl
@[simp] theorem State.setChase_funcs (h : ChaseId) (x : Chase) : (s.setChase h x).funcs = s.funcs := rfl
@[simp] theorem State.setChase_hdm (h : ChaseId) (x : Chase) : (s.setChase h x).hdm = s.hdm := rfl
@[simp] theorem State.setChase_hostHeld (h : ChaseId) (x : Chase) : (s.setChase h x).hostHeld = s.hostHeld := rfl
@[simp] theorem State.setChase_hostLines (h : ChaseId) (x : Chase) : (s.setChase h x).hostLines = s.hostLines := rfl
@[simp] theorem State.setChase_hostVia (h : ChaseId) (x : Chase) : (s.setChase h x).hostVia = s.hostVia := rfl
@[simp] theorem State.setChase_hostData (h : ChaseId) (x : Chase) : (s.setChase h x).hostData = s.hostData := rfl
@[simp] theorem State.setChase_hostPoison (h : ChaseId) (x : Chase) : (s.setChase h x).hostPoison = s.hostPoison := rfl
@[simp] theorem State.setChase_hostReplies (h : ChaseId) (x : Chase) : (s.setChase h x).hostReplies = s.hostReplies := rfl
@[simp] theorem State.setChase_ssdData (h : ChaseId) (x : Chase) : (s.setChase h x).ssdData = s.ssdData := rfl
@[simp] theorem State.setChase_ssdPoison (h : ChaseId) (x : Chase) : (s.setChase h x).ssdPoison = s.ssdPoison := rfl
@[simp] theorem State.setChase_hostOut (h : ChaseId) (x : Chase) : (s.setChase h x).hostOut = s.hostOut := rfl
@[simp] theorem State.setChase_ssdOut (h : ChaseId) (x : Chase) : (s.setChase h x).ssdOut = s.ssdOut := rfl
@[simp] theorem State.setChase_linkDown (h : ChaseId) (x : Chase) : (s.setChase h x).linkDown = s.linkDown := rfl
@[simp] theorem State.setChase_spint (h : ChaseId) (x : Chase) : (s.setChase h x).spint = s.spint := rfl
@[simp] theorem State.setChase_slp (h : ChaseId) (x : Chase) : (s.setChase h x).slp = s.slp := rfl
@[simp] theorem State.setChase_slpNext (h : ChaseId) (x : Chase) : (s.setChase h x).slpNext = s.slpNext := rfl
@[simp] theorem State.setChase_ccol (h : ChaseId) (x : Chase) : (s.setChase h x).ccol = s.ccol := rfl
@[simp] theorem State.setChase_corr (h : ChaseId) (x : Chase) : (s.setChase h x).corr = s.corr := rfl
@[simp] theorem State.setChase_rowSpares (h : ChaseId) (x : Chase) : (s.setChase h x).rowSpares = s.rowSpares := rfl
@[simp] theorem State.setChase_lostWords (h : ChaseId) (x : Chase) : (s.setChase h x).lostWords = s.lostWords := rfl
@[simp] theorem State.setChase_lostKeys (h : ChaseId) (x : Chase) : (s.setChase h x).lostKeys = s.lostKeys := rfl
@[simp] theorem State.setChase_lostTasks (h : ChaseId) (x : Chase) : (s.setChase h x).lostTasks = s.lostTasks := rfl
@[simp] theorem State.setChase_soft (h : ChaseId) (x : Chase) : (s.setChase h x).soft = s.soft := rfl
@[simp] theorem State.setChase_badRows (h : ChaseId) (x : Chase) : (s.setChase h x).badRows = s.badRows := rfl
@[simp] theorem State.setChase_rowErrs (h : ChaseId) (x : Chase) : (s.setChase h x).rowErrs = s.rowErrs := rfl
@[simp] theorem State.setChase_heldRecords (h : ChaseId) (x : Chase) : (s.setChase h x).heldRecords = s.heldRecords := rfl
@[simp] theorem State.setChase_off (h : ChaseId) (x : Chase) : (s.setChase h x).off = s.off := rfl
@[simp] theorem State.setChase_booted (h : ChaseId) (x : Chase) : (s.setChase h x).booted = s.booted := rfl
@[simp] theorem State.setChase_bootFail (h : ChaseId) (x : Chase) : (s.setChase h x).bootFail = s.bootFail := rfl
@[simp] theorem State.setChase_secMin (h : ChaseId) (x : Chase) : (s.setChase h x).secMin = s.secMin := rfl
@[simp] theorem State.setChase_idKey (h : ChaseId) (x : Chase) : (s.setChase h x).idKey = s.idKey := rfl
@[simp] theorem State.setChase_attKey (h : ChaseId) (x : Chase) : (s.setChase h x).attKey = s.attKey := rfl
@[simp] theorem State.setChase_meas1 (h : ChaseId) (x : Chase) : (s.setChase h x).meas1 = s.meas1 := rfl
@[simp] theorem State.setChase_meas2 (h : ChaseId) (x : Chase) : (s.setChase h x).meas2 = s.meas2 := rfl
@[simp] theorem State.setChase_meas4 (h : ChaseId) (x : Chase) : (s.setChase h x).meas4 = s.meas4 := rfl
@[simp] theorem State.setChase_spdm (h : ChaseId) (x : Chase) : (s.setChase h x).spdm = s.spdm := rfl
@[simp] theorem State.setChase_cur (h : ChaseId) (x : Chase) : (s.setChase h x).cur = s.cur := rfl
@[simp] theorem State.setChase_iss (h : ChaseId) (x : Chase) : (s.setChase h x).iss = s.iss := rfl
@[simp] theorem State.setChase_fresh (h : ChaseId) (x : Chase) : (s.setChase h x).fresh = s.fresh := rfl
@[simp] theorem State.setChase_agenda (h : ChaseId) (x : Chase) : (s.setChase h x).agenda = s.agenda := rfl
@[simp] theorem State.setChase_turn (h : ChaseId) (x : Chase) : (s.setChase h x).turn = s.turn := rfl

/-! ### `State.setEngine` -/

@[simp] theorem State.setEngine_half (e : Nat) (x : Engine) : (s.setEngine e x).half = s.half := rfl
@[simp] theorem State.setEngine_cores (e : Nat) (x : Engine) : (s.setEngine e x).cores = s.cores := rfl
@[simp] theorem State.setEngine_mem (e : Nat) (x : Engine) : (s.setEngine e x).mem = s.mem := rfl
@[simp] theorem State.setEngine_recs (e : Nat) (x : Engine) : (s.setEngine e x).recs = s.recs := rfl
@[simp] theorem State.setEngine_poisLines (e : Nat) (x : Engine) : (s.setEngine e x).poisLines = s.poisLines := rfl
@[simp] theorem State.setEngine_stale (e : Nat) (x : Engine) : (s.setEngine e x).stale = s.stale := rfl
@[simp] theorem State.setEngine_chans (e : Nat) (x : Engine) : (s.setEngine e x).chans = s.chans := rfl
@[simp] theorem State.setEngine_stripes (e : Nat) (x : Engine) : (s.setEngine e x).stripes = s.stripes := rfl
@[simp] theorem State.setEngine_friskets (e : Nat) (x : Engine) : (s.setEngine e x).friskets = s.friskets := rfl
@[simp] theorem State.setEngine_keys (e : Nat) (x : Engine) : (s.setEngine e x).keys = s.keys := rfl
@[simp] theorem State.setEngine_krbase (e : Nat) (x : Engine) : (s.setEngine e x).krbase = s.krbase := rfl
@[simp] theorem State.setEngine_nextKey (e : Nat) (x : Engine) : (s.setEngine e x).nextKey = s.nextKey := rfl
@[simp] theorem State.setEngine_devown (e : Nat) (x : Engine) : (s.setEngine e x).devown = s.devown := rfl
@[simp] theorem State.setEngine_evdl (e : Nat) (x : Engine) : (s.setEngine e x).evdl = s.evdl := rfl
@[simp] theorem State.setEngine_evseq (e : Nat) (x : Engine) : (s.setEngine e x).evseq = s.evseq := rfl
@[simp] theorem State.setEngine_msix (e : Nat) (x : Engine) : (s.setEngine e x).msix = s.msix := rfl
@[simp] theorem State.setEngine_unacked (e : Nat) (x : Engine) : (s.setEngine e x).unacked = s.unacked := rfl
@[simp] theorem State.setEngine_rings (e : Nat) (x : Engine) : (s.setEngine e x).rings = s.rings := rfl
@[simp] theorem State.setEngine_devRing (e : Nat) (x : Engine) : (s.setEngine e x).devRing = s.devRing := rfl
@[simp] theorem State.setEngine_parts (e : Nat) (x : Engine) : (s.setEngine e x).parts = s.parts := rfl
@[simp] theorem State.setEngine_chases (e : Nat) (x : Engine) : (s.setEngine e x).chases = s.chases := rfl
@[simp] theorem State.setEngine_bars (e : Nat) (x : Engine) : (s.setEngine e x).bars = s.bars := rfl
@[simp] theorem State.setEngine_tasks (e : Nat) (x : Engine) : (s.setEngine e x).tasks = s.tasks := rfl
@[simp] theorem State.setEngine_nextTask (e : Nat) (x : Engine) : (s.setEngine e x).nextTask = s.nextTask := rfl
@[simp] theorem State.setEngine_stamp (e : Nat) (x : Engine) : (s.setEngine e x).stamp = s.stamp := rfl
@[simp] theorem State.setEngine_xlwait (e : Nat) (x : Engine) : (s.setEngine e x).xlwait = s.xlwait := rfl
@[simp] theorem State.setEngine_funcs (e : Nat) (x : Engine) : (s.setEngine e x).funcs = s.funcs := rfl
@[simp] theorem State.setEngine_hdm (e : Nat) (x : Engine) : (s.setEngine e x).hdm = s.hdm := rfl
@[simp] theorem State.setEngine_hostHeld (e : Nat) (x : Engine) : (s.setEngine e x).hostHeld = s.hostHeld := rfl
@[simp] theorem State.setEngine_hostLines (e : Nat) (x : Engine) : (s.setEngine e x).hostLines = s.hostLines := rfl
@[simp] theorem State.setEngine_hostVia (e : Nat) (x : Engine) : (s.setEngine e x).hostVia = s.hostVia := rfl
@[simp] theorem State.setEngine_hostData (e : Nat) (x : Engine) : (s.setEngine e x).hostData = s.hostData := rfl
@[simp] theorem State.setEngine_hostPoison (e : Nat) (x : Engine) : (s.setEngine e x).hostPoison = s.hostPoison := rfl
@[simp] theorem State.setEngine_hostReplies (e : Nat) (x : Engine) : (s.setEngine e x).hostReplies = s.hostReplies := rfl
@[simp] theorem State.setEngine_ssdData (e : Nat) (x : Engine) : (s.setEngine e x).ssdData = s.ssdData := rfl
@[simp] theorem State.setEngine_ssdPoison (e : Nat) (x : Engine) : (s.setEngine e x).ssdPoison = s.ssdPoison := rfl
@[simp] theorem State.setEngine_hostOut (e : Nat) (x : Engine) : (s.setEngine e x).hostOut = s.hostOut := rfl
@[simp] theorem State.setEngine_ssdOut (e : Nat) (x : Engine) : (s.setEngine e x).ssdOut = s.ssdOut := rfl
@[simp] theorem State.setEngine_linkDown (e : Nat) (x : Engine) : (s.setEngine e x).linkDown = s.linkDown := rfl
@[simp] theorem State.setEngine_spint (e : Nat) (x : Engine) : (s.setEngine e x).spint = s.spint := rfl
@[simp] theorem State.setEngine_slp (e : Nat) (x : Engine) : (s.setEngine e x).slp = s.slp := rfl
@[simp] theorem State.setEngine_slpNext (e : Nat) (x : Engine) : (s.setEngine e x).slpNext = s.slpNext := rfl
@[simp] theorem State.setEngine_ccol (e : Nat) (x : Engine) : (s.setEngine e x).ccol = s.ccol := rfl
@[simp] theorem State.setEngine_corr (e : Nat) (x : Engine) : (s.setEngine e x).corr = s.corr := rfl
@[simp] theorem State.setEngine_rowSpares (e : Nat) (x : Engine) : (s.setEngine e x).rowSpares = s.rowSpares := rfl
@[simp] theorem State.setEngine_lostWords (e : Nat) (x : Engine) : (s.setEngine e x).lostWords = s.lostWords := rfl
@[simp] theorem State.setEngine_lostKeys (e : Nat) (x : Engine) : (s.setEngine e x).lostKeys = s.lostKeys := rfl
@[simp] theorem State.setEngine_lostTasks (e : Nat) (x : Engine) : (s.setEngine e x).lostTasks = s.lostTasks := rfl
@[simp] theorem State.setEngine_soft (e : Nat) (x : Engine) : (s.setEngine e x).soft = s.soft := rfl
@[simp] theorem State.setEngine_badRows (e : Nat) (x : Engine) : (s.setEngine e x).badRows = s.badRows := rfl
@[simp] theorem State.setEngine_rowErrs (e : Nat) (x : Engine) : (s.setEngine e x).rowErrs = s.rowErrs := rfl
@[simp] theorem State.setEngine_heldRecords (e : Nat) (x : Engine) : (s.setEngine e x).heldRecords = s.heldRecords := rfl
@[simp] theorem State.setEngine_off (e : Nat) (x : Engine) : (s.setEngine e x).off = s.off := rfl
@[simp] theorem State.setEngine_booted (e : Nat) (x : Engine) : (s.setEngine e x).booted = s.booted := rfl
@[simp] theorem State.setEngine_bootFail (e : Nat) (x : Engine) : (s.setEngine e x).bootFail = s.bootFail := rfl
@[simp] theorem State.setEngine_secMin (e : Nat) (x : Engine) : (s.setEngine e x).secMin = s.secMin := rfl
@[simp] theorem State.setEngine_idKey (e : Nat) (x : Engine) : (s.setEngine e x).idKey = s.idKey := rfl
@[simp] theorem State.setEngine_attKey (e : Nat) (x : Engine) : (s.setEngine e x).attKey = s.attKey := rfl
@[simp] theorem State.setEngine_meas1 (e : Nat) (x : Engine) : (s.setEngine e x).meas1 = s.meas1 := rfl
@[simp] theorem State.setEngine_meas2 (e : Nat) (x : Engine) : (s.setEngine e x).meas2 = s.meas2 := rfl
@[simp] theorem State.setEngine_meas4 (e : Nat) (x : Engine) : (s.setEngine e x).meas4 = s.meas4 := rfl
@[simp] theorem State.setEngine_spdm (e : Nat) (x : Engine) : (s.setEngine e x).spdm = s.spdm := rfl
@[simp] theorem State.setEngine_cur (e : Nat) (x : Engine) : (s.setEngine e x).cur = s.cur := rfl
@[simp] theorem State.setEngine_iss (e : Nat) (x : Engine) : (s.setEngine e x).iss = s.iss := rfl
@[simp] theorem State.setEngine_fresh (e : Nat) (x : Engine) : (s.setEngine e x).fresh = s.fresh := rfl
@[simp] theorem State.setEngine_agenda (e : Nat) (x : Engine) : (s.setEngine e x).agenda = s.agenda := rfl
@[simp] theorem State.setEngine_turn (e : Nat) (x : Engine) : (s.setEngine e x).turn = s.turn := rfl

/-! ### `State.setChan` -/

@[simp] theorem State.setChan_half (h : Nat) (x : Chan) : (s.setChan h x).half = s.half := rfl
@[simp] theorem State.setChan_cores (h : Nat) (x : Chan) : (s.setChan h x).cores = s.cores := rfl
@[simp] theorem State.setChan_mem (h : Nat) (x : Chan) : (s.setChan h x).mem = s.mem := rfl
@[simp] theorem State.setChan_recs (h : Nat) (x : Chan) : (s.setChan h x).recs = s.recs := rfl
@[simp] theorem State.setChan_poisLines (h : Nat) (x : Chan) : (s.setChan h x).poisLines = s.poisLines := rfl
@[simp] theorem State.setChan_stale (h : Nat) (x : Chan) : (s.setChan h x).stale = s.stale := rfl
@[simp] theorem State.setChan_engines (h : Nat) (x : Chan) : (s.setChan h x).engines = s.engines := rfl
@[simp] theorem State.setChan_stripes (h : Nat) (x : Chan) : (s.setChan h x).stripes = s.stripes := rfl
@[simp] theorem State.setChan_friskets (h : Nat) (x : Chan) : (s.setChan h x).friskets = s.friskets := rfl
@[simp] theorem State.setChan_keys (h : Nat) (x : Chan) : (s.setChan h x).keys = s.keys := rfl
@[simp] theorem State.setChan_krbase (h : Nat) (x : Chan) : (s.setChan h x).krbase = s.krbase := rfl
@[simp] theorem State.setChan_nextKey (h : Nat) (x : Chan) : (s.setChan h x).nextKey = s.nextKey := rfl
@[simp] theorem State.setChan_devown (h : Nat) (x : Chan) : (s.setChan h x).devown = s.devown := rfl
@[simp] theorem State.setChan_evdl (h : Nat) (x : Chan) : (s.setChan h x).evdl = s.evdl := rfl
@[simp] theorem State.setChan_evseq (h : Nat) (x : Chan) : (s.setChan h x).evseq = s.evseq := rfl
@[simp] theorem State.setChan_msix (h : Nat) (x : Chan) : (s.setChan h x).msix = s.msix := rfl
@[simp] theorem State.setChan_unacked (h : Nat) (x : Chan) : (s.setChan h x).unacked = s.unacked := rfl
@[simp] theorem State.setChan_rings (h : Nat) (x : Chan) : (s.setChan h x).rings = s.rings := rfl
@[simp] theorem State.setChan_devRing (h : Nat) (x : Chan) : (s.setChan h x).devRing = s.devRing := rfl
@[simp] theorem State.setChan_parts (h : Nat) (x : Chan) : (s.setChan h x).parts = s.parts := rfl
@[simp] theorem State.setChan_chases (h : Nat) (x : Chan) : (s.setChan h x).chases = s.chases := rfl
@[simp] theorem State.setChan_bars (h : Nat) (x : Chan) : (s.setChan h x).bars = s.bars := rfl
@[simp] theorem State.setChan_tasks (h : Nat) (x : Chan) : (s.setChan h x).tasks = s.tasks := rfl
@[simp] theorem State.setChan_nextTask (h : Nat) (x : Chan) : (s.setChan h x).nextTask = s.nextTask := rfl
@[simp] theorem State.setChan_stamp (h : Nat) (x : Chan) : (s.setChan h x).stamp = s.stamp := rfl
@[simp] theorem State.setChan_xlwait (h : Nat) (x : Chan) : (s.setChan h x).xlwait = s.xlwait := rfl
@[simp] theorem State.setChan_funcs (h : Nat) (x : Chan) : (s.setChan h x).funcs = s.funcs := rfl
@[simp] theorem State.setChan_hdm (h : Nat) (x : Chan) : (s.setChan h x).hdm = s.hdm := rfl
@[simp] theorem State.setChan_hostHeld (h : Nat) (x : Chan) : (s.setChan h x).hostHeld = s.hostHeld := rfl
@[simp] theorem State.setChan_hostLines (h : Nat) (x : Chan) : (s.setChan h x).hostLines = s.hostLines := rfl
@[simp] theorem State.setChan_hostVia (h : Nat) (x : Chan) : (s.setChan h x).hostVia = s.hostVia := rfl
@[simp] theorem State.setChan_hostData (h : Nat) (x : Chan) : (s.setChan h x).hostData = s.hostData := rfl
@[simp] theorem State.setChan_hostPoison (h : Nat) (x : Chan) : (s.setChan h x).hostPoison = s.hostPoison := rfl
@[simp] theorem State.setChan_hostReplies (h : Nat) (x : Chan) : (s.setChan h x).hostReplies = s.hostReplies := rfl
@[simp] theorem State.setChan_ssdData (h : Nat) (x : Chan) : (s.setChan h x).ssdData = s.ssdData := rfl
@[simp] theorem State.setChan_ssdPoison (h : Nat) (x : Chan) : (s.setChan h x).ssdPoison = s.ssdPoison := rfl
@[simp] theorem State.setChan_hostOut (h : Nat) (x : Chan) : (s.setChan h x).hostOut = s.hostOut := rfl
@[simp] theorem State.setChan_ssdOut (h : Nat) (x : Chan) : (s.setChan h x).ssdOut = s.ssdOut := rfl
@[simp] theorem State.setChan_linkDown (h : Nat) (x : Chan) : (s.setChan h x).linkDown = s.linkDown := rfl
@[simp] theorem State.setChan_spint (h : Nat) (x : Chan) : (s.setChan h x).spint = s.spint := rfl
@[simp] theorem State.setChan_slp (h : Nat) (x : Chan) : (s.setChan h x).slp = s.slp := rfl
@[simp] theorem State.setChan_slpNext (h : Nat) (x : Chan) : (s.setChan h x).slpNext = s.slpNext := rfl
@[simp] theorem State.setChan_ccol (h : Nat) (x : Chan) : (s.setChan h x).ccol = s.ccol := rfl
@[simp] theorem State.setChan_corr (h : Nat) (x : Chan) : (s.setChan h x).corr = s.corr := rfl
@[simp] theorem State.setChan_rowSpares (h : Nat) (x : Chan) : (s.setChan h x).rowSpares = s.rowSpares := rfl
@[simp] theorem State.setChan_lostWords (h : Nat) (x : Chan) : (s.setChan h x).lostWords = s.lostWords := rfl
@[simp] theorem State.setChan_lostKeys (h : Nat) (x : Chan) : (s.setChan h x).lostKeys = s.lostKeys := rfl
@[simp] theorem State.setChan_lostTasks (h : Nat) (x : Chan) : (s.setChan h x).lostTasks = s.lostTasks := rfl
@[simp] theorem State.setChan_soft (h : Nat) (x : Chan) : (s.setChan h x).soft = s.soft := rfl
@[simp] theorem State.setChan_badRows (h : Nat) (x : Chan) : (s.setChan h x).badRows = s.badRows := rfl
@[simp] theorem State.setChan_rowErrs (h : Nat) (x : Chan) : (s.setChan h x).rowErrs = s.rowErrs := rfl
@[simp] theorem State.setChan_heldRecords (h : Nat) (x : Chan) : (s.setChan h x).heldRecords = s.heldRecords := rfl
@[simp] theorem State.setChan_off (h : Nat) (x : Chan) : (s.setChan h x).off = s.off := rfl
@[simp] theorem State.setChan_booted (h : Nat) (x : Chan) : (s.setChan h x).booted = s.booted := rfl
@[simp] theorem State.setChan_bootFail (h : Nat) (x : Chan) : (s.setChan h x).bootFail = s.bootFail := rfl
@[simp] theorem State.setChan_secMin (h : Nat) (x : Chan) : (s.setChan h x).secMin = s.secMin := rfl
@[simp] theorem State.setChan_idKey (h : Nat) (x : Chan) : (s.setChan h x).idKey = s.idKey := rfl
@[simp] theorem State.setChan_attKey (h : Nat) (x : Chan) : (s.setChan h x).attKey = s.attKey := rfl
@[simp] theorem State.setChan_meas1 (h : Nat) (x : Chan) : (s.setChan h x).meas1 = s.meas1 := rfl
@[simp] theorem State.setChan_meas2 (h : Nat) (x : Chan) : (s.setChan h x).meas2 = s.meas2 := rfl
@[simp] theorem State.setChan_meas4 (h : Nat) (x : Chan) : (s.setChan h x).meas4 = s.meas4 := rfl
@[simp] theorem State.setChan_spdm (h : Nat) (x : Chan) : (s.setChan h x).spdm = s.spdm := rfl
@[simp] theorem State.setChan_cur (h : Nat) (x : Chan) : (s.setChan h x).cur = s.cur := rfl
@[simp] theorem State.setChan_iss (h : Nat) (x : Chan) : (s.setChan h x).iss = s.iss := rfl
@[simp] theorem State.setChan_fresh (h : Nat) (x : Chan) : (s.setChan h x).fresh = s.fresh := rfl
@[simp] theorem State.setChan_agenda (h : Nat) (x : Chan) : (s.setChan h x).agenda = s.agenda := rfl
@[simp] theorem State.setChan_turn (h : Nat) (x : Chan) : (s.setChan h x).turn = s.turn := rfl

/-! ### `State.setFunc` -/

@[simp] theorem State.setFunc_half (f : FuncId) (x : Func) : (s.setFunc f x).half = s.half := rfl
@[simp] theorem State.setFunc_cores (f : FuncId) (x : Func) : (s.setFunc f x).cores = s.cores := rfl
@[simp] theorem State.setFunc_mem (f : FuncId) (x : Func) : (s.setFunc f x).mem = s.mem := rfl
@[simp] theorem State.setFunc_recs (f : FuncId) (x : Func) : (s.setFunc f x).recs = s.recs := rfl
@[simp] theorem State.setFunc_poisLines (f : FuncId) (x : Func) : (s.setFunc f x).poisLines = s.poisLines := rfl
@[simp] theorem State.setFunc_stale (f : FuncId) (x : Func) : (s.setFunc f x).stale = s.stale := rfl
@[simp] theorem State.setFunc_engines (f : FuncId) (x : Func) : (s.setFunc f x).engines = s.engines := rfl
@[simp] theorem State.setFunc_chans (f : FuncId) (x : Func) : (s.setFunc f x).chans = s.chans := rfl
@[simp] theorem State.setFunc_stripes (f : FuncId) (x : Func) : (s.setFunc f x).stripes = s.stripes := rfl
@[simp] theorem State.setFunc_friskets (f : FuncId) (x : Func) : (s.setFunc f x).friskets = s.friskets := rfl
@[simp] theorem State.setFunc_keys (f : FuncId) (x : Func) : (s.setFunc f x).keys = s.keys := rfl
@[simp] theorem State.setFunc_krbase (f : FuncId) (x : Func) : (s.setFunc f x).krbase = s.krbase := rfl
@[simp] theorem State.setFunc_nextKey (f : FuncId) (x : Func) : (s.setFunc f x).nextKey = s.nextKey := rfl
@[simp] theorem State.setFunc_devown (f : FuncId) (x : Func) : (s.setFunc f x).devown = s.devown := rfl
@[simp] theorem State.setFunc_evdl (f : FuncId) (x : Func) : (s.setFunc f x).evdl = s.evdl := rfl
@[simp] theorem State.setFunc_evseq (f : FuncId) (x : Func) : (s.setFunc f x).evseq = s.evseq := rfl
@[simp] theorem State.setFunc_msix (f : FuncId) (x : Func) : (s.setFunc f x).msix = s.msix := rfl
@[simp] theorem State.setFunc_unacked (f : FuncId) (x : Func) : (s.setFunc f x).unacked = s.unacked := rfl
@[simp] theorem State.setFunc_rings (f : FuncId) (x : Func) : (s.setFunc f x).rings = s.rings := rfl
@[simp] theorem State.setFunc_devRing (f : FuncId) (x : Func) : (s.setFunc f x).devRing = s.devRing := rfl
@[simp] theorem State.setFunc_parts (f : FuncId) (x : Func) : (s.setFunc f x).parts = s.parts := rfl
@[simp] theorem State.setFunc_chases (f : FuncId) (x : Func) : (s.setFunc f x).chases = s.chases := rfl
@[simp] theorem State.setFunc_bars (f : FuncId) (x : Func) : (s.setFunc f x).bars = s.bars := rfl
@[simp] theorem State.setFunc_tasks (f : FuncId) (x : Func) : (s.setFunc f x).tasks = s.tasks := rfl
@[simp] theorem State.setFunc_nextTask (f : FuncId) (x : Func) : (s.setFunc f x).nextTask = s.nextTask := rfl
@[simp] theorem State.setFunc_stamp (f : FuncId) (x : Func) : (s.setFunc f x).stamp = s.stamp := rfl
@[simp] theorem State.setFunc_xlwait (f : FuncId) (x : Func) : (s.setFunc f x).xlwait = s.xlwait := rfl
@[simp] theorem State.setFunc_hdm (f : FuncId) (x : Func) : (s.setFunc f x).hdm = s.hdm := rfl
@[simp] theorem State.setFunc_hostHeld (f : FuncId) (x : Func) : (s.setFunc f x).hostHeld = s.hostHeld := rfl
@[simp] theorem State.setFunc_hostLines (f : FuncId) (x : Func) : (s.setFunc f x).hostLines = s.hostLines := rfl
@[simp] theorem State.setFunc_hostVia (f : FuncId) (x : Func) : (s.setFunc f x).hostVia = s.hostVia := rfl
@[simp] theorem State.setFunc_hostData (f : FuncId) (x : Func) : (s.setFunc f x).hostData = s.hostData := rfl
@[simp] theorem State.setFunc_hostPoison (f : FuncId) (x : Func) : (s.setFunc f x).hostPoison = s.hostPoison := rfl
@[simp] theorem State.setFunc_hostReplies (f : FuncId) (x : Func) : (s.setFunc f x).hostReplies = s.hostReplies := rfl
@[simp] theorem State.setFunc_ssdData (f : FuncId) (x : Func) : (s.setFunc f x).ssdData = s.ssdData := rfl
@[simp] theorem State.setFunc_ssdPoison (f : FuncId) (x : Func) : (s.setFunc f x).ssdPoison = s.ssdPoison := rfl
@[simp] theorem State.setFunc_hostOut (f : FuncId) (x : Func) : (s.setFunc f x).hostOut = s.hostOut := rfl
@[simp] theorem State.setFunc_ssdOut (f : FuncId) (x : Func) : (s.setFunc f x).ssdOut = s.ssdOut := rfl
@[simp] theorem State.setFunc_linkDown (f : FuncId) (x : Func) : (s.setFunc f x).linkDown = s.linkDown := rfl
@[simp] theorem State.setFunc_spint (f : FuncId) (x : Func) : (s.setFunc f x).spint = s.spint := rfl
@[simp] theorem State.setFunc_slp (f : FuncId) (x : Func) : (s.setFunc f x).slp = s.slp := rfl
@[simp] theorem State.setFunc_slpNext (f : FuncId) (x : Func) : (s.setFunc f x).slpNext = s.slpNext := rfl
@[simp] theorem State.setFunc_ccol (f : FuncId) (x : Func) : (s.setFunc f x).ccol = s.ccol := rfl
@[simp] theorem State.setFunc_corr (f : FuncId) (x : Func) : (s.setFunc f x).corr = s.corr := rfl
@[simp] theorem State.setFunc_rowSpares (f : FuncId) (x : Func) : (s.setFunc f x).rowSpares = s.rowSpares := rfl
@[simp] theorem State.setFunc_lostWords (f : FuncId) (x : Func) : (s.setFunc f x).lostWords = s.lostWords := rfl
@[simp] theorem State.setFunc_lostKeys (f : FuncId) (x : Func) : (s.setFunc f x).lostKeys = s.lostKeys := rfl
@[simp] theorem State.setFunc_lostTasks (f : FuncId) (x : Func) : (s.setFunc f x).lostTasks = s.lostTasks := rfl
@[simp] theorem State.setFunc_soft (f : FuncId) (x : Func) : (s.setFunc f x).soft = s.soft := rfl
@[simp] theorem State.setFunc_badRows (f : FuncId) (x : Func) : (s.setFunc f x).badRows = s.badRows := rfl
@[simp] theorem State.setFunc_rowErrs (f : FuncId) (x : Func) : (s.setFunc f x).rowErrs = s.rowErrs := rfl
@[simp] theorem State.setFunc_heldRecords (f : FuncId) (x : Func) : (s.setFunc f x).heldRecords = s.heldRecords := rfl
@[simp] theorem State.setFunc_off (f : FuncId) (x : Func) : (s.setFunc f x).off = s.off := rfl
@[simp] theorem State.setFunc_booted (f : FuncId) (x : Func) : (s.setFunc f x).booted = s.booted := rfl
@[simp] theorem State.setFunc_bootFail (f : FuncId) (x : Func) : (s.setFunc f x).bootFail = s.bootFail := rfl
@[simp] theorem State.setFunc_secMin (f : FuncId) (x : Func) : (s.setFunc f x).secMin = s.secMin := rfl
@[simp] theorem State.setFunc_idKey (f : FuncId) (x : Func) : (s.setFunc f x).idKey = s.idKey := rfl
@[simp] theorem State.setFunc_attKey (f : FuncId) (x : Func) : (s.setFunc f x).attKey = s.attKey := rfl
@[simp] theorem State.setFunc_meas1 (f : FuncId) (x : Func) : (s.setFunc f x).meas1 = s.meas1 := rfl
@[simp] theorem State.setFunc_meas2 (f : FuncId) (x : Func) : (s.setFunc f x).meas2 = s.meas2 := rfl
@[simp] theorem State.setFunc_meas4 (f : FuncId) (x : Func) : (s.setFunc f x).meas4 = s.meas4 := rfl
@[simp] theorem State.setFunc_spdm (f : FuncId) (x : Func) : (s.setFunc f x).spdm = s.spdm := rfl
@[simp] theorem State.setFunc_cur (f : FuncId) (x : Func) : (s.setFunc f x).cur = s.cur := rfl
@[simp] theorem State.setFunc_iss (f : FuncId) (x : Func) : (s.setFunc f x).iss = s.iss := rfl
@[simp] theorem State.setFunc_fresh (f : FuncId) (x : Func) : (s.setFunc f x).fresh = s.fresh := rfl
@[simp] theorem State.setFunc_agenda (f : FuncId) (x : Func) : (s.setFunc f x).agenda = s.agenda := rfl
@[simp] theorem State.setFunc_turn (f : FuncId) (x : Func) : (s.setFunc f x).turn = s.turn := rfl

/-! ### `State.setRec` -/

@[simp] theorem State.setRec_half (t : Nat) (r : TileRec) : (s.setRec t r).half = s.half := rfl
@[simp] theorem State.setRec_cores (t : Nat) (r : TileRec) : (s.setRec t r).cores = s.cores := rfl
@[simp] theorem State.setRec_mem (t : Nat) (r : TileRec) : (s.setRec t r).mem = s.mem := rfl
@[simp] theorem State.setRec_poisLines (t : Nat) (r : TileRec) : (s.setRec t r).poisLines = s.poisLines := rfl
@[simp] theorem State.setRec_stale (t : Nat) (r : TileRec) : (s.setRec t r).stale = s.stale := rfl
@[simp] theorem State.setRec_engines (t : Nat) (r : TileRec) : (s.setRec t r).engines = s.engines := rfl
@[simp] theorem State.setRec_chans (t : Nat) (r : TileRec) : (s.setRec t r).chans = s.chans := rfl
@[simp] theorem State.setRec_stripes (t : Nat) (r : TileRec) : (s.setRec t r).stripes = s.stripes := rfl
@[simp] theorem State.setRec_friskets (t : Nat) (r : TileRec) : (s.setRec t r).friskets = s.friskets := rfl
@[simp] theorem State.setRec_keys (t : Nat) (r : TileRec) : (s.setRec t r).keys = s.keys := rfl
@[simp] theorem State.setRec_krbase (t : Nat) (r : TileRec) : (s.setRec t r).krbase = s.krbase := rfl
@[simp] theorem State.setRec_nextKey (t : Nat) (r : TileRec) : (s.setRec t r).nextKey = s.nextKey := rfl
@[simp] theorem State.setRec_devown (t : Nat) (r : TileRec) : (s.setRec t r).devown = s.devown := rfl
@[simp] theorem State.setRec_evdl (t : Nat) (r : TileRec) : (s.setRec t r).evdl = s.evdl := rfl
@[simp] theorem State.setRec_evseq (t : Nat) (r : TileRec) : (s.setRec t r).evseq = s.evseq := rfl
@[simp] theorem State.setRec_msix (t : Nat) (r : TileRec) : (s.setRec t r).msix = s.msix := rfl
@[simp] theorem State.setRec_unacked (t : Nat) (r : TileRec) : (s.setRec t r).unacked = s.unacked := rfl
@[simp] theorem State.setRec_rings (t : Nat) (r : TileRec) : (s.setRec t r).rings = s.rings := rfl
@[simp] theorem State.setRec_devRing (t : Nat) (r : TileRec) : (s.setRec t r).devRing = s.devRing := rfl
@[simp] theorem State.setRec_parts (t : Nat) (r : TileRec) : (s.setRec t r).parts = s.parts := rfl
@[simp] theorem State.setRec_chases (t : Nat) (r : TileRec) : (s.setRec t r).chases = s.chases := rfl
@[simp] theorem State.setRec_bars (t : Nat) (r : TileRec) : (s.setRec t r).bars = s.bars := rfl
@[simp] theorem State.setRec_tasks (t : Nat) (r : TileRec) : (s.setRec t r).tasks = s.tasks := rfl
@[simp] theorem State.setRec_nextTask (t : Nat) (r : TileRec) : (s.setRec t r).nextTask = s.nextTask := rfl
@[simp] theorem State.setRec_stamp (t : Nat) (r : TileRec) : (s.setRec t r).stamp = s.stamp := rfl
@[simp] theorem State.setRec_xlwait (t : Nat) (r : TileRec) : (s.setRec t r).xlwait = s.xlwait := rfl
@[simp] theorem State.setRec_funcs (t : Nat) (r : TileRec) : (s.setRec t r).funcs = s.funcs := rfl
@[simp] theorem State.setRec_hdm (t : Nat) (r : TileRec) : (s.setRec t r).hdm = s.hdm := rfl
@[simp] theorem State.setRec_hostHeld (t : Nat) (r : TileRec) : (s.setRec t r).hostHeld = s.hostHeld := rfl
@[simp] theorem State.setRec_hostLines (t : Nat) (r : TileRec) : (s.setRec t r).hostLines = s.hostLines := rfl
@[simp] theorem State.setRec_hostVia (t : Nat) (r : TileRec) : (s.setRec t r).hostVia = s.hostVia := rfl
@[simp] theorem State.setRec_hostData (t : Nat) (r : TileRec) : (s.setRec t r).hostData = s.hostData := rfl
@[simp] theorem State.setRec_hostPoison (t : Nat) (r : TileRec) : (s.setRec t r).hostPoison = s.hostPoison := rfl
@[simp] theorem State.setRec_hostReplies (t : Nat) (r : TileRec) : (s.setRec t r).hostReplies = s.hostReplies := rfl
@[simp] theorem State.setRec_ssdData (t : Nat) (r : TileRec) : (s.setRec t r).ssdData = s.ssdData := rfl
@[simp] theorem State.setRec_ssdPoison (t : Nat) (r : TileRec) : (s.setRec t r).ssdPoison = s.ssdPoison := rfl
@[simp] theorem State.setRec_hostOut (t : Nat) (r : TileRec) : (s.setRec t r).hostOut = s.hostOut := rfl
@[simp] theorem State.setRec_ssdOut (t : Nat) (r : TileRec) : (s.setRec t r).ssdOut = s.ssdOut := rfl
@[simp] theorem State.setRec_linkDown (t : Nat) (r : TileRec) : (s.setRec t r).linkDown = s.linkDown := rfl
@[simp] theorem State.setRec_spint (t : Nat) (r : TileRec) : (s.setRec t r).spint = s.spint := rfl
@[simp] theorem State.setRec_slp (t : Nat) (r : TileRec) : (s.setRec t r).slp = s.slp := rfl
@[simp] theorem State.setRec_slpNext (t : Nat) (r : TileRec) : (s.setRec t r).slpNext = s.slpNext := rfl
@[simp] theorem State.setRec_ccol (t : Nat) (r : TileRec) : (s.setRec t r).ccol = s.ccol := rfl
@[simp] theorem State.setRec_corr (t : Nat) (r : TileRec) : (s.setRec t r).corr = s.corr := rfl
@[simp] theorem State.setRec_rowSpares (t : Nat) (r : TileRec) : (s.setRec t r).rowSpares = s.rowSpares := rfl
@[simp] theorem State.setRec_lostWords (t : Nat) (r : TileRec) : (s.setRec t r).lostWords = s.lostWords := rfl
@[simp] theorem State.setRec_lostKeys (t : Nat) (r : TileRec) : (s.setRec t r).lostKeys = s.lostKeys := rfl
@[simp] theorem State.setRec_lostTasks (t : Nat) (r : TileRec) : (s.setRec t r).lostTasks = s.lostTasks := rfl
@[simp] theorem State.setRec_soft (t : Nat) (r : TileRec) : (s.setRec t r).soft = s.soft := rfl
@[simp] theorem State.setRec_badRows (t : Nat) (r : TileRec) : (s.setRec t r).badRows = s.badRows := rfl
@[simp] theorem State.setRec_rowErrs (t : Nat) (r : TileRec) : (s.setRec t r).rowErrs = s.rowErrs := rfl
@[simp] theorem State.setRec_heldRecords (t : Nat) (r : TileRec) : (s.setRec t r).heldRecords = s.heldRecords := rfl
@[simp] theorem State.setRec_off (t : Nat) (r : TileRec) : (s.setRec t r).off = s.off := rfl
@[simp] theorem State.setRec_booted (t : Nat) (r : TileRec) : (s.setRec t r).booted = s.booted := rfl
@[simp] theorem State.setRec_bootFail (t : Nat) (r : TileRec) : (s.setRec t r).bootFail = s.bootFail := rfl
@[simp] theorem State.setRec_secMin (t : Nat) (r : TileRec) : (s.setRec t r).secMin = s.secMin := rfl
@[simp] theorem State.setRec_idKey (t : Nat) (r : TileRec) : (s.setRec t r).idKey = s.idKey := rfl
@[simp] theorem State.setRec_attKey (t : Nat) (r : TileRec) : (s.setRec t r).attKey = s.attKey := rfl
@[simp] theorem State.setRec_meas1 (t : Nat) (r : TileRec) : (s.setRec t r).meas1 = s.meas1 := rfl
@[simp] theorem State.setRec_meas2 (t : Nat) (r : TileRec) : (s.setRec t r).meas2 = s.meas2 := rfl
@[simp] theorem State.setRec_meas4 (t : Nat) (r : TileRec) : (s.setRec t r).meas4 = s.meas4 := rfl
@[simp] theorem State.setRec_spdm (t : Nat) (r : TileRec) : (s.setRec t r).spdm = s.spdm := rfl
@[simp] theorem State.setRec_cur (t : Nat) (r : TileRec) : (s.setRec t r).cur = s.cur := rfl
@[simp] theorem State.setRec_iss (t : Nat) (r : TileRec) : (s.setRec t r).iss = s.iss := rfl
@[simp] theorem State.setRec_fresh (t : Nat) (r : TileRec) : (s.setRec t r).fresh = s.fresh := rfl
@[simp] theorem State.setRec_agenda (t : Nat) (r : TileRec) : (s.setRec t r).agenda = s.agenda := rfl
@[simp] theorem State.setRec_turn (t : Nat) (r : TileRec) : (s.setRec t r).turn = s.turn := rfl

/-! ### `State.setRing` -/

@[simp] theorem State.setRing_half (i : RingId) (r : Ring) : (s.setRing i r).half = s.half := by cases i <;> rfl
@[simp] theorem State.setRing_cores (i : RingId) (r : Ring) : (s.setRing i r).cores = s.cores := by cases i <;> rfl
@[simp] theorem State.setRing_mem (i : RingId) (r : Ring) : (s.setRing i r).mem = s.mem := by cases i <;> rfl
@[simp] theorem State.setRing_recs (i : RingId) (r : Ring) : (s.setRing i r).recs = s.recs := by cases i <;> rfl
@[simp] theorem State.setRing_poisLines (i : RingId) (r : Ring) : (s.setRing i r).poisLines = s.poisLines := by cases i <;> rfl
@[simp] theorem State.setRing_stale (i : RingId) (r : Ring) : (s.setRing i r).stale = s.stale := by cases i <;> rfl
@[simp] theorem State.setRing_engines (i : RingId) (r : Ring) : (s.setRing i r).engines = s.engines := by cases i <;> rfl
@[simp] theorem State.setRing_chans (i : RingId) (r : Ring) : (s.setRing i r).chans = s.chans := by cases i <;> rfl
@[simp] theorem State.setRing_stripes (i : RingId) (r : Ring) : (s.setRing i r).stripes = s.stripes := by cases i <;> rfl
@[simp] theorem State.setRing_friskets (i : RingId) (r : Ring) : (s.setRing i r).friskets = s.friskets := by cases i <;> rfl
@[simp] theorem State.setRing_keys (i : RingId) (r : Ring) : (s.setRing i r).keys = s.keys := by cases i <;> rfl
@[simp] theorem State.setRing_krbase (i : RingId) (r : Ring) : (s.setRing i r).krbase = s.krbase := by cases i <;> rfl
@[simp] theorem State.setRing_nextKey (i : RingId) (r : Ring) : (s.setRing i r).nextKey = s.nextKey := by cases i <;> rfl
@[simp] theorem State.setRing_devown (i : RingId) (r : Ring) : (s.setRing i r).devown = s.devown := by cases i <;> rfl
@[simp] theorem State.setRing_evdl (i : RingId) (r : Ring) : (s.setRing i r).evdl = s.evdl := by cases i <;> rfl
@[simp] theorem State.setRing_evseq (i : RingId) (r : Ring) : (s.setRing i r).evseq = s.evseq := by cases i <;> rfl
@[simp] theorem State.setRing_msix (i : RingId) (r : Ring) : (s.setRing i r).msix = s.msix := by cases i <;> rfl
@[simp] theorem State.setRing_unacked (i : RingId) (r : Ring) : (s.setRing i r).unacked = s.unacked := by cases i <;> rfl
@[simp] theorem State.setRing_parts (i : RingId) (r : Ring) : (s.setRing i r).parts = s.parts := by cases i <;> rfl
@[simp] theorem State.setRing_chases (i : RingId) (r : Ring) : (s.setRing i r).chases = s.chases := by cases i <;> rfl
@[simp] theorem State.setRing_bars (i : RingId) (r : Ring) : (s.setRing i r).bars = s.bars := by cases i <;> rfl
@[simp] theorem State.setRing_tasks (i : RingId) (r : Ring) : (s.setRing i r).tasks = s.tasks := by cases i <;> rfl
@[simp] theorem State.setRing_nextTask (i : RingId) (r : Ring) : (s.setRing i r).nextTask = s.nextTask := by cases i <;> rfl
@[simp] theorem State.setRing_stamp (i : RingId) (r : Ring) : (s.setRing i r).stamp = s.stamp := by cases i <;> rfl
@[simp] theorem State.setRing_xlwait (i : RingId) (r : Ring) : (s.setRing i r).xlwait = s.xlwait := by cases i <;> rfl
@[simp] theorem State.setRing_funcs (i : RingId) (r : Ring) : (s.setRing i r).funcs = s.funcs := by cases i <;> rfl
@[simp] theorem State.setRing_hdm (i : RingId) (r : Ring) : (s.setRing i r).hdm = s.hdm := by cases i <;> rfl
@[simp] theorem State.setRing_hostHeld (i : RingId) (r : Ring) : (s.setRing i r).hostHeld = s.hostHeld := by cases i <;> rfl
@[simp] theorem State.setRing_hostLines (i : RingId) (r : Ring) : (s.setRing i r).hostLines = s.hostLines := by cases i <;> rfl
@[simp] theorem State.setRing_hostVia (i : RingId) (r : Ring) : (s.setRing i r).hostVia = s.hostVia := by cases i <;> rfl
@[simp] theorem State.setRing_hostData (i : RingId) (r : Ring) : (s.setRing i r).hostData = s.hostData := by cases i <;> rfl
@[simp] theorem State.setRing_hostPoison (i : RingId) (r : Ring) : (s.setRing i r).hostPoison = s.hostPoison := by cases i <;> rfl
@[simp] theorem State.setRing_hostReplies (i : RingId) (r : Ring) : (s.setRing i r).hostReplies = s.hostReplies := by cases i <;> rfl
@[simp] theorem State.setRing_ssdData (i : RingId) (r : Ring) : (s.setRing i r).ssdData = s.ssdData := by cases i <;> rfl
@[simp] theorem State.setRing_ssdPoison (i : RingId) (r : Ring) : (s.setRing i r).ssdPoison = s.ssdPoison := by cases i <;> rfl
@[simp] theorem State.setRing_hostOut (i : RingId) (r : Ring) : (s.setRing i r).hostOut = s.hostOut := by cases i <;> rfl
@[simp] theorem State.setRing_ssdOut (i : RingId) (r : Ring) : (s.setRing i r).ssdOut = s.ssdOut := by cases i <;> rfl
@[simp] theorem State.setRing_linkDown (i : RingId) (r : Ring) : (s.setRing i r).linkDown = s.linkDown := by cases i <;> rfl
@[simp] theorem State.setRing_spint (i : RingId) (r : Ring) : (s.setRing i r).spint = s.spint := by cases i <;> rfl
@[simp] theorem State.setRing_slp (i : RingId) (r : Ring) : (s.setRing i r).slp = s.slp := by cases i <;> rfl
@[simp] theorem State.setRing_slpNext (i : RingId) (r : Ring) : (s.setRing i r).slpNext = s.slpNext := by cases i <;> rfl
@[simp] theorem State.setRing_ccol (i : RingId) (r : Ring) : (s.setRing i r).ccol = s.ccol := by cases i <;> rfl
@[simp] theorem State.setRing_corr (i : RingId) (r : Ring) : (s.setRing i r).corr = s.corr := by cases i <;> rfl
@[simp] theorem State.setRing_rowSpares (i : RingId) (r : Ring) : (s.setRing i r).rowSpares = s.rowSpares := by cases i <;> rfl
@[simp] theorem State.setRing_lostWords (i : RingId) (r : Ring) : (s.setRing i r).lostWords = s.lostWords := by cases i <;> rfl
@[simp] theorem State.setRing_lostKeys (i : RingId) (r : Ring) : (s.setRing i r).lostKeys = s.lostKeys := by cases i <;> rfl
@[simp] theorem State.setRing_lostTasks (i : RingId) (r : Ring) : (s.setRing i r).lostTasks = s.lostTasks := by cases i <;> rfl
@[simp] theorem State.setRing_soft (i : RingId) (r : Ring) : (s.setRing i r).soft = s.soft := by cases i <;> rfl
@[simp] theorem State.setRing_badRows (i : RingId) (r : Ring) : (s.setRing i r).badRows = s.badRows := by cases i <;> rfl
@[simp] theorem State.setRing_rowErrs (i : RingId) (r : Ring) : (s.setRing i r).rowErrs = s.rowErrs := by cases i <;> rfl
@[simp] theorem State.setRing_heldRecords (i : RingId) (r : Ring) : (s.setRing i r).heldRecords = s.heldRecords := by cases i <;> rfl
@[simp] theorem State.setRing_off (i : RingId) (r : Ring) : (s.setRing i r).off = s.off := by cases i <;> rfl
@[simp] theorem State.setRing_booted (i : RingId) (r : Ring) : (s.setRing i r).booted = s.booted := by cases i <;> rfl
@[simp] theorem State.setRing_bootFail (i : RingId) (r : Ring) : (s.setRing i r).bootFail = s.bootFail := by cases i <;> rfl
@[simp] theorem State.setRing_secMin (i : RingId) (r : Ring) : (s.setRing i r).secMin = s.secMin := by cases i <;> rfl
@[simp] theorem State.setRing_idKey (i : RingId) (r : Ring) : (s.setRing i r).idKey = s.idKey := by cases i <;> rfl
@[simp] theorem State.setRing_attKey (i : RingId) (r : Ring) : (s.setRing i r).attKey = s.attKey := by cases i <;> rfl
@[simp] theorem State.setRing_meas1 (i : RingId) (r : Ring) : (s.setRing i r).meas1 = s.meas1 := by cases i <;> rfl
@[simp] theorem State.setRing_meas2 (i : RingId) (r : Ring) : (s.setRing i r).meas2 = s.meas2 := by cases i <;> rfl
@[simp] theorem State.setRing_meas4 (i : RingId) (r : Ring) : (s.setRing i r).meas4 = s.meas4 := by cases i <;> rfl
@[simp] theorem State.setRing_spdm (i : RingId) (r : Ring) : (s.setRing i r).spdm = s.spdm := by cases i <;> rfl
@[simp] theorem State.setRing_cur (i : RingId) (r : Ring) : (s.setRing i r).cur = s.cur := by cases i <;> rfl
@[simp] theorem State.setRing_iss (i : RingId) (r : Ring) : (s.setRing i r).iss = s.iss := by cases i <;> rfl
@[simp] theorem State.setRing_fresh (i : RingId) (r : Ring) : (s.setRing i r).fresh = s.fresh := by cases i <;> rfl
@[simp] theorem State.setRing_agenda (i : RingId) (r : Ring) : (s.setRing i r).agenda = s.agenda := by cases i <;> rfl
@[simp] theorem State.setRing_turn (i : RingId) (r : Ring) : (s.setRing i r).turn = s.turn := by cases i <;> rfl

/-! ### Changes through the replacements -/

@[simp] theorem State.modCore_eq (c : CoreId) (f : Core → Core) : s.modCore c f = s.setCore c (f (s.core c)) := rfl
@[simp] theorem State.modMe_eq (f : Core → Core) : s.modMe f = s.setCore s.cur (f (s.core s.cur)) := rfl
@[simp] theorem State.modPart_eq (q : PartId) (f : Part → Part) : s.modPart q f = s.setPart q (f (s.part q)) := rfl

/-! ### Reading a part after an update -/

@[simp] theorem State.core_setCore_same (c : CoreId) (k : Core) : (s.setCore c k).core c = k := by
  simp [State.core, State.setCore, vget_eq]

@[simp] theorem State.core_setCore_other (c d : CoreId) (k : Core) (h : d ≠ c) : (s.setCore c k).core d = s.core d := by
  have : c.val ≠ d.val := fun e => h (Fin.ext e.symm)
  simp [State.core, State.setCore, vget_eq, Vector.getElem_set_ne, this]

@[simp] theorem State.part_setPart_same (q : PartId) (x : Part) : (s.setPart q x).part q = x := by
  simp [State.part, State.setPart, vget_eq]

@[simp] theorem State.part_setPart_other (q r : PartId) (x : Part) (h : r ≠ q) : (s.setPart q x).part r = s.part r := by
  have : q.val ≠ r.val := fun e => h (Fin.ext e.symm)
  simp [State.part, State.setPart, vget_eq, Vector.getElem_set_ne, this]

@[simp] theorem State.chase_setChase_same (c : ChaseId) (x : Chase) : (s.setChase c x).chase c = x := by
  simp [State.chase, State.setChase, vget_eq]

@[simp] theorem State.chase_setChase_other (c d : ChaseId) (x : Chase) (h : d ≠ c) :
    (s.setChase c x).chase d = s.chase d := by
  have : c.val ≠ d.val := fun e => h (Fin.ext e.symm)
  simp [State.chase, State.setChase, vget_eq, Vector.getElem_set_ne, this]

@[simp] theorem State.part_setCore (c : CoreId) (k : Core) (q : PartId) : (s.setCore c k).part q = s.part q := rfl
@[simp] theorem State.chase_setCore (c : CoreId) (k : Core) (h : ChaseId) : (s.setCore c k).chase h = s.chase h := rfl
@[simp] theorem State.engine_setCore (c : CoreId) (k : Core) (e : Nat) : (s.setCore c k).engine e = s.engine e := rfl
@[simp] theorem State.chan_setCore (c : CoreId) (k : Core) (h : Nat) : (s.setCore c k).chan h = s.chan h := rfl
@[simp] theorem State.func_setCore (c : CoreId) (k : Core) (f : FuncId) : (s.setCore c k).func f = s.func f := rfl
@[simp] theorem State.tileRec_setCore (c : CoreId) (k : Core) (t : Nat) : (s.setCore c k).tileRec t = s.tileRec t := rfl
@[simp] theorem State.core_setPart (q : PartId) (x : Part) (c : CoreId) : (s.setPart q x).core c = s.core c := rfl
@[simp] theorem State.core_setChase (h : ChaseId) (x : Chase) (c : CoreId) : (s.setChase h x).core c = s.core c := rfl
@[simp] theorem State.core_setEngine (e : Nat) (x : Engine) (c : CoreId) : (s.setEngine e x).core c = s.core c := rfl
@[simp] theorem State.core_setChan (h : Nat) (x : Chan) (c : CoreId) : (s.setChan h x).core c = s.core c := rfl
@[simp] theorem State.core_setFunc (f : FuncId) (x : Func) (c : CoreId) : (s.setFunc f x).core c = s.core c := rfl
@[simp] theorem State.core_setRec (t : Nat) (r : TileRec) (c : CoreId) : (s.setRec t r).core c = s.core c := rfl

@[simp] theorem State.ring_setRing_same (i : RingId) (r : Ring) : (s.setRing i r).ring i = r := by
  cases i <;> simp [State.ring, State.setRing, vget_eq]

@[simp] theorem State.core_setRing (i : RingId) (r : Ring) (c : CoreId) : (s.setRing i r).core c = s.core c := by
  cases i <;> rfl

@[simp] theorem State.takeFree_fresh (w : Nat) : (s.takeFree w).1.fresh = s.fresh + 1 := rfl
@[simp] theorem State.takeFree_mem (w : Nat) : (s.takeFree w).1.mem = s.mem := rfl
@[simp] theorem State.takeFree_core (w : Nat) (c : CoreId) : (s.takeFree w).1.core c = s.core c := rfl
@[simp] theorem State.takeFree_val (w : Nat) : (s.takeFree w).2 = Config.freeBits w s.fresh := rfl

@[simp] theorem State.fault_iss_faults (slot : Nat) (f : AccFault) (a : Nat) :
    (s.fault slot f a).iss.faults = s.iss.faults ++ [⟨f.rank, slot, f.cause, f.detail, a, f.aux⟩] := rfl
@[simp] theorem State.fault_core (slot : Nat) (f : AccFault) (a : Nat) (c : CoreId) :
    (s.fault slot f a).core c = s.core c := rfl
@[simp] theorem State.fault_mem (slot : Nat) (f : AccFault) (a : Nat) : (s.fault slot f a).mem = s.mem := rfl

end Sys2Proof.Machine
end

