-- ==== Sys2Proof/Safety.lean ====
section
/-! DEFINITION. What counts as a safe run: the machine never stops, and the invariants of its data hold. -/

namespace Sys2Proof.Machine

/-- The memory's bytes are in the one canonical form: addresses strictly rising, no entry equal to what an unlisted address
reads as (log entry 6). -/
abbrev Memory.wf (m : List Host.Cell) : Prop := swf (0 : Byte) m

/-- A register file's hard-wired register holds zero, unpoisoned (R33). -/
def Core.zeroOk (k : Core) : Bool := k.reg .a 0 == 0 && k.reg .b 0 == 0

/-- The states that `n` steps reach from a state; none when the machine stops. -/
def runSteps : Nat → State → Option State
  | 0, s => some s
  | n + 1, s =>
    match step s with
    | .next t => runSteps n t
    | _ => none

/-- A safe run: no step of it stops. -/
def Safe (s : State) : Prop := ∀ n, (runSteps n s).isSome

end Sys2Proof.Machine
end

