-- ==== Sys2Proof/Certificates/Slice0/Obligations.lean ====
section
/-! DEFINITION. The statements about this model that a prover is asked to prove, and the words in which they are said. -/

namespace Sys2Proof.Machine

/-! ## Words of the statements about slot instructions -/

/-- The predicate field lets the slot act: it reads true, and unpoisoned, at the bundle's operand read (R49, R54). -/
def Acts (s : State) (p : Pred) : Prop := s.iss.pre.predVal p = true ∧ s.iss.pre.predPois p = false

/-- The state with one more result in flight on the core whose bundle is being issued; nothing else differs. -/
def State.plus (s : State) (e : Entry) : State :=
  let k := s.cores.get s.cur
  { s with cores := s.cores.set s.cur.val { k with infl := k.infl ++ [e] } s.cur.isLt }

/-- The instruction completes: one scalar result of latency `lat` is in flight, and nothing else differs. A poisoned result has
value zero and no flag (R152); `org` is the bundle that a later deferred data trap would name. -/
def GivesScalar (i : Instr) (s : State) (slot : Nat) (c : Cluster) (d : SReg) (lat : Nat) (v : Word) (F : Flags)
    (pois : Bool) : Prop :=
  ∃ org, exec i s = .next (s.plus
    ⟨.scalar c d (if pois then 0 else v), pois, lat, if pois then 0 else F, slot, s.iss.pre.tick, .no, org, {}⟩)

/-- The same for a predicate result. -/
def GivesPred (i : Instr) (s : State) (slot : Nat) (d : PReg) (lat : Nat) (v : Bool) (F : Flags) (pois : Bool) : Prop :=
  ∃ org, exec i s = .next (s.plus
    ⟨.pred d (if pois then false else v), pois, lat, if pois then 0 else F, slot, s.iss.pre.tick, .no, org, {}⟩)

/-- The same for a row. -/
def GivesRow (i : Instr) (s : State) (slot : Nat) (d : VReg) (lat : Nat) (x : Row) (F : Flags) : Prop :=
  ∃ org, exec i s = .next (s.plus ⟨.row d x, x.tag = tagPoison, lat, F, slot, s.iss.pre.tick, .no, org, {}⟩)

/-- The same for a candidate list. -/
def GivesList (i : Instr) (s : State) (l : Fin 4) (lat : Nat) (x : CList) (F : Flags) : Prop :=
  ∃ org, exec i s = .next (s.plus ⟨.list l x, x.poison, lat, F, 7, s.iss.pre.tick, .no, org, {}⟩)

/-- A register as the bundle's operand read gives it (R47). -/
abbrev State.rd (s : State) (c : Cluster) (r : SReg) : Word := s.iss.pre.reg c r

/-- Its poison mark. -/
abbrev State.rdPois (s : State) (c : Cluster) (r : SReg) : Bool := s.iss.pre.regPois c r

/-- Value(ty, reg[w−1:0]) of R150. -/
abbrev tval (t : ITy) (x : Word) : Int := intValue t.width t.signed x.toNat

/-- Sat or Wrap into a type, then into the register (R150, R153). -/
def intoType (sat : Bool) (t : ITy) (z : Int) : Word :=
  BitVec.ofInt 64 (if sat then satInt t.width t.signed z else wrapInt t.width t.signed z)

end Sys2Proof.Machine

open Sys2Proof Sys2Proof.Machine

/-! ## Integer instructions of SA and SB -/

/-- ADD, SUB, MUL (R153) and MULH, MULHN (R154): the exact result of the operands read under ty, narrowed; one result in flight
and nothing else changed. -/
def Stated.IntegerArithmetic : Prop :=
  ∀ (s : State) (sl : SSlot) (p : Pred) (d a b : SReg) (sat : Bool) (t : ITy), Acts s p →
    let c := sl.cluster
    let x := tval t (s.rd c a)
    let y := tval t (s.rd c b)
    let z := s.rdPois c a || s.rdPois c b
    GivesScalar (.add sl p d a b sat t) s (slotS sl) c d 1 (intoType sat t (x + y)) 0 z ∧
    GivesScalar (.sub sl p d a b sat t) s (slotS sl) c d 1 (intoType sat t (x - y)) 0 z ∧
    GivesScalar (.mul sl p d a b sat t) s (slotS sl) c d 3 (intoType sat t (x * y)) 0 z ∧
    GivesScalar (.mulh sl p d a b t) s (slotS sl) c d 3 (BitVec.ofInt 64 (x * y / 2 ^ t.width)) 0 z ∧
    GivesScalar (.mulhn sl p d a b t) s (slotS sl) c d 3 (BitVec.ofInt 64 (x * y / 2 ^ t.width)) 0 z

/-- AND, OR, XOR, ANDN (R157) and MIN, MAX, MINN, MAXN (R159). -/
def Stated.LogicAndExtremes : Prop :=
  ∀ (s : State) (sl : SSlot) (p : Pred) (d a b : SReg) (t : ITy), Acts s p →
    let c := sl.cluster
    let u := s.rd c a
    let v := s.rd c b
    let lo := BitVec.ofInt 64 (min (tval t u) (tval t v))
    let hi := BitVec.ofInt 64 (max (tval t u) (tval t v))
    let z := s.rdPois c a || s.rdPois c b
    GivesScalar (.and sl p d a b) s (slotS sl) c d 1 (u &&& v) 0 z ∧
    GivesScalar (.or sl p d a b) s (slotS sl) c d 1 (u ||| v) 0 z ∧
    GivesScalar (.xor sl p d a b) s (slotS sl) c d 1 (u ^^^ v) 0 z ∧
    GivesScalar (.andn sl p d a b) s (slotS sl) c d 1 (u &&& ~~~v) 0 z ∧
    GivesScalar (.min sl p d a b t) s (slotS sl) c d 1 lo 0 z ∧
    GivesScalar (.max sl p d a b t) s (slotS sl) c d 1 hi 0 z ∧
    GivesScalar (.minn sl p d a b t) s (slotS sl) c d 1 lo 0 z ∧
    GivesScalar (.maxn sl p d a b t) s (slotS sl) c d 1 hi 0 z

/-- The integer arithmetic and the logic of SA and SB (R153, R154, R157, R159): both statements above. -/
def Obligations.IntegerAndLogic : Prop := Stated.IntegerArithmetic ∧ Stated.LogicAndExtremes

/-- SHL, SHR, SRA by a register's whole amount, and SHLI, SHRI, SRAI by an immediate (R158): Wrap(ty, x × 2^n) to the left and
⌊x / 2^n⌋ to the right, whatever the amount. -/
def Stated.Shifts : Prop :=
  ∀ (s : State) (sl : SSlot) (p : Pred) (d a b : SReg) (t : ITy) (n : BitVec 6), Acts s p →
    let c := sl.cluster
    let x := tval t (s.rd c a)
    let left := fun m : Nat => BitVec.ofInt 64 (wrapInt t.width t.signed (x * 2 ^ m))
    let right := fun m : Nat => BitVec.ofInt 64 (x / 2 ^ m)
    let z := s.rdPois c a || s.rdPois c b
    GivesScalar (.shl sl p d a b t) s (slotS sl) c d 1 (left (s.rd c b).toNat) 0 z ∧
    GivesScalar (.shr sl p d a b t) s (slotS sl) c d 1 (right (s.rd c b).toNat) 0 z ∧
    GivesScalar (.sra sl p d a b t) s (slotS sl) c d 1 (right (s.rd c b).toNat) 0 z ∧
    GivesScalar (.shli sl p d a t n) s (slotS sl) c d 1 (left n.toNat) 0 (s.rdPois c a) ∧
    GivesScalar (.shri sl p d a t n) s (slotS sl) c d 1 (right n.toNat) 0 (s.rdPois c a) ∧
    GivesScalar (.srai sl p d a t n) s (slotS sl) c d 1 (right n.toNat) 0 (s.rdPois c a)

/-- ADDI, ANDI, ORI, XORI (R155), MOVI in both forms (R79) and MOVHI (R162). -/
def Stated.Immediates : Prop :=
  ∀ (s : State) (sl : SSlot) (p : Pred) (d a : SReg) (i : BitVec 11) (j : BitVec 16) (l : Fin 3) (wide : Bool), Acts s p →
    let c := sl.cluster
    let u := s.rd c a
    let k := i.signExtend 64
    let z := s.rdPois c a
    let word := fun n : Nat => s.iss.lits.getD n 0
    GivesScalar (.addi sl p d a i) s (slotS sl) c d 1 (u + k) 0 z ∧
    GivesScalar (.andi sl p d a i) s (slotS sl) c d 1 (u &&& k) 0 z ∧
    GivesScalar (.ori sl p d a i) s (slotS sl) c d 1 (u ||| k) 0 z ∧
    GivesScalar (.xori sl p d a i) s (slotS sl) c d 1 (u ^^^ k) 0 z ∧
    GivesScalar (.movi sl p d j) s (slotS sl) c d 1 (j.signExtend 64) 0 false ∧
    GivesScalar (.movhi sl p d j) s (slotS sl) c d 1
      (BitVec.ofInt 64 ((s.rd c d).toNat * 2 ^ 16 + j.toNat)) 0 (s.rdPois c d) ∧
    GivesScalar (.moviSl sl p d l wide) s (slotS sl) c d 1
      (if wide then word (l.val + 1) ++ word l.val else (word l.val).signExtend 64) 0 false

/-- The shifts and the immediate forms of SA and SB (R79, R155, R158, R162): both statements above. -/
def Obligations.ShiftsAndImmediates : Prop := Stated.Shifts ∧ Stated.Immediates

/-- CLZ, CTZ, POPC (R160): the number of leading zeros, trailing zeros and ones among the low w bits of ra. -/
def Stated.BitCounts : Prop :=
  ∀ (s : State) (sl : SSlot) (p : Pred) (d a : SReg) (t : ITy), Acts s p →
    let c := sl.cluster
    let u := s.rd c a
    let w := t.width
    let z := s.rdPois c a
    (∃ n, n ≤ w ∧ (∀ i, i < n → u.getLsbD (w - 1 - i) = false) ∧ (n < w → u.getLsbD (w - 1 - n) = true) ∧
      GivesScalar (.clz sl p d a t) s (slotS sl) c d 1 (BitVec.ofNat 64 n) 0 z) ∧
    (∃ n, n ≤ w ∧ (∀ i, i < n → u.getLsbD i = false) ∧ (n < w → u.getLsbD n = true) ∧
      GivesScalar (.ctz sl p d a t) s (slotS sl) c d 1 (BitVec.ofNat 64 n) 0 z) ∧
    GivesScalar (.popc sl p d a t) s (slotS sl) c d 1
      (BitVec.ofNat 64 (((List.range w).filter fun i => u.getLsbD i).length)) 0 z

/-- EXT, EXTN, INS (R161): the field at rb[5:0] of length rb[13:8], where 0 stands for 64. -/
def Stated.BitFields : Prop :=
  ∀ (s : State) (sl : SSlot) (p : Pred) (d a b : SReg), Acts s p →
    let c := sl.cluster
    let u := s.rd c a
    let v := s.rd c b
    let pos := (v.extractLsb' 0 6).toNat
    let len := if v.extractLsb' 8 6 = 0#6 then 64 else (v.extractLsb' 8 6).toNat
    let f := u.toNat / 2 ^ pos % 2 ^ len
    let z := s.rdPois c a || s.rdPois c b
    GivesScalar (.extn sl p d a b) s (slotS sl) c d 1 (BitVec.ofNat 64 f) 0 z ∧
    GivesScalar (.ext sl p d a b) s (slotS sl) c d 1
      (BitVec.ofInt 64 (if 2 ^ (len - 1) ≤ f then (f : Int) - 2 ^ len else f)) 0 z ∧
    ∃ r : Word, (∀ i, i < 64 → r.getLsbD i =
        if pos ≤ i ∧ i < pos + len then u.getLsbD (i - pos) else (s.rd c d).getLsbD i) ∧
      GivesScalar (.ins sl p d a b) s (slotS sl) c d 1 r 0 (z || s.rdPois c d)

/-- The bit counts and bit fields of SA and SB (R160, R161): both statements above. -/
def Obligations.BitCountsAndFields : Prop := Stated.BitCounts ∧ Stated.BitFields

/-- SEL takes the selected register with its mark, and traps on a poisoned selector (R152, R163); LEA adds the scaled index
(R164); CMV takes a register of the other cluster (R165). -/
def Stated.SelectAddressMove : Prop :=
  ∀ (s : State) (sl : SSlot) (p : Pred) (d a b : SReg) (ps : PReg) (sh : BitVec 3) (t : LeaTy), Acts s p →
    let c := sl.cluster
    let o : Cluster := match sl with | .sa => .b | .sb => .a
    let r := if s.iss.pre.p.getLsbD ps.val then a else b
    let y := s.rd c b
    let idx : Int := match t with
      | .i64 => y.toInt
      | .i32 => (y.extractLsb' 0 32).toInt
      | .n32 => (y.extractLsb' 0 32).toNat
    (s.iss.pre.pPois.getLsbD ps.val = false →
      GivesScalar (.sel sl p d a b ps) s (slotS sl) c d 1 (s.rd c r) 0 (s.rdPois c r)) ∧
    GivesScalar (.lea sl p d a b sh t) s (slotS sl) c d 1
      (BitVec.ofInt 64 ((s.rd c a).toNat + idx * 2 ^ sh.toNat)) 0 (s.rdPois c a || s.rdPois c b) ∧
    GivesScalar (.cmv sl p d a) s (slotS sl) c d 1 (s.rd o a) 0 (s.rdPois o a)

/-- CMP under its type, CMPI with signed or unsigned reading by condition (R166), PSET's truth table (R167) and FCMP (R174). -/
def Stated.Compares : Prop :=
  ∀ (s : State) (sl : SSlot) (p : Pred) (d pa pb : PReg) (a b : SReg) (k : Cond) (t : ITy) (ki : CondI) (i : BitVec 9)
    (fk : FCond) (tt : BitVec 4), Acts s p →
    let c := sl.cluster
    let u := s.rd c a
    let v := s.rd c b
    let x := tval t u
    let y := tval t v
    let j : Word := i.signExtend 64
    let z := s.rdPois c a || s.rdPois c b
    let m := fval u
    let n := fval v
    let bitOf := fun q : PReg => if s.iss.pre.p.getLsbD q.val then 1 else 0
    GivesPred (.cmp sl p d a b k t) s (slotS sl) d 1 (match k with
      | .eq => decide (x = y) | .ne => decide (x ≠ y) | .lt => decide (x < y) | .ge => decide (x ≥ y)
      | .gt => decide (x > y) | .le => decide (x ≤ y)
      | .tst => decide (∃ q, q < t.width ∧ u.getLsbD q ∧ v.getLsbD q)) 0 z ∧
    GivesPred (.cmpi sl p d a ki i) s (slotS sl) d 1 (match ki with
      | .eq => decide (u = j) | .ne => decide (u ≠ j) | .lt => decide (u.toInt < j.toInt) | .ge => decide (u.toInt ≥ j.toInt)
      | .ltn => decide (u.toNat < j.toNat) | .gen => decide (u.toNat ≥ j.toNat) | .tst => decide (u &&& j ≠ 0))
      0 (s.rdPois c a) ∧
    GivesPred (.pset sl p d pa pb tt) s (slotS sl) d 1 (tt.getLsbD (2 * bitOf pa + bitOf pb)) 0
      (s.iss.pre.pPois.getLsbD pa.val || s.iss.pre.pPois.getLsbD pb.val) ∧
    GivesPred (.fcmp sl p d a b fk) s (slotS sl) d 4 (
      if m.isNan || n.isNan then decide (fk = .ne ∨ fk = .un) else match fk with
      | .eq => decide (ncmp m n = .eq) | .ne => decide (ncmp m n ≠ .eq) | .lt => decide (ncmp m n = .lt)
      | .ge => decide (ncmp m n ≠ .lt) | .gt => decide (ncmp m n = .gt) | .le => decide (ncmp m n ≠ .gt) | .un => false)
      (if m.isSig || n.isSig || (m.isNan || n.isNan) && decide (fk = .lt ∨ fk = .ge ∨ fk = .gt ∨ fk = .le) then fIV else 0) z

/-- The selects, moves and compares of SA and SB (R152, R163 to R167, R174): both statements above. -/
def Obligations.SelectsAndCompares : Prop := Stated.SelectAddressMove ∧ Stated.Compares

/-- RDSR reads every special register of R37 zero-extended; gp registers are those of the core's partition (R169, R37, R39). One that a
parity error has made unreadable gives a poisoned result (R473, R474). -/
def Stated.SpecialRegisterRead : Prop :=
  ∀ (s : State) (sl : SSlot) (p : Pred) (d : SReg), Acts s p →
    let k := s.iss.pre
    let gives := fun (n : BitVec 11) (v : Word) => GivesScalar (.rdsr sl p d n) s (slotS sl) sl.cluster d 1 v 0 (k.lostSr.contains n.toNat)
    gives 0x000 (k.fsr.setWidth 64) ∧ gives 0x001 k.tick ∧ gives 0x002 (k.taskid.setWidth 64) ∧
    gives 0x003 (k.tilex.setWidth 64) ∧ gives 0x004 (k.tiley.setWidth 64) ∧ gives 0x005 (k.tilez.setWidth 64) ∧
    gives 0x006 (k.thr.setWidth 64) ∧ gives 0x007 (k.opc.setWidth 64) ∧ gives 0x008 (BitVec.ofNat 64 s.cur.val) ∧
    gives 0x009 (BitVec.ofNat 64 (match s.partOf s.cur with | some q => q.val | none => 0)) ∧
    gives 0x00A (if k.side then 1 else 0) ∧ gives 0x00B (k.p.setWidth 64) ∧
    (∀ i : Fin 4, gives (BitVec.ofNat 11 (0x00C + i.val)) ((k.lc.get i).count.setWidth 64)) ∧
    (∀ i : Fin 4, gives (BitVec.ofNat 11 (0x010 + i.val)) (BitVec.ofNat 64 (k.cx.get i).tl)) ∧
    gives 0x014 (BitVec.ofNat 64 k.gx.tl) ∧
    (∀ i : Fin 64, gives (BitVec.ofNat 11 (0x040 + i.val)) ((s.corePart s.cur).gp.get i))

/-- WRSR of fsr, thr and pfile (R170): fsr and pfile take the value at the end of the issuing tick, thr is clamped to
0x0000 … 0x7BFF; a register whose parity was lost is whole again; a poisoned source is the deferred data trap and writes nothing
(R152). -/
def Stated.SpecialRegisterWrite : Prop :=
  ∀ (s : State) (sl : SSlot) (p : Pred) (a : SReg), Acts s p →
    let c := sl.cluster
    let x := s.rd c a
    let k := s.core s.cur
    let whole := fun n : Nat => { k with
      lorig := k.lorig.filter fun y => y.1 != 0x2000 + n, lostSr := k.lostSr.filter (· != n) }
    (s.rdPois c a = false →
      exec (.wrsr sl p a 0x000) s = .next
        { s.setCore s.cur (whole 0x000) with iss := { s.iss with wfsr := some (x.extractLsb' 0 5) } } ∧
      exec (.wrsr sl p a 0x00B) s = .next
        { s.setCore s.cur (whole 0x00B) with iss := { s.iss with wpfile := some (x.extractLsb' 0 12) } } ∧
      exec (.wrsr sl p a 0x006) s = .next (s.setCore s.cur { whole 0x006 with
        thr := if x.getLsbD 15 then 0 else if 0x7C00 ≤ (x.extractLsb' 0 15).toNat then 0x7BFF else x.extractLsb' 0 16 })) ∧
    (s.rdPois c a = true → ∀ n, exec (.wrsr sl p a n) s = .next (s.deferReg (slotS sl) 4 c a))

/-- Reading and writing the special registers (R37, R39, R152, R169, R170): both statements above. -/
def Obligations.SpecialRegisters : Prop := Stated.SpecialRegisterRead ∧ Stated.SpecialRegisterWrite

/-- FADD, FSUB, FMUL, FMA, FNMA (R172) round the exact result once to FP32; FMIN and FMAX pick an operand (R173); FSGN composes
bits (R175). All have latency 4. -/
def Stated.FloatArithmetic : Prop :=
  ∀ (s : State) (sl : SSlot) (p : Pred) (d a b : SReg) (m : RMode) (o : SgnOp), Acts s p →
    let c := sl.cluster
    let u := s.rd c a
    let v := s.rd c b
    let x := fval u
    let y := fval v
    let w := fval (s.rd c d)
    let z := s.rdPois c a || s.rdPois c b
    let gives := fun (i : Instr) (r : Sys2Proof.Machine.Num × Flags) (pz : Bool) =>
      GivesScalar i s (slotS sl) c d 4 (BitVec.ofNat 64 (roundTo .fp32 m r.1).1) ((roundTo .fp32 m r.1).2 ||| r.2) pz
    let pick := fun (lo : Bool) => if x.isNan && y.isNan then BitVec.ofNat 64 0x7FC00000
      else if x.isNan then (v.extractLsb' 0 32).setWidth 64 else if y.isNan then (u.extractLsb' 0 32).setWidth 64
      else if ncmpZ x y = (if lo then .gt else .lt) then (v.extractLsb' 0 32).setWidth 64
      else (u.extractLsb' 0 32).setWidth 64
    let sign := match o with
      | .cp => v.getLsbD 31 | .neg => !v.getLsbD 31 | .xor => u.getLsbD 31 ^^ v.getLsbD 31
    gives (.fadd sl p d a b m) (nadd m x y) z ∧ gives (.fsub sl p d a b m) (nadd m x y.neg) z ∧
    gives (.fmul sl p d a b m) (nmul x y) z ∧ gives (.fma sl p d a b m) (nfma m x y w) (z || s.rdPois c d) ∧
    gives (.fnma sl p d a b m) (nfma m x.neg y w) (z || s.rdPois c d) ∧
    GivesScalar (.fmin sl p d a b) s (slotS sl) c d 4 (pick true) (if x.isSig || y.isSig then fIV else 0) z ∧
    GivesScalar (.fmax sl p d a b) s (slotS sl) c d 4 (pick false) (if x.isSig || y.isSig then fIV else 0) z ∧
    ∃ r : Word, (∀ i, i < 64 → r.getLsbD i = if i = 31 then sign else decide (i < 31) && u.getLsbD i) ∧
      GivesScalar (.fsgn sl p d a b o) s (slotS sl) c d 4 r 0 z

/-- FCVT's ten kinds (R176). -/
def Stated.Conversions : Prop :=
  ∀ (s : State) (sl : SSlot) (p : Pred) (d a : SReg) (k : CvtKind) (m : RMode), Acts s p →
    let u := s.rd sl.cluster a
    let f := value .fp32 (u.toNat % 2 ^ 32)
    let int := fun t : ITy => let r := roundToInt t.width t.signed m f; ((BitVec.ofInt 64 r.1 : Word), r.2)
    let flt := fun (g : Fmt) (x : Sys2Proof.Machine.Num) => let r := roundTo g m x; ((BitVec.ofNat 64 r.1 : Word), r.2)
    let exact := fun (g : Fmt) => let r := roundTo .fp32 .rne (value g (u.toNat % 2 ^ 16)); ((BitVec.ofNat 64 r.1 : Word), r.2)
    let r := match k with
      | .i64Fp32 => int .i64 | .i32Fp32 => int .i32 | .n64Fp32 => int .n64 | .n32Fp32 => int .n32
      | .fp32I64 => flt .fp32 (.ofInt (tval .i64 u)) | .fp32N64 => flt .fp32 (.ofInt (tval .n64 u))
      | .bf16Fp32 => flt .bf16 f | .fp16Fp32 => flt .fp16 f | .fp32Bf16 => exact .bf16 | .fp32Fp16 => exact .fp16
    GivesScalar (.fcvt sl p d a k m) s (slotS sl) sl.cluster d 4 r.1 r.2 (s.rdPois sl.cluster a)

/-- The floating-point arithmetic and conversions of SA and SB (R172, R173, R175, R176): both statements above. -/
def Obligations.FloatsAndConversions : Prop := Stated.FloatArithmetic ∧ Stated.Conversions

/-- DIV, DIVN, REM, REMN (R156): the quotient truncates toward zero, the remainder takes the dividend's sign, division by zero gives
all ones and the dividend, and the most negative number over −1 gives itself and zero; the divider is then occupied for 18 ticks,
and an occupied divider is an illegal-schedule trap (R43). -/
def Stated.Division : Prop :=
  ∀ (s : State) (p : Pred) (d a b : SReg) (t : ITy), Acts s p →
    let x := tval t (s.rd .b a)
    let y := tval t (s.rd .b b)
    let z := s.rdPois .b a || s.rdPois .b b
    let k := s.core s.cur
    let busy := s.setCore s.cur { k with idiv := 18 }
    let q := if y = 0 then (if t.signed then -1 else 2 ^ t.width - 1)
      else if t.signed ∧ x = -(2 ^ (t.width - 1)) ∧ y = -1 then -(2 ^ (t.width - 1)) else x.tdiv y
    let r := if y = 0 then x else x - y * x.tdiv y
    (s.iss.pre.idiv = 0 →
      (∀ i ∈ [Instr.div p d a b t, .divn p d a b t], ∃ org, exec i s = .next (busy.plus
        ⟨.scalar .b d (if z then 0 else BitVec.ofInt 64 q), z, 18, 0, 2, s.iss.pre.tick, .no, org, {}⟩)) ∧
      ∀ i ∈ [Instr.rem p d a b t, .remn p d a b t], ∃ org, exec i s = .next (busy.plus
        ⟨.scalar .b d (if z then 0 else BitVec.ofInt 64 r), z, 18, 0, 2, s.iss.pre.tick, .no, org, {}⟩)) ∧
    (s.iss.pre.idiv ≠ 0 → ∀ i ∈ [Instr.div p d a b t, .divn p d a b t, .rem p d a b t, .remn p d a b t],
      exec i s = .next (s.fault 2 (schedFault 0x01)))

/-- FDIV and FSQRT (R177): one rounding of the quotient or the root, 14 ticks of occupancy, an illegal-schedule trap where the unit
is occupied (R43); and the table of the special cases of FDIV and FSQRT. -/
def Stated.FloatDivision : Prop :=
  ∀ (s : State) (p : Pred) (d a b : SReg) (m : RMode), Acts s p →
    let x := fval (s.rd .b a)
    let y := fval (s.rd .b b)
    let z := s.rdPois .b a || s.rdPois .b b
    let k := s.core s.cur
    let busy := s.setCore s.cur { k with fdiv := 14 }
    let gives := fun (i : Instr) (v : Nat) (F : Flags) (pz : Bool) => ∃ org, exec i s = .next (busy.plus
      ⟨.scalar .b d (if pz then 0 else BitVec.ofNat 64 v), pz, 14, if pz then 0 else F, 2, s.iss.pre.tick, .no, org, {}⟩)
    let nan := 0x7FC00000
    let inf := fun sg : Bool => if sg then 0xFF800000 else 0x7F800000
    let zero := fun sg : Bool => if sg then 0x80000000 else 0
    let sg := x.sign ^^ y.sign
    (s.iss.pre.fdiv = 0 →
      gives (.fdiv p d a b m) (roundTo .fp32 m (ndiv x y).1).1 ((roundTo .fp32 m (ndiv x y).1).2 ||| (ndiv x y).2) z ∧
      gives (.fsqrt p d a m) (roundTo .fp32 m (nsqrt x).1).1 ((roundTo .fp32 m (nsqrt x).1).2 ||| (nsqrt x).2)
        (s.rdPois .b a) ∧
      (x.isSig || y.isSig → gives (.fdiv p d a b m) nan fIV z) ∧
      (!(x.isSig || y.isSig) && (x.isNan || y.isNan) → gives (.fdiv p d a b m) nan 0 z) ∧
      (x.isFin && !x.isZero && y.isZero → gives (.fdiv p d a b m) (inf sg) fDZ z) ∧
      (x.isZero && y.isZero || x.isInf && y.isInf → gives (.fdiv p d a b m) nan fIV z) ∧
      (x.isFin && y.isInf → gives (.fdiv p d a b m) (zero sg) 0 z) ∧
      (x.isInf && y.isFin → gives (.fdiv p d a b m) (inf sg) 0 z) ∧
      (x.isSig → gives (.fsqrt p d a m) nan fIV (s.rdPois .b a)) ∧
      (x.isNan && !x.isSig → gives (.fsqrt p d a m) nan 0 (s.rdPois .b a)) ∧
      (x.isZero → gives (.fsqrt p d a m) (zero x.sign) 0 (s.rdPois .b a)) ∧
      (!x.isNan && !x.isZero && x.sign → gives (.fsqrt p d a m) nan fIV (s.rdPois .b a)) ∧
      (x.isInf && !x.sign → gives (.fsqrt p d a m) (inf false) 0 (s.rdPois .b a))) ∧
    (s.iss.pre.fdiv ≠ 0 → ∀ i ∈ [Instr.fdiv p d a b m, .fsqrt p d a m], exec i s = .next (s.fault 2 (schedFault 0x01)))

/-- The divider and the floating-point divider of SB (R43, R156, R177): both statements above. -/
def Obligations.Divisions : Prop := Stated.Division ∧ Stated.FloatDivision

/-! ## Control instructions -/

namespace Sys2Proof.Machine

/-- The issue record makes this transfer of control; nothing else differs. -/
def State.jumps (s : State) (x : Transfer) : State := { s with iss := { s.iss with xfer := x } }

end Sys2Proof.Machine

/-- BR, BRI, CALL, RET and BR.SIDE (R383, R384): the transfer that each makes, and the cases in which each is an alignment fault, a
deferred data trap or an illegal-schedule trap instead. -/
def Stated.Branches : Prop :=
  ∀ (s : State) (p : Pred) (t : BitVec 14) (r : CReg), Acts s p →
    let k := s.iss.pre
    let x := s.rd r.c r.r
    let far := 4 * t.toNat
    let sideFree := k.mark = false ∧ k.rstack = [] ∧ k.order = []
    exec (.br p t) s = .next (s.jumps (.jump far)) ∧
    (s.rdPois r.c r.r = false → x.toNat % 4 = 0 → x.toNat < 2 ^ 16 → exec (.bri p r) s = .next (s.jumps (.jump x.toNat))) ∧
    (s.rdPois r.c r.r = false → x.toNat % 4 ≠ 0 ∨ 2 ^ 16 ≤ x.toNat →
      exec (.bri p r) s = .next (s.fault 0 ⟨7, 0x06, 0, 0⟩)) ∧
    (s.rdPois r.c r.r = true → exec (.bri p r) s = .next (s.deferReg 0 1 r.c r.r)) ∧
    (k.rstack.length ≠ 8 → exec (.call p t) s = .next (s.jumps (.call far))) ∧
    (k.rstack.length = 8 → exec (.call p t) s = .next (s.fault 0 ⟨4, 0x03, 0x0A, 0⟩)) ∧
    (k.rstack ≠ [] → exec (.ret p) s = .next (s.jumps .ret)) ∧
    (k.rstack = [] → exec (.ret p) s = .next (s.fault 0 ⟨4, 0x03, 0x0A, 0⟩)) ∧
    (sideFree → exec (.brSide p t) s = .next (s.jumps (.side far))) ∧
    (¬ sideFree → exec (.brSide p t) s = .next (s.fault 0 ⟨4, 0x03, 0x06, 0⟩))

/-- Where the next bundle is after a bundle at `off` of `len` bytes (R382 to R384, R386): in sequence with no bubble; at the target
of a taken transfer with two bubble ticks, CALL pushing the next bundle's offset, RET popping it, BR.SIDE changing the active side
and clearing the mark; past the body for a LOOP with a count of 0. -/
def Stated.TransferOfControl : Prop :=
  ∀ (k : Core) (off len n : Nat),
    k.transfer .seq off len [] = { k with pc := off + len } ∧
    k.transfer (.jump n) off len [] = { k with pc := n, bubble := 2 } ∧
    k.transfer (.call n) off len k.order = { k with pc := n, bubble := 2, rstack := (off + len) :: k.rstack } ∧
    (∀ m st, k.rstack = m :: st → k.transfer .ret off len k.order = { k with pc := m, bubble := 2, rstack := st }) ∧
    k.transfer (.side n) off len [] = { k with pc := n, bubble := 2, side := !k.side, mark := false } ∧
    k.transfer (.skip n) off len k.order = { k with pc := n + bundleLen (k.fetchWord n), bubble := 2 }

/-- Branches, calls and returns, and where the next bundle is (R382 to R384, R386): both statements above. -/
def Obligations.Transfers : Prop := Stated.Branches ∧ Stated.TransferOfControl

/-- The loop rule (R387) for the innermost active loop `l` over the rest of the order: the back-edge with a count above 1 goes to S
and counts down; with a count of 1 the loop ends and the next innermost is tried; away from E nothing happens; a taken BR, BRI or
BR.SIDE ends each loop, from the innermost, whose body does not hold the target. -/
def Stated.LoopRule : Prop :=
  ∀ (k : Core) (l : Fin 4) (rest : List (Fin 4)) (off len n : Nat),
    let x := k.lc.get l
    let ended : Core := { k with
      lc := k.lc.set l.val { x with active := false, count := 0 } l.isLt, order := k.order.filter (· != l) }
    (x.e.toNat ≠ off → k.transfer .seq off len (l :: rest) = { k with pc := off + len }) ∧
    (x.e.toNat = off → 1 < x.count.toNat → k.transfer .seq off len (l :: rest) =
      { k with lc := k.lc.set l.val { x with count := x.count - 1 } l.isLt, pc := x.s.toNat }) ∧
    (x.e.toNat = off → x.count.toNat ≤ 1 → k.transfer .seq off len (l :: rest) = ended.transfer .seq off len rest) ∧
    (x.s.toNat ≤ n → n ≤ x.e.toNat → k.transfer (.jump n) off len (l :: rest) = { k with pc := n, bubble := 2 }) ∧
    (n < x.s.toNat ∨ x.e.toNat < n → k.transfer (.jump n) off len (l :: rest) = ended.transfer (.jump n) off len rest)

/-- LOOP and LOOPI (R386): an inactive counter with a count of at least 1 becomes the innermost loop with its count, S and E; a count
of 0 skips the body; an active counter is an illegal-schedule trap; LOOP's poisoned register the deferred data trap. -/
def Stated.LoopStart : Prop :=
  ∀ (s : State) (p : Pred) (l : Fin 4) (r : CReg) (n : BitVec 6) (e : BitVec 13), Acts s p →
    let k := s.core s.cur
    let E := s.iss.off + 4 * e.toNat
    let starts := fun c : Word32 => s.setCore s.cur { k with
      lc := k.lc.set l.val
        { active := true, count := c, s := BitVec.ofNat 16 (s.iss.off + s.iss.len), e := BitVec.ofNat 16 E } l.isLt
      order := l :: k.order }
    let free := (s.iss.pre.lc.get l).active = false
    let count := (s.rd r.c r.r).extractLsb' 0 32
    (free → n ≠ 0 → exec (.loopi p l n e) s = .next (starts (n.setWidth 32))) ∧
    (free → s.rdPois r.c r.r = false → count ≠ 0 → exec (.loop p l r e) s = .next (starts count)) ∧
    (free → s.rdPois r.c r.r = false → count = 0 → exec (.loop p l r e) s = .next (s.jumps (.skip E))) ∧
    (¬ free → exec (.loopi p l n e) s = .next (s.fault 0 ⟨4, 0x03, 0x09, 0⟩)) ∧
    (¬ free → s.rdPois r.c r.r = false → exec (.loop p l r e) s = .next (s.fault 0 ⟨4, 0x03, 0x09, 0⟩)) ∧
    (s.rdPois r.c r.r = true → exec (.loop p l r e) s = .next (s.deferReg 0 1 r.c r.r))

/-- Loops, from their start to their end (R386, R387): both statements above. -/
def Obligations.Loops : Prop := Stated.LoopRule ∧ Stated.LoopStart

/-- DONE, ABORT, TRAP and ESCAL (R388 to R391): DONE raises a pending deferred data trap first, of the marked destination that
was loaded earliest, then an illegal-schedule trap for results in flight, else ends the task with its bundle; ABORT ends it so with its code; TRAP
leaves its code with the bundle, whose commit takes a core trap; ESCAL acts as a failing bound check of its bundle. PAUSE has no effect of its own (R68) and OPSEL selects an operating point (R57). -/
def Obligations.TaskEnds : Prop :=
  ∀ (s : State) (p : Pred) (code : BitVec 16) (op : BitVec 3), Acts s p →
    let k := s.iss.pre
    let ends := fun f : TaskEnd => { s with iss := { s.iss with fin := some f } }
    (k.porig = [] → k.infl = [] → k.seq.kind = .idle → exec (.done p) s = .next (ends .done)) ∧
    (k.porig = [] → k.infl ≠ [] ∨ k.seq.kind ≠ .idle → exec (.done p) s = .next (s.fault 0 ⟨4, 0x03, 0x0B, 0⟩)) ∧
    (∀ before key org after, k.porig = before ++ (key, org) :: after →
      (∀ x ∈ before, org / 2 ^ 17 < x.2 / 2 ^ 17) → (∀ x ∈ after, org / 2 ^ 17 ≤ x.2 / 2 ^ 17) →
      exec (.done p) s = .next (s.fault 0 (deferFault 2 (key / 128) (key % 128) org))) ∧
    exec (.abort p code) s = .next (ends (.abort code)) ∧
    exec (.trap p code) s = .next (ends (.trap code)) ∧
    exec (.escal p) s = .next { s with iss := { s.iss with faults := s.iss.faults ++ [⟨9, 0, 0x09, 1, 0, 0⟩] } } ∧
    exec .pause s = .next s ∧
    exec (.opsel op) s = .next { s with iss := { s.iss with opsel := some op } }

/-- WAIT leaves its conditions with the core (R336); WAITTL traps on a value above the issue count, freezes below the timeline's
value and else goes on (R337); IFENCE freezes while a CP.ISP is not completed, else clears the written mark (R385). -/
def Obligations.Waits : Prop :=
  ∀ (s : State) (p : Pred) (ld st cp mx : BitVec 5) (r : CReg) (t : Tline), Acts s p →
    let k := s.core s.cur
    let x := (s.rd r.c r.r).toNat
    let reached := match t with | .tl i => (s.iss.pre.cx.get i).tl | .tlg => s.iss.pre.gx.tl
    let issued := match t with | .tl i => (s.iss.pre.cx.get i).icount | .tlg => s.iss.pre.gx.icount
    let isp := ∃ i : Fin 4, ∃ c ∈ (s.iss.pre.cx.get i).cmds, ∃ side, c.kind = .isp side
    exec (.wait p ld st cp mx) s = .next (s.setCore s.cur { k with
      waitc := some { ld := ld.toNat, st := st.toNat, cp := cp.toNat, mx := mx.toNat } }) ∧
    (s.rdPois r.c r.r = false → x ≤ issued → x ≤ reached → exec (.waittl p r t) s = .next s) ∧
    (s.rdPois r.c r.r = false → x ≤ issued → reached < x → exec (.waittl p r t) s = .next (s.holdFor .waittl)) ∧
    (s.rdPois r.c r.r = false → issued < x → exec (.waittl p r t) s = .next (s.fault 0 ⟨4, 0x03, 0x0C, 0⟩)) ∧
    (s.rdPois r.c r.r = true → exec (.waittl p r t) s = .next (s.deferReg 0 4 r.c r.r)) ∧
    (¬ isp → exec (.ifence p) s = .next { s with iss := { s.iss with clrMark := true } }) ∧
    (isp → exec (.ifence p) s = .next (s.holdFor .ifence))

/-- BAR (R392) and MASKW (R393): a field out of range is a format trap; BAR drains its accesses first, then asks and holds; the flag
that answers is the predicate; MASKW whose sequence value is reached gives 1 at once, else asks and holds. -/
def Stated.BarrierAndMaskWait : Prop :=
  ∀ (s : State) (p : Pred) (r : CReg) (d : PReg), Acts s p → s.rdPois r.c r.r = false → s.iss.pre.req = none →
    let x := s.rd r.c r.r
    let n := (x.extractLsb' 8 8).toNat
    let m := (x.extractLsb' 0 4).toFin
    let seq := ((s.corePart s.cur).mseq.get m).toNat
    let q := x.extractLsb' 32 32
    let barOk := x.extractLsb' 32 32 = 0 ∧ x.extractLsb' 4 4 = 0 ∧ 1 ≤ n ∧ n ≤ 8
    let maskOk := x.extractLsb' 4 12 = 0
    let drained := s.iss.pre.stores = [] ∧ s.iss.pre.pendingLoads = []
    let asks := fun (w : Wait) (q : Req) => { s.holdFor w with iss := { (s.holdFor w).iss with newReq := some q } }
    (¬ barOk → exec (.bar p r d) s = .next (s.fault 0 ⟨8, 0x07, 3, 0⟩)) ∧
    (barOk → ∀ b, s.iss.pre.ans = some (.flag b) → GivesPred (.bar p r d) s 0 d 1 b 0 false) ∧
    (barOk → s.iss.pre.ans = none → ¬ drained → exec (.bar p r d) s = .next (s.holdFor .drain)) ∧
    (barOk → s.iss.pre.ans = none → drained → exec (.bar p r d) s =
      .next (asks .bar (.bar m.val n (x.extractLsb' 16 16).toNat))) ∧
    (¬ maskOk → exec (.maskw p r d) s = .next (s.fault 0 ⟨8, 0x07, 3, 0⟩)) ∧
    (maskOk → ∀ b, s.iss.pre.ans = some (.flag b) → GivesPred (.maskw p r d) s 0 d 1 b 0 false) ∧
    (maskOk → s.iss.pre.ans = none → q.toNat ≤ seq → GivesPred (.maskw p r d) s 0 d 1 true 0 false) ∧
    (maskOk → s.iss.pre.ans = none → seq < q.toNat → exec (.maskw p r d) s = .next (asks .maskw (.maskw m.val q)))

/-- What a barrier does with an arrival (R392): the first sets n and waits; one whose n differs is refused with 0; the one that makes
the arrivals n completes the generation, gives every arrived core 1 and starts the next; another joins. -/
def Stated.BarrierArrival : Prop :=
  ∀ (s : State) (c : CoreId) (id n : Nat), 1 ≤ n →
    let key := s.barOf c id
    let b := sget {} s.bars key
    (b.arrived = [] → 2 ≤ n → s.arrive c id n = { s with bars := sset {} s.bars key { n := n, arrived := [c] } }) ∧
    (b.arrived = [] → n = 1 → s.arrive c id n = s.answer [c] true) ∧
    (b.arrived ≠ [] → b.n ≠ n → s.arrive c id n = s.answer [c] false) ∧
    (b.arrived ≠ [] → b.n = n → b.arrived.length + 1 = n →
      s.arrive c id n = ({ s with bars := sset {} s.bars key {} }).answer (b.arrived ++ [c]) true) ∧
    (b.arrived ≠ [] → b.n = n → b.arrived.length + 1 ≠ n →
      s.arrive c id n = { s with bars := sset {} s.bars key { n := n, arrived := b.arrived ++ [c] } }) ∧
    ∀ (cs : List CoreId) (v : Bool) (d : CoreId),
      (s.answer cs v).core d = if d ∈ cs then { s.core d with ans := some (.flag v) } else s.core d

/-- Barriers and mask waits (R392, R393): both statements above. -/
def Obligations.Barriers : Prop := Stated.BarrierAndMaskWait ∧ Stated.BarrierArrival

/-- LAUNCH, HEAP.PUSH and HEAP.POP (R395 to R397) with unpoisoned operands: ranges and alignment first; a launch asks the scheduler
and, accepted, joins the graph, or traps at the launch limit; the heap's instructions ask and, served, go on. -/
def Obligations.WorkRequests : Prop :=
  ∀ (s : State) (p : Pred) (c : Cluster) (x y z : SReg) (i : Fin 3), Acts s p →
    s.rdPois c x = false → s.rdPois c y = false → s.rdPois c z = false → s.iss.pre.req = none →
    let asks := fun (w : Wait) (q : Req) => { s.holdFor w with iss := { (s.holdFor w).iss with newReq := some q } }
    let desc := s.rd c x
    let fin := s.rd c z
    let launchOk := fun dims : Word =>
      let nx := (dims.extractLsb' 0 16).toNat
      let ny := (dims.extractLsb' 16 16).toNat
      let nz := (dims.extractLsb' 32 16).toNat
      desc.toNat % 1024 = 0 ∧ fin.toNat % 8 = 0 ∧ desc.toNat < 2 ^ 48 ∧ dims.toNat < 2 ^ 48 ∧ nx ≠ 0 ∧ ny ≠ 0 ∧ nz ≠ 0 ∧
        nx * ny * nz ≤ 2 ^ 24
    let launches := fun (j : Instr) (dims : Word) => launchOk dims →
      (s.iss.pre.ans = none → exec j s = .next (asks .launch (.launch desc.toNat (dims.extractLsb' 0 16).toNat
        (dims.extractLsb' 16 16).toNat (dims.extractLsb' 32 16).toNat fin.toNat))) ∧
      (s.iss.pre.ans = some .accepted → exec j s = .next (s.addChild s.cur desc.toNat (dims.extractLsb' 0 16).toNat
        (dims.extractLsb' 16 16).toNat (dims.extractLsb' 32 16).toNat fin.toNat)) ∧
      (s.iss.pre.ans = some .limit → exec j s = .next (s.fault 0 ⟨4, 0x03, 0x0D, 0⟩))
    let pushOk := (desc.extractLsb' 16 16).toNat ≠ 0 ∧ (s.rd c y).toNat % 8 = 0 ∧ (s.rd c y).toNat + 8 ≤ 2 ^ 20
    let m := (s.rd c y).toNat
    let popOk := 1 ≤ m ∧ m ≤ 64 ∧ desc.toNat % 8 = 0 ∧ desc.toNat + 8 * (1 + m) ≤ 2 ^ 20
    launches (.launch p c x (.reg y) z) (s.rd c y) ∧
    launches (.launch p c x (.lit i) z) (s.iss.lits.getD (i.val + 1) 0 ++ s.iss.lits.getD i.val 0) ∧
    (pushOk → s.iss.pre.ans = none → exec (.heapPush p c x y) s = .next (asks .heap (.push desc (s.rd c y).toNat))) ∧
    (pushOk → s.iss.pre.ans = some .served → exec (.heapPush p c x y) s = .next s) ∧
    (popOk → s.iss.pre.ans = none → exec (.heapPop p c x y) s = .next (asks .heap (.pop desc.toNat m))) ∧
    (popOk → s.iss.pre.ans = some .served → exec (.heapPop p c x y) s = .next s)

/-! ## Predicates, frames, and what happens to the bundle -/

/-- Every slot instruction reads its predicate field first (R49, R54, R75): false, it does nothing at all; poisoned, it raises the
deferred data trap of its slot and does nothing else. -/
def Obligations.PredicateField : Prop :=
  ∀ (i : Instr) (w : Word32) (k : Slot) (p : Pred) (s : State), encode i = some w → i.slot? = some k →
    w.extractLsb' 21 5 = p.code →
    (s.iss.pre.predPois p = false → s.iss.pre.predVal p = false → exec i s = .next s) ∧
    (∀ j, predReg? p = some j → s.iss.pre.pPois.getLsbD j.val = true → exec i s = .next (s.deferPred k.num j))

/-- The frame of the instructions of SA, SB, VEC and XPS: the results in flight and the unit occupancy of the issuing core, its thr
for WRSR of thr, for WRSR the marks of lost special registers, and the issue record are all that they change; no byte of memory, no
register, no flag, no other core. -/
def Stated.RegisterFormsFrame : Prop :=
  ∀ (i : Instr) (k : Slot) (s t : State), i.slot? = some k → k = .sa ∨ k = .sb ∨ k = .vec ∨ k = .xps →
    exec i s = .next t →
    (∀ c, t.core c = { s.core c with
      infl := (t.core c).infl, idiv := (t.core c).idiv, fdiv := (t.core c).fdiv, thr := (t.core c).thr
      lorig := (t.core c).lorig, lostSr := (t.core c).lostSr }) ∧
    (∀ c, c ≠ s.cur → t.core c = s.core c) ∧
    ((∀ sl p a, i ≠ .wrsr sl p a 0x006) → (t.core s.cur).thr = (s.core s.cur).thr) ∧
    ((∀ sl p a n, i ≠ .wrsr sl p a n) →
      (t.core s.cur).lorig = (s.core s.cur).lorig ∧ (t.core s.cur).lostSr = (s.core s.cur).lostSr) ∧
    (∀ a, sget 0 t.mem a = sget 0 s.mem a) ∧
    t = { s with cores := t.cores, iss := t.iss }

/-- The frame of the MAT slot's instructions: beside the results in flight they change only the sequencer, the weight banks, the
scales, the mode and the issue record of the issuing core. -/
def Stated.MatrixFormsFrame : Prop :=
  ∀ (i : Instr) (s t : State), i.slot? = some .mat → exec i s = .next t →
    (∀ c, t.core c = { s.core c with
      infl := (t.core c).infl, seq := (t.core c).seq, w0 := (t.core c).w0, w1 := (t.core c).w1, sel := (t.core c).sel
      ss := (t.core c).ss, nsc := (t.core c).nsc, h := (t.core c).h, dfmt := (t.core c).dfmt }) ∧
    (∀ c, c ≠ s.cur → t.core c = s.core c) ∧
    (∀ a, sget 0 t.mem a = sget 0 s.mem a) ∧
    t = { s with cores := t.cores, iss := t.iss }

/-- The frame of the instructions of SA, SB, VEC, XPS and MAT: both statements above. -/
def Obligations.ComputeFormsFrame : Prop := Stated.RegisterFormsFrame ∧ Stated.MatrixFormsFrame

/-- The frame of transfers, loops, task ends and waits: no register, row, predicate, flag or byte of memory changes when one
executes; only loops, the wait conditions, results in flight and the issue record may. -/
def Obligations.ControlFormsFrame : Prop :=
  ∀ (p : Pred) (n : BitVec 14) (r : CReg) (l : Fin 4) (c6 : BitVec 6) (e : BitVec 13) (code : BitVec 16)
    (f1 f2 f3 f4 : BitVec 5) (op : BitVec 3) (t : Tline) (d : PReg) (s s' : State),
    ∀ i ∈ [Instr.br p n, .bri p r, .call p n, .ret p, .brSide p n, .loop p l r e, .loopi p l c6 e, .done p, .abort p code,
      .trap p code, .escal p, .wait p f1 f2 f3 f4, .waittl p r t, .ifence p, .bar p r d, .maskw p r d, .pause, .opsel op],
      exec i s = .next s' →
      (∀ c, s'.core c = { s.core c with
        infl := (s'.core c).infl, lc := (s'.core c).lc, order := (s'.core c).order, waitc := (s'.core c).waitc }) ∧
      (∀ a, sget 0 s'.mem a = sget 0 s.mem a) ∧
      s' = { s with cores := s'.cores, iss := s'.iss }

/-- The landing of a result (R42, R40, R33): at the end of its last tick a scalar, predicate, row or list result that is alone in
flight is written with its poison mark and its flags are ORed into fsr; a write of a0 or b0 is discarded; before its last tick it
only comes one tick nearer; and every other register stays. -/
def Obligations.ResultsLand : Prop :=
  ∀ (k : Core) (e : Entry), k.seq.kind = .idle → k.infl = [e] →
    let t := k.endTick
    (2 ≤ e.r → t.infl = [{ e with r := e.r - 1 }] ∧ t.a = k.a ∧ t.b = k.b ∧ t.p = k.p ∧ t.v = k.v ∧ t.cl = k.cl ∧ t.fsr = k.fsr) ∧
    (e.r = 1 → t.infl = [] ∧
      (∀ c r v, e.pay = .scalar c r v →
        t.fsr = k.fsr ||| e.F ∧ t.p = k.p ∧ t.v = k.v ∧
        (r ≠ 0 → t.reg c r = v ∧ t.regPois c r = e.poison) ∧
        ∀ c' r', (c' ≠ c ∨ r' ≠ r) ∨ r' = 0 → t.reg c' r' = k.reg c' r' ∧ t.regPois c' r' = k.regPois c' r') ∧
      (∀ q b, e.pay = .pred q b →
        t.fsr = k.fsr ||| e.F ∧ t.a = k.a ∧ t.b = k.b ∧ t.v = k.v ∧
        ∀ j : PReg, t.p.getLsbD j.val = (if j = q then b else k.p.getLsbD j.val) ∧
          t.pPois.getLsbD j.val = (if j = q then e.poison else k.pPois.getLsbD j.val)) ∧
      (∀ v x, e.pay = .row v x →
        t.fsr = k.fsr ||| e.F ∧ t.a = k.a ∧ t.b = k.b ∧ t.p = k.p ∧
        ∀ u, t.row u = if u = v then (if e.poison then { bits := 0, tag := 14, eb := 0x7C00 } else x) else k.row u) ∧
      (∀ l x, e.pay = .list l x →
        t.fsr = k.fsr ||| e.F ∧ t.a = k.a ∧ t.b = k.b ∧ t.p = k.p ∧ t.v = k.v ∧
        ∀ m, t.cl.get m = if m = l then x else k.cl.get m)) ∧
    t.tick = k.tick + 1 ∧ t.spad = k.spad ∧ t.lc = k.lc ∧ t.pc = k.pc

/-- Which fault of a bundle its trap reports (R55, R455): one of the lowest rank, and of those one of the lowest slot. -/
def Stated.FaultPriority : Prop :=
  ∀ (fs : List Fault1) (f : Fault1), worstFault fs = some f →
    f ∈ fs ∧ ∀ g ∈ fs, f.rank < g.rank ∨ f.rank = g.rank ∧ f.slot ≤ g.slot

/-- A bundle with a fault is nullified (R52, R261, R458, R467): the core is held for the supervisor with the trap's cause, once the
data of its loads in flight has come, for which it waits with the trap otherwise; its registers, predicates, rows, flags, special
registers, scratchpad, stores, results in flight, pc and tick, and all of memory where it waits, are those before the bundle; another
core is not touched. (For the fault of a bound check see `Stated.EscalationTaken`.) -/
def Stated.FaultNullifies : Prop :=
  ∀ (s0 s : State) (c : CoreId) (f : Fault1), worstFault s.iss.faultsNow = some f → f.cause ≠ 0x09 →
    ((s0.core c).creq = false ∨ f.cause ≠ 0x0A) →
    let k := s0.core c
    let t := s0.finishIssue s c
    let k' := t.core c
    (k.dataHere = true → k'.st = .held ∧ k'.trcause = f.cause ∧ k'.trseq = s0.evseq + 1 ∧
      k'.held = some { seq := s0.evseq + 1, cause := f.cause, reissue := true }) ∧
    (k.dataHere = false → k'.st = .trapping ∧ (∃ r, k'.trap = some (r, true) ∧ r.cause = f.cause ∧ r.detail = f.detail) ∧
      t.evseq = s0.evseq ∧ t.mem = s0.mem ∧ t.recs = s0.recs) ∧
    k'.a = k.a ∧ k'.b = k.b ∧ k'.p = k.p ∧ k'.v = k.v ∧ k'.aPois = k.aPois ∧ k'.bPois = k.bPois ∧ k'.pPois = k.pPois ∧
    k'.fsr = k.fsr ∧ k'.thr = k.thr ∧ k'.lc = k.lc ∧ k'.rstack = k.rstack ∧ k'.side = k.side ∧ k'.spad = k.spad ∧
    k'.smeta = k.smeta ∧ k'.stores = k.stores ∧ k'.pc = k.pc ∧ k'.tick = k.tick ∧
    k'.infl = k.infl ∧
    ∀ d, d ≠ c → t.core d = s0.core d

namespace Sys2Proof.Machine

/-- What the commit of a bundle leaves of its core (R42, R57, R170, R374, R382, R385, R421, R423): a WRSR of fsr stands before the flags
that land in its tick are raised, one of the predicate file after the tick's landings; IFENCE clears the written mark; the transfer gives
the next bundle; OPSEL selects a point, and goes to the lower one of it and the cap, where the core settles if that is a new one. -/
def Issue.commits (i : Issue) (c : CoreId) (cap : BitVec 3) (k : Core) : Core :=
  let k0 := k.levelled c
  let k1 := ({ k0 with fsr := i.wfsr.getD k0.fsr } : Core).endTick
  let k2 := match i.wpfile with
    | some x => { k1 with p := x, pPois := 0, porig := k1.porig.filter fun y => y.1 / 128 != 2 }
    | none => k1
  let k3 := ({ k2 with mark := k2.mark && !i.clrMark } : Core).transfer i.xfer i.off i.len i.pre.order
  let k4 := match i.opsel with
    | none => k3
    | some o =>
      let e := if cap.toNat < o.toNat then cap else o
      if o = k3.opc then k3
      else if e = k3.eff then { k3 with opc := o }
      else { k3 with
        opc := o, eff := e, settling := true, stretch := false
        vtrim := BitVec.ofNat 10 ([450, 480, 510, 530, 555, 575, 600, 660].getD e.toNat 0) }
  { k4 with wdog := (if i.safe then 0 else k4.wdog) + 1, wait := none, req := none, ans := none }

end Sys2Proof.Machine

/-- A bundle without a fault or a freeze commits (R42, R57, R170, R382, R385): the core's tick ends, what takes effect with it does so,
and the transfer gives the next bundle; a bundle that is frozen leaves every register as it was and stays at its pc (R45). After the
commit a cancel that waits stops the task at a marked bundle (R364, R380); a pre-emption takes it there when a context slot is left
(R373, R471); DONE makes the task end, its results in flight, loops, return stack and bubble discarded (R388); ABORT fails it, with an
informational record of cause 0x0C that holds its code (R389); TRAP takes a core trap of cause 0x0B, after which the task resumes at
the bundle that follows (R390). -/
def Stated.BundleCommitsOrFreezes : Prop :=
  ∀ (s0 s : State) (c : CoreId), s.iss.faults = [] →
    (s.iss.hold = none → (s0.core c).req = none →
      let i := s.iss
      let k := i.commits c (s.corePart c).opcap (s.core c)
      let done := s.setCore c k
      let t := s0.finishIssue s c
      let cancelled := i.safe && k.creq
      (cancelled = true → t = { done.cancelHere c with iss := {} }) ∧
      (cancelled = false →
        (i.fin = none → (i.safe = false ∨ k.preq = false ∨ done.slotReserved c = false) → t = { done with iss := {} }) ∧
        (i.fin = none → i.safe = true → k.preq = true → done.slotReserved c = true →
          t = { done.setCore c { k with st := .preempting } with iss := {} }) ∧
        (i.fin = some .done →
          (t.core c).st = .ending ∧ (t.core c).infl = [] ∧ (t.core c).seq = {} ∧ (t.core c).order = [] ∧
          (t.core c).rstack = [] ∧ (t.core c).bubble = 0 ∧ (∀ l : Fin 4, (t.core c).lc.get l = {}) ∧
          (t.core c).a = k.a ∧ (t.core c).b = k.b ∧ (t.core c).v = k.v ∧ (t.core c).spad = k.spad ∧
          (t.core c).stores = k.stores ∧ (∀ d, d ≠ c → t.core d = s.core d) ∧ t.mem = s.mem ∧
          ∀ j u, k.task = some j → s.task? j = some u → t.task? j = some { u with st := .ending }) ∧
        (∀ code, i.fin = some (.abort code) → ∃ r : TrapRec, r.cause = 0x0C ∧ r.detail = 0 ∧ r.aux = code.setWidth 64 ∧
          r.held = false ∧ r.seq = 0 ∧ t = { done.failTask c r with iss := {} }) ∧
        (∀ code, i.fin = some (.trap code) → (t.core c).pc = k.pc ∧ (t.core c).a = k.a ∧ (t.core c).b = k.b ∧
          (t.core c).v = k.v ∧ (t.core c).infl = k.infl ∧ (∀ d, d ≠ c → t.core d = s.core d) ∧
          (k.dataHere = true → (t.core c).st = .held ∧ (t.core c).trcause = 0x0B ∧ (t.core c).trseq = s.evseq + 1 ∧
            (t.core c).held = some { seq := s.evseq + 1, cause := 0x0B, reissue := false }) ∧
          (k.dataHere = false → (t.core c).st = .trapping ∧ ∃ r : TrapRec, r.cause = 0x0B ∧ r.aux = code.setWidth 64 ∧
            (t.core c).trap = some (r, false))))) ∧
    (∀ w, s.iss.hold = some w → s.iss.newReq = none → (s0.core c).creq = false → (s0.core c).preq = false →
      s0.finishIssue s c = { s0.setCore c { s0.core c with wait := some w, waitSlot := s.iss.holdSlot } with fresh := s.fresh })

/-- A precision escalation abandons the task (R144, R145): the core waits for its engine commands in the state that
`ESCALATION_RELAUNCH` ends; results in flight and the beat sequencer are discarded, and no trap is held. Child launches that waited for one
of its loads then go on (R395). -/
def Stated.EscalationTaken : Prop :=
  ∀ (s0 s : State) (c : CoreId) (f : Fault1), worstFault s.iss.faultsNow = some f → f.cause = 0x09 →
    ∃ t : State, let k' := t.core c
      k'.st = .escalating ∧ k'.infl = [] ∧ k'.seq = {} ∧ k'.held = (s0.core c).held ∧ k'.a = (s0.core c).a ∧
      k'.v = (s0.core c).v ∧ k'.spad = (s0.core c).spad ∧
      ((∀ e ∈ (s0.core c).infl, e.mark.kids = []) → s0.finishIssue s c = t) ∧
      ((∃ e ∈ (s0.core c).infl, e.mark.kids ≠ []) → s0.finishIssue s c = t.advanceAll)

/-- What a fault makes of its bundle (R52, R55, R144, R145, R455, R458, R467): the three statements above. -/
def Obligations.FaultsOfABundle : Prop := Stated.FaultPriority ∧ Stated.FaultNullifies ∧ Stated.EscalationTaken

namespace Sys2Proof.Machine

/-- The event unit's write of a record at a ring's place makes no event of its own: it is admitted, and the check of the tile passes (R439,
R443, R445). -/
def State.RingOpen (s : State) (i : RingId) : Prop :=
  ∀ n m (bs : List Byte), bs.length = 64 → (({ s with evseq := n, msix := m } : State).ringWrite (s.ring i).place bs).2 = none

/-- Nothing of the device waits for a region to close or a channel to go on: no job is live, no record waits for its place, and no
completion record is held. -/
def State.Quiet (s : State) : Prop :=
  (∀ q j, (s.job q j).live = false) ∧ (∀ i, (s.ring i).stuck = []) ∧ s.heldRecords = []

end Sys2Proof.Machine

/-- Taking a trap, and delivering its record (R450, R465 to R470): the record gets the next event sequence number and the held flag and
goes to the ring of the core's chase; a ring that is full keeps it pending and sets its overflow bit, one with room advances its
write index and raises the supervisor's interrupt; a record whose place stalls, in an open region or in a channel in self-refresh or behind a fence, has its place and waits
(R29, R309, R313), and so do those after it; where the event unit may not write the ring's place, or the check of the tile fails, that is
an event of its own, numbered next (R439, R443; for its delivery see log entry 87). -/
def Stated.TrapRecordDelivered : Prop :=
  ∀ (s : State) (c : CoreId) (r : TrapRec) (b : Bool),
    let t := s.takeTrap c r b
    let g := s.rings.get (chaseOf c)
    let g' := t.rings.get (chaseOf c)
    let kept : TrapRec := { r with held := true, seq := s.evseq + 1 }
    let room := g.pend = [] ∧ g.room = true
    let stalls := g.stuck ≠ [] ∨ s.rangeStalls g.place 64 = true
    let shut := room ∧ ¬ stalls ∧ (({ s with evseq := s.evseq + 1 } : State).ringWrite g.place kept.bytes).2 ≠ none
    (¬ shut → t.evseq = s.evseq + 1) ∧ (shut → t.evseq = s.evseq + 2) ∧
    (t.core c).st = .held ∧ (t.core c).trcause = r.cause ∧ (t.core c).trseq = s.evseq + 1 ∧
    (∀ d, d ≠ c → t.core d = s.core d) ∧
    (room → ¬ stalls → ¬ shut → g' = { g with wix := g.wix + 1 } ∧ t.supInterrupt (chaseOf c) = true) ∧
    (room → stalls → g' = { g with stuck := g.stuck ++ [kept] } ∧ t.mem = s.mem ∧ t.recs = s.recs) ∧
    (g.pend = [] → g.room = false → g' = { g with ovf := true, pend := [kept] }) ∧
    (¬ shut → ∀ h, h ≠ chaseOf c → t.rings.get h = s.rings.get h)

/-- Undecodable bundles trap (R90, R91): a core that runs a task, has no bubble, no wait and no late data, and whose bundle does not
decode, takes a trap with cause 0x01 for an illegal bundle and 0x02 for an illegal instruction, its bundle without effect: it is held
at once, or, while a load in flight lacks its data, once that has come (R458). -/
def Stated.IllegalBundlesTrap : Prop :=
  ∀ (run : Instr → State → Res) (s : State) (c : CoreId) (e : DecodeReport),
    let k := s.core c
    k.awaitsData = false → k.bubble = 0 → k.waitc = none → k.wdog < 65536 →
    decodeBundle k.fetchWord k.pc = .error e →
    let cause := match e.kind with | .illegalBundle => 0x01 | .illegalInstruction => 0x02
    ∃ t, s.tickCore run c = .next t ∧
      (k.dataHere = true → (t.core c).st = .held ∧ (t.core c).trcause = cause) ∧
      (k.dataHere = false → (t.core c).st = .trapping ∧ ∃ r, (t.core c).trap = some (r, true) ∧ r.cause = cause) ∧
      (t.core c).a = k.a ∧ (t.core c).b = k.b ∧ (t.core c).v = k.v ∧ (t.core c).spad = k.spad ∧ (t.core c).pc = k.pc

/-- How a bundle ends that has no fault in its slots (R42, R45, R90, R91, R382): both statements above. -/
def Obligations.HowABundleEnds : Prop := Stated.BundleCommitsOrFreezes ∧ Stated.IllegalBundlesTrap

/-- A step runs the decoded instruction: at a core that has the turn, runs a task, waits for nothing, and whose bundle decodes to one
slot instruction, `step` is that instruction's `exec` in the issue record of the bundle, then the end of the bundle (commit,
freeze or trap); the turn passes on. The schedule checks of R47 to R64 come before it, in the issue record's faults. -/
def Stated.StepRunsDecoded : Prop :=
  ∀ (s t : State) (b : Bundle) (k : Slot) (i : Instr),
    let c := s.turn
    s.soft = [] → s.agenda = [] → (s.core c).st = .running → (s.core c).wait = none → (s.core c).awaitsData = false →
    (s.core c).bubble = 0 → (s.core c).waitc = none → (s.core c).wdog < 65536 → (s.core c).settling = false →
    (s.core c).tick % 64 ≠ 63 →
    decodeBundle (s.core c).fetchWord (s.core c).pc = .ok b → b.slots = [(k, i)] → b.opsel = none →
    let s0 := { s with turn := s.nextCore c }
    let s1 := s0.startIssue c b
    exec i { s1 with iss := { s1.iss with faults := s1.schedule b, now := k.num } } = .next t →
    step s = .next (s0.finishIssue t c)

/-- A step runs an event: with an event at the head of the agenda and no error waiting, `step` takes it off and is the event's `exec`,
whose issue record is then cleared; an event that cannot happen in the power state and boot state that the device has reached is
taken off without effect (R430, R431, R452, R510). -/
def Stated.StepRunsEvent : Prop :=
  ∀ (s t : State) (i : Instr) (rest : List Act), s.soft = [] → s.agenda = .ev i :: rest → i.isEvent = true →
    (s.happens i = true → exec i { s with agenda := rest, iss := {} } = .next t → step s = .next { t with iss := {} }) ∧
    (s.happens i = false → step s = .next { s with agenda := rest }) ∧
    (s.off = true → s.happens i = decide (i = .powerUp)) ∧
    (s.off = false → s.booted = false → (s.happens i = true ↔ i = .logicDiePowerLoss ∨ (∃ b v, i = .deviceReset b v) ∨ i = .spdmGetVersion ∨
      i = .spdmGetCapabilities ∨ i = .spdmNegotiateAlgorithms ∨ i = .spdmGetDigests ∨ i = .spdmGetCertificate ∨
      (∃ v, i = .spdmChallenge v) ∨ ∃ v, i = .spdmGetMeasurements v)) ∧
    (s.off = false → s.booted = true → s.slp = .running → s.happens i = true)

/-- What a step runs: both statements above. -/
def Obligations.StepRuns : Prop := Stated.StepRunsDecoded ∧ Stated.StepRunsEvent

/-- The machine never stops: every instruction and every event answers a next state in every state, and so does every step. -/
def Obligations.NeverStops : Prop :=
  (∀ (i : Instr) (s : State), ∃ t, exec i s = .next t) ∧ ∀ s : State, ∃ t, step s = .next t

/-! ## Rows -/

namespace Sys2Proof.Machine

/-- A row of the bundle's operand read. -/
abbrev State.rowRd (s : State) (v : VReg) : Row := s.iss.pre.row v

/-- Lane `j` of a row under its tag (R34). -/
abbrev Row.lane (x : Row) (j : Nat) : Nat := laneAt x.bits (tagWidth x.tag) j

/-- A row has this tag, this bound and these lanes, each reduced to the tag's width. -/
def IsRow (r : Row) (t : BitVec 4) (eb : BitVec 16) (f : Nat → Nat) : Prop :=
  r.tag = t ∧ r.eb = eb ∧ ∀ j, j < tagLanes t → laneAt r.bits (tagWidth t) j = f j % 2 ^ tagWidth t

/-- The instruction completes: a row of this tag, bound and lanes is in flight, and nothing else differs. -/
def GivesLanes (i : Instr) (s : State) (slot : Nat) (d : VReg) (lat : Nat) (t : BitVec 4) (eb : BitVec 16) (f : Nat → Nat)
    (F : Flags) : Prop :=
  ∃ r, IsRow r t eb f ∧ GivesRow i s slot d lat r F

/-- The OR of the flags of lanes 0 to n − 1. -/
def orOver (n : Nat) (f : Nat → Flags) : Flags := (List.range n).foldl (fun F j => F ||| f j) 0

/-- IV when one of lanes 0 to n − 1 is a signalling NaN. -/
def sigOver (n : Nat) (f : Nat → Num) : Flags := if (List.range n).any fun j => (f j).isSig then fIV else 0

/-- The largest magnitude among the finite ones of lanes 0 to n − 1 (R132). -/
def topOver (n : Nat) (f : Nat → Num) : Num := largestOf ((List.range n).map f)

/-- The bound of a rounded result (R133): the propagated term rounded up into a bound, plus half a unit in the last place at the
largest magnitude written (a whole one for a directed mode); +∞ after an overflow. -/
def boundAfter (f : Fmt) (m : RMode) (prop : BitVec 16) (n : Nat) (out : Nat → Nat) (F : Flags) : BitVec 16 :=
  if F &&& fOF ≠ 0 then 0x7C00
  else
    let y := topOver n fun j => value f (out j)
    addBound prop (if m = .rne then halfUlp f y else ulp f y)

/-- The instruction completes with the row whose lane `j` is the exact value `g j` rounded once to the format (R129), under the
propagated bound `prop`. -/
def GivesRounded (i : Instr) (s : State) (d : VReg) (lat : Nat) (t : BitVec 4) (f : Fmt) (prop : BitVec 16)
    (g : Nat → Num × Flags) : Prop :=
  let n := tagLanes t
  let out := fun j => (roundTo f .rne (g j).1).1
  let F := orOver n fun j => (g j).2 ||| (roundTo f .rne (g j).1).2
  GivesLanes i s 5 d lat t (boundAfter f .rne prop n out F) out F

end Sys2Proof.Machine

/-- VADD, VSUB, VMUL, VFMA and VFMS of floating rows (R184, R129, R133, R134): every lane is the exact result rounded once, and the
bound is the propagated term with the rounding term. -/
def Obligations.RowFloatArithmetic : Prop :=
  ∀ (s : State) (p : Pred) (d a b : VReg) (f : Fmt), Acts s p →
    let x := s.rowRd a
    let y := s.rowRd b
    let z := s.rowRd d
    let X := fun j => value f (x.lane j)
    let Y := fun j => value f (y.lane j)
    let Z := fun j => value f (z.lane j)
    let n := tagLanes x.tag
    let ea := ebValue x.eb
    let eb := ebValue y.eb
    let sum := fun u v => (nadd .rup u v).1
    let prod := fun u v => (nmul u v).1
    let pm := sum (sum (prod (topOver n X) eb) (prod (topOver n Y) ea)) (prod ea eb)
    let mulAdd := fun (neg : Bool) (j : Nat) =>
      let m := nmul (X j) (Y j)
      let r := nadd .rne (Z j) (if neg then m.1.neg else m.1)
      (r.1, m.2 ||| r.2)
    tagFmt x.tag = some f → y.tag = x.tag →
    GivesRounded (.vadd p d a b) s d 2 x.tag f (boundOf (sum ea eb)) (fun j => nadd .rne (X j) (Y j)) ∧
    GivesRounded (.vsub p d a b) s d 2 x.tag f (boundOf (sum ea eb)) (fun j => nadd .rne (X j) (Y j).neg) ∧
    GivesRounded (.vmul p d a b) s d 4 x.tag f (boundOf pm) (fun j => nmul (X j) (Y j)) ∧
    (z.tag = x.tag → GivesRounded (.vfma p d a b) s d 4 x.tag f (boundOf (sum pm (ebValue z.eb))) (mulAdd false)) ∧
    (z.tag = x.tag → GivesRounded (.vfms p d a b) s d 4 x.tag f (boundOf (sum pm (ebValue z.eb))) (mulAdd true))

/-- The same instructions on integer rows, with VMIN, VMAX, VABS, VNEG, the bitwise instructions and the shifts on every row they
accept (R182, R184 to R188): results lane by lane modulo 2^w, an integer row's bound 0, a bitwise result's bound +∞ on a floating
row. -/
def Obligations.RowIntegerLogicShift : Prop :=
  ∀ (s : State) (p : Pred) (d a b : VReg), Acts s p →
    let x := s.rowRd a
    let y := s.rowRd b
    let z := s.rowRd d
    let t := x.tag
    let w := tagWidth t
    let n := tagLanes t
    let X := fun j => laneInt t (x.lane j)
    let Y := fun j => laneInt t (y.lane j)
    let Z := fun j => laneInt t (z.lane j)
    let mod := fun v : Int => (v % 2 ^ w).toNat
    let U := fun j => laneNum t (x.lane j)
    let V := fun j => laneNum t (y.lane j)
    let isI := 6 ≤ t.toNat ∧ t.toNat ≤ 9
    let isF := 1 ≤ t.toNat ∧ t.toNat ≤ 5
    let ints := fun (i : Instr) (lat : Nat) (g : Nat → Int) => GivesLanes i s 5 d lat t 0 (fun j => mod (g j)) 0
    let bitB : BitVec 16 := if 1 ≤ t.toNat ∧ t.toNat ≤ 5 then 0x7C00 else 0
    let nan := match tagFmt t with | some f => canonNan f | none => 0
    let pick := fun (mx : Bool) (j : Nat) =>
      if (U j).isNan && (V j).isNan then nan else if (U j).isNan then y.lane j else if (V j).isNan then x.lane j
      else if ncmpZ (U j) (V j) = (if mx then .lt else .gt) then y.lane j else x.lane j
    let exactB := if 1 ≤ t.toNat ∧ t.toNat ≤ 5 then maxBound x.eb y.eb else 0
    let amount := fun j => y.lane j
    (y.tag = t → isI ∨ t = 13 → ints (.vadd p d a b) 2 (fun j => X j + Y j) ∧ ints (.vsub p d a b) 2 (fun j => X j - Y j)) ∧
    (y.tag = t → isI → ints (.vmul p d a b) 4 (fun j => X j * Y j)) ∧
    (y.tag = t → z.tag = t → isI → ints (.vfma p d a b) 4 (fun j => Z j + X j * Y j) ∧
      ints (.vfms p d a b) 4 (fun j => Z j - X j * Y j)) ∧
    (isI → ints (.vabs p d a) 2 (fun j => (X j).natAbs) ∧ ints (.vneg p d a) 2 (fun j => -X j)) ∧
    (∀ f, tagFmt t = some f →
      let sb := match f with | .fp32 => 31 | .bf16 | .fp16 => 15 | .tf8 => 7 | .tf6 => 5
      let kept := fun j => f.isTf && ((U j).isNan || x.lane j == 0)
      let F := if f = .tf6 then sigOver n U else 0
      GivesLanes (.vabs p d a) s 5 d 2 t x.eb
        (fun j => if kept j then x.lane j else if (x.lane j).testBit sb then x.lane j - 2 ^ sb else x.lane j) F ∧
      GivesLanes (.vneg p d a) s 5 d 2 t x.eb (fun j => if kept j then x.lane j else x.lane j ^^^ 2 ^ sb) F) ∧
    (y.tag = t → isF ∨ isI ∨ t = 13 →
      GivesLanes (.vmin p d a b) s 5 d 2 t exactB (pick false) (sigOver n U ||| sigOver n V) ∧
      GivesLanes (.vmax p d a b) s 5 d 2 t exactB (pick true) (sigOver n U ||| sigOver n V)) ∧
    (y.tag = t → isF ∨ isI ∨ t = 12 ∨ t = 13 →
      GivesRow (.vand p d a b) s 5 d 2 ⟨x.bits &&& y.bits, t, bitB⟩ 0 ∧
      GivesRow (.vor p d a b) s 5 d 2 ⟨x.bits ||| y.bits, t, bitB⟩ 0 ∧
      GivesRow (.vxor p d a b) s 5 d 2 ⟨x.bits ^^^ y.bits, t, bitB⟩ 0) ∧
    (isF ∨ isI ∨ t = 12 ∨ t = 13 → GivesRow (.vnot p d a) s 5 d 2 ⟨~~~x.bits, t, bitB⟩ 0) ∧
    (y.tag = t → isF ∨ isI ∨ t = 13 →
      GivesLanes (.vshl p d a b) s 5 d 2 t bitB (fun j => x.lane j * 2 ^ amount j) 0 ∧
      GivesLanes (.vshr p d a b) s 5 d 2 t bitB (fun j => x.lane j / 2 ^ amount j) 0 ∧
      GivesLanes (.vsra p d a b) s 5 d 2 t bitB (fun j => mod (intValue w true (x.lane j) / 2 ^ amount j)) 0)

/-- VCMP, VSEL, VBCAST, VEXT, VINS, VBPERM, VNIB, VTAG and VBND (R189 to R194, R203 to R206): masks of four planes, selection by
lane, moves between rows and scalars, byte permutation, nibbles and metadata. A mask row under VSEL selects by the lane's four plane
bits (log entry 16). -/
def Obligations.RowMovesAndMetadata : Prop :=
  ∀ (s : State) (p : Pred) (d a b : VReg) (sd r : SReg) (c : Cluster) (t : LaneTag) (j : BitVec 7) (uns ilv half : Bool)
    (nt : NewTag) (k : BitVec 5), Acts s p →
    let x := s.rowRd a
    let y := s.rowRd b
    let m := s.rowRd d
    let U := fun j => laneNum x.tag (x.lane j)
    let V := fun j => laneNum x.tag (y.lane j)
    let n := tagLanes x.tag
    let isFIX := 1 ≤ x.tag.toNat ∧ x.tag.toNat ≤ 9 ∨ x.tag = 13
    let plane := fun j => if (U j).isNan || (V j).isNan then 3 else match ncmp (U j) (V j) with | .lt => 0 | .eq => 1 | .gt => 2
    let set := fun j => m.bits.getLsbD j || m.bits.getLsbD (256 + j) || m.bits.getLsbD (512 + j) || m.bits.getLsbD (768 + j)
    let v := s.rd c r
    let jn := j.toNat
    let byte := fun (q : Row) (i : Nat) => laneAt q.bits 8 i
    let con := if k = 0 then Sys2Proof.Machine.Num.zero else .pow2 ((k.toNat : Int) - 25)
    (y.tag = x.tag → isFIX → ∃ q : Row, q.tag = 12 ∧ q.eb = 0 ∧
      (∀ u, u < 4 → ∀ i, i < 256 → q.bits.getLsbD (256 * u + i) = decide (i < n ∧ plane i = u)) ∧
      GivesRow (.vcmp p d a b) s 5 d 2 q (sigOver n U ||| sigOver n V)) ∧
    (m.tag = 12 → y.tag = x.tag → isFIX → GivesLanes (.vsel p d a b) s 5 d 2 x.tag (maxBound x.eb y.eb)
      (fun i => if set i then x.lane i else y.lane i) 0) ∧
    (m.tag = 12 → y.tag = 12 → x.tag = 12 → ∃ q : Row, q.tag = 12 ∧ q.eb = maxBound x.eb y.eb ∧
      (∀ i, i < 1024 → q.bits.getLsbD i = if set (i % 256) then x.bits.getLsbD i else y.bits.getLsbD i) ∧
      GivesRow (.vsel p d a b) s 5 d 2 q 0) ∧
    (s.rdPois c r = false → GivesLanes (.vbcast p d t c r) s 5 d 2 (laneTagCode t) 0
      (fun _ => if t = .tf6 then v.toNat % 64 else v.toNat) 0) ∧
    (isFIX → jn < n → GivesScalar (.vext p sd a j) s 5 .b sd 2
      (if x.tag = 9 then BitVec.ofNat 64 (byte x jn)
        else if 6 ≤ x.tag.toNat ∧ x.tag.toNat ≤ 8 then BitVec.ofInt 64 (intValue (tagWidth x.tag) true (x.lane jn))
        else BitVec.ofNat 64 (x.lane jn)) 0 false) ∧
    (1 ≤ m.tag.toNat ∧ m.tag.toNat ≤ 9 ∨ m.tag = 13 → jn < tagLanes m.tag → s.rdPois c r = false →
      let w := if m.tag = 9 then 8 else tagWidth m.tag
      jn < 1024 / w → ∃ q : Row, q.tag = m.tag ∧ q.eb = m.eb ∧
        (∀ i, i < 1024 / w → laneAt q.bits w i = if i = jn then v.toNat % 2 ^ w else laneAt m.bits w i) ∧
        GivesRow (.vins p d j c r) s 5 d 2 q 0) ∧
    (isFIX → y.tag = 8 → ∃ q : Row, q.tag = x.tag ∧ q.eb = x.eb ∧
      (∀ i, i < 128 → byte q i =
        let g := byte y i
        let e := byte x (4 * (i / 4) + g % 4)
        if g.testBit 7 then 0 else if g.testBit 6 then e % 16 * 16 + e / 16 else e) ∧
      GivesRow (.vbperm p d a b) s 5 d 2 q 0) ∧
    (x.tag = 9 → GivesLanes (.vnib p d a uns ilv half) s 5 d 2 8 0 (fun i =>
      let l := laneAt x.bits 4 (if ilv then 2 * i + (if half then 1 else 0) else (if half then 128 else 0) + i)
      if uns then l else (intValue 4 true l % 256).toNat) 0) ∧
    (x.tag ≠ 10 → x.tag ≠ 11 → x.tag ≠ 14 → x.tag ≠ 15 → GivesRow (.vtag p d a nt) s 5 d 2 ⟨x.bits, newTagCode nt, x.eb⟩ 0) ∧
    (1 ≤ x.tag.toNat ∧ x.tag.toNat ≤ 5 →
      GivesRow (.vbnd p d a .set k) s 5 d 2 ⟨x.bits, x.tag, boundOf con⟩ 0 ∧
      GivesRow (.vbnd p d a .add k) s 5 d 2 ⟨x.bits, x.tag, addBound x.eb con⟩ 0) ∧
    (x.tag ≠ 10 → x.tag ≠ 11 → x.tag ≠ 15 → x.boundFails s.iss.pre.thr = false → exec (.vbnd p d a .chk k) s = .next s) ∧
    (x.boundFails s.iss.pre.thr = true → exec (.vbnd p d a .chk k) s = .next (s.fault 5 ⟨9, 0x09, 0, 0⟩))

/-- VEXP2, VLOG2, VRCP, VRSQ, VTANH (R195, R135), and the reductions VRSUM, VRMAX and VRMIN (R130, R197, R198). -/
def Obligations.RowFunctionsAndReductions : Prop :=
  ∀ (s : State) (p : Pred) (d a : VReg), Acts s p →
    let x := s.rowRd a
    let n := tagLanes x.tag
    let U := fun j => laneNum x.tag (x.lane j)
    (∀ f, tagFmt x.tag = some f →
      let gives := fun (i : Instr) (fn : SpecialFn) =>
        let fine := ((List.range n).map U).filter fun u => u.isFin && (value f (roundTo f .rne (special fn u).1).1).isFin
        let ea := ebValue x.eb
        let prop : BitVec 16 := if x.eb = 0 then 0 else if ea.isInf then 0x7C00 else boundOf (nmul ea (dmax fn ea fine)).1
        GivesRounded i s d 8 x.tag f prop fun j => special fn (U j)
      gives (.vexp2 p d a) .exp2 ∧ gives (.vlog2 p d a) .log2 ∧ gives (.vrcp p d a) .rcp ∧ gives (.vrsq p d a) .rsq ∧
        gives (.vtanh p d a) .tanh) ∧
    (tagF x.tag = true →
      let r := tree 8 ((List.range n).map U)
      let eb := if r.2.1 &&& fOF ≠ 0 then 0x7C00 else
        addBound (boundOf (nmul (.ofNat n) (ebValue x.eb)).1) (nmul (.ofNat (n - 1)) (halfUlp .fp32 r.2.2)).1
      GivesLanes (.vrsum p d a) s 5 d 6 1 eb (fun j => if j = 0 then (roundTo .fp32 .rne r.1).1 else 0) r.2.1) ∧
    (tagI x.tag = true → ∃ q : Row, q.tag = 6 ∧ q.eb = 0 ∧
      q.bits.toNat = (((List.range n).map fun j => laneInt x.tag (x.lane j)).foldl (· + ·) 0 % 2 ^ 64).toNat ∧
      GivesRow (.vrsum p d a) s 5 d 6 q 0) ∧
    (tagF x.tag = true ∨ tagI x.tag = true ∨ x.tag = 13 →
      let best := fun mx => (((List.range (n - 1)).map fun j => (x.lane (j + 1), U (j + 1))).foldl
        (pickLane x.tag mx) (x.lane 0, U 0)).1
      GivesLanes (.vrmax p d a) s 5 d 6 x.tag x.eb (fun j => if j = 0 then best true else 0) (sigOver n U) ∧
      GivesLanes (.vrmin p d a) s 5 d 6 x.tag x.eb (fun j => if j = 0 then best false else 0) (sigOver n U))

/-- VCVT, VSCALE and VQUANT (R199 to R202, R133, R134, R136): lanes converted into the part of the result that `part` names, the
others kept from a vd of the target's tag or zero, and the bounds. -/
def Obligations.RowConversions : Prop :=
  ∀ (s : State) (p : Pred) (d a : VReg) (part : BitVec 2) (m : RMode) (dst : CvtDst) (c : Cluster) (r : SReg), Acts s p →
    let x := s.rowRd a
    let old := s.rowRd d
    let ns := tagLanes x.tag
    let U := fun j => laneNum x.tag (x.lane j)
    let v := s.rd c r
    let sc := value .fp32 (v.toNat % 2 ^ 32)
    let gives := fun (i : Instr) (t : BitVec 4) (q : Nat) (mode : RMode) (cv : Sys2Proof.Machine.Num → Nat × Flags) (e : BitVec 16) (rnd : Bool) =>
      let nt := tagLanes t
      let keep := ns < nt ∧ old.tag = t
      let first := if nt < ns then q * nt else 0
      let count := min ns nt
      let out := fun j => (cv (U (first + j))).1
      let F := orOver count fun j => (cv (U (first + j))).2
      let eb := match tagFmt t with
        | some f => if rnd then boundAfter f mode e count out F else if F &&& fOF ≠ 0 then 0x7C00 else e
        | none => 0
      GivesLanes i s 5 d 3 t (if keep then maxBound eb old.eb else eb)
        (fun j => if ns < nt then
            (if q * ns ≤ j ∧ j < q * ns + ns then out (j - q * ns) else if old.tag = t then old.lane j else 0)
          else out j) F
    let fits := fun (t : BitVec 4) (q : Nat) => q < max ns (tagLanes t) / min ns (tagLanes t)
    (1 ≤ x.tag.toNat ∧ x.tag.toNat ≤ 8 → fits (cvtTag dst) part.toNat →
      gives (.vcvt p d a part m dst) (cvtTag dst) part.toNat m (cvtLane x.tag (cvtTag dst) m)
        (if tagF x.tag then boundOf (ebValue x.eb) else 0) (!cvtExact x.tag (cvtTag dst))) ∧
    (∀ f, tagFmt x.tag = some f → s.rdPois c r = false →
      GivesRounded (.vscale p d a c r) s d 4 x.tag f (boundOf (nmul sc.abs (ebValue x.eb)).1) fun j => nmul (U j) sc) ∧
    (1 ≤ x.tag.toNat ∧ x.tag.toNat ≤ 3 → s.rdPois c r = false →
      let t : BitVec 4 := v.extractLsb' 32 4
      let mode := match (v.extractLsb' 36 2).toNat with | 0 => RMode.rne | 1 => .rtz | 2 => .rdn | _ => .rup
      let q := (v.extractLsb' 38 3).toNat
      t ∈ [2, 3, 4, 5, 7, 8, 9] → fits t q →
        gives (.vquant p d a c r) t q mode (quantLane t mode sc)
          (if sc.isNan || sc.isZero then 0x7C00 else boundOf (ndiv (ebValue x.eb) sc.abs).1) true)

/-- Tags and poison of VADD, VSUB, VMIN, VMAX, VSHL, VSHR, VSRA and VCMP (R36, R179, R181): a reserved tag is a format trap with detail 0, a tag the instruction does not
accept or unequal tags one with detail 1, and a Poison source among good tags gives a Poison row with no flag. -/
def Obligations.RowTagChecks : Prop :=
  ∀ (s : State) (p : Pred) (d a b : VReg), Acts s p →
    let x := s.rowRd a
    let y := s.rowRd b
    let bad := fun t : BitVec 4 => t = 10 ∨ t = 11 ∨ t = 15
    ∀ i ∈ [Instr.vadd p d a b, .vsub p d a b, .vmin p d a b, .vmax p d a b, .vshl p d a b, .vshr p d a b, .vsra p d a b,
        .vcmp p d a b],
      (bad x.tag ∨ bad y.tag → exec i s = .next (s.fault 5 ⟨8, 0x07, 0, 0⟩)) ∧
      (¬ bad x.tag → ¬ bad y.tag → x.tag ≠ 14 → y.tag ≠ 14 → x.tag ≠ y.tag ∨ x.tag = 0 ∨ x.tag = 12 →
        exec i s = .next (s.fault 5 ⟨8, 0x07, 1, 0⟩)) ∧
      (x.tag = 14 ∨ y.tag = 14 → (∀ t ∈ [x.tag, y.tag], t = 14 ∨ 1 ≤ t.toNat ∧ t.toNat ≤ 9 ∨ t = 13) →
        GivesRow i s 5 d 2 ⟨0, 14, 0x7C00⟩ 0)

/-! ## The matrix slot and the crossbar slot -/

namespace Sys2Proof.Machine

/-- The state with the core whose bundle is being issued changed; nothing else differs. -/
def State.alter (s : State) (f : Core → Core) : State :=
  { s with cores := s.cores.set s.cur.val (f (s.cores.get s.cur)) s.cur.isLt }

/-- The rows v to v + n − 1 of the bundle's operand read. -/
def State.rowsRd (s : State) (v : VReg) (n : Nat) : List Row := (List.range n).map fun i => s.rowRd (BitVec.ofNat 7 (v.toNat + i))

/-- Every row is tagged `t` or Poison. -/
def allTagged (t : BitVec 4) (rows : List Row) : Prop := ∀ r ∈ rows, r.tag = t ∨ r.tag = 14

end Sys2Proof.Machine

/-- The MX instructions (R209, R214, R216 to R223) on a free slot: those that occupy it load the sequencer, and the others set the
selection, the scales or the mode; on a busy slot each has the fault of an illegal-schedule trap (which of its faults the trap names is
R55's choice). -/
def Obligations.MatrixInstructions : Prop :=
  ∀ (s : State) (p : Pred) (d v : VReg) (n : BitVec 7) (w : Bool) (f : SwapSel) (df : DrainFmt) (h nsc : Bool) (a : SReg)
    (t : BitVec 4), Acts s p →
    let k := s.iss.pre
    let rows := s.rowsRd v n.toNat
    let bank := if k.sel then k.w1 else k.w0
    let same := bankTag bank.fmt = 0 ∨ (bankTag bank.fmt ∈ [4, 5, 8] ↔ t ∈ [4, 5, 8])
    let acc := ∀ i, i < n.toNat → k.beatPending (BitVec.ofNat 7 (d.toNat + i)) = false →
      (s.rowRd (BitVec.ofNat 7 (d.toNat + i))).tag = 1 ∨ (s.rowRd (BitVec.ofNat 7 (d.toNat + i))).tag = 14
    let x := s.rd .a a
    let runs := fun (i : Instr) (q : Seq) => exec i s = .next (s.alter fun c => { c with seq := q })
    (k.seq.kind = .idle →
      (t ∈ [2, 3, 4, 5, 8] → allTagged t rows →
        (same → runs (.mxMac p d v n) { kind := .mac, vd := d.toNat, vs := v.toNat, n := n.toNat, itick := k.tick }) ∧
        (same → acc → runs (.mxMaca p d v n) { kind := .maca, vd := d.toNat, vs := v.toNat, n := n.toNat, itick := k.tick }) ∧
        (k.bankBusy w = false → runs (.mxWload p w v n)
          { kind := .wload, vs := v.toNat, n := n.toNat, bank := w, h := k.h, itick := k.tick }) ∧
        (k.bankBusy w = true → ∃ z, exec (.mxWload p w v n) s = .next z ∧ z.iss.faults = s.iss.faults ++ [⟨4, 6, 0x03, 0x04, 0, 0⟩])) ∧
      (allTagged 1 rows → (∀ r ∈ rows, r.boundFails k.thr = false) →
        runs (.mxDrain p d v n) { kind := .drain, vd := d.toNat, vs := v.toNat, n := n.toNat, dfmt := k.dfmt, itick := k.tick }) ∧
      (allTagged 1 rows → (∃ r ∈ rows, r.boundFails k.thr = true) → ∃ z, exec (.mxDrain p d v n) s = .next z ∧
        z.iss.faults = s.iss.faults ++ [⟨9, 6, 0x09, 0, 0, 0⟩]) ∧
      runs (.mxClr p d n) { kind := .clr, vd := d.toNat, n := n.toNat, itick := k.tick } ∧
      exec (.mxWswap p f) s = .next (s.alter fun c => { c with
        sel := match f with | .toggle => !k.sel | .w0 => false | .w1 => true }) ∧
      ((s.rowRd v).tag = 2 → exec (.mxSscale p v) s = .next (s.alter fun c => { c with
        ss := Vector.ofFn fun i => (s.rowRd v).bits.extractLsb' (16 * i.val) 16 })) ∧
      (s.rdPois .a a = false →
        exec (.mxSscaleB p a) s = .next (s.alter fun c => { c with ss := Vector.replicate 64 (x.extractLsb' 0 16) }) ∧
        (k.bankBusy w = false → exec (.mxWscale p w a) s = .next (s.alter fun c => { c with
          w0 := if w then c.w0 else { c.w0 with ws := x.extractLsb' 0 16 }
          w1 := if w then { c.w1 with ws := x.extractLsb' 0 16 } else c.w1 }))) ∧
      exec (.mxMode p df h nsc) s = .next (s.alter fun c => { c with nsc := nsc, h := h, dfmt := df })) ∧
    (k.seq.kind ≠ .idle → ∀ i ∈ [Instr.mxMac p d v n, .mxMaca p d v n, .mxWload p w v n, .mxWswap p f, .mxDrain p d v n,
        .mxClr p d n, .mxSscale p v, .mxSscaleB p a, .mxWscale p w a, .mxMode p df h nsc],
      ∃ z more, exec i s = .next z ∧ z.iss.faults = s.iss.faults ++ ⟨4, 6, 0x03, 0x00, 0, 0⟩ :: more)

namespace Sys2Proof.Machine

/-- P of R125: the exact sum of the `g` products of processing-element row `r`, with the flags they raise. -/
def peRow (a w : Nat → Num) (g r : Nat) : Num × Flags :=
  (List.range g).foldl (fun x q =>
    let m := nmul (a (g * r + q)) (w (g * r + q))
    let z := nadd .rne x.1 m.1
    (z.1, x.2 ||| m.2 ||| z.2)) (.zero, 0)

/-- RoundTo(FP32, RNE, x) as a value and its flags, a zero being +0 (R127). -/
def toFp32 (x : Num) : Num × Flags :=
  let r := roundTo .fp32 .rne x
  (if (value .fp32 r.1).isZero then .zero else value .fp32 r.1, r.2)

/-- c(j, r) of R125 for one column, the flags raised so far, and the largest magnitude among c(j, 0) to c(j, r) (R137). -/
def columnTo (a w : Nat → Num) (g : Nat) : Nat → Num × Flags × Num
  | 0 =>
    let p := peRow a w g 0
    let y := toFp32 p.1
    (y.1, p.2 ||| y.2, if y.1.isFin then nmax y.1.abs .zero else .zero)
  | r + 1 =>
    let x := columnTo a w g r
    let p := peRow a w g (r + 1)
    let z := nadd .rne x.1 p.1
    let y := toFp32 z.1
    (y.1, x.2.1 ||| p.2 ||| z.2 ||| y.2, if y.1.isFin then nmax y.1.abs x.2.2 else x.2.2)

/-- A result is placed among those in flight in the order of their bundles, those of one tick in the order of their slots (R47, R463). -/
def JoinsInOrder (e : Entry) (old new : List Entry) : Prop :=
  let before := fun x : Entry => e.itick.toNat < x.itick.toNat ∨ e.itick = x.itick ∧ e.slot < x.slot
  ∃ l r, old = l ++ r ∧ new = l ++ e :: r ∧ (∀ x ∈ l, ¬ before x) ∧ ∀ x, r.head? = some x → before x

end Sys2Proof.Machine

/-- The steps of the beat sequencer (R125, R126, R133, R137, R138, R208, R209, R211, R212, R217, R218, R222, R223): a step of MX.MAC or
MX.MACA puts a beat in flight for 36 ticks, with the 32 column sums of its activation row against the selected bank, each rounded to FP32
in processing-element row order, the scale product, the bound and the flags, or a poisoned one; one of MX.DRAIN the drained row, for 3,
and one of MX.CLR a zero FP32 row, for 1; one of MX.WLOAD reads one more row, and the last one writes the bank; the last step frees the
slot. -/
def Stated.SequencerSteps : Prop :=
  ∀ k : Core,
    let q := k.seq
    let i := q.next
    let t := k.seqStep
    let row := k.v.toList.getD (q.vs + i) {}
    let bank := if k.sel then k.w1 else k.w0
    let seqMoves := t.seq = if i + 1 < q.n then { q with next := i + 1 } else {}
    let wide := row.tag = 2 ∨ row.tag = 3
    let fits := bankTag bank.fmt = 0 ∨ (wide ↔ bankTag bank.fmt ∈ [2, 3])
    let act := fun (h : Bool) (m : Nat) =>
      laneNum row.tag (if wide then laneAt row.bits 16 ((if h then 32 else 0) + m) else laneAt row.bits 8 m)
    let wt := fun (j : Fin 32) (m : Nat) => if bank.fmt = .none then Sys2Proof.Machine.Num.zero
      else laneNum (bankTag bank.fmt) (laneAt (bank.cols.get j) (if bankTag bank.fmt ∈ [2, 3] then 16 else 8) m)
    let g := if wide then 1 else 4
    let positions := if wide then 32 else 128
    let col := fun j : Fin 32 => columnTo (act k.h) (wt j) g 31
    let places := fun (pay : Payload) (pois : Bool) (r : Nat) (F : Flags) (keys : List Nat) =>
      JoinsInOrder ⟨pay, pois, r, F, 6, q.itick, .no, if pois then (k.oldest keys).getD noOrigin else k.here, {}⟩ k.infl t.infl
    (q.kind = .idle → t = k) ∧
    (q.kind = .mac ∨ q.kind = .maca → seqMoves ∧
      let vd := BitVec.ofNat 7 (q.vd + i)
      let acc := q.kind == .maca
      let keys := [porigKey 3 (q.vs + i), bankKey k.sel]
      let bad := row.tag = 14 ∨ bank.fmt = .poison
      let sp := if k.nsc then (0x3F800000, 0)
        else
          let m := nmul (value .bf16 (k.ss.toList.getD i 0x3F80).toNat) (value .bf16 bank.ws.toNat)
          let r := roundTo .fp32 .rne m.1
          (r.1, m.2 ||| r.2)
      let sum := fun u v => (nadd .rup u v).1
      let prod := fun u v => (nmul u v).1
      let A := topOver positions (act k.h)
      let ea := ebValue row.eb
      let ew := ebValue bank.ew
      let mc := largestOf ((List.finRange 32).map fun j => (col j).2.2)
      let e0 := boundOf (prod (.ofNat (32 * g)) (sum (sum (prod A ew) (prod (value .fp32 bank.w.toNat) ea)) (prod ea ew)))
      let e1 := addBound e0 (prod (.ofNat 32) (halfUlp .fp32 mc))
      (bad → places (.beat vd acc (Vector.replicate 32 0) 0x3F800000 0x7C00 k.sel) true 36 0 keys) ∧
      (¬ bad → fits → ∃ (sums : Vector Word32 32) (F : Flags),
        (∀ j : Fin 32, sums.get j = BitVec.ofNat 32 (roundTo .fp32 .rne (col j).1).1) ∧
        F = ((List.finRange 32).map fun j => (col j).2.1).foldl (· ||| ·) 0 ||| sp.2 ∧
        places (.beat vd acc sums (BitVec.ofNat 32 sp.1) (mulBound e1 (value .fp32 sp.1)) k.sel) false 36 F keys)) ∧
    (q.kind = .drain → seqMoves ∧
      let vd := BitVec.ofNat 7 (q.vd + i)
      let keys := [porigKey 3 (q.vs + i)]
      let f : Fmt := match q.dfmt with | .fp32 => .fp32 | .bf16 => .bf16 | .fp16 => .fp16
      let tag : BitVec 4 := match q.dfmt with | .fp32 => 1 | .bf16 => 2 | .fp16 => 3
      let y := fun j => roundTo f .rne (value .fp32 (laneAt row.bits 32 j))
      let F := orOver 32 fun j => (y j).2
      let e := boundOf (ebValue row.eb)
      (row.tag = 14 → places (.row vd ⟨0, 14, 0x7C00⟩) true 3 0 keys) ∧
      (row.tag ≠ 14 → ∃ x : Row,
        IsRow x tag (if F &&& fOF ≠ 0 then 0x7C00 else if q.dfmt = .fp32 then e else boundAfter f .rne e 32 (fun j => (y j).1) F)
          (fun j => if j < 32 then (y j).1 else 0) ∧
        places (.row vd x) false 3 F keys)) ∧
    (q.kind = .clr → seqMoves ∧ places (.row (BitVec.ofNat 7 (q.vd + i)) ⟨0, 1, 0⟩) false 1 0 []) ∧
    (q.kind = .wload →
      let bad := row.tag = 14
      let lanes : RowBits := if bad then 0
        else if wide then ((row.bits >>> (if q.h then 512 else 0)).setWidth 512).setWidth 1024 else row.bits
      let top := if bad then Sys2Proof.Machine.Num.zero else topOver positions (act q.h)
      let cols := q.cols ++ [lanes]
      let pois := q.poison || decide bad
      let tag := if bad then q.tag else row.tag
      let eb := maxBound q.eb row.eb
      let w := BitVec.ofNat 32 (roundTo .fp32 .rne (nmax (value .fp32 q.w.toNat) top)).1
      let written := fun b old : Bank => (∀ j : Fin 32, b.cols.get j = cols.getD j.val 0) ∧
        b.fmt = (if pois then .poison else tagBank tag) ∧ b.ew = eb ∧ b.w = w ∧ b.ws = old.ws
      t.infl = k.infl ∧
      (i + 1 < q.n → t.w0 = k.w0 ∧ t.w1 = k.w1 ∧
        t.seq = { q with next := i + 1, cols := cols, poison := pois, tag := tag, eb := eb, w := w, org := t.seq.org }) ∧
      (q.n ≤ i + 1 → t.seq = {} ∧ (q.bank = true → t.w0 = k.w0 ∧ written t.w1 k.w1) ∧
        (q.bank = false → t.w1 = k.w1 ∧ written t.w0 k.w0))) ∧
    t = { k with infl := t.infl, seq := t.seq, w0 := t.w0, w1 := t.w1, lorig := t.lorig }

/-- The landing of a beat (R126, R127, R137, R217): old + sum × scale product rounded once per lane, −0 written as +0, with its bound and
flags; a poisoned beat writes a Poison row, and so does one that accumulates into a Poison row. -/
def Stated.BeatsLand : Prop :=
  ∀ (old : Row) (acc : Bool) (sums : Vector Word32 32) (sp : Word32) (eb : BitVec 16) (F : Flags),
    let base := fun j => if acc then laneAt old.bits 32 j else 0
    let m := fun j => nmul (value .fp32 (sums.toList.getD j 0).toNat) (value .fp32 sp.toNat)
    let z := fun j => nadd .rne (value .fp32 (base j)) (m j).1
    let r := fun j => (roundTo .fp32 .rne (z j).1).1
    let out := fun j => if r j = 0x80000000 then 0 else r j
    let G := F ||| orOver 32 fun j => (m j).2 ||| (z j).2 ||| (roundTo .fp32 .rne (z j).1).2
    let x := landBeat old acc sums sp eb false F
    (acc = false ∨ old.tag ≠ 14 →
      IsRow x.1 1 (if G &&& fOF ≠ 0 then 0x7C00
        else addBound (if acc then addBound old.eb (ebValue eb) else eb) (halfUlp .fp32 (topOver 32 fun j => value .fp32 (out j)))) out ∧
      x.2 = G) ∧
    (acc = true → old.tag = 14 → x = (⟨0, 14, 0x7C00⟩, 0)) ∧
    landBeat old acc sums sp eb true F = (⟨0, 14, 0x7C00⟩, 0)

/-- The beat sequencer and the landing of a beat (R125, R126, R137, R138, R209, R211, R212, R217, R218, R222, R223): both statements above. -/
def Obligations.MatrixBeats : Prop := Stated.SequencerSteps ∧ Stated.BeatsLand

/-- The lane crossbar (R224 to R227): XP.PERM scatters, XP.SHUF gathers, XP.ROT rotates, XP.SLIDE shifts in zeros, XP.SPLAT
repeats; the tag and the bound move with the row. -/
def Obligations.CrossbarMoves : Prop :=
  ∀ (s : State) (p : Pred) (d a b : VReg) (c : Cluster) (r : SReg), Acts s p →
    let x := s.rowRd a
    let y := s.rowRd b
    let t := x.tag
    let n := tagLanes t
    let ctl := fun i => laneAt y.bits 8 i
    let v := s.rd c r
    let gives := fun (i : Instr) (f : Nat → Nat) => GivesLanes i s 7 d 3 t x.eb f 0
    let inRange := ∀ i, i < n → ctl i < 128 → ctl i < n
    let rot := t.toNat ≤ 9 ∨ t = 13
    (t.toNat ≤ 8 ∨ t = 13 → y.tag = 8 →
      (inRange → (∀ i j, i < j → j < n → ctl i < 128 → ctl i ≠ ctl j) → gives (.xpPerm p d a b) fun q =>
        match (List.range n).find? fun i => ctl i == q with | some i => x.lane i | none => 0) ∧
      (inRange → gives (.xpShuf p d a b) fun q => if ctl q < 128 then x.lane (ctl q) else 0) ∧
      ((∃ i, i < n ∧ ctl i < 128 ∧ n ≤ ctl i) → exec (.xpShuf p d a b) s = .next (s.fault 7 ⟨8, 0x07, 2, 0⟩) ∧
        ((∀ i j, i < j → j < n → ctl i < n → ctl i ≠ ctl j) → exec (.xpPerm p d a b) s = .next (s.fault 7 ⟨8, 0x07, 2, 0⟩))) ∧
      ((∃ i j, i < j ∧ j < n ∧ ctl i < 128 ∧ ctl i = ctl j) → inRange →
        ∃ z, exec (.xpPerm p d a b) s = .next z ∧ z.iss.faults = s.iss.faults ++ [⟨4, 7, 0x03, 0x05, 0, 0⟩])) ∧
    (rot → s.rdPois c r = false →
      gives (.xpRot p d a c r) (fun q => x.lane ((q + n - v.toNat % n) % n)) ∧
      gives (.xpSlide p d a c r) (fun q =>
        let i : Int := (q : Int) - v.toInt
        if 0 ≤ i ∧ i < n then x.lane i.toNat else 0) ∧
      (v.toNat < n → gives (.xpSplat p d a c r) fun _ => x.lane v.toNat) ∧
      (n ≤ v.toNat → exec (.xpSplat p d a c r) s = .next (s.fault 7 ⟨8, 0x07, 2, 0⟩)))

/-- The sorting network, the candidate lists and the sampler (R228 to R233, R403 to R414): the list or the register that each
instruction gives, and its latency, with good operands and records. -/
def Obligations.ListsAndSampler : Prop :=
  ∀ (s : State) (p : Pred) (d a b : VReg) (l q : Fin 4) (c : Cluster) (r sd : SReg) (k n : BitVec 6), Acts s p →
    let x := s.rowRd a
    let y := s.rowRd b
    let z := s.rowRd (a + 1)
    let core := s.iss.pre
    let old := core.cl.get l
    let src := core.cl.get q
    let v := s.rd c r
    let u := s.rd .b sd
    let word := fun e : Cand => e.id.setWidth 64 <<< 32 ||| e.score.setWidth 64
    let isF := 1 ≤ x.tag.toNat ∧ x.tag.toNat ≤ 5
    let lanes := fun w : Row => (List.range (tagLanes w.tag)).map fun j => laneNum w.tag (w.lane j)
    let count := (v.extractLsb' 32 16).toNat
    let base := (v.extractLsb' 0 32).toNat
    let fresh := ((List.range (min count (tagLanes x.tag))).filter fun j =>
      !(laneNum x.tag (x.lane j)).isNan && decide (base + j < 2 ^ 32 - 1)).map fun j =>
        (⟨BitVec.ofNat 32 (roundTo .fp32 .rne (laneNum x.tag (x.lane j))).1, BitVec.ofNat 32 (base + j)⟩ : Cand)
    let score := fun j => BitVec.ofNat 32 (roundTo .fp32 .rne (laneNum x.tag (x.lane j))).1
    let ranked := (rank (fun u w : Word32 => ncmp (value .fp32 u.toNat) (value .fp32 w.toNat) == .gt)
      (((List.range (tagLanes x.tag)).filter fun j => !(laneNum x.tag (x.lane j)).isNan).map score))
    let pairs := (List.range 32).map fun i => (⟨value .fp32 (laneAt x.bits 32 i), laneAt y.bits 32 i, i⟩ : SortPair)
    (x.tag = 1 → y.tag = 13 → GivesLanes (.xsSort p d a b) s 7 d 6 8 0
      (fun j => if j < 32 then ((rank SortPair.before pairs).map (·.lane)).getD j 0 else 0x80) (sigOver 32 fun j => value .fp32 (x.lane j))) ∧
    (isF → s.rdPois c r = false → GivesList (.xsMerge p l c r a) s l 4
      ⟨(rank Cand.before (old.ents ++ fresh)).take 64, old.poison⟩
      (if old.poison then 0 else sigOver (min count (tagLanes x.tag)) fun j => laneNum x.tag (x.lane j))) ∧
    GivesList (.xsMergeL p l q) s l 4 ⟨(rank Cand.before (old.ents ++ src.ents)).take 64, old.poison || src.poison⟩ 0 ∧
    GivesList (.xsClr p l) s l 1 ⟨[], false⟩ 0 ∧
    GivesScalar (.xsRdc p sd l k) s 7 .b sd 2 (word (old.ents.getD k.toNat ⟨0xFF800000, 0xFFFFFFFF⟩)) 0 old.poison ∧
    (isF → GivesScalar (.xsKth p sd a k) s 7 .b sd 6 ((ranked.getD k.toNat 0xFF800000).setWidth 64)
      (sigOver (tagLanes x.tag) fun j => laneNum x.tag (x.lane j)) false) ∧
    (∀ rc, s.rdPois c r = false → v.toNat < 2 ^ 20 → core.penRec v.toNat = .ok rc → x.tag = 13 → (32 < n.toNat → z.tag = 13) →
      old.poison = false →
      let path := (lanesOf x.bits 32 ++ (if 32 < n.toNat then lanesOf z.bits 32 else [])).take n.toNat
      GivesList (.xsPenal p l c r a n) s l 6 ⟨rank Cand.before (old.ents.map fun e => (penalise rc path e).1), false⟩
        (orFlags (old.ents.map fun e => (penalise rc path e).2))) ∧
    (∀ vv bm, s.rdPois c r = false → v.toNat < 2 ^ 20 → core.maskImage v.toNat = .ok (vv, bm) → old.poison = false →
      GivesList (.xsMask p l c r) s l 6 ⟨old.ents.filter fun e =>
        decide (e.id.toNat < vv) && (bm.getD (e.id.toNat / 8) 0).getLsbD (e.id.toNat % 8), false⟩ 0) ∧
    (s.rdPois .b sd = false → s.rdPois .b (sd + 1) = false → u.extractLsb' 28 4 = 0#4 → u.extractLsb' 0 20 = 0#20 →
      GivesScalar (.xsRand p sd k) s 7 .b sd 4
        (draw (s.rd .b (sd + 1)) (u.extractLsb' 32 32) (k.setWidth 32) ((u.extractLsb' 20 8).setWidth 32)) 0 false) ∧
    (∀ rc, s.rdPois .b sd = false → u.extractLsb' 20 12 = 0#12 → core.sampRec (u.extractLsb' 0 20).toNat = .ok rc →
      (old.poison = false → old.ents = [] → GivesScalar (.xsPick p sd l) s 7 .b sd 8 0xFFFFFFFF 0 false) ∧
      (old.poison = false → old.ents ≠ [] →
        let wt := weights rc.temp old.ents
        let ch := choose rc.topp wt.1 (unitDraw rc.seed (u.extractLsb' 32 32) 0 0)
        GivesScalar (.xsPick p sd l) s 7 .b sd 8
          (BitVec.ofNat 64 (ch.1 * 2 ^ 32) ||| (old.ents.getD ch.1 ⟨0xFF800000, 0xFFFFFFFF⟩).id.setWidth 64) (wt.2 ||| ch.2) false) ∧
      (old.poison = true → GivesScalar (.xsPick p sd l) s 7 .b sd 8 0 0 true) ∧
      (old.poison = false → x.tag = 13 → z.tag = 1 → (∀ w ∈ (lanes z).take n.toNat, unitRange w = true) →
        let wt := weights rc.temp old.ents
        let res := verifyLoop rc (u.extractLsb' 32 32) 0 (List.zip ((lanesOf x.bits 32).take n.toNat) ((lanes z).take n.toNat))
          (List.zip old.ents wt.1) wt.2
        GivesScalar (.xsVerify p sd l a n) s 7 .b sd 10 res.1 res.2 false))

/-! ## Memory -/

namespace Sys2Proof.Machine

/-- A byte, and the metadata word of its line, of the scratchpad as the bundle's operand read sees it. -/
abbrev State.padByte (s : State) (o : Nat) : Byte := sget 0 s.iss.pre.spad o

/-- The metadata word of the line that holds a scratchpad offset. -/
abbrev State.padMeta (s : State) (o : Nat) : BitVec 20 := sget 0 s.iss.pre.smeta (o / 128)

/-- The number that `n` scratchpad bytes spell, little-endian (R9). -/
def State.padNat (s : State) (o n : Nat) : Nat := ofLe ((List.range n).map fun i => s.padByte (o + i))

/-- A line that holds one of `n` scratchpad bytes is tagged Poison. -/
def State.padPois (s : State) (o n : Nat) : Bool := (List.range n).any fun i => metaTag (s.padMeta (o + i)) == 14

/-- The largest bound of the lines that hold `n` scratchpad bytes. -/
def State.padEb (s : State) (o n : Nat) : BitVec 16 :=
  (linesOf o n).foldl (fun e l => maxBound e (metaEb (sget 0 s.iss.pre.smeta l))) 0

/-- The state after a store of the issuing core's slot: the core changed, and, for MA, the bytes noted for R294. -/
def State.puts (s : State) (sl : MSlot) (spans : List (Nat × Nat)) (f : Core → Core) : State :=
  let t := s.alter f
  match sl with
  | .ma => { t with iss := { t.iss with
      maStore := t.iss.maStore ++ spans.flatMap fun x => (List.range x.2).map (x.1 + ·) } }
  | .mb => t

/-- The address of lane `j` of a gather or scatter: base + lane × scale; none for an empty Index lane (R290). -/
def laneAddr (base : Word) (x : Row) (f : BitVec 2) (j : Nat) : Option Nat :=
  let l := laneAt x.bits 32 j
  let scale := match f.toNat with | 0 => 1 | 1 => 4 | 2 => 16 | _ => 128
  if x.tag = 13 ∧ l = 0xFFFFFFFF then none
  else some (base + BitVec.ofInt 64 ((if x.tag = 13 then (l : Int) else intValue 32 true l) * scale)).toNat

/-- `n` bytes of one line, at virtual address `va`, lie in one page that the core's TLB holds, at linear address `da` of populated
processing memory, with the rights at the page and at the table, clear of open regions, host-held lines, standing errors, and of a channel
in self-refresh or behind a fence: an access of them does not fault, and does not wait for anything but the core's own earlier accesses. -/
def State.NearLine (s : State) (va da n : Nat) (r w : Bool) : Prop :=
  (∃ e, (s.core s.cur).tlbFind (s.partNum s.cur) va = some e ∧ e.dbase + (va - e.vbase) = da ∧ e.mtype = 0 ∧
    (r = true → e.r = true ∧ e.fr = true) ∧ (w = true → e.w = true ∧ e.fw = true)) ∧
  2 ^ 20 ≤ va ∧ va + n ≤ 2 ^ 48 ∧ va % 64 + n ≤ 64 ∧ da % 64 + n ≤ 64 ∧ da + n ≤ s.memTop ∧
  (r = true → (s.frisk s.cur.val da n true false).isSome) ∧ (w = true → (s.frisk s.cur.val da n true true).isSome) ∧
  (∀ a, da ≤ a → a < da + n → s.anyRegion a = false) ∧ s.hostLines = [] ∧ s.soft = [] ∧ s.tileWaits (da / 4096) = false

/-- The same for the bytes of one naturally aligned access. -/
def State.Near (s : State) (va da n : Nat) (r w : Bool) : Prop := s.NearLine va da n r w ∧ va % n = 0 ∧ da % n = 0

/-- No access of the core is pending, and no fence of the bundle orders the bundle's own accesses: nothing earlier is waited for. -/
def State.Calm (s : State) : Prop :=
  s.iss.pre.stores = [] ∧ (s.core s.cur).stores = [] ∧ s.iss.pre.pendingLoads = [] ∧ s.iss.fences = []

/-- The line that holds a linear address is delivered in clear to a master under a window: neither it nor its tile is poisoned, and the
tile is sealed under the key that the window's slot uses for its generation (R249, R443, R448). -/
def State.ClearFor (s : State) (win : Word) (a : Nat) : Prop :=
  let rec' := s.tileRec (a / 4096)
  rec'.poison = false ∧ rec'.sealPois = false ∧ rec'.sealEsc = rec'.esc ∧ s.poisLines.contains (a / 64) = false ∧ ∃ key, rec'.sl = .sealed key ∧ (s.keySlot (windowSlot win)).keyFor rec'.keygen = some key

/-- The pieces of units of memory, each cut at its 64-byte lines: virtual address and length, in order. -/
def lineCuts (units : List (Nat × Nat)) : List (Nat × Nat) := units.flatMap fun x => linePieces (x.2 / 64 + 2) x.1 x.2

/-- The pieces of units lie near, piece `i` at the linear address `das[i]`. -/
def State.NearUnits (s : State) (units : List (Nat × Nat)) (das : List Nat) (r w : Bool) : Prop :=
  das.length = (lineCuts units).length ∧ ∀ x ∈ List.zip (lineCuts units) das, s.NearLine x.1.1 x.2 x.1.2 r w

/-- The core may read those pieces in clear. -/
def State.ClearUnits (s : State) (units : List (Nat × Nat)) (das : List Nat) : Prop :=
  ∀ x ∈ List.zip (lineCuts units) das, ∃ win, s.frisk s.cur.val x.2 x.1.2 true false = some win ∧ s.ClearFor win x.2

/-- The bytes that memory holds at those pieces, in order. -/
def State.unitBytes (s : State) (units : List (Nat × Nat)) (das : List Nat) : List Byte :=
  (List.zip (lineCuts units) das).flatMap fun x => (List.range x.1.2).map fun i => sget 0 s.mem (x.2 + i)

/-- Bytes at the addresses of those pieces, in order. -/
def unitCells (units : List (Nat × Nat)) (das : List Nat) (bs : List Byte) : List (Nat × Byte) :=
  List.zip ((List.zip (lineCuts units) das).flatMap fun x => (List.range x.1.2).map (x.2 + ·)) bs

/-- A load completes: its scalar result of latency `lat` is in flight under its mark, and nothing else differs. -/
def LoadsScalar (i : Instr) (s : State) (slot : Nat) (c : Cluster) (d : SReg) (lat : Nat) (late : Late) (v : Word) (pois : Bool)
    (mark : LoadMark) : Prop :=
  ∃ org, exec i s = .next (s.plus ⟨.scalar c d (if pois then 0 else v), pois, lat, 0, slot, s.iss.pre.tick, late, org, mark⟩)

/-- The same for a row, loaded from the virtual address `va`. -/
def LoadsRow (i : Instr) (s : State) (slot : Nat) (d : VReg) (lat : Nat) (late : Late) (x : Row) (va : Nat) : Prop :=
  ∃ org, exec i s = .next (s.plus ⟨.row d x, x.tag = tagPoison, lat, 0, slot, s.iss.pre.tick, late, org, { va := va }⟩)

end Sys2Proof.Machine

/-- Loads from the scratchpad (R280, R281, R283 to R290): LD, LDA, LDM, VLD, VLDS and VGATH, with an unpoisoned base, aligned, within
the scratchpad; latency 4. A line tagged Poison gives a poisoned result. -/
def Obligations.ScratchpadLoads : Prop :=
  ∀ (s : State) (sl : MSlot) (p : Pred) (r b sr : SReg) (v iv : VReg) (t : ITy) (sc : Scope) (d8 : BitVec 8) (d6 : BitVec 6)
    (d9 : BitVec 9) (lt : LaneTag) (f : BitVec 2), Acts s p →
    let c := mCluster sl
    let m := slotM sl
    let n := t.width / 8
    let at' := fun (disp : Int) (unit : Nat) => (s.rd c b + BitVec.ofInt 64 (disp * unit)).toNat
    let isRow := fun (q : Row) (x : Row) => q.tag = x.tag ∧ q.eb = x.eb ∧ q.bits = x.bits
    let poison : Row := ⟨0, 14, 0x7C00⟩
    let val := fun o => BitVec.ofInt 64 (intValue t.width t.signed (s.padNat o n))
    s.rdPois c b = false →
    (let o := at' d8.toInt n;
      o % n = 0 → o + n ≤ 2 ^ 20 → LoadsScalar (.ld sl p r b t d8) s m c r 4 .no (val o) (s.padPois o n)
        { va := o, early := s.ownStore [(o, n)] }) ∧
    (let o := at' d6.toInt n;
      o % n = 0 → o + n ≤ 2 ^ 20 → LoadsScalar (.lda sl p r b t sc d6) s m c r 4 .no (val o) (s.padPois o n)
        { thenLoads := true, thenStores := true, va := o, early := s.ownStore [(o, n)] }) ∧
    (let o := at' d8.toInt 128;
      o < 2 ^ 20 → GivesScalar (.ldm sl p r b d8) s m c r 4 ((s.padMeta o).setWidth 64) 0 false) ∧
    (let o := at' d9.toInt 128;
      let tag := metaTag (s.padMeta o)
      (tag ∉ [5, 10, 11, 15] → o % 128 = 0 → o + 128 ≤ 2 ^ 20 → ∃ q : Row,
        (if tag = 14 then isRow q poison
          else q.tag = tag ∧ q.eb = metaEb (s.padMeta o) ∧ ∀ i, i < 128 → laneAt q.bits 8 i = (s.padByte (o + i)).toNat) ∧
        LoadsRow (.vld sl p v b d9) s m v 4 .no q o) ∧
      (tag = 5 → o % 32 = 0 → o + 96 ≤ 2 ^ 20 → ∃ q : Row,
        (if s.padPois o 96 = true then isRow q poison
          else q.tag = 5 ∧ q.eb = s.padEb o 96 ∧ ∀ i, i < 128 → laneAt q.bits 8 i = s.padNat o 96 / 64 ^ i % 64) ∧
        LoadsRow (.vld sl p v b d9) s m v 4 .no q o)) ∧
    (let unit := (vldsUnit lt).1
      let count := if lt = .tf6 then 32 else 128 / unit
      let o := fun u => (s.rd c b + BitVec.ofNat 64 u * s.rd c sr).toNat
      s.rdPois c sr = false → (∀ u, u < count → o u % (vldsUnit lt).2 = 0 ∧ o u + unit ≤ 2 ^ 20) → ∃ q : Row,
        (if (List.range count).any (fun u => s.padPois (o u) unit) then isRow q poison
          else q.tag = laneTagCode lt ∧
            q.eb = (List.range count).foldl (fun e u =>
              (linesOf (o u) unit).foldl (fun e l => maxBound e (metaEb (sget 0 s.iss.pre.smeta l))) e) 0 ∧
            if lt = .tf6 then ∀ u i, u < 32 → i < 4 → laneAt q.bits 8 (4 * u + i) = s.padNat (o u) 3 / 64 ^ i % 64
            else ∀ u i, u < count → i < unit → laneAt q.bits 8 (unit * u + i) = (s.padByte (o u + i)).toNat) ∧
        LoadsRow (.vlds sl p v b sr lt) s m v 4 .no q (o 0)) ∧
    (let x := s.rowRd iv
      let o := laneAddr (s.rd c b) x f
      x.tag = 6 ∨ x.tag = 13 → (∀ j a, j < 32 → o j = some a → a % 4 = 0 ∧ a + 4 ≤ 2 ^ 20) →
        ((∀ j, j < 32 → o j = none) → GivesRow (.vgath sl p v b iv f) s m v 4 ⟨0, 0, 0⟩ 0) ∧
        ∀ j a, j < 32 → o j = some a → (∀ i, i < j → o i = none) → metaTag (s.padMeta a) ∉ [10, 11, 15] → ∃ q : Row,
          (if (List.range 32).any (fun i => match o i with | some u => s.padPois u 4 | none => false) then isRow q poison
            else q.tag = (if metaTag (s.padMeta a) = 5 then 0 else metaTag (s.padMeta a)) ∧
              q.eb = (List.range 32).foldl (fun e i => match o i with
                | some u => maxBound e (metaEb (s.padMeta u))
                | none => e) 0 ∧
              ∀ i, i < 32 → laneAt q.bits 32 i = match o i with | some u => s.padNat u 4 | none => 0) ∧
          LoadsRow (.vgath sl p v b iv f) s m v 4 .no q a)

/-- Stores to the scratchpad and atomics on it (R281, R283, R285, R288, R290, R291, R139): exactly the bytes of the access change, and
the metadata of the lines that a vector store touches; every other byte, line and part of the machine stays. -/
def Obligations.ScratchpadStores : Prop :=
  ∀ (s : State) (sl : MSlot) (p : Pred) (r b rs : SReg) (v iv : VReg) (t : ITy) (sc : Scope) (d8 : BitVec 8) (d6 : BitVec 6)
    (d9 : BitVec 9) (f : BitVec 2) (op : AmoOp) (e : AmoOrd) (sys : Bool), Acts s p →
    let c := mCluster sl
    let n := t.width / 8
    let k := s.core s.cur
    let at' := fun (disp : Int) (unit : Nat) => (s.rd c b + BitVec.ofInt 64 (disp * unit)).toNat
    let byteOf := fun (x : Nat) (i : Nat) => (BitVec.ofNat 8 (x / 256 ^ i) : Byte)
    let now := fun o => sget 0 k.spad o
    let nowMeta := fun l => sget 0 k.smeta l
    let writes := fun (m : List (Nat × Byte)) (o n : Nat) (x : Nat) =>
      ∀ a, sget 0 m a = if o ≤ a ∧ a < o + n then byteOf x (a - o) else now a
    let data := (s.rd c r).toNat
    let keepTag := fun (old new : BitVec 4) => if old = 14 then (14 : BitVec 4) else new
    s.rdPois c b = false →
    (s.rdPois c r = false →
      (let o := at' d8.toInt n;
        o % n = 0 → o + n ≤ 2 ^ 20 → ∃ m, writes m o n data ∧
          exec (.st sl p r b t d8) s = .next (s.puts sl [(o, n)] fun k => { k with spad := m })) ∧
      (let o := at' d6.toInt n;
        o % n = 0 → o + n ≤ 2 ^ 20 → ∃ m, writes m o n data ∧
          exec (.stl sl p r b t sc d6) s = .next (s.puts sl [(o, n)] fun k => { k with spad := m }))) ∧
    (let x := s.rowRd v
      let o := at' d9.toInt 128
      (x.tag ∉ [5, 10, 11, 14, 15] → x.boundFails s.iss.pre.thr = false → o % 128 = 0 → o + 128 ≤ 2 ^ 20 → ∃ m md,
        writes m o 128 x.bits.toNat ∧
        (∀ l, sget 0 md l = if l = o / 128 then mkMeta x.tag (if tagF x.tag then x.eb else metaEb (nowMeta l)) else nowMeta l) ∧
        exec (.vst sl p v b d9) s = .next (s.puts sl [(o, 128)] fun k => { k with spad := m, smeta := md })) ∧
      (x.tag = 5 → (∀ j, j < 128 → laneAt x.bits 8 j < 64) → x.boundFails s.iss.pre.thr = false → o % 32 = 0 → o + 96 ≤ 2 ^ 20 →
        ∃ m md, writes m o 96 (packNat 6 (lanesOf x.bits 8)) ∧
        (∀ l, sget 0 md l = if o / 128 ≤ l ∧ l ≤ (o + 95) / 128 then
            mkMeta (keepTag (metaTag (nowMeta l)) 5) (maxBound (metaEb (nowMeta l)) x.eb) else nowMeta l) ∧
        exec (.vst sl p v b d9) s = .next (s.puts sl [(o, 96)] fun k => { k with spad := m, smeta := md }))) ∧
    (let x := s.rowRd v
      let ix := s.rowRd iv
      let o := laneAddr (s.rd c b) ix f
      let spans := (List.range 32).filterMap fun j => (o j).map fun a => (a, 4)
      x.tag ∉ [5, 10, 11, 14, 15] → x.boundFails s.iss.pre.thr = false → ix.tag = 6 ∨ ix.tag = 13 →
      (∀ j a, j < 32 → o j = some a → a % 4 = 0 ∧ a + 4 ≤ 2 ^ 20) → spans ≠ [] → ∃ m md,
        (∀ a, sget 0 m a = match (List.range 32).reverse.find? fun j => o j == some (a / 4 * 4) with
          | some j => BitVec.ofNat 8 (laneAt x.bits 8 (4 * j + a % 4))
          | none => now a) ∧
        (∀ l, sget 0 md l = if (List.range 32).any fun j => (o j).map (· / 128) == some l then
            mkMeta (keepTag (metaTag (nowMeta l)) x.tag) (if tagF x.tag then maxBound (metaEb (nowMeta l)) x.eb else metaEb (nowMeta l))
          else nowMeta l) ∧
        exec (.vscat sl p v b iv f) s = .next (s.puts sl spans fun k => { k with spad := m, smeta := md })) ∧
    (let o := (s.rd c b).toNat;
      let old := BitVec.ofNat 64 (s.padNat o 8)
      let x := s.rd c rs
      let new := match op with
        | .swap => x | .add => old + x | .and => old &&& x | .or => old ||| x | .xor => old ^^^ x
        | .min => if x.toInt < old.toInt then x else old
        | .max => if old.toInt < x.toInt then x else old
        | .maxn => if old.toNat < x.toNat then x else old
      let gives := fun (i : Instr) (m : List (Nat × Byte)) (v : Word) (z : Bool) => ∃ org, exec i s = .next
        ((s.alter fun k => { k with spad := m }).plus
          ⟨.scalar c r v, z, 4, 0, slotM sl, s.iss.pre.tick, .no, org, { atom := true }⟩)
      s.rdPois c rs = false → s.rdPois c r = false → o % 8 = 0 → o + 8 ≤ 2 ^ 20 →
      (s.padPois o 8 = true → gives (.amo sl p r b rs op e sys) k.spad 0 true ∧ gives (.cas sl p r b rs e sys) k.spad 0 true) ∧
      (s.padPois o 8 = false → ∃ m, writes m o 8 new.toNat ∧ gives (.amo sl p r b rs op e sys) m old false) ∧
      (s.padPois o 8 = false → old = s.rd c r →
        ∃ m, writes m o 8 x.toNat ∧ gives (.cas sl p r b rs e sys) m old false) ∧
      (s.padPois o 8 = false → old ≠ s.rd c r → gives (.cas sl p r b rs e sys) k.spad old false))

/-- Scalar accesses of processing memory (R282, R284, R286, R291, R443) that neither fault nor wait: a load's result, of latency 10,
is the bytes of the sealed tile, and waits for the core's earlier accesses that a fence or an LDA has marked (R267, R269); a store joins
the core's queue of stores and changes no byte of memory until it is performed; AMO and CAS write exactly their eight bytes. -/
def Stated.ScalarsInMemory : Prop :=
  ∀ (s : State) (sl : MSlot) (p : Pred) (r b rs : SReg) (t : ITy) (sc : Scope) (d8 : BitVec 8) (d6 : BitVec 6) (op : AmoOp)
    (e : AmoOrd) (sys : Bool) (da : Nat) (win : Word), Acts s p →
    let c := mCluster sl
    let n := t.width / 8
    let at' := fun (disp : Int) (unit : Nat) => (s.rd c b + BitVec.ofInt 64 (disp * unit)).toNat
    let memNat := fun n => ofLe ((List.range n).map fun i => sget 0 s.mem (da + i))
    let loads := fun (i : Instr) (acq : Bool) (va : Nat) =>
      LoadsScalar i s (slotM sl) c r 10 .mem (BitVec.ofInt 64 (intValue t.width t.signed (memNat n))) false
        { thenLoads := acq, thenStores := acq, va := va, early := s.ownStore [(va, n)] }
    let apart := s.iss.fences = [] ∧ s.newStores = [] ∧
      ∀ x ∈ s.iss.pre.stores, ∀ b ∈ x.bytes, ∃ a, s.linearOf b.1 = some a ∧ a / 4096 ≠ da / 4096
    let heldFor := fun (i : Instr) =>
      ((∃ x ∈ s.iss.pre.pendingLoads, x.mark.thenLoads = true) → exec i s = .next (s.holdFor .late)) ∧
      (s.iss.pre.pendingLoads = [] → (∃ x ∈ s.iss.pre.stores, x.thenLoads = true) → exec i s = .next (s.holdFor .store))
    let stores := fun (i : Instr) (va : Nat) (rel : Bool) => exec i s = .next (s.puts sl [(va, n)] fun k => { k with
      stores := k.stores ++ [⟨va, (List.range n).map fun i => (da + i, BitVec.ofNat 8 ((s.rd c r).toNat / 256 ^ i)), none, rel, false,
        false, false, [], [], s.iss.pre.tick, slotM sl⟩] })
    s.rdPois c b = false →
    (s.frisk s.cur.val da n true false = some win → s.ClearFor win da →
      (s.Near (at' d8.toInt n) da n true false → (s.Calm → loads (.ld sl p r b t d8) false (at' d8.toInt n)) ∧ (apart → heldFor (.ld sl p r b t d8))) ∧
      (s.Near (at' d6.toInt n) da n true false →
        (s.Calm → loads (.lda sl p r b t sc d6) true (at' d6.toInt n)) ∧ (apart → heldFor (.lda sl p r b t sc d6)))) ∧
    (s.rdPois c r = false →
      (s.Near (at' d8.toInt n) da n false true → stores (.st sl p r b t d8) (at' d8.toInt n) false) ∧
      (s.Near (at' d6.toInt n) da n false true → stores (.stl sl p r b t sc d6) (at' d6.toInt n) true)) ∧
    (let old := BitVec.ofNat 64 (memNat 8)
      let x := s.rd c rs
      let new := match op with
        | .swap => x | .add => old + x | .and => old &&& x | .or => old ||| x | .xor => old ^^^ x
        | .min => if x.toInt < old.toInt then x else old
        | .max => if old.toInt < x.toInt then x else old
        | .maxn => if old.toNat < x.toNat then x else old
      let rw := fun (i : Instr) (z : Word) => ∃ u org, exec i s = .next u ∧
        (∀ a, sget 0 u.mem a = if da ≤ a ∧ a < da + 8 then BitVec.ofNat 8 (z.toNat / 256 ^ (a - da)) else sget 0 s.mem a) ∧
        (u.tileRec (da / 4096)).ftag = (s.tileRec (da / 4096)).ftag ∧ (u.tileRec (da / 4096)).eb = (s.tileRec (da / 4096)).eb ∧
        (∀ q, q ≠ da / 4096 → u.tileRec q = s.tileRec q) ∧
        u.cores = (s.plus ⟨.scalar c r old, false, 10, 0, slotM sl, s.iss.pre.tick, .mem, org,
          { atom := true, va := (s.rd c b).toNat }⟩).cores ∧
        u = { s with cores := u.cores, mem := u.mem, recs := u.recs, stale := u.stale, badRows := u.badRows }
      s.Near (s.rd c b).toNat da 8 true true → s.Calm → s.frisk s.cur.val da 8 true false = some win → s.ClearFor win da →
      s.frisk s.cur.val da 8 true true = some win → (s.keySlot (windowSlot win)).key.isSome →
      s.exhausted (windowSlot win) (da / 4096) = false → s.rdPois c rs = false → s.rdPois c r = false →
      rw (.amo sl p r b rs op e sys) new ∧
      (old = s.rd c r → rw (.cas sl p r b rs e sys) x) ∧
      (old ≠ s.rd c r → ∃ org, exec (.cas sl p r b rs e sys) s = .next (s.plus
        ⟨.scalar c r old, false, 10, 0, slotM sl, s.iss.pre.tick, .mem, org, { atom := true, va := (s.rd c b).toNat }⟩)))

/-- The vector accesses of processing memory, and LDM (R280 to R282, R284, R287 to R290), that neither fault nor wait: a load's row, of
latency 10, has the tag of the tile at its first byte and the largest bound of its tiles, or VLDS's tag, and the bytes of its units in
order; TF6 lanes lie packed in six bits. A store joins the core's queue of stores with its tag and bound, and changes no byte of memory
until it is performed. LDM gives the record of the tile. -/
def Stated.RowsInMemory : Prop :=
  ∀ (s : State) (sl : MSlot) (p : Pred) (r b sr : SReg) (v iv : VReg) (d8 : BitVec 8) (d9 : BitVec 9) (lt : LaneTag) (f : BitVec 2)
    (das : List Nat), Acts s p → s.rdPois (mCluster sl) b = false →
    let c := mCluster sl
    let m := slotM sl
    let at' := fun (disp : Int) (unit : Nat) => (s.rd c b + BitVec.ofInt 64 (disp * unit)).toNat
    let o := at' d9.toInt 128
    let tag := (s.tileRec (das.headD 0 / 4096)).ftag
    let eb := fun as : List Nat => (as.map fun a => (s.tileRec (a / 4096)).eb).foldr maxBound 0
    let bytes := fun (q : Row) (bs : List Byte) => ∀ i, i < 128 → laneAt q.bits 8 i = (bs.getD i 0).toNat
    let sixes := fun (q : Row) (bs : List Byte) => ∀ i, i < 128 → laneAt q.bits 8 i = ofLe bs / 64 ^ i % 64
    let readable := fun units : List (Nat × Nat) => s.NearUnits units das true false ∧ s.ClearUnits units das
    let stored := fun (i : Instr) (va : Nat) (units : List (Nat × Nat)) (cells : List (Nat × Byte)) (x : Row) =>
      exec i s = .next (s.puts sl units fun k => { k with
        stores := k.stores ++ [⟨va, cells, some (x.tag, x.eb), false, false, false, false, [], [], s.iss.pre.tick, m⟩] })
    (s.Calm →
      (tag ∉ [5, 10, 11, 14, 15] → o % 128 = 0 → readable [(o, 128)] → ∃ q : Row, q.tag = tag ∧ q.eb = eb das ∧
        bytes q (s.unitBytes [(o, 128)] das) ∧ LoadsRow (.vld sl p v b d9) s m v 10 .mem q o) ∧
      (tag = 5 → o % 32 = 0 → readable [(o, 96)] → ∃ q : Row, q.tag = 5 ∧ q.eb = eb das ∧
        sixes q (s.unitBytes [(o, 96)] das) ∧ LoadsRow (.vld sl p v b d9) s m v 10 .mem q o) ∧
      (let unit := (vldsUnit lt).1
        let count := if lt = .tf6 then 32 else 128 / unit
        let u := fun i => (s.rd c b + BitVec.ofNat 64 i * s.rd c sr).toNat
        let units := (List.range count).map fun i => (u i, unit)
        s.rdPois c sr = false → (∀ i, i < count → u i % (vldsUnit lt).2 = 0) → readable units →
          ∃ q : Row, q.tag = laneTagCode lt ∧ q.eb = eb das ∧
            (if lt = .tf6 then sixes q (s.unitBytes units das) else bytes q (s.unitBytes units das)) ∧
            LoadsRow (.vlds sl p v b sr lt) s m v 10 .mem q (u 0)) ∧
      (let x := s.rowRd iv
        let g := laneAddr (s.rd c b) x f
        let units := (List.range 32).filterMap fun j => (g j).map fun a => (a, 4)
        x.tag = 6 ∨ x.tag = 13 → (∀ y ∈ units, y.1 % 4 = 0) → units ≠ [] → tag ∉ [10, 11, 14, 15] → readable units →
          ∃ q : Row, q.tag = (if tag = 5 then 0 else tag) ∧ q.eb = eb das ∧
            (∀ j, j < 32 → laneAt q.bits 32 j = match g j with
              | some _ => ofLe (((s.unitBytes units das).drop
                  (4 * ((List.range j).filter fun i => (g i).isSome).length)).take 4)
              | none => 0) ∧
            LoadsRow (.vgath sl p v b iv f) s m v 10 .mem q (units.headD (0, 0)).1) ∧
      (∀ da,
        let ea := at' d8.toInt 128
        let t := s.tileRec (da / 4096)
        s.NearLine ea da 1 true false → LoadsScalar (.ldm sl p r b d8) s m c r 10 .mem
          (t.version.setWidth 64 <<< 32 ||| t.keygen.setWidth 64 <<< 24 ||| (if t.esc then 1#64 <<< 21 else 0) |||
            (if t.poison then 1#64 <<< 20 else 0) ||| t.ftag.setWidth 64 <<< 16 ||| t.eb.setWidth 64) false { va := ea })) ∧
    (let x := s.rowRd v;
      x.tag ∉ [5, 10, 11, 14, 15] → x.boundFails s.iss.pre.thr = false →
      (o % 128 = 0 → s.NearUnits [(o, 128)] das false true → stored (.vst sl p v b d9) o [(o, 128)]
        (unitCells [(o, 128)] das ((List.range 128).map fun i => BitVec.ofNat 8 (laneAt x.bits 8 i))) x) ∧
      (let ix := s.rowRd iv
        let g := laneAddr (s.rd c b) ix f
        let units := (List.range 32).filterMap fun j => (g j).map fun a => (a, 4)
        ix.tag = 6 ∨ ix.tag = 13 → (∀ y ∈ units, y.1 % 4 = 0) → units ≠ [] → s.NearUnits units das false true →
          stored (.vscat sl p v b iv f) (units.headD (0, 0)).1 units (unitCells units das
            (((List.range 32).filter fun j => (g j).isSome).flatMap fun j =>
              (List.range 4).map fun i => BitVec.ofNat 8 (laneAt x.bits 8 (4 * j + i)))) x)) ∧
    (let x := s.rowRd v;
      x.tag = 5 → (∀ j, j < 128 → laneAt x.bits 8 j < 64) → x.boundFails s.iss.pre.thr = false → o % 32 = 0 →
      s.NearUnits [(o, 96)] das false true → stored (.vst sl p v b d9) o [(o, 96)]
        (unitCells [(o, 96)] das ((List.range 96).map fun i => BitVec.ofNat 8 (packNat 6 (lanesOf x.bits 8) / 256 ^ i))) x)

/-- The accesses of processing memory by MA and MB (R280 to R291, R443): both statements above. -/
def Obligations.ProcessingMemoryAccess : Prop := Stated.ScalarsInMemory ∧ Stated.RowsInMemory

/-- FENCE, DRAIN, PREF, CLEAN and INVAL (R267, R268, R292, R293): a fence marks the accesses that were pending before its bundle, the
last store against later stores and all of them against later loads, the loads against later loads or stores, and holds nothing; DRAIN
waits for all of them (a scope orders for every observer, log entry 88). And the faults of the memory slots that come before any access:
a poisoned base or poisoned data is the deferred data trap (R285), a misaligned offset an alignment fault (R281), an address beyond
2^48 a translation fault (R257). -/
def Obligations.MemoryOrderAndFaults : Prop :=
  ∀ (s : State) (sl : MSlot) (p : Pred) (r b rs : SReg) (v iv : VReg) (t : ITy) (sc : Scope) (h : PrefHint) (g : Granule)
    (d8 : BitVec 8) (d6 : BitVec 6) (d9 : BitVec 9) (lt : LaneTag) (f : BitVec 2) (op : AmoOp) (e : AmoOrd) (sys : Bool), Acts s p →
    let c := mCluster sl
    let m := slotM sl
    let k := s.iss.pre
    let n := t.width / 8
    let o := (s.rd c b + BitVec.ofInt 64 (d8.toInt * n)).toNat
    let lastFenced := fun xs : List PendStore => xs.dropLast ++ xs.getLast?.toList.map fun x => { x with fenced := true }
    let fences := fun (fk : FenceKind) (rr rw wr ww : Bool) => exec (.fence sl p fk sc) s = .next (s.alter fun q => { q with
      stores := ((if ww then lastFenced (q.stores.take k.stores.length) else q.stores.take k.stores.length).map fun x =>
        { x with thenLoads := x.thenLoads || wr }) ++ q.stores.drop k.stores.length
      infl := ((q.infl.take k.infl.length).map fun x => { x with mark := { x.mark with
        thenLoads := x.mark.thenLoads || rr, thenStores := x.mark.thenStores || rw } }) ++ q.infl.drop k.infl.length })
    fences .rr true false false false ∧ fences .rw false true false false ∧ fences .wr false false true false ∧
    fences .ww false false false true ∧ fences .all true true true true ∧
    (k.stores = [] → k.pendingLoads = [] → exec (.drain sl p sc) s = .next s) ∧
    (k.stores ≠ [] ∨ k.pendingLoads ≠ [] → exec (.drain sl p sc) s = .next (s.holdFor .drain)) ∧
    exec (.pref sl p b h d8) s = .next s ∧
    ((s.rd c b + BitVec.ofInt 64 (d8.toInt * 64)).toNat < 2 ^ 20 → s.rdPois c b = false →
      exec (.clean sl p b g d8) s = .next s ∧ exec (.inval sl p b g d8) s = .next s) ∧
    (s.rdPois c b = true → ∀ i ∈ [Instr.ld sl p r b t d8, .st sl p r b t d8, .lda sl p r b t sc d6, .stl sl p r b t sc d6,
        .ldm sl p r b d8, .vld sl p v b d9, .vst sl p v b d9, .vlds sl p v b rs lt, .vgath sl p v b iv f, .vscat sl p v b iv f,
        .amo sl p r b rs op e sys, .cas sl p r b rs e sys, .clean sl p b g d8, .inval sl p b g d8],
      exec i s = .next (s.deferReg m 4 c b)) ∧
    (s.rdPois c b = false →
      (s.rdPois c r = true → exec (.st sl p r b t d8) s = .next (s.deferReg m 0 c r) ∧
        exec (.stl sl p r b t sc d6) s = .next (s.deferReg m 0 c r)) ∧
      (s.rdPois c rs = true → exec (.amo sl p r b rs op e sys) s = .next (s.deferReg m 0 c rs)) ∧
      (s.rdPois c rs = false → s.rdPois c r = true → exec (.amo sl p r b rs op e sys) s = .next (s.deferReg m 0 c r)) ∧
      (s.rdPois c r = true → exec (.cas sl p r b rs e sys) s = .next (s.deferReg m 0 c r)) ∧
      (s.rdPois c r = false → s.rdPois c rs = true → exec (.cas sl p r b rs e sys) s = .next (s.deferReg m 0 c rs)) ∧
      (s.rdPois c r = false → o % n ≠ 0 → o + n ≤ 2 ^ 20 → exec (.ld sl p r b t d8) s = .next (s.fault m ⟨7, 0x06, 0, 0⟩ o) ∧
        exec (.st sl p r b t d8) s = .next (s.fault m ⟨7, 0x06, 0, 0⟩ o)) ∧
      (s.rdPois c r = false → o % n = 0 → 2 ^ 48 ≤ o → exec (.ld sl p r b t d8) s = .next (s.fault m ⟨5, 0x04, 0, 0⟩ o) ∧
        exec (.st sl p r b t d8) s = .next (s.fault m ⟨5, 0x04, 0, 0⟩ o)) ∧
      ((s.rowRd v).tag = 14 → exec (.vst sl p v b d9) s = .next (s.deferRow m 0 v) ∧
        exec (.vscat sl p v b iv f) s = .next (s.deferRow m 0 v)))

/-- The frame of the MA and MB slots: beside the results in flight they change only the scratchpad and its metadata, the queue of
stores and the TLB of the issuing core, the second-level TLBs, memory with its records and marks, and what an event of theirs delivers;
no register, row, predicate, flag, special register or other core, but for the droop count that a read of CPSTAT brings up to date
(R427, log entry 46). -/
def Obligations.MemoryFormsFrame : Prop :=
  ∀ (i : Instr) (k : Slot) (s t : State), i.slot? = some k → k = .ma ∨ k = .mb → exec i s = .next t →
    (∀ c, t.core c = { s.core c with
      infl := (t.core c).infl, spad := (t.core c).spad, smeta := (t.core c).smeta, stores := (t.core c).stores
      tlb := (t.core c).tlb, dr := (t.core c).dr }) ∧
    (∀ c, c ≠ s.cur → t.core c = { s.core c with dr := (t.core c).dr }) ∧
    (∀ h, t.chase h = { s.chase h with tlb2 := (t.chase h).tlb2 }) ∧
    t = { s with
      cores := t.cores, chases := t.chases, iss := t.iss, mem := t.mem, recs := t.recs, poisLines := t.poisLines, stale := t.stale
      badRows := t.badRows, rowErrs := t.rowErrs, hostLines := t.hostLines, hostVia := t.hostVia, fresh := t.fresh, soft := t.soft, corr := t.corr, rings := t.rings, devRing := t.devRing
      evseq := t.evseq, msix := t.msix, unacked := t.unacked }

namespace Sys2Proof.Machine

/-- No record can enter a ring, so that no event that an instruction raises writes a record to memory (R469, R470), and the host holds no
line that it could write back (R248). -/
def State.NoRecords (s : State) : Prop :=
  s.hostLines = [] ∧ ∀ r : RingId, ((s.ring r).pend.isEmpty && (s.ring r).room) = false

end Sys2Proof.Machine

/-- Which bytes the instructions of MA and MB can change, whatever they meet (R281 to R293): those that store nothing change no byte
of the scratchpad, no metadata word and no byte of memory; ST, STL, VST and VSCAT change at most their own bytes and lines of the
scratchpad, and no byte of memory, since a store to memory is performed later; AMO and CAS change at most their eight bytes
of the scratchpad, or bytes of the tile that holds their eight bytes of memory (`ProcessingMemoryAccess` says which). Bytes of
event records and of lines that the host writes back are left aside by `NoRecords`, and the earlier store of R294 by the equality of the two queues. -/
def Stated.StoredBytesOnly : Prop :=
  ∀ (s s' : State) (sl : MSlot) (p : Pred) (r b rs : SReg) (v iv : VReg) (t : ITy) (sc : Scope) (h : PrefHint) (g : Granule)
    (d8 : BitVec 8) (d6 : BitVec 6) (d9 : BitVec 9) (lt : LaneTag) (f : BitVec 2) (op : AmoOp) (e : AmoOrd) (sys : Bool)
    (fk : FenceKind),
    let c := mCluster sl
    let n := t.width / 8
    let k := s.core s.cur
    let k' := s'.core s.cur
    let at' := fun (disp : Int) (unit : Nat) => (s.rd c b + BitVec.ofInt 64 (disp * unit)).toNat
    let quiet := s.NoRecords ∧ k.stores = s.iss.pre.stores
    let memKept := ∀ a, sget 0 s'.mem a = sget 0 s.mem a
    let padKept := fun (o m : Nat) => ∀ a, a < o ∨ o + m ≤ a → sget 0 k'.spad a = sget 0 k.spad a
    (∀ i ∈ [Instr.ld sl p r b t d8, .lda sl p r b t sc d6, .ldm sl p r b d8, .vld sl p v b d9, .vlds sl p v b rs lt,
        .vgath sl p v b iv f, .fence sl p fk sc, .drain sl p sc, .pref sl p b h d8, .clean sl p b g d8, .inval sl p b g d8],
      exec i s = .next s' → k'.spad = k.spad ∧ k'.smeta = k.smeta ∧ (quiet → memKept)) ∧
    (exec (.st sl p r b t d8) s = .next s' → padKept (at' d8.toInt n) n ∧ k'.smeta = k.smeta ∧ (s.NoRecords → memKept)) ∧
    (exec (.stl sl p r b t sc d6) s = .next s' → padKept (at' d6.toInt n) n ∧ k'.smeta = k.smeta ∧ (s.NoRecords → memKept)) ∧
    (exec (.vst sl p v b d9) s = .next s' →
      let o := at' d9.toInt 128
      let m := if (s.rowRd v).tag = 5 then 96 else 128
      padKept o m ∧ (∀ l, 128 * l + 128 ≤ o ∨ o + m ≤ 128 * l → sget 0 k'.smeta l = sget 0 k.smeta l) ∧ (s.NoRecords → memKept)) ∧
    (exec (.vscat sl p v b iv f) s = .next s' →
      let o := laneAddr (s.rd c b) (s.rowRd iv) f
      (∀ a, (∀ j u, j < 32 → o j = some u → a < u ∨ u + 4 ≤ a) → sget 0 k'.spad a = sget 0 k.spad a) ∧
      (∀ l, (∀ j u, j < 32 → o j = some u → u / 128 ≠ l) → sget 0 k'.smeta l = sget 0 k.smeta l) ∧ (s.NoRecords → memKept)) ∧
    (∀ i ∈ [Instr.amo sl p r b rs op e sys, .cas sl p r b rs e sys], exec i s = .next s' →
      let o := (s.rd c b).toNat
      padKept o 8 ∧ k'.smeta = k.smeta ∧
      (quiet → ∀ a, (∀ u x j l, 2 ^ 20 ≤ o → j < 8 → s.translate s.cur o = (u, .ok x) →
          s.linearOf (x.dbase + (o - x.vbase) + j) = some l → l / 4096 ≠ a / 4096) →
        sget 0 s'.mem a = sget 0 s.mem a))

/-- The frame of the engine commands and of LAUNCH, HEAP.PUSH and HEAP.POP (R317, R318, R323 to R334, R395 to R397): a copy command
changes at most the issuing core's copy contexts, its TLB and, for CP.ISP, the written mark and the inactive side's image tag; a galley
command at most its galley context; LAUNCH at most the partitions' graphs; no register, row, predicate, flag, scratchpad byte or
byte of memory (event records and the host's lines aside). -/
def Stated.CommandFormsFrame : Prop :=
  ∀ (s s' : State) (p : Pred) (k : CtxId) (c : Cluster) (x y z : SReg) (ez ew : EArg) (nc : Bool),
    (∀ i ∈ [Instr.cpLin p k c x y ez nc, .cpTensor p k c x y z nc, .cpFill p k c x y z nc, .cpIsp p k c x y z],
      exec i s = .next s' →
      (∀ d, s'.core d = { s.core d with
        cx := (s'.core d).cx, tlb := (s'.core d).tlb, mark := (s'.core d).mark, recto := (s'.core d).recto
        verso := (s'.core d).verso }) ∧
      (∀ d, d ≠ s.cur → s'.core d = s.core d) ∧
      ((∀ kk cc xx yy zz pp, i ≠ .cpIsp pp kk cc xx yy zz) → (s'.core s.cur).mark = (s.core s.cur).mark ∧
        (s'.core s.cur).recto = (s.core s.cur).recto ∧ (s'.core s.cur).verso = (s.core s.cur).verso) ∧
      (s'.core s.cur).recto.bytes = (s.core s.cur).recto.bytes ∧ (s'.core s.cur).verso.bytes = (s.core s.cur).verso.bytes ∧
      (s.NoRecords → ∀ a, sget 0 s'.mem a = sget 0 s.mem a) ∧
      s'.parts = s.parts ∧ s'.engines = s.engines ∧ s'.keys = s.keys ∧ s'.friskets = s.friskets ∧ s'.tasks = s.tasks) ∧
    (∀ i ∈ [Instr.geBcast p c x y z, .geCall p c x ez ew, .geFence p c x, .geOpen p c x y z, .geClose p c x z],
      exec i s = .next s' →
      (∀ d, s'.core d = { s.core d with gx := (s'.core d).gx }) ∧ (∀ d, d ≠ s.cur → s'.core d = s.core d) ∧
      s' = { s with cores := s'.cores, iss := s'.iss }) ∧
    (∀ i ∈ [Instr.launch p c x ez z, .heapPush p c x y, .heapPop p c x y], exec i s = .next s' →
      s' = { s with parts := s'.parts, stamp := s'.stamp, iss := s'.iss } ∧
      ((∀ pp cc xx ee zz, i ≠ .launch pp cc xx ee zz) → s'.parts = s.parts ∧ s'.stamp = s.stamp))

/-- What the memory instructions store and what the engine commands change: both statements above. -/
def Obligations.StoresAndCommandsFrame : Prop := Stated.StoredBytesOnly ∧ Stated.CommandFormsFrame

/-! ## Engine commands -/

namespace Sys2Proof.Machine

/-- The state in which the issuing core's copy context `k` has taken one more command, under the next number; nothing else
differs. -/
def State.copyJoins (s : State) (k : CtxId) (kind : CopyKind) (dst src len : Nat) (nc : Bool) : State :=
  s.alter fun m =>
    let x := m.ctx k
    m.setCtx k { x with icount := x.icount + 1, cmds := x.cmds ++ [⟨x.icount + 1, kind, dst, src, len, nc, 0, false, []⟩] }

/-- The same for its galley context. -/
def State.galleyJoins (s : State) (g : Group) (kind : GKind) : State :=
  s.alter fun m => { m with gx := { m.gx with
    icount := m.gx.icount + 1, cmds := m.gx.cmds ++ [{ num := m.gx.icount + 1, grp := g, kind := kind }] } }

/-- The `n` bytes from `va` on lie in one space of R236. -/
def withinSpace (va n : Nat) : Prop := va + n ≤ 2 ^ 20 ∨ 2 ^ 20 ≤ va ∧ va + n ≤ 2 ^ 48

/-- The first byte of a copy operand passes its checks at issue: it is in the scratchpad, or the core's TLB holds its page and the
checks of R257 find no fault. -/
def State.firstOk (s : State) (va : Nat) (w part : Bool) : Prop :=
  va < 2 ^ 20 ∨ va < 2 ^ 48 ∧ ∃ e, (s.core s.cur).tlbFind (s.partNum s.cur) va = some e ∧
    s.copyRights e ⟨va, e.dbase + (va - e.vbase), 1, e.mtype⟩ w part = none

end Sys2Proof.Machine

/-- CP.LIN, CP.TENSOR, CP.FILL and CP.ISP (R317, R318, R322 to R328) with unpoisoned, well-formed operands: the command takes the next
number of its context and joins it; with 16 commands held the bundle freezes. CP.ISP marks the inactive side written at issue. -/
def Stated.CopyCommands : Prop :=
  ∀ (s : State) (p : Pred) (k : CtxId) (c : Cluster) (x y z : SReg) (i : Fin 3) (nc : Bool), Acts s p →
    s.rdPois c x = false → s.rdPois c y = false → s.rdPois c z = false →
    let u := s.rd c x
    let v := s.rd c y
    let w := s.rd c z
    let held := (s.iss.pre.ctx k).cmds.length
    let gives := fun (j : Instr) (t : State) =>
      (held < 16 → exec j s = .next t) ∧ (16 ≤ held → exec j s = .next (s.holdFor .ctxFull))
    let part := fun n : Nat => u.toNat % 4096 ≠ 0 ∨ n < 4096
    let lin := fun (j : Instr) (n : Nat) => n % 8 = 0 → n ≤ 0xFFFFFFF8 → u.toNat % 8 = 0 → v.toNat % 8 = 0 →
      withinSpace u.toNat n → withinSpace v.toNat n → s.firstOk v.toNat false false → s.firstOk u.toNat true (part n) →
      gives j (s.copyJoins k .lin u.toNat v.toNat n nc)
    let len := (w.extractLsb' 0 32).toNat
    let tag := w.extractLsb' 32 4
    lin (.cpLin p k c x y (.reg z) nc) w.toNat ∧
    lin (.cpLin p k c x y (.lit i) nc) (s.iss.lits.getD i.val 0).toNat ∧
    (∀ d, w.toNat % 128 = 0 → w.toNat + 128 ≤ 2 ^ 20 → parseTensor (s.iss.pre.spadRead w.toNat 128) = some d →
      d.operandOk v.toNat d.runs.1 d.ss = true → d.operandOk u.toNat d.runs.2 d.ds = true →
      s.firstOk v.toNat false false → s.firstOk u.toNat true (part d.runs.2) →
      gives (.cpTensor p k c x y z nc)
        (s.copyJoins k (.tensor (s.iss.pre.spadRead w.toNat 128)) u.toNat v.toNat 0 nc)) ∧
    (len % 8 = 0 → u.toNat % 8 = 0 → w.extractLsb' 36 28 = 0 → tag.toNat ≤ 9 ∨ tag = 12 ∨ tag = 13 → withinSpace u.toNat len →
      s.firstOk u.toNat true (part len) → gives (.cpFill p k c x y z nc) (s.copyJoins k (.fill v tag) u.toNat 0 len nc)) ∧
    (s.iss.pre.sov = true → u.toNat % 4 = 0 → v.toNat % 4 = 0 → w.toNat % 4 = 0 → 4 ≤ w.toNat → u.toNat + w.toNat ≤ 2 ^ 16 →
      withinSpace v.toNat w.toNat → s.firstOk v.toNat false false →
      let side := !s.iss.pre.side
      gives (.cpIsp p k c x y z) ((s.alter fun m =>
        { (m.setSide side { m.sideAt side with tag := none }) with mark := true }).copyJoins k (.isp side) u.toNat v.toNat
          w.toNat false))

/-- GE.BCAST, GE.CALL, GE.FENCE, GE.OPEN and GE.CLOSE (R317, R318, R330 to R334) with unpoisoned, well-formed operands and engines that
exist: the command takes the next number of gx and joins it, with its group, entry, arguments and landing base; with 16 commands
held the bundle freezes. -/
def Stated.GalleyCommands : Prop :=
  ∀ (s : State) (p : Pred) (c : Cluster) (x y z : SReg), Acts s p →
    s.rdPois c x = false → s.rdPois c y = false → s.rdPois c z = false →
    let u := s.rd c x
    let v := s.rd c y
    let w := s.rd c z
    let held := s.iss.pre.gx.cmds.length
    let gives := fun (j : Instr) (t : State) =>
      (held < 16 → exec j s = .next t) ∧ (16 ≤ held → exec j s = .next (s.holdFor .ctxFull))
    let e0 := (u.extractLsb' 0 10).toNat
    let n := (u.extractLsb' 32 11).toNat
    let st := (u.extractLsb' 16 10).toNat
    let g : Group := ⟨e0, n, st⟩
    let groupOk := u.extractLsb' 10 6 = 0 ∧ u.extractLsb' 26 6 = 0 ∧ u.extractLsb' 43 1 = 0 ∧ 1 ≤ n ∧ n ≤ 1024 ∧
      (1 < n → st ≠ 0) ∧ e0 + (n - 1) * st ≤ 1023 ∧ ∀ j, j < n → s.noEngine (e0 + j * st) = false
    let len := (w.extractLsb' 0 13).toNat
    let off := (w.extractLsb' 16 12).toNat
    let tag := w.extractLsb' 32 4
    let land := 256 * (u.extractLsb' 52 12).toNat
    let range := fun (start len st : Nat) => start % 4096 = 0 ∧ len % 4096 = 0 ∧ len ≠ 0 ∧ st % 8 = 0 ∧ st + 8 ≤ 2 ^ 20
    (groupOk → u.extractLsb' 44 20 = 0 →
      (w.extractLsb' 36 28 = 0 → w.extractLsb' 28 4 = 0 → w.extractLsb' 13 3 = 0 → 64 ≤ len → len ≤ 4096 →
        tag.toNat ≤ 9 ∨ tag = 12 ∨ tag = 13 → len % 64 = 0 → off % 64 = 0 → off + len ≤ 4096 → v.toNat % 64 = 0 →
        v.toNat + len ≤ 2 ^ 20 → gives (.geBcast p c x y z) (s.galleyJoins g (.bcast v.toNat len off tag))) ∧
      gives (.geFence p c x) (s.galleyJoins g .fence)) ∧
    (groupOk → land + 256 * n + 8 * (1 + (n + 63) / 64) ≤ 2 ^ 20 →
      gives (.geCall p c x (.reg y) (.reg z)) (s.galleyJoins g (.call (u.extractLsb' 44 8).toNat
        (v.extractLsb' 0 32) (v.extractLsb' 32 32) (w.extractLsb' 0 32) (w.extractLsb' 32 32) land)) ∧
      ∀ i j : Fin 3, let lit := fun q : Nat => s.iss.lits.getD q 0
        gives (.geCall p c x (.lit i) (.lit j)) (s.galleyJoins g (.call (u.extractLsb' 44 8).toNat
          (lit i.val) (lit (i.val + 1)) (lit j.val) (lit (j.val + 1)) land))) ∧
    (range u.toNat v.toNat w.toNat →
      gives (.geOpen p c x y z) (s.galleyJoins ⟨0, 0, 0⟩ (.opn u.toNat v.toNat w.toNat))) ∧
    (range u.toNat 4096 w.toNat → gives (.geClose p c x z) (s.galleyJoins ⟨0, 0, 0⟩ (.cls u.toNat w.toNat)))

/-- The commands that a bundle issues to the copy engines and to the galley (R317, R318, R322 to R334): both statements above. -/
def Obligations.EngineCommands : Prop := Stated.CopyCommands ∧ Stated.GalleyCommands

/-! ## Events of a core -/

namespace Sys2Proof.Machine

/-- Bytes stored at consecutive addresses from `a` on, and nowhere else. -/
def storedAt (old new : Nat → Byte) (a : Nat) (bs : List Byte) : Prop :=
  ∀ x, new x = if a ≤ x ∧ x < a + bs.length then bs.getD (x - a) 0 else old x

/-- What one seal operation of `bs` at linear address `a`, under the window `win`, leaves of memory (R443, R445): the bytes, and the
tile's record with the next version, or version 0 under a new generation, and the escalated flag clear. -/
def State.Sealed (s t : State) (win : Word) (a : Nat) (bs : List Byte) : Prop :=
  let old := s.tileRec (a / 4096)
  let new := t.tileRec (a / 4096)
  let g := (s.keySlot (windowSlot win)).gen
  storedAt (sget 0 s.mem) (sget 0 t.mem) a bs ∧ (∀ u, u ≠ a / 4096 → t.tileRec u = s.tileRec u) ∧
  new.keygen = g ∧ new.version = (if old.keygen = g then old.version + 1 else 0) ∧ new.poison = false ∧ new.esc = false ∧
  new.ftag = old.ftag ∧ new.eb = old.eb ∧ ∃ key, (s.keySlot (windowSlot win)).key = some key ∧ new.sl = .sealed key

/-- A write of `bs` at `a` by a master is a write of part of one clear tile of the linear view that the table admits, under a slot that
holds a key and a version that is not at its limit. -/
def State.PlainWrite (s : State) (mid a : Nat) (bs : List Byte) (win : Word) : Prop :=
  bs ≠ [] ∧ a % 4096 + bs.length ≤ 4096 ∧ a + bs.length ≤ s.memTop ∧ s.frisk mid a bs.length true true = some win ∧
  s.ClearFor win a ∧ (s.keySlot (windowSlot win)).key ≠ none ∧ s.exhausted (windowSlot win) (a / 4096) = false ∧ s.soft = []

/-- The store `x` of core `c` is a plain store of `bs` at `a`, and nothing holds it back. -/
def State.PlainStore (s : State) (c : CoreId) (x : PendStore) (a : Nat) (bs : List Byte) (win : Word) : Prop :=
  s.PlainWrite c.val a bs win ∧ x.bytes = addrBytes a bs ∧ x.md = none ∧ x.release = false ∧ x.fenced = false ∧ x.kids = [] ∧ x.lines = [] ∧
  (∀ b, a ≤ b → b < a + bs.length → s.anyRegion b = false) ∧ s.hostLines = [] ∧ s.tileAsleep (a / 4096) = false ∧
  (∀ e ∈ (s.core c).pendingLoads, storeAwaits x e = false) ∧ (s.core c).st ∉ [.settling, .lost, .trapping]

end Sys2Proof.Machine

/-- SETTLING_COMPLETE (R421), BAR_TIMEOUT (R392), MASKW_TIMEOUT (R393: true when the condition holds by then), LOAD_DATA_ARRIVAL (R45, R54:
the oldest load whose data can come) and PAGE_WALK_COMPLETE (R254: by the second-level TLB of the chase, else by a walk, which fills
both): each changes its core, or the barrier and its core, or the TLBs, as stated, and nothing else. -/
def Stated.WaitsEnd : Prop :=
  ∀ (s : State) (c : CoreId) (v : Word) (va : Word),
    let k := s.core c
    (exec (.settlingComplete c) s = .next (s.setCore c { k with settling := false })) ∧
    (∀ (m : Fin 16) (q : Word32), k.wait = some .maskw → k.req = some (.maskw m.val q) → k.ans = none →
      exec (.maskwTimeout c) s = .next (s.setCore c { k with
        ans := some (.flag (decide (q.toNat ≤ ((s.corePart c).mseq.get m).toNat))) })) ∧
    (∀ id n tmo, k.wait = some .bar → k.req = some (.bar id n tmo) → k.ans = none →
      let b := sget {} s.bars (s.barOf c id)
      let left := b.arrived.filter (· != c)
      exec (.barTimeout c) s = .next { s.setCore c { k with ans := some (.flag false) } with
        bars := sset {} s.bars (s.barOf c id) (if left = [] then {} else { n := b.n, arrived := left }) }) ∧
    (∀ pre e post poison, k.infl = pre ++ e :: post → (∀ x ∈ pre, k.arrivable x = false) → k.arrivable e = true →
      (∀ t da, e.late ≠ .conf t da) → e.mark.kids = [] → k.st ∉ [.settling, .lost, .trapping] →
      (poison = true → e.late ≠ .mem) → ∃ pay,
        (e.late = .mem ∨ e.late = .host none ∨ e.late = .stor none → pay = e.pay) ∧
        (∀ t d r x, e.late = .host (some t) ∨ e.late = .stor (some t) → e.pay = .scalar d r x →
          pay = .scalar d r (BitVec.ofInt 64 (tval t v))) ∧
        exec (.loadDataArrival c v poison) s = .next (s.setCore c { k with
          infl := pre ++ { e with pay := pay, late := .no, poison := e.poison || poison } :: post })) ∧
    (∀ e, va.toNat < 2 ^ 48 → k.tlbFind (s.partNum c) va.toNat = some e → exec (.pageWalkComplete c va) s = .next s) ∧
    let h := chaseOf c
    (∀ e, va.toNat < 2 ^ 48 → k.tlbFind (s.partNum c) va.toNat = none → tlbHit (s.chase h).tlb2 (s.partNum c) va.toNat = some e →
      exec (.pageWalkComplete c va) s = .next (s.setCore c { k with tlb := (s.withRights c e :: k.tlb).take 256 })) ∧
    (∀ t e, va.toNat < 2 ^ 48 → k.tlbFind (s.partNum c) va.toNat = none → tlbHit (s.chase h).tlb2 (s.partNum c) va.toNat = none →
      s.walk (0x06C + c.val / 8) va.toNat (4096 * ((s.corePart c).ptroot.extractLsb' 12 36).toNat) (s.partNum c) 4 = (t, .ok e) →
      let u := t.setChase h { t.chase h with tlb2 := (e :: (t.chase h).tlb2).take 8192 }
      exec (.pageWalkComplete c va) s = .next (u.setCore c { u.core c with tlb := (u.withRights c e :: (u.core c).tlb).take 256 }))

/-- One level of the page-table walk (R29, R248, R250, R251, R253, R257, R309, R313) from a table at `ta`, `n` levels above the last: the entry that the
address selects lies in an open region, or in a channel in self-refresh or behind a fence, where the walk stalls; reads as poison; or, once the host has given up its line, is invalid,
breaks the layout, maps a page of its level, or points to the next table. -/
def Stated.PageTableLevel : Prop :=
  ∀ (s t : State) (mid va ta part n : Nat) (bs : List Byte), n < 4 → ta < s.memTop → s.memTop ≤ 2 ^ 40 →
    let pa := ta + 8 * (va / 2 ^ (12 + 9 * n) % 512)
    let held := s.anyRegion pa = true ∨ s.tileWaits (pa / 4096) = true
    (held → s.walk mid va ta part (n + 1) = (s, .error walkStall)) ∧
    (¬ held → (s.recallRange pa 8).readMem mid pa 8 = (t, none) →
      s.walk mid va ta part (n + 1) = (t, .error (xlatFault 3))) ∧
    (¬ held → (s.recallRange pa 8).readMem mid pa 8 = (t, some bs) →
    let e : Word := BitVec.ofNat 64 (ofLe bs)
    let level := 3 - n
    let addr := 4096 * (e.extractLsb' 12 36).toNat
    let code := (e.extractLsb' 56 4).toNat
    let size := if code ≤ 8 then 2 ^ (12 + code) else if code ≤ 12 then 2 ^ (22 + 2 * (code - 9)) else 2 ^ (30 + 2 * (code - 13))
    let fits := if code ≤ 8 then level = 3 else if code ≤ 12 then level = 2 else level = 1
    let shape := e.extractLsb' 60 4 = 0 ∧ e.extractLsb' 48 8 = 0 ∧ e.extractLsb' 6 6 = 0 ∧ e.extractLsb' 4 2 ≠ 3
    (e.getLsbD 0 = false → s.walk mid va ta part (n + 1) = (t, .error (xlatFault 1 level))) ∧
    (e.getLsbD 0 = true → ¬ shape → s.walk mid va ta part (n + 1) = (t, .error (xlatFault 2))) ∧
    (e.getLsbD 0 = true → shape → e.getLsbD 1 = true → fits → addr % size = 0 → s.walk mid va ta part (n + 1) =
      (t, .ok { part := part, vbase := va / size * size, size := size, dbase := addr, mtype := e.extractLsb' 4 2
                r := e.getLsbD 2, w := e.getLsbD 3, stripes := t.pageStripes addr size })) ∧
    (e.getLsbD 0 = true → shape → e.getLsbD 1 = true → ¬ (fits ∧ addr % size = 0) →
      s.walk mid va ta part (n + 1) = (t, .error (xlatFault 2))) ∧
    (e.getLsbD 0 = true → shape → e.getLsbD 1 = false → code ≠ 0 → s.walk mid va ta part (n + 1) = (t, .error (xlatFault 2))) ∧
    (e.getLsbD 0 = true → shape → e.getLsbD 1 = false → code = 0 →
      s.walk mid va ta part (n + 1) = t.walk mid va addr part n))

/-- How waits and page walks end (R45, R54, R250, R251, R253, R254, R257, R392, R393, R421): both statements above. -/
def Obligations.WaitsAndWalksEnd : Prop := Stated.WaitsEnd ∧ Stated.PageTableLevel

/-- WATCHDOG_TRAP (R374), STALLED_WAIT (R375) and ESCALATION_RELAUNCH (R145, R146, R378): the first two hold the core for the supervisor
with its registers, its stores and its pc as they are, once the data of its loads has come (R458); the third, with the task's commands
complete and its stores performed (R275), frees the core, whose timelines then stand at their issue counts, and returns the task to Ready
as a relaunch, or ends it as cancelled or as failed. -/
def Stated.CoreIsTaken : Prop :=
  ∀ (s : State) (c : CoreId),
    let k := s.core c
    let held := fun (i : Instr) (cause : BitVec 8) => ∃ t, exec i s = .next t ∧ (∀ d, d ≠ c → t.core d = s.core d) ∧
      (k.dataHere = true → t.core c = { k with
          st := .held, held := some ⟨s.evseq + 1, cause, true⟩, trap := none, trseq := s.evseq + 1, trcause := cause
          cancelled := false, wait := none, req := none, ans := none, preq := k.preq && s.coreGone c } ∧
        (s.RingOpen (.chase (chaseOf c)) → t.evseq = s.evseq + 1)) ∧
      (k.dataHere = false → ∃ r, r.cause = cause ∧
        t = s.setCore c { k with st := .trapping, trap := some (r, true), wait := none, req := none, ans := none })
    (k.st = .running → k.awaitsData = false → k.bubble = 0 → k.waitc = none → 65536 ≤ k.wdog → k.markedNext = false →
      k.creq = false → held (.watchdogTrap c) 0x0A) ∧
    (∀ w, w ∈ [Wait.waittl, .wait, .ifence, .region, .drain] → k.wait = some w → k.st = .running →
      held (.stalledWait c) 0x0F) ∧
    (∀ i x r, k.st = .escalating → k.commandsDone = true → k.stores = [] → k.task = some i → s.task? i = some x →
      k.escRec = some r →
      let freed0 := s.setCore c k.settledLines.free
      let freed := if k.gx.regions = [] then freed0 else freed0.unstall
      (r.region = false → x.desc.esc = true → k.relaunch = false →
        (k.creq = false → exec (.escalationRelaunch c) s = .next (freed.modTask i fun y =>
          { y with st := .ready, relaunch := true, core := none, image := none })) ∧
        (k.creq = true → exec (.escalationRelaunch c) s = .next (freed.finishTask i .cancelled))) ∧
      (r.region = true ∨ x.desc.esc = false ∨ k.relaunch = true → exec (.escalationRelaunch c) s = .next
        ((freed.inform (chaseOf c) r).finishTask i (.failed r.cause))))

/-- Traps of a core and the delivery of their records (R145, R146, R374, R375, R378, R450, R465 to R470): `Stated.TrapRecordDelivered` and the statement above. -/
def Obligations.CoreTrapsAndRecords : Prop := Stated.TrapRecordDelivered ∧ Stated.CoreIsTaken

/-- STORE_PERFORM (R266 to R271, R284) and SEAL_WRITE (R443): the store leaves its queue, and its bytes are sealed into their tile, which
takes its next version; an earlier store of the core that must come first (R51: one of the same 64-byte line), an earlier load that is still pending and ordered
before it, and a line that the host holds, keep it back. -/
def Obligations.StoresPerform : Prop :=
  ∀ (s : State) (c : CoreId) (n : Nat) (x : PendStore) (a : Nat) (bs : List Byte) (win : Word),
    let q := (s.core c).stores
    q[n]? = some x →
    (s.PlainStore c x a bs win → (∀ y ∈ q.take n, s.storeBefore y x = false) →
      ∃ t, exec (.storePerform c n) s = .next t ∧ s.Sealed t win a bs ∧
        t.cores = (s.setCore c { s.core c with stores := q.eraseIdx n }).cores ∧
        t = { s with cores := t.cores, mem := t.mem, recs := t.recs, stale := t.stale, badRows := t.badRows }) ∧
    ((∃ y ∈ q.take n, y.fenced = true ∨ y.dev = true ∧ x.dev = true ∨ s.storesMeet y x = true) →
      exec (.storePerform c n) s = .next s) ∧
    (n ≠ 0 → x.release = true ∨ x.fenced = true → exec (.storePerform c n) s = .next s) ∧
    ((∃ b ∈ x.bytes, ∃ l, s.linearOf b.1 = some l ∧ l / 64 ∈ s.hostLines) → exec (.storePerform c n) s = .next s) ∧
    ((∃ e ∈ (s.core c).pendingLoads, e.before x = true ∧
        (x.release = true ∨ e.mark.thenStores = true ∨ x.dev = true ∧ e.mark.dev = true)) →
      exec (.storePerform c n) s = .next s) ∧
    (s.PlainStore c x a bs win → s.waiting (a / 4096) = [(c, [x])] → n = 0 →
      ∃ t, exec (.sealWrite a) s = .next t ∧ s.Sealed t win a bs ∧
        t.cores = (s.setCore c { s.core c with stores := q.drop 1 }).cores ∧
        t = { s with cores := t.cores, mem := t.mem, recs := t.recs, stale := t.stale, badRows := t.badRows })

/-- COPY_COMPLETE, CP_ISP_COMPLETE and COPY_STOP (R258, R273, R317, R328, R329): the copy at the head of its context, when it can run,
leaves the context, whose timeline comes to the largest number at or below which every command is complete; one that a fault
stops keeps its place with its progress, and the supervisor is told. -/
def Stated.CopiesEnd : Prop :=
  ∀ (s t : State) (c : CoreId) (k : CtxId) (x y : CopyCmd) (rest : List CopyCmd),
    let m := s.core c
    (m.ctx k).cmds = x :: rest → x.stopped = false → s.copyStalls c x = false → m.st ≠ .settling → m.st ≠ .lost →
    let done := fun t : State => t.setCore c ((t.core c).setCtx k { (t.core c).ctx k with
      cmds := rest, tl := rest.foldl (fun n z => min n (z.num - 1)) ((t.core c).ctx k).icount })
    (s.copyRun c x = (t, none, y) →
      (x.isIsp = false → exec (.copyComplete c k) s = .next (done t)) ∧
      (x.isIsp = true → exec (.cpIspComplete c k) s = .next (done t)) ∧
      ((t.core c).ctx k).cmds = x :: rest) ∧
    (∀ f, s.copyRun c x = (t, some f, y) →
      let u := t.copyRecord c (some k) y f
      y.stopped = true ∧ y.num = x.num ∧ x.start ≤ y.start ∧ (t.RingOpen (.chase (chaseOf c)) → u.evseq = t.evseq + 1) ∧
      exec (.copyStop c k) s = .next (u.setCore c ((u.core c).setCtx k { (u.core c).ctx k with cmds := y :: rest })))

/-- What a copy within a core's own scratchpad writes (R117, R139, R324 to R328): a fill its pattern and its tag; a linear copy the source
bytes, where the two ranges do not meet; a tensor copy its runs, plain, unpacked or packed, where none meets another or a source; and CP.ISP
the source bytes into the inactive side, which then holds no image. A line takes the tag of the source of the first byte written into it, Raw
from an unpack and TF6 from a pack; it reads Poison when a source line does, or when it did and is not written whole; its bound is that of the
source lines, and at least its own unless it is written whole. No byte outside the destination changes, and no other line's metadata. -/
def Stated.CopyContents : Prop :=
  ∀ (s : State) (c : CoreId) (num dst src len : Nat) (nc v : Bool) (pat : Word) (tag : BitVec 4) (b : List Byte),
    let m := s.core c
    let old := fun l => sget 0 m.smeta l
    let from' := fun (l o n : Nat) (whole : Bool) (t : BitVec 4) =>
      let e := (linesOf o n).foldl (fun e x => maxBound e (metaEb (old x))) 0
      mkMeta (if (linesOf o n).any (fun x => metaTag (old x) == 14) || (!whole && metaTag (old l) == 14) then 14 else t)
        (if whole then e else maxBound (metaEb (old l)) e)
    let cmd := fun kind : CopyKind => (⟨num, kind, dst, src, len, nc, 0, false, []⟩ : CopyCmd)
    let runs := fun (kind : CopyKind) (new : Core → Prop) => ∃ t, s.copyRun c (cmd kind) = (t, none, cmd kind) ∧ new (t.core c) ∧
      (∀ d, d ≠ c → t.core d = s.core d) ∧ t = { s with cores := t.cores }
    let source := (List.range len).map fun i => sget 0 m.spad (src + i)
    (len % 8 = 0 → dst % 8 = 0 → dst + len ≤ 2 ^ 20 →
      runs (.fill pat tag) fun k =>
        storedAt (sget 0 m.spad) (sget 0 k.spad) dst ((List.range len).map fun i => BitVec.ofNat 8 (pat.toNat / 256 ^ (i % 8))) ∧
        (∀ l, dst ≤ 128 * l → 128 * l + 128 ≤ dst + len → sget 0 k.smeta l = mkMeta tag 0) ∧
        (∀ l, dst < 128 * l + 128 → 128 * l < dst + len → 128 * l < dst ∨ dst + len < 128 * l + 128 →
          sget 0 k.smeta l = mkMeta (if metaTag (old l) = 14 then 14 else tag) 0) ∧
        (∀ l, 128 * l + 128 ≤ dst ∨ dst + len ≤ 128 * l → sget 0 k.smeta l = old l)) ∧
    (len % 8 = 0 → dst % 8 = 0 → src % 8 = 0 → dst + len ≤ 2 ^ 20 → src + len ≤ 2 ^ 20 →
      dst + len ≤ src ∨ src + len ≤ dst →
      runs .lin fun k => storedAt (sget 0 m.spad) (sget 0 k.spad) dst source ∧
        (∀ l, dst < 128 * l + 128 → 128 * l < dst + len →
          let a := max dst (128 * l)
          let o := src + (a - dst)
          sget 0 k.smeta l = from' l o (min (dst + len) (128 * l + 128) - a)
            (decide (dst ≤ 128 * l) && decide (128 * l + 128 ≤ dst + len)) (metaTag (old (o / 128)))) ∧
        (∀ l, 128 * l + 128 ≤ dst ∨ dst + len ≤ 128 * l → sget 0 k.smeta l = old l)) ∧
    (∀ d : TensorDesc, parseTensor b = some d →
      let x := cmd (.tensor b)
      let at' := fun e => (x.elem e).2.1
      let org := fun e => (x.elem e).1
      let sn := d.runs.1
      let dn := d.runs.2
      (∀ e, e < x.count → at' e + dn ≤ 2 ^ 20 ∧ org e + sn ≤ 2 ^ 20) →
      (∀ e f, e < x.count → f < x.count →
        (e = f ∨ at' e + dn ≤ at' f ∨ at' f + dn ≤ at' e) ∧ (at' e + dn ≤ org f ∨ org f + sn ≤ at' e)) →
      (d.pk = 2 → ∀ e j, e < x.count → j < sn → (sget 0 m.spad (org e + j)).toNat < 64) →
      runs (.tensor b) fun k =>
        (∀ e j, e < x.count → j < dn →
          let bytes := (List.range sn).map fun i => sget 0 m.spad (org e + i)
          sget 0 k.spad (at' e + j) = BitVec.ofNat 8 (
            if d.pk = 1 then ofLe bytes / 64 ^ j % 64
            else if d.pk = 2 then packNat 6 (bytes.map (·.toNat)) / 256 ^ j
            else (sget 0 m.spad (org e + j)).toNat)) ∧
        (∀ a, (∀ e, e < x.count → a < at' e ∨ at' e + dn ≤ a) → sget 0 k.spad a = sget 0 m.spad a) ∧
        (∀ l e, e < x.count → at' e ≤ 128 * l → 128 * l + 128 ≤ at' e + dn →
          let o := srcSpan d.pk (128 * l - at' e) 128
          sget 0 k.smeta l = from' l (org e + o.1) o.2.1 true
            (if d.pk = 1 then 0 else if d.pk = 2 then 5 else metaTag (old ((org e + o.1) / 128)))) ∧
        ∀ l, (∀ e, e < x.count → 128 * l + 128 ≤ at' e ∨ at' e + dn ≤ 128 * l) → sget 0 k.smeta l = old l) ∧
    (4 ≤ len → dst + len ≤ 2 ^ 16 → src + len ≤ 2 ^ 20 →
      runs (.isp v) fun k => storedAt (sget 0 (m.sideAt v).bytes) (sget 0 (k.sideAt v).bytes) dst source ∧
        (k.sideAt v).tag = none ∧ k.sideAt (!v) = m.sideAt (!v) ∧ k.spad = m.spad ∧ k.smeta = m.smeta)

/-- How copies run and what they write (R258, R273, R317, R324 to R329): both statements above. -/
def Obligations.CopiesRun : Prop := Stated.CopiesEnd ∧ Stated.CopyContents

/-! ## The galley -/

namespace Sys2Proof.Machine

/-- A core whose galley command `n` one more engine or channel has ended: commands leave in issue order as they end (R317, R319). -/
def Core.endsPart (m : Core) (n : Nat) (y : GEnd) : Core :=
  let cs := m.gx.cmds.map fun z => if z.num = n then { z with ends := z.ends ++ [y] } else z
  let left := cs.dropWhile fun z => decide (z.parts ≤ z.ends.length)
  { m with gx := { m.gx with cmds := left, tl := match left with | [] => m.gx.icount | z :: _ => z.num - 1 } }

/-- The core is not one whose last commands settle. -/
def Core.works (m : Core) : Prop := m.st ≠ .settling ∧ m.st ≠ .lost

/-- The channel of an engine runs, and the work of command `n` of core `c` for the engine is all that waits there. -/
def State.OneWork (s : State) (e : EngineId) (c : CoreId) (n : Nat) : Prop :=
  (s.chan (e.val / 4)).queue = [.work c n e] ∧ (s.chan (e.val / 4)).selfRefresh = false ∧ (s.engine e.val).testing = false

/-- The engine meets call `x` of core `c`, alone in its channel; nothing stands in the way of its entry: no failed restore, no standing
error, no reserved micro-word. -/
def State.Calls (s : State) (e : EngineId) (x : Call) : Prop :=
  s.OneWork e x.core x.num ∧ s.nextCall e = some x ∧ s.soft = [] ∧ (s.engine e.val).badPark = false ∧
    (s.engine e.val).absent = false ∧ ∀ w ∈ (s.engine e.val).control, microReserved w.2 = false

/-- The state in which the engine begins its entry: its work is taken, its flag set empty, its live bit set. -/
def State.calling (s : State) (e : EngineId) : State :=
  (s.setChan (e.val / 4) { s.chan (e.val / 4) with queue := [] }).setEngine e.val { s.engine e.val with F := 0, live := true }

/-- A tile of the engine's bank group that a call may write as a whole: in an open region of its core, admitted, under a slot that
holds a key and a version that is not at its limit, with every ordinary write of it in the tile (R28). -/
def State.MayFill (s : State) (x : Call) (L : Nat) (win : Word) : Prop :=
  let t := engineTile x.e L
  s.ownRegion x.core (t * 4096) = true ∧ s.galleyFrisk x.core t false true = some win ∧
    (s.keySlot (windowSlot win)).key ≠ none ∧ s.exhausted (windowSlot win) t = false ∧ s.soft = [] ∧ ∀ y ∈ s.stale, y.tile ≠ t

/-- A tile of the engine's bank group that a call may read: admitted, in clear, without a standing error, and with every ordinary write
of it in the tile (R28). -/
def State.MayPass (s : State) (x : Call) (L : Nat) : Prop :=
  let t := engineTile x.e L
  s.soft = [] ∧ t ∉ s.badRows ∧ (∀ y ∈ s.stale, y.tile ≠ t) ∧ (∀ l ∈ s.poisLines, l / 64 ≠ t) ∧
    ∃ win, s.galleyFrisk x.core t true false = some win ∧ s.ClearFor win (4096 * t)

end Sys2Proof.Machine

/-- GALLEY_DISPATCH, GE_BCAST_WRITE, GE_FENCE_PASS, GE_OPEN_COMPLETE and GE_CLOSE_COMPLETE (R309, R311, R317, R319, R331, R333,
R334). -/
def Obligations.GalleyCommandsRun : Prop :=
  ∀ (s : State) (c : CoreId),
    let m := s.core c
    (∀ pre x rest, m.gx.cmds = pre ++ x :: rest → x.dispatched = false → (∀ y ∈ pre, y.dispatched = true ∧ y.barrier = false) →
      (∀ y ∈ pre ++ rest, y.num ≠ x.num) → (∀ h ∈ x.grp.channels, (s.chan h).queue = []) →
      (∀ n a0 a1 a2 a3 l, x.kind = .call n a0 a1 a2 a3 l → knownEntry n = true) →
      ((∃ a n st, x.kind = .opn a n st) ∨ (∃ a st, x.kind = .cls a st) → x.grp.engines = []) →
      ∃ y t, exec (.galleyDispatch c) s = .next t ∧ y.dispatched = true ∧ { y with
          dispatched := x.dispatched, data := x.data, dtag := x.dtag, deb := x.deb } = x ∧
        (∀ src n off tag, x.kind = .bcast src n off tag →
          y.data = (List.range n).map (fun i => sget 0 m.spad (src + i)) ∧
          y.dtag = (if (linesOf src n).any (fun l => metaTag (sget 0 m.smeta l) == 14) then 14 else tag) ∧
          y.deb = (linesOf src n).foldl (fun e l => maxBound e (metaEb (sget 0 m.smeta l))) 0) ∧
        t.core c = { m with gx := { m.gx with cmds := pre ++ y :: rest } } ∧ (∀ d, d ≠ c → t.core d = s.core d) ∧
        (∀ h, t.chan h = if h ∈ x.grp.channels then { s.chan h with queue := match x.kind with
            | .fence => [.fence c x.num]
            | _ => (x.grp.engines.filter fun e => e / 4 == h).map fun e => .work c x.num (engineId e) } else s.chan h) ∧
        t = { s with cores := t.cores, chans := t.chans }) ∧
    (∀ e x src n off tag, s.OneWork e c x.num → m.gcmd? x.num = some x → x.kind = .bcast src n off tag → m.works →
      ∃ t buf, exec (.geBcastWrite e) s = .next t ∧ storedAt (sget 0 (s.engine e.val).buf) (sget 0 buf) off x.data ∧
        t.engine e.val = { s.engine e.val with buf := buf, btag := x.dtag, beb := x.deb, live := true } ∧
        (∀ f, f ≠ e.val → t.engine f = s.engine f) ∧ (t.chan (e.val / 4)).queue = [] ∧
        t.core c = m.endsPart x.num ⟨x.grp.engines.idxOf e.val, 0, 0⟩ ∧ (∀ d, d ≠ c → t.core d = s.core d) ∧
        t = { s with cores := t.cores, chans := t.chans, engines := t.engines }) ∧
    (∀ (h : ChanId) x, (s.chan h.val).queue = [.fence c x.num] → (s.chan h.val).selfRefresh = false →
      m.gcmd? x.num = some x → x.kind = .fence → m.works → s.Quiet →
      ∃ t, exec (.geFencePass h) s = .next t ∧ t.chan h.val = { s.chan h.val with queue := [] } ∧
        (∀ g, g ≠ h.val → t.chan g = s.chan g) ∧ t.core c = m.endsPart x.num ⟨h.val, 0, 0⟩ ∧
        (∀ d, d ≠ c → t.core d = s.core d) ∧ t = { s with cores := t.cores, chans := t.chans, stale := t.stale } ∧
        (∀ y, tileChan y.tile ≠ h.val → (y ∈ t.stale ↔ y ∈ s.stale)) ∧
        ∀ z ∈ t.stale, tileChan z.tile = h.val → ∃ o ∈ s.stale, o.tile = z.tile ∧ ∀ w ∈ z.writes, ∃ v ∈ o.writes, v.sent ≠ some 0 ∧
          w = { v with behind := v.behind - 1, sent := v.sent.map (· - 1) }) ∧
    (∀ x rest a n st, m.gx.cmds = x :: rest → x.kind = .opn a n st → x.dispatched = true → m.works →
      let mine := m.gx.regions
      let v := if s.regionRange a n = false then 4
        else if (∃ d, d ≠ c ∧ ∃ r ∈ (s.core d).gx.regions, s.rangesMeet (a, n) r = true) ∨
          (∃ q ∈ s.tasks, ∃ r ∈ q.2.regions, s.rangesMeet (a, n) r = true) then 1
        else if ∃ r ∈ mine, s.rangesMeet (a, n) r = true then 2
        else if mine.length = 4 then 3
        else if s.frisk c.val a n false true = none then 4 else 0
      (v = 0 → s.recalled c a n = true) → (s.regionRange a n = true → v ≠ 4) →
      ∃ spad stale, exec (.geOpenComplete c) s = .next (({ s with stale := stale } : State).setCore c (({ m with
          spad := spad, gx := { m.gx with regions := if v = 0 then mine ++ [(a, n)] else mine } } : Core).endsPart x.num ⟨0, 0, 0⟩)) ∧
        storedAt (sget 0 m.spad) (sget 0 spad) st (leBytes 8 v) ∧ (v ≠ 0 → stale = s.stale) ∧
        (v = 0 → stale = s.stale.map fun y => if s.regionHas (a, n) (4096 * y.tile) = true then
          { y with writes := y.writes.map fun w => if w.sent = none then { w with sent := some (s.fencesAt y.tile) } else w }
          else y)) ∧
    (∀ x rest a st, m.gx.cmds = x :: rest → x.kind = .cls a st → x.dispatched = true → m.works → s.Quiet →
      let v := if ∃ r ∈ m.gx.regions, r.1 = a then 0 else 2
      ∃ spad, exec (.geCloseComplete c) s = .next (s.setCore c (({ m with
          spad := spad, gx := { m.gx with regions := m.gx.regions.filter fun r => r.1 != a } } : Core).endsPart x.num ⟨0, 0, 0⟩)) ∧
        storedAt (sget 0 m.spad) (sget 0 spad) st (leBytes 8 v))

/-- The events in which an engine runs its next call (R297, R299, R300, R307, R332): with nothing in the way the entry runs on the engine
whose flag set is empty and whose live bit is set, and the call ends with its result or its cause; a call of an engine whose
restore failed ends with cause 0xA. Calls of unknown entries that the engines of the channel meet next end with it (R301). -/
def Obligations.EngineCallsRun : Prop :=
  ∀ (s t : State) (e : EngineId) (x : Call) (r : Except GStop GDone),
    let run := fun (i : Instr) (n : Nat) (f : State → Call → State × Except GStop GDone) =>
      x.entry = n → s.Calls e x → f (s.calling e) x = (t, r) → exec i s = .next ((t.endCall x r).endUnknowns (e.val / 4))
    run (.fill e) 0 entryFill ∧ run (.copy e) 1 entryCopy ∧ run (.csum e) 2 entryCsum ∧ run (.gemvI8 e) 3 (entryGemv .i8) ∧
    run (.gemvI4 e) 4 (entryGemv .i4) ∧ run (.gemvTf8 e) 5 (entryGemv .tf8) ∧ run (.kvapp e) 8 entryKvapp ∧
    run (.qk e) 9 entryQk ∧ run (.av e) 10 entryAv ∧ run (.park e) 14 entryPark ∧ run (.unpark e) 15 entryUnpark ∧
    (∀ i ∈ [(Instr.fill e, 0), (.copy e, 1), (.csum e, 2), (.gemvI8 e, 3), (.gemvI4 e, 4), (.gemvTf8 e, 5), (.kvapp e, 8), (.qk e, 9),
        (.av e, 10), (.park e, 14), (.unpark e, 15)],
      x.entry = i.2 → s.OneWork e x.core x.num → s.nextCall e = some x → s.soft = [] → (s.engine e.val).badPark = true → (s.engine e.val).absent = false →
      exec i.1 s = .next ((((s.calling e).setEngine e.val { (s.calling e).engine e.val with badPark := false }).endCall x
        (.error ⟨0xA, none⟩)).endUnknowns (e.val / 4))) ∧
    (∀ y, (s.core x.core).works → (s.core x.core).gcmd? x.num = some y → y.ends.length + 1 < y.parts → y.mute = false →
      let m := s.core x.core
      let off := x.land + 256 * x.j
      let slot := fun (md : List (Nat × BitVec 20)) (w : BitVec 20) =>
        ∀ l, sget 0 md l = if l = off / 128 ∨ l = off / 128 + 1 then w else sget 0 m.smeta l
      (∀ d, r = .ok d → d.count = 0 →
        s.endCall x r = (s.setEngine x.e d.eng).setCore x.core (m.endsPart x.num ⟨x.j, 0, d.eng.F⟩)) ∧
      (∀ d, r = .ok d → d.count ≠ 0 → ∃ spad md, s.endCall x r = (s.setEngine x.e d.eng).setCore x.core
          (({ m with spad := spad, smeta := md } : Core).endsPart x.num ⟨x.j, 0, d.eng.F⟩) ∧
        storedAt (sget 0 m.spad) (sget 0 spad) off ((List.range 64).flatMap fun i =>
          leBytes 4 (if i < d.count then (d.eng.acc.toList.getD i 0).toNat else 0)) ∧ slot md (mkMeta d.tag d.eng.eacc)) ∧
      (∀ f, r = .error f → ∃ spad md,
        (s.endCall x r).core x.core = ({ m with spad := spad, smeta := md } : Core).endsPart x.num ⟨x.j, f.cause, 0⟩ ∧
        storedAt (sget 0 m.spad) (sget 0 spad) off (List.replicate 256 0) ∧ slot md (mkMeta 14 0x7C00) ∧
        (s.endCall x r).engine x.e = { s.engine x.e with acc := Vector.replicate 64 0, eacc := 0x7C00 } ∧
        (s.RingOpen (.chase (chaseOf x.core)) → s.RingOpen .device → (s.endCall x r).evseq = s.evseq + 1)))

/-- What the entries FILL, COPY, CSUM, KVAPP, PARK and UNPARK do with good arguments (R301 to R303, R312): the tiles they write take the
bytes, the tag, the bound and the flags of the table, no other byte of memory changes, and CSUM's accumulators take the sum and
the number of tiles. -/
def Obligations.EntriesMoveData : Prop :=
  ∀ (s : State) (x : Call), x.e < 1024 →
    let tile := fun (L i : Nat) => engineTile x.e (L + 4096 * i)
    let range := fun L n : Nat => L % 4096 = 0 ∧ 1 ≤ n ∧ L + 4096 * n ≤ 2 ^ 30
    let outside := fun (t : State) (L n : Nat) => (∀ a, (∀ i, i < n → a / 4096 ≠ tile L i) → sget 0 t.mem a = sget 0 s.mem a) ∧
      (∀ u, (∀ i, i < n → u ≠ tile L i) → t.tileRec u = s.tileRec u) ∧
      (∀ b, b ∈ t.badRows ↔ b ∈ s.badRows ∧ ∀ i, i < n → b ≠ tile L i) ∧
      (∀ l, l ∈ t.poisLines ↔ l ∈ s.poisLines ∧ ∀ i, i < n → l / 64 ≠ tile L i) ∧
      t = { s with mem := t.mem, recs := t.recs, badRows := t.badRows, poisLines := t.poisLines }
    let g := s.engine x.e
    let word := fun a : Nat => ofLe ((List.range 4).map fun i => sget 0 s.mem (a + i))
    (range x.a0 x.a1 → x.a3 ≤ 9 ∨ x.a3 = 12 ∨ x.a3 = 13 → (∀ i, i < x.a1 → ∃ win, s.MayFill x (x.a0 + 4096 * i) win) →
      ∃ t, entryFill s x = (t, .ok { eng := g }) ∧ outside t x.a0 x.a1 ∧ ∀ i, i < x.a1 →
        (∀ j, j < 4096 → sget 0 t.mem (4096 * tile x.a0 i + j) = BitVec.ofNat 8 (x.a2 / 256 ^ (j % 4))) ∧
        let r := t.tileRec (tile x.a0 i)
        r.ftag = BitVec.ofNat 4 x.a3 ∧ r.eb = 0 ∧ r.poison = false ∧ r.esc = false) ∧
    (range x.a0 x.a2 → range x.a1 x.a2 → x.a3 = 0 → x.a0 + 4096 * x.a2 ≤ x.a1 ∨ x.a1 + 4096 * x.a2 ≤ x.a0 →
      (∀ i, i < x.a2 → s.MayPass x (x.a0 + 4096 * i) ∧ ∃ win, s.MayFill x (x.a1 + 4096 * i) win) →
      ∃ t, entryCopy s x = (t, .ok { eng := g }) ∧ outside t x.a1 x.a2 ∧ ∀ i, i < x.a2 →
        (∀ j, j < 4096 → sget 0 t.mem (4096 * tile x.a1 i + j) = sget 0 s.mem (4096 * tile x.a0 i + j)) ∧
        let r := t.tileRec (tile x.a1 i)
        let o := s.tileRec (tile x.a0 i)
        r.ftag = o.ftag ∧ r.eb = o.eb ∧ r.poison = false ∧ r.esc = o.esc) ∧
    (range x.a0 x.a1 → x.a2 = 0 → x.a3 = 0 → (∀ i, i < x.a1 → s.MayPass x (x.a0 + 4096 * i)) →
      let total := ((List.range (1024 * x.a1)).map fun k => word (4096 * tile x.a0 (k / 1024) + 4 * (k % 1024))).sum
      entryCsum s x = (s, .ok { count := 2, tag := 6, eng := { g with
        eacc := 0, acc := (g.acc.set 0 (BitVec.ofNat 32 total)).set 1 (BitVec.ofNat 32 x.a1) } })) ∧
    (let pitch := 64 * x.a2
      let src := x.a3 % 4096 + x.j * (x.a3 / 2 ^ 16 % 4096)
      let L := x.a0 + x.a1 * pitch
      let T := engineTile x.e L
      ∀ w win, x.a0 % 64 = 0 → 1 ≤ x.a2 → x.a2 ≤ 64 → x.a3 / 2 ^ 12 % 16 = 0 → x.a3 / 2 ^ 28 % 16 = 0 → src + pitch ≤ 4096 →
        L + pitch ≤ 2 ^ 30 → L % 4096 + pitch ≤ 4096 → g.btag ≠ 14 → s.MayPass x L → s.ownRegion x.core (4096 * T) = true →
        s.galleyFrisk x.core T (decide (pitch ≠ 4096)) true = some win → s.ClearFor win (4096 * T) →
        (s.keySlot (windowSlot win)).key = some w → s.exhausted (windowSlot win) T = false →
        ∃ t, entryKvapp s x = (t, .ok { eng := g }) ∧
          storedAt (sget 0 s.mem) (sget 0 t.mem) (4096 * T + L % 4096) ((List.range pitch).map fun i => sget 0 g.buf (src + i)) ∧
          (t.tileRec T).ftag = g.btag ∧ (t.tileRec T).eb = maxBound (s.tileRec T).eb g.beb ∧
          (t.tileRec T).esc = (s.tileRec T).esc ∧ (t.tileRec T).poison = false ∧
          (∀ u, u ≠ T → t.tileRec u = s.tileRec u) ∧ t = { s with mem := t.mem, recs := t.recs }) ∧
    (x.a0 = 0 → x.a1 = 0 → x.a2 = 0 → x.a3 = 0 →
      let k := s.keys.get 24
      let ver := if g.parkGen = k.gen then g.parkVer + 1 else 0
      entryPark s x = (s, .ok { eng := { g with
        park := some ⟨g.buf, g.btag, g.beb, g.acc, g.eacc, g.F, k.key, k.gen, ver⟩, parkVer := ver, parkGen := k.gen
        acc := Vector.replicate 64 0, buf := [], eacc := 0, btag := 0, beb := 0, live := false } }) ∧
      (∀ q key, g.park = some q → q.key = some key → k.keyFor q.gen = some key → 24 ∉ s.lostKeys → SoftErr.park x.e ∉ s.soft →
        entryUnpark s x = (s, .ok { eng := { g with
        buf := q.buf, btag := q.btag, beb := q.beb, acc := q.acc, eacc := q.eacc, F := q.F, park := none, live := true } })) ∧
      (∀ q, g.park = some q → q.key = none ∨ k.keyFor q.gen ≠ q.key ∨ 24 ∈ s.lostKeys → SoftErr.park x.e ∉ s.soft →
        entryUnpark s x = (s, .error ⟨0xA, none⟩)) ∧
      (g.park = none → entryUnpark s x = (s, .error ⟨4, none⟩)))

/-- The rows that a call's tile passes read (R302, R307): the bytes of the tiles of the engine's bank group at the local addresses, and the
largest bound of those tiles, where every tile may be passed. -/
def Stated.EntriesRead : Prop :=
  ∀ (s : State) (x : Call) (n : Nat) (Ls : List Nat), 0 < n → (∀ L ∈ Ls, ∀ j, j < n → s.MayPass x (L + j)) →
    let row := fun L => (List.range n).map fun j => sget 0 s.mem (4096 * engineTile x.e (L + j) + (L + j) % 4096)
    let tiles := fun L => (List.range ((L + n - 1) / 4096 - L / 4096 + 1)).map fun i => engineTile x.e (4096 * (L / 4096 + i))
    s.readRows x n Ls = (s, .ok (Ls.map row, (Ls.flatMap tiles).foldr (fun t e => maxBound (s.tileRec t).eb e) 0))

/-- The arithmetic of GEMV.I8, GEMV.I4, GEMV.TF8, QK and AV with good arguments, on the rows that their tile passes read (R301, R304 to
R306): each accumulator that a call writes is its row's chain of values rounded to FP32 with flushing, and the others stay; eacc is the bound
of R306, of the values that the call rounds, each as rounded and flushed (log entry 76), with the factors that multiply them later. -/
def Stated.EntriesArithmetic : Prop :=
  ∀ (s t : State) (x : Call) (rows : List (List Byte)) (ew : BitVec 16),
    let g := s.engine x.e
    let buf := fun off n => (List.range n).map fun i => sget 0 g.buf (off + i)
    let rnd := fun z : Sys2Proof.Machine.Num => (flushOut (roundTo .fp32 .rne z)).1
    let val := value .fp32
    let half := fun (bs : List Byte) (i : Nat) => BitVec.ofNat 16 (ofLe ((bs.drop (2 * i)).take 2))
    let pitch := 64 * (x.a1 / 2 ^ 16 % 2 ^ 13)
    let old := fun (acc : Bool) (i : Nat) => if acc then (g.acc.toList.getD i 0).toNat else 0
    let gives := fun (o : State × Except GStop GDone) (n : Nat) (bound : BitVec 16) (y : Nat → Nat) => ∃ d, o = (t, .ok d) ∧
      d.count = n ∧ d.tag = 1 ∧ d.eng = { g with acc := d.eng.acc, eacc := bound, F := d.eng.F } ∧
      ∀ i : Fin 64, d.eng.acc.get i = if i.val < n then BitVec.ofNat 32 (y i.val) else g.acc.get i
    let one : Sys2Proof.Machine.Num := .pow2 0
    let ea := ebValue g.beb
    let prop := fun (ax wt : Sys2Proof.Machine.Num) =>
      (nadd .rup (nadd .rup (nmul ax (ebValue ew)).1 (nmul wt ea).1).1 (nmul ea (ebValue ew)).1).1
    let bound := fun (acc : Bool) (p : Sys2Proof.Machine.Num) (nr : Nat) (rounds : List (Sys2Proof.Machine.Num × Sys2Proof.Machine.Num)) =>
      let e0 := if acc then ebValue g.eacc else .zero
      let mx := rounds.foldl (fun a v => nmaxInf a (nmul v.1.abs v.2.abs).1) .zero
      let fx := rounds.foldl (fun a v => nmaxInf a v.2.abs) .zero
      if mx.isFin && fx.isFin && p.isFin && e0.isFin then
        boundOf (nadd .rup (nadd .rup e0 p).1 (nmul (.ofNat nr) (nadd .rup (ulp .fp32 mx) (nmul (.pow2 (-126)) fx).1).1).1).1
      else 0x7C00#16
    let step := fun (a : Sys2Proof.Machine.Num) (p : Sys2Proof.Machine.Num × Sys2Proof.Machine.Num) => val (rnd (nfma .rne p.1 p.2 a).1)
    let steps := fun (z : List (Sys2Proof.Machine.Num × Sys2Proof.Machine.Num)) (f : Sys2Proof.Machine.Num) =>
      (List.range z.length).map fun j => ((z.take (j + 1)).foldl step .zero, f)
    let largest := fun (rs : List (List Sys2Proof.Machine.Num)) => rs.foldl (fun a r => nmax a (finMax r)) .zero
    (∀ k : GemvKind,
      let nout := x.a1 % 64 + 1
      let K := x.a2
      let nb := K / 128
      let wlen := match k with | .i4 => K / 2 | _ => K
      let len := wlen + 2 * nb
      let acc := decide (x.a1 / 2 ^ 31 % 2 = 1)
      let xs := elemVals g.btag K (buf 0 K)
      let sp := fun (row : List Byte) (b : Nat) =>
        val (flushOut (scaleProduct (flushBf16 (half (buf K (2 * nb)) b)) (flushBf16 (half (row.drop wlen) b)))).1
      let pairs := fun (row : List Byte) (b : Nat) =>
        List.zip ((xs.drop (128 * b)).take 128) ((k.weights K (row.take wlen)).drop (128 * b) |>.take 128)
      let sum := fun (row : List Byte) (b : Nat) =>
        match k with
        | .tf8 => (pairs row b).foldl step .zero
        | _ => (pairs row b).foldl (fun a p => (nadd .rne a (nmul p.1 p.2).1).1) .zero
      let y := fun q n => (List.range n).foldl (fun y b =>
        rnd (nfma .rne (sum (rows.getD q []) b) (sp (rows.getD q []) b) (val y)).1) (old acc q)
      let rounds := (List.range nout).flatMap fun q => (List.range nb).flatMap fun b =>
        let row := rows.getD q []
        (match k with | .tf8 => steps (pairs row b) (sp row b) | _ => []) ++ [(sp row b, sum row b), (val (y q (b + 1)), one)]
      let smax := ((List.range nout).flatMap fun q => (List.range nb).map fun b => sp (rows.getD q []) b).foldl
        (fun a v => nmaxInf a v.abs) .zero
      let p := (nmul (nmul (.ofNat K) (prop (finMax xs) (largest (rows.map fun r => k.weights K (r.take wlen))))).1 smax).1
      x.a0 % 64 = 0 → x.a1 / 2 ^ 29 % 4 = 0 → x.a1 / 2 ^ 6 % 2 ^ 10 = 0 → pitch ≠ 0 → x.a3 = 0 → K % 128 = 0 → 128 ≤ K →
      K ≤ 3968 → len ≤ pitch → x.a0 + (nout - 1) * pitch + len ≤ 2 ^ 30 → g.btag = (match k with | .tf8 => 4 | _ => 8) →
      s.readRows x len ((List.range nout).map fun q => x.a0 + q * pitch) = (t, .ok (rows, ew)) →
      gives (entryGemv k s x) nout (bound acc p (match k with | .tf8 => 129 * nb | _ => nb) rounds) fun q => y q nb) ∧
    (let n := x.a1 % 64 + 1
      let d := x.a2
      let len := d * (tagWidth g.btag / 8)
      let c := flushIn .fp32 x.a3
      let qs := elemVals g.btag d (buf 0 len)
      let sum := fun row => let ks := elemVals g.btag d row
        if g.btag = 8 then (List.zip qs ks).foldl (fun a p => (nadd .rne a (nmul p.1 p.2).1).1) .zero
        else (List.zip qs ks).foldl step .zero
      let y := fun p => rnd (nmul (sum (rows.getD p [])) c).1
      let rounds := (List.range n).flatMap fun p =>
        (if g.btag = 8 then [] else steps (List.zip qs (elemVals g.btag d (rows.getD p []))) c) ++ [(val (y p), one)]
      let p := (nmul (nmul (.ofNat d) (prop (finMax qs) (largest (rows.map (elemVals g.btag d))))).1 c.abs).1
      x.a0 % 64 = 0 → x.a1 / 2 ^ 29 % 8 = 0 → x.a1 / 2 ^ 6 % 2 ^ 10 = 0 → pitch ≠ 0 → 1 ≤ d → d ≤ 2048 → g.btag ∈ [2, 4, 8] →
      len ≤ pitch → len ≤ 4096 → x.a0 + (n - 1) * pitch + len ≤ 2 ^ 30 →
      s.readRows x len ((List.range n).map fun p => x.a0 + p * pitch) = (t, .ok (rows, ew)) →
      gives (entryQk s x) n (bound false p (if g.btag = 8 then 1 else d + 1) rounds) y) ∧
    (let n := x.a1 % 1024 + 1
      let d := x.a2
      let tag : BitVec 4 := BitVec.ofNat 4 x.a3
      let len := d * (tagWidth tag / 8)
      let ws := elemVals 1 n (buf 0 (4 * n))
      let acc := decide (x.a1 / 2 ^ 31 % 2 = 1)
      let y := fun i m => (List.range m).foldl (fun y p =>
        rnd (nfma .rne (ws.getD p .zero) ((elemVals tag d (rows.getD p [])).getD i .zero) (val y)).1) (old acc i)
      let rounds := (List.range n).flatMap fun p => (List.range d).map fun i => (val (y i (p + 1)), one)
      let p := (nmul (.ofNat n) (prop (finMax ws) (largest (rows.map (elemVals tag d))))).1
      x.a0 % 64 = 0 → x.a1 / 2 ^ 29 % 4 = 0 → x.a1 / 2 ^ 10 % 2 ^ 6 = 0 → pitch ≠ 0 → 1 ≤ d → d ≤ 64 → x.a3 = 2 ∨ x.a3 = 4 →
      len ≤ pitch → 4 * n ≤ 4096 → x.a0 + (n - 1) * pitch + len ≤ 2 ^ 30 → g.btag = 1 →
      s.readRows x len ((List.range n).map fun p => x.a0 + p * pitch) = (t, .ok (rows, ew)) →
      gives (entryAv s x) d (bound acc p n rounds) fun i => y i n)

/-- What the arithmetic entries read and compute (R301, R302, R304 to R307): both statements above. -/
def Obligations.EntriesCompute : Prop := Stated.EntriesRead ∧ Stated.EntriesArithmetic

/-! ## Errors, spares and retest -/

/-- SELF_REFRESH_ENTRY and SELF_REFRESH_EXIT (R313): the entry parks every live engine of the channel, whose live bit stays; the exit
restores it, or notes that its park row failed; a row that PARK wrote stays; no other engine, and no byte of the tiles, changes. -/
def Stated.SelfRefresh : Prop :=
  ∀ (s : State) (h : ChanId),
    let q := s.chan h.val
    let k := s.keys.get 24
    let others := fun t : State => (∀ g, g ≠ h.val → t.chan g = s.chan g) ∧ t = { s with chans := t.chans, engines := t.engines }
    (q.selfRefresh = false → s.half = false ∨ h.val < 128 → ∃ t, exec (.selfRefreshEntry h) s = .next t ∧ t.chan h.val = { q with selfRefresh := true } ∧ others t ∧
      ∀ e, let g := s.engine e
        let ver := if g.parkGen = k.gen then g.parkVer + 1 else 0
        t.engine e = if e / 4 = h.val ∧ g.live = true then { g with
          sleepRow := some ⟨g.buf, g.btag, g.beb, g.acc, g.eacc, g.F, k.key, k.gen, ver⟩
          parkVer := ver, parkGen := k.gen
          acc := Vector.replicate 64 0, buf := [], eacc := 0, btag := 0, beb := 0 } else g) ∧
    (q.selfRefresh = true → q.queue = [] → s.Quiet → s.soft = [] → ∃ t, exec (.selfRefreshExit h) s = .next t ∧
      t.chan h.val = { q with selfRefresh := false } ∧ others t ∧
      ∀ e, let g := s.engine e
        (e / 4 ≠ h.val ∨ g.sleepRow = none → t.engine e = g) ∧
        (e / 4 = h.val → ∀ p, g.sleepRow = some p →
          (p.key.isSome = true → k.keyFor p.gen = p.key → 24 ∉ s.lostKeys → t.engine e = { g with
            buf := p.buf, btag := p.btag, beb := p.beb, acc := p.acc, eacc := p.eacc, F := p.F, sleepRow := none, live := true }) ∧
          (p.key = none ∨ k.keyFor p.gen ≠ p.key ∨ 24 ∈ s.lostKeys → t.engine e = { g with badPark := true, sleepRow := none }))) ∧
    (q.selfRefresh = true ∨ s.half = true ∧ 128 ≤ h.val → exec (.selfRefreshEntry h) s = .next s) ∧
    (q.selfRefresh = false → exec (.selfRefreshExit h) s = .next s)

/-- ROW_REPAIR (R484), PATROL_SCRUB (R476), CORRECTED_COUNT_RESTART (R475), CORE_RETEST and CORE_RETEST_END (R482, R485), ENGINE_RETEST
and ENGINE_RETEST_END (R478, R483, R485), CORE_RETIRE (R377, R479, R481). -/
def Stated.RepairEvents : Prop :=
  ∀ (s : State) (da : Nat) (c : CoreId) (h : ChanId) (g : Fin 4) (j : Fin 32),
    let t := da / 4096
    let unit := linearEngine (4096 * t) / 4
    let used := sget 0 s.rowSpares (tileBank t)
    let spare := fun u : State => ({ u with
      badRows := u.badRows.filter (· != t), rowErrs := sset 0 u.rowErrs t 0
      rowSpares := sset 0 u.rowSpares (tileBank t) (used + 1) } : State).memEvent 0x06 (t * 4096) unit
    let shown := (({ s.setRec t { s.tileRec t with poison := true } with
      stale := s.stale.filter fun y => y.tile != t, badRows := (t :: s.badRows).eraseDups
      rowErrs := sset 0 s.rowErrs t (sget 0 s.rowErrs t + 1) } : State).memEvent 0x01 (t * 4096) unit)
    let tested := fun n : Nat => { s with corr := sset 0 s.corr n 0 }
    let k := s.core c
    let col := sget 0x1FBF#14 s.ccol c.val
    let e := 4 * h.val + g.val
    let x := s.engine e
    let q := s.chan h.val
    let bit : BitVec 5 := 1#5 <<< g.val
    let fresh : Engine := { control := x.control, entries := x.entries }
    (da < s.memTop →
      (∀ readable due, due = false ∨ sget 0 s.rowErrs t < 2 ∨ s.tileWaits t = true → exec (.rowRepair da readable due) s = .next s) ∧
      (2 ≤ sget 0 s.rowErrs t → s.tileWaits t = false → s.soft = [] →
        (used < 4 → exec (.rowRepair da true true) s = .next (spare s) ∧ exec (.rowRepair da false true) s = .next (spare shown)) ∧
        (4 ≤ used → exec (.rowRepair da true true) s = .next (s.memEvent 0x07 (t * 4096) unit) ∧
          exec (.rowRepair da false true) s = .next (shown.memEvent 0x07 (t * 4096) unit))) ∧
      (s.tileWaits t = true → ∀ b, exec (.patrolScrub da b) s = .next s) ∧
      (s.soft = [] → s.tileWaits t = false → exec (.patrolScrub da false) s = .next s ∧
        exec (.patrolScrub da true) s = .next shown)) ∧
    exec .correctedCountRestart s = .next { s with corr := [], rowErrs := [] } ∧
    (k.st = .free → exec (.coreRetest c) s = .next (s.setCore c { k with st := .retest })) ∧
    (k.st = .retest →
      let s1 := (tested (0x1000 + c.val)).setCore c { k with st := .free }
      exec (.coreRetestEnd c []) s = .next { s1 with ccol := sset 0x1FBF#14 s.ccol c.val col } ∧
      (col.extractLsb' 0 6 = 0x3F → exec (.coreRetestEnd c [j]) s = .next { s1 with
        ccol := sset 0x1FBF#14 s.ccol c.val (0#1 ++ col.extractLsb' 7 6 ++ 0#1 ++ BitVec.ofNat 6 j.val) }) ∧
      (col.extractLsb' 0 6 ≠ 0x3F → col.extractLsb' 7 6 = 0x3F → exec (.coreRetestEnd c [j]) s = .next { s1 with
        ccol := sset 0x1FBF#14 s.ccol c.val (0#1 ++ BitVec.ofNat 6 j.val ++ 0#1 ++ col.extractLsb' 0 6) })) ∧
    (q.queue = [] → q.selfRefresh = false → x.absent = false → s.hasEngine e = true →
      ((∀ i : Fin 4, (s.engine (4 * h.val + i.val)).testing = false) → x.live = false →
        exec (.engineRetest h g) s = .next (s.setEngine e { x with testing := true })) ∧
      (x.testing = true → ∀ n : EngineId, n.val = e →
        exec (.engineRetestEnd n false) s = .next ((tested (0x2000 + e)).setEngine e { x with testing := false }) ∧
        (q.spareUsed = false → exec (.engineRetestEnd n true) s = .next
          (((((tested (0x2000 + e)).setEngine e { x with testing := false }).setEngine e fresh).setChan h.val { q with
            spareUsed := true, sub := BitVec.ofNat 2 g.val, ret := q.ret ||| bit }).engEvent 0x04 e)) ∧
        (q.spareUsed = true → exec (.engineRetestEnd n true) s = .next
          (((((tested (0x2000 + e)).setEngine e { x with testing := false }).setEngine e { fresh with absent := true }).setChan h.val { q with
            ret := q.ret ||| if q.sub.toNat = g.val then 16#5 else bit }).engEvent 0x05 e)))) ∧
    (k.stores = [] → k.gx.cmds = [] → k.gx.regions = [] → (∀ y ∈ k.infl, y.mark.kids = []) → k.req = none → k.st = .running → k.owes = none → k.escRec = none → ∀ i y, k.task = some i →
      s.task? i = some y → k.creq = false →
      ∃ t, exec (.coreRetire c) s = .next t ∧ (t.core c).task = none ∧ (∀ d, d ≠ c → t.core d = s.core d) ∧
        t.task? i = some { y with st := .ready, core := none, image := none } ∧
        (s.RingOpen (.chase (chaseOf c)) → s.RingOpen .device → t.evseq = s.evseq + 1) ∧
        let z := s.chase (chaseOf c)
        (∀ p, z.sparePos = some p → (t.core c).st = .free ∧ (t.core c).tlb = [] ∧ (t.core c).recto.tag = none ∧
          (t.core c).verso.tag = none ∧ (t.chase (chaseOf c)).pos (c.val % 8) = p) ∧
        (z.sparePos = none → (t.core c).st = .lost ∧ (t.chase (chaseOf c)).pos (c.val % 8) = 15 ∧
          ∀ r, (t.part r).pcore.getLsbD c.val = false))

/-- What the checks do with an error that stands when a step begins (R54, R377, R474, R475): a scratchpad line reads Poison; a candidate list,
a weight bank or a special register is poisoned; a window word that cannot be read admits nothing; each with one event. An error of a side
waits for a fetch: then the side loses its image's tag, and the task of the core starts again. A corrected error is counted, and the
seventeenth of its unit raises one. The step then goes on from there. -/
def Stated.ErrorsMet : Prop :=
  ∀ (s : State) (c : CoreId) (l n : Nat) (i : Fin 4) (v : Bool) (r : Nat),
    let k := s.core c
    let clear := { s with soft := [] }
    let met := fun (x : SoftErr) (u : State) => s.soft = [x] → step s = runNext u
    met (.line c l) ((clear.setCore c (k.setLine l (mkMeta 14 (metaEb (sget 0 k.smeta l))))).coreEvent 0x00 (128 * l) c) ∧
    let none' := 0x1FFFF + 2 ^ 17 * 2 ^ 64
    let shared := fun (u : Core) (key : Nat) => (clear.setCore c { u with lorig := k.lorig.filter (fun y => y.1 != key) ++ [(key, none')] }).coreEvent
      0x00 0 c
    met (.list c i) (shared { k with cl := k.cl.set i.val { k.cl.get i with poison := true } i.isLt } (0x1000 + i.val)) ∧
    met (.bank c false) (shared { k with w0 := { k.w0 with fmt := .poison } } 0x1004) ∧
    met (.bank c true) (shared { k with w1 := { k.w1 with fmt := .poison } } 0x1005) ∧
    met (.special c r) (shared { k with lostSr := (r :: k.lostSr).eraseDups } (0x2000 + r)) ∧
    (k.st ≠ .running ∨ k.side ≠ v → s.soft = [.side c v] → step s = runNext s) ∧
    (k.st = .running → k.side = v → met (.side c v)
      (((clear.setCore c (k.setSide v { k.sideAt v with tag := none })).coreEvent 0x00 (sideAddr c v) c).loseCore c)) ∧
    (let lost := { clear with lostWords := n :: s.lostWords };
      met (.window n) (lost.memEvent 0x00 (wordAddr n) 0) ∧
      ∀ t mid b da m r w, n / 8 = t * 512 + mid → lost.friskAt t mid b da m r w = none) ∧
    (let unit := 0x1000 + c.val;
      let more := { clear with corr := sset 0 s.corr unit (sget 0 s.corr unit + 1) };
      (sget 0 s.corr unit = 16 → met (.weakCore c) (more.coreEvent 0x03 0 c)) ∧
      (sget 0 s.corr unit ≠ 16 → met (.weakCore c) more)) ∧
    (let more := { clear with corr := sset 0 s.corr 0x3000 (sget 0 s.corr 0x3000 + 1) };
      (sget 0 s.corr 0x3000 = 16 → met .weakTable (more.memEvent 0x03 0 0)) ∧ (sget 0 s.corr 0x3000 ≠ 16 → met .weakTable more))

/-- Self-refresh, repair, retest and the errors of storage (R313, R377, R474 to R485): the three statements above. -/
def Obligations.RefreshAndRepair : Prop := Stated.SelfRefresh ∧ Stated.RepairEvents ∧ Stated.ErrorsMet

/-! ## The host port and the storage port -/

/-- HOST_MEM_READ, HOST_MEM_WRITE, BI_SNOOP_RESPONSE and HOST_SNOOP_TIMEOUT (R245, R248, R249, R340, R341, R431, R439, R445) on one line of
the linear view, at host physical addresses that a decoder maps; or with no decoder, which takes nothing. The host is granted the line that it
has read, if the tile has a version left for its write-back; a request under one view recalls what is held under another. -/
def Obligations.HostMemory : Prop :=
  ∀ (s : State) (hpa da line : Nat) (bs : List Byte) (win all : Word),
    let n := bs.length
    let up := s.slp = .running ∨ s.slp = .entering
    let answered := fun (t : State) (x : Option (List Byte)) => ({ t with
      hostData := x.getD [], hostPoison := x.isNone, hostReplies := x :: s.hostReplies } : State)
    let admits := s.frisk 0x080 da n true false = some win
    let fails := exec (.hostMemRead hpa n) s = .next (answered s none)
    let gone := ({ s with hostLines := s.hostLines.filter (· != line), hostVia := sset 0 s.hostVia line 0 } : State)
    let wrote := fun (t u : State) (a : Nat) => u.Sealed t win a bs ∧ t = { u with
      mem := t.mem, recs := t.recs, stale := t.stale, badRows := t.badRows }
    let slpctl := 0x0F00_0030_0000
    let held := fun x => ({ s with slp := .waking, hostHeld := s.hostHeld ++ [x] } : State)
    (up → s.hostDa hpa n = some da → barAt hpa n = none → s.rangeStalls da n = false → 0 < n → da % 64 + n ≤ 64 → da + n ≤ s.memTop →
      s.soft = [] →
      ((∀ l ∈ s.hostLines, s.heldAt l = 64 * l) →
        (admits → s.ClearFor win da → s.frisk 0x080 (64 * (da / 64)) 64 true false = some all →
          exec (.hostMemRead hpa n) s = .next (answered
            (if s.exhausted (windowSlot all) (da / 4096) then s else { s with
              hostLines := (s.hostLines ++ [da / 64]).eraseDups, hostVia := sset 0 s.hostVia (da / 64) 0 })
            (some ((List.range n).map fun i => sget 0 s.mem (da + i))))) ∧
        (admits → (s.tileRec (da / 4096)).poison = true → fails) ∧
        (admits → s.fillCheck (windowSlot win) (da / 4096) = .clear → da / 64 ∈ s.poisLines → fails) ∧
        (s.frisk 0x080 da n true false = none → ∃ t, exec (.hostMemRead hpa n) s = .next t ∧ t = answered t none ∧
          (s.RingOpen (.chase 0) → s.RingOpen .device → t.evseq = s.evseq + 1) ∧ ∀ l ∈ t.hostLines, l ∈ s.hostLines) ∧
        (s.PlainWrite 0x080 da bs win → ∃ t, exec (.hostMemWrite hpa bs) s = .next t ∧ wrote t s da)) ∧
      (da / 64 ∈ s.hostLines → s.heldAt (da / 64) ≠ 64 * (da / 64) →
        exec (.hostMemRead hpa n) s = exec (.hostMemRead hpa n) (s.recallLine (da / 64)) ∧
        exec (.hostMemWrite hpa bs) s = exec (.hostMemWrite hpa bs) (s.recallLine (da / 64)))) ∧
    (s.slp = .asleep ∨ s.slp = .waking → s.hostDa hpa n = some da → barAt hpa n = none →
      exec (.hostMemRead hpa n) s = .next (held (.memRead hpa n)) ∧
      (da < slpctl ∨ slpctl + 8 ≤ da → exec (.hostMemWrite hpa bs) s = .next (held (.memWrite hpa bs)))) ∧
    (s.slp = .asleep → s.hostDa hpa 8 = some slpctl → n = 8 → ∃ t, exec (.hostMemWrite hpa bs) s = .next t ∧ t.slp = .waking) ∧
    (s.hostDa hpa n = none → exec (.hostMemWrite hpa bs) s = .next s ∧ (barAt hpa n = none → exec (.hostMemRead hpa n) s = .next s)) ∧
    (line ∈ s.hostLines →
      exec (.biSnoopResponse line none) s = .next gone ∧
      (n = 64 → s.rangeStalls (64 * line) 64 = false → s.PlainWrite 0x080 (s.heldAt line) bs win → ∃ t,
        exec (.biSnoopResponse line (some bs)) s = .next t ∧ wrote t gone (s.heldAt line)) ∧
      (s.rangeStalls (64 * line) 64 = true → exec (.biSnoopResponse line (some bs)) s = .next s) ∧
      exec (.hostSnoopTimeout line) s = .next (({ gone with poisLines := (line :: s.poisLines).eraseDups } : State).event .hcoh
        { cause := 0x22, mid := 0x0FF })) ∧
    (line ∉ s.hostLines → ∀ d, exec (.biSnoopResponse line d) s = .next s ∧ exec (.hostSnoopTimeout line) s = .next s)

/-- COMMAND_SLOT_WRITE, HOST_MEM_READ of BAR0, CWCTL_ENABLE, CWCTL_DISABLE, SLOT_CONSUME, SLOT_FENCE and PEER_APERTURE_WRITE and READ (R342 to
R348); in sleep the host's accesses are held, and the publishing word of an enabled window starts a wake (R431). -/
def Obligations.CommandWindows : Prop :=
  ∀ (s : State) (f : FuncId) (off n hpa : Nat) (bs : List Byte) (win : Word),
    let up := s.slp = .running ∨ s.slp = .entering
    let asleep := s.slp = .asleep ∨ s.slp = .waking
    let answered := fun (x : List Byte) => ({ s with
      hostData := x, hostPoison := false, hostReplies := some x :: s.hostReplies } : State)
    let reads := fun (mid a : Nat) => 0 < n ∧ a % 64 + n ≤ 64 ∧ a + n ≤ s.memTop ∧ s.soft = [] ∧ s.rangeStalls a n = false ∧
      s.rangeHeld a n = false ∧ s.frisk mid a n true false = some win ∧ s.ClearFor win a
    let bytes := fun a => (List.range n).map fun i => sget 0 s.mem (a + i)
    let wrote := fun (t u : State) (a : Nat) => u.Sealed t win a bs ∧ t = { u with
      mem := t.mem, recs := t.recs, stale := t.stale, badRows := t.badRows }
    let x := s.func f
    let mid := 0x080 + f.val
    let cw := 4096 * (x.cwbase.extractLsb' 12 36).toNat
    let cq := 2048 * (x.cqbase.extractLsb' 11 37).toNat
    let base := 2 ^ 36 * (x.pacfg.extractLsb' 36 12).toNat + off
    let plain := fun a => s.PlainWrite mid a bs win ∧ s.rangeStalls a bs.length = false ∧ s.rangeHeld a bs.length = false
    (up →
      (x.en = false → s.rangeStalls cq 2048 = false → ∃ t y, exec (.cwctlEnable f) s = .next t ∧
        s.setFunc f { x with en := true, e := 1, h := 0, ph := true, pubs := [] } = y ∧
        t = ((y.deviceWrite mid cq (List.replicate 2048 0)).setFunc f { x with en := true, e := 1, h := 0, ph := true, pubs := [], rdy := true })) ∧
      (x.en = false → s.rangeStalls cq 2048 = true → exec (.cwctlEnable f) s = .next s) ∧
      (x.en = true → s.rangeStalls cq 2048 = false → exec (.cwctlEnable f) s = .next s) ∧
      (x.en = true → exec (.cwctlDisable f) s = .next (s.setFunc f { x with en := false, rdy := x.rdy && !x.owed.isEmpty })) ∧
      (off + bs.length ≤ 0x1000 → plain (cw + off) → ∃ t, exec (.commandSlotWrite f off bs) s = .next t ∧
        wrote t (s.setFunc f (x.publish (published off bs))) (cw + off)) ∧
      (barAt hpa n = some (f, off) →
        (off + n ≤ 0x1000 → reads mid (cw + off) → exec (.hostMemRead hpa n) s = .next (answered (bytes (cw + off)))) ∧
        (n = 8 → off = 0x1000 → exec (.hostMemRead hpa n) s = .next (answered (leBytes 8 (if x.en then 1 else 0)))) ∧
        (n = 8 → off = 0x1008 → exec (.hostMemRead hpa n) s = .next (answered (leBytes 8 (BitVec.toNat (
          x.e ++ (0#23 ++ ((if x.rdy then 1#1 else 0#1) ++ ((if x.ph then 1#1 else 0#1) ++ (0#1 ++ x.h))))))))))) ∧
    (asleep → off + bs.length ≤ 0x1000 →
      exec (.commandSlotWrite f off bs) s = .next { s with
        slp := if x.en && (List.range 64).any (fun i => decide (off < 64 * i + 64) && decide (64 * i + 60 < off + bs.length)) then .waking else s.slp
        hostHeld := s.hostHeld ++ [.slotWrite f off bs] } ∧
      exec (.cwctlEnable f) s = .next { s with hostHeld := s.hostHeld ++ [.window f true] } ∧
      exec (.cwctlDisable f) s = .next { s with hostHeld := s.hostHeld ++ [.window f false] } ∧
      exec (.peerApertureWrite f off bs) s = .next { s with hostHeld := s.hostHeld ++ [.peerWrite f off bs] } ∧
      exec (.peerApertureRead f off n) s = .next { s with hostHeld := s.hostHeld ++ [.peerRead f off n] }) ∧
    (∀ t u w, s.slotReady f = true → s.takeSlot f = (t, u, w) →
      u.h = x.h.toNat ∧ u.seq = x.e ∧ u.ph = x.ph ∧
      t.func f = { t.func f with e := if x.e = 0xFFFFFFFF then 1 else x.e + 1, h := x.h + 1
                                 ph := if x.h = 63 then !x.ph else x.ph, owed := x.owed ++ [x.h.toNat] } ∧
      let ends := fun (t : State) (st : Nat) => exec (.slotConsume f) s = .next ((t.slotRecord f u st).recheckOf f)
      (w = none → ends t 6) ∧
      (∀ v, w = some v →
        (slotInvalid v = true → ends t 1) ∧
        (slotInvalid v = false → slotKind v = 0 → ends t 0) ∧
        (slotInvalid v = false → slotKind v = 1 → s.jobsFull f v = false → exec (.slotConsume f) s =
          .next ((t.runSlot f u v).recheckOf f)) ∧
        (slotInvalid v = false → slotKind v = 1 → s.jobsFull f v = true → exec (.slotConsume f) s = .next s) ∧
        (slotInvalid v = false → slotKind v = 2 → exec (.slotConsume f) s = .next ((t.cancelSlot f u v).recheckOf f)) ∧
        (slotInvalid v = false → slotKind v = 3 → exec (.slotFence f) s = .next (((t.setFunc f { t.func f with
          fences := (t.func f).fences ++ [(u.h, u.utag, u.seq, u.ph, x.owed)] }).answerFences f 64).recheckOf f)))) ∧
    (s.slotReady f = false → exec (.slotConsume f) s = .next s ∧ exec (.slotFence f) s = .next s) ∧
    (x.pacfg.getLsbD 0 = true → off < 2 ^ 36 → up →
      (plain base → ∃ t, exec (.peerApertureWrite f off bs) s = .next t ∧ wrote t s base) ∧
      (reads mid base → exec (.peerApertureRead f off n) s = .next (answered (bytes base)))) ∧
    (x.pacfg.getLsbD 0 = false ∨ 2 ^ 36 ≤ off → up → exec (.peerApertureWrite f off bs) s = .next (s.permEvent mid off))

/-- HOST_WINDOW_TIMEOUT (R349), STORAGE_TIMEOUT, STORAGE_LINK_DOWN and STORAGE_LINK_UP (R353), SSD_MEM_READ and SSD_MEM_WRITE (R352,
R444), SSD_METADATA_ACCESS (R441, R444) and SSD_MSIX (R350), and the accesses of supervisor cores (R279, R439). -/
def Obligations.StorageAndSupervisors : Prop :=
  ∀ (s : State) (c : CoreId) (da n : Nat) (bs : List Byte) (win : Word) (q : Fin 64) (h : ChaseId) (v : Word) (o : AmoOp),
    let k := s.core c
    let sup := 0x060 + h.val
    let late := fun (i : Instr) (sel : Late → Prop) (port : Target) (ev : State → State) => k.st ∉ [.settling, .lost, .trapping] →
      (∀ pre e post, k.infl = pre ++ e :: post → (∀ x ∈ pre, sel x.late → k.arrivable x = false) → sel e.late →
        k.arrivable e = true → e.mark.kids = [] → ∃ pay, (e.late = .host none ∨ e.late = .stor none → pay = e.pay) ∧
          exec i s = .next (ev (s.setCore c { k with infl := pre ++ { e with pay := pay, late := .no, poison := true } :: post }))) ∧
      (∀ pre x post, k.stores = pre ++ x :: post → (∀ y ∈ pre, ∀ b ∈ y.bytes, targetOf b.1 ≠ port) → x.bytes ≠ [] →
        (∀ b ∈ x.bytes, targetOf b.1 = port) → (∀ e ∈ k.infl, sel e.late → k.arrivable e = false) → x.kids = [] →
        exec i s = .next (ev (s.setCore c { k with stores := pre ++ post })))
    let bytes := (List.range n).map fun i => sget 0 s.mem (da + i)
    let word : Word := BitVec.ofNat 64 (ofLe bytes)
    let gives := fun (t : State) (w : Option Word) => t.setChase h { t.chase h with supData := w, supFault := false }
    let open' := s.rangeStalls da n = false ∧ s.rangeHeld da n = false
    let t := (da - 0x0200_0000_0000) / 32
    let up := s.slp = .running ∨ s.slp = .entering
    let wrote := fun (t : State) (bs : List Byte) => s.Sealed t win da bs ∧ t = { s with
      mem := t.mem, recs := t.recs, stale := t.stale, badRows := t.badRows }
    late (.hostWindowTimeout c) (fun l => ∃ x, l = .host x) .host (fun u => u.hportEvent c.val) ∧
    late (.storageTimeout c) (fun l => ∃ x, l = .stor x) .storage (fun u => u.storEvent c.val) ∧
    exec .storageLinkUp s = .next { s with linkDown := false } ∧
    ((∀ d, ∀ e ∈ (s.core d).infl, ∀ x, e.late ≠ .stor x) → exec .storageLinkDown s = .next { s with linkDown := true }) ∧
    exec (.ssdMsix q) s = .next (({ s with spint := s.spint ||| 1#64 <<< q.val } : State).storEvent 0x0F0) ∧
    (open' → up → s.soft = [] → windowPaging win = false →
      (0 < n → da % 64 + n ≤ 64 → da + n ≤ s.memTop → s.frisk 0x0F0 da n true false = some win → s.ClearFor win da →
        exec (.ssdMemRead da n) s = .next { s with ssdData := bytes, ssdPoison := false }) ∧
      (bs.length = n → s.frisk 0x0F0 da n true true = some win → s.frisk 0x0F0 da n false true = some win →
        s.PlainWrite 0x0F0 da bs win → ∃ t, exec (.ssdMemWrite da bs) s = .next t ∧ wrote t bs)) ∧
    (targetOf da = .aperture → s.frisk 0x0F0 (4096 * t) 4096 true false = none → exec (.ssdMetadataAccess da none) s =
      .next { s.permEvent 0x0F0 da with ssdData := [], ssdPoison := true }) ∧
    (∀ tag, targetOf da = .aperture → 4096 * t < s.memTop → (s.tileRec t).sl = .raw tag → windowPaging win = true → s.soft = [] →
      let held := s.anyRegion (4096 * t) = true ∨ s.tileWaits t = true
      let landed := { s with stale := s.stale.filter fun y => y.tile != t }
      (s.frisk 0x0F0 (4096 * t) 4096 true false = some win →
        (held → exec (.ssdMetadataAccess da none) s = .next s) ∧
        (¬ held → t ∉ s.badRows → exec (.ssdMetadataAccess da none) s = .next { landed with
          ssdData := leBytes 16 tag.toNat ++ (s.tileRec t).meta16, ssdPoison := false }) ∧
        (¬ held → t ∈ s.badRows → exec (.ssdMetadataAccess da none) s = .next { landed with ssdData := [], ssdPoison := true })) ∧
      (s.frisk 0x0F0 (4096 * t) 4096 false true = some win → bs.length = 32 →
        (held → exec (.ssdMetadataAccess da (some bs)) s = .next s) ∧
        (¬ held → ∃ r, exec (.ssdMetadataAccess da (some bs)) s = .next (landed.setRec t r) ∧
          leBytes 16 (match r.sl with | .raw g => g.toNat | _ => 0) ++ r.meta16 = bs))) ∧
    (∀ op, s.booted = false ∨ ¬ up → exec (.supervisorAccess h op) s = .next s) ∧
    (open' → s.booted = true → up → n = 8 → da % 8 = 0 → da + 8 ≤ s.memTop → s.soft = [] →
      (s.frisk sup da 8 true false = some win → s.ClearFor win da →
        exec (.supervisorAccess h (.load da 8)) s = .next (gives s (some word))) ∧
      (bs.length = 8 → s.PlainWrite sup da bs win → ∃ u, exec (.supervisorAccess h (.store da bs)) s = .next (gives u none) ∧
        wrote u bs) ∧
      (s.frisk sup da 8 true false = some win → s.frisk sup da 8 true true = some win →
        s.PlainWrite sup da (leBytes 8 (amoFn o word v).toNat) win → ∃ u,
          exec (.supervisorAccess h (.amo o da v)) s = .next (gives u (some word)) ∧
          wrote u (leBytes 8 (amoFn o word v).toNat)) ∧
      (s.frisk sup da 8 true false = none → ∃ u, exec (.supervisorAccess h (.load da 8)) s = .next u ∧
        (u.chase h).supFault = true ∧ (u.chase h).supData = none ∧
        (s.RingOpen (.chase h) → s.RingOpen .device → u.evseq = s.evseq + 1))) ∧
    exec (.supervisorAccess h .fence) s = .next s

/-! ## Registers of configuration space -/

/-- The writes of translation, striping, control-store and frisket registers (R255, R259, R298, R315, R376, R438): XLINV and its
completion, CXRES, the descriptors of striping windows, micro-words and window words; a write that the spec refuses is a
configuration error and changes nothing else. The reserved bits of a descriptor are not stored (R11), and the engine group of a control
store is its channel's four engines (the model's reading, log entry 92). -/
def Obligations.TranslationAndTables : Prop :=
  ∀ (s : State) (h : ChaseId) (part : BitVec 5) (page : BitVec 52) (c : CoreId) (i : CtxId) (w : Fin 256) (v : Word) (e : EngineId)
    (idx : BitVec 8) (micro : BitVec 128) (mid who : BitVec 9) (t : Fin 6) (n : Fin 8),
    let err := fun m : Nat => (.next (s.cfgError m) : Res)
    let sup := 0x060 + h.val
    let starts := fun (hit : TlbEnt → Bool) =>
      (.next { s with
        chases := (s.setChase h { s.chase h with xlbusy := true }).chases.map fun x => { x with
          tlb2 := x.tlb2.filter fun e => !hit e }
        cores := s.cores.map fun k => { k with tlb := k.tlb.filter fun e => !hit e } } : Res)
    let pg := 4096 * page.toNat
    let free := (s.chase h).xlbusy = false
    let waits := fun x : Word => (.next { s with xlwait := s.xlwait ++ [(h, x)] } : Res)
    let k := s.core c
    let d := sget {} s.stripes w.val
    let setD := fun x : Stripe => (.next { s with stripes := sset {} s.stripes w.val x } : Res)
    let on := (v ||| 0x8000000000000000) &&& w0Mask
    let off := v &&& 0x7FFFFFFFFFFFFFFF
    let slot := (t.val * 512 + mid.toNat) * 8 + n.val
    (part.toNat < 24 → free →
      exec (.xlinvPartition h part) s = starts (fun e => e.part == part.toNat) ∧
      exec (.xlinvPage h part page) s =
        starts (fun e => e.part == part.toNat && (decide (e.vbase ≤ pg) && decide (pg < e.vbase + e.size)))) ∧
    (24 ≤ part.toNat → exec (.xlinvPartition h part) s = err sup ∧ exec (.xlinvPage h part page) s = err sup) ∧
    (free → exec (.xlinvAll h) s = starts (fun _ => true)) ∧
    (¬ free → exec (.xlinvAll h) s = waits 2) ∧
    (s.xlwait = [] → exec .xlinvComplete s = .next { s with chases := s.chases.map fun x => { x with xlbusy := false } }) ∧
    (chaseOf c = h → ∀ x rest, (k.ctx i).cmds = x :: rest → x.stopped = true →
      exec (.cxresContext h (BitVec.ofNat 7 c.val) i) s = .next (s.setCore c (k.setCtx i { k.ctx i with
        cmds := { x with stopped := false } :: rest }))) ∧
    (chaseOf c = h → ∀ x rest, k.resStop = true → k.resLeft = x :: rest → exec (.cxresResidency h (BitVec.ofNat 7 c.val)) s =
      .next (s.setCore c { k with resStop := false, resLeft := { x with stopped := false } :: rest })) ∧
    (chaseOf c ≠ h ∨ (k.ctx i).cmds = [] → exec (.cxresContext h (BitVec.ofNat 7 c.val) i) s = err sup) ∧
    (d.valid = false → ({ d with w0 := on } : Stripe).ok (if s.half then 511 else 1023) = true →
      exec (.stripeEnable w v) s = setD { d with w0 := on }) ∧
    (d.valid = true ∨ ({ d with w0 := on } : Stripe).ok (if s.half then 511 else 1023) = false →
      exec (.stripeEnable w v) s = err 0x060) ∧
    (d.valid = true → exec (.stripeTeardown w v) s = setD { d with pend := some (off &&& w0Mask) }) ∧
    (d.valid = false → exec (.stripeTeardown w v) s = setD { d with w0 := off &&& w0Mask }) ∧
    (∀ x, d.pend = some x → (∀ l ∈ s.hostLines, d.holds (64 * l) = false) →
      exec (.stripeTeardownComplete w) s = setD { d with w0 := x, pend := none }) ∧
    (s.groupBusy e.val = false → s.groupOpen e.val = false → s.hasEngine e.val = true → exec (.controlStoreWrite e idx micro) s =
      .next (s.setEngine e.val { s.engine e.val with control := sset 0 (s.engine e.val).control idx.toNat micro })) ∧
    (s.groupBusy e.val = true ∨ s.groupOpen e.val = true → exec (.controlStoreWrite e idx micro) s = err 0x060) ∧
    (s.groupBusy e.val = false → s.groupOpen e.val = false → s.hasEngine e.val = false → exec (.controlStoreWrite e idx micro) s =
      .next s) ∧
    (s.friskBad t.val mid.toNat v = false → 0x060 ≤ who.toNat → who.toNat ≤ 0x06B → exec (.friskWrite who t mid n v) s =
      .next { s with friskets := sset 0 s.friskets slot v, lostWords := s.lostWords.filter (· != slot) }) ∧
    (isMaster who.toNat = true → s.friskBad t.val mid.toNat v = true ∨ who.toNat < 0x060 ∨ 0x06B < who.toNat →
      exec (.friskWrite who t mid n v) s = err who.toNat) ∧
    (isMaster who.toNat = false → exec (.friskWrite who t mid n v) s = .next s)

/-- The writes of a partition's registers (R364, R376, R394, R397, R399 to R401, R423): cancels by JCAN, PCORE, graph parameters, mask
sequences, the heap's budget and the cap of operating points. -/
def Obligations.PartitionRegisters : Prop :=
  ∀ (s : State) (q : PartId) (j : Fin 16) (g : Fin 4) (l n : BitVec 6) (hi : Bool) (v : Word) (m : Fin 16),
    let p := s.part q
    let jb := s.job q j
    let launches := jb.graphs.getD g.val []
    let setP := fun x : Part => (.next (s.setPart q x) : Res)
    let cores := if hi then v.setWidth 32 ++ p.pcore.extractLsb' 0 64 else p.pcore.extractLsb' 64 32 ++ v
    let cancels := fun (whole : Bool) (sel : Nat → Nat → Bool) => (.next (if jb.scopeOpen sel then
      (((s.modJob q j fun x => { x with cancelling := x.cancelling || whole }).cancelScope q j sel).advance q j).regionsClosed s else s) : Res)
    exec (.gpregWrite q n v) s = setP { p with gp := p.gp.set n.toNat v n.isLt } ∧
    (∃ t, exec (.mseqWrite q m v) s = .next t ∧
      t = { s.setPart q { p with mseq := p.mseq.set m.val (v.setWidth 32) m.isLt } with cores := t.cores } ∧
      ∀ c, let k := s.core c
        ((∃ x : Word32, k.req = some (.maskw m.val x) ∧ x.toNat ≤ (v.setWidth 32).toNat) → k.wait = some .maskw → k.ans = none →
          s.partOf c = some q → t.core c = { k with ans := some (.flag true) }) ∧
        ((∀ x : Word32, k.req ≠ some (.maskw m.val x) ∨ (v.setWidth 32).toNat < x.toNat) ∨ k.wait ≠ some .maskw ∨ k.ans ≠ none ∨
          s.partOf c ≠ some q → t.core c = k)) ∧
    (v.extractLsb' 0 16 ≠ 0 → exec (.hbudWrite q v) s = setP { p with bud := v.extractLsb' 0 16 }) ∧
    (v.extractLsb' 0 16 = 0 → exec (.hbudWrite q v) s = .next (s.cfgError 0x060)) ∧
    (∃ t, exec (.opcapWrite q v) s = .next t ∧ (t.part q) = { p with opcap := v.extractLsb' 0 3 } ∧ t = { s with
        cores := t.cores, parts := (s.setPart q { p with opcap := v.extractLsb' 0 3 }).parts } ∧
      ∀ c, let k := s.core c
        (s.partOf c ≠ some q → t.core c = k) ∧
        (s.partOf c = some q → (t.core c).eff = effPoint (if k.task.isSome then k.opc else k.eff) (v.extractLsb' 0 3))) ∧
    ((∀ c : CoreId, cores.getLsbD c.val = true → (s.core c).st ≠ .lost ∧ ∀ r, r ≠ q → (s.part r).pcore.getLsbD c.val = false) →
      ∃ t, exec (.pcoreWrite q hi v) s = .next t ∧ t.part q = { p with pcore := cores } ∧ ∀ c, let k := s.core c
        (p.pcore.getLsbD c.val = cores.getLsbD c.val → t.core c = k) ∧
        (p.pcore.getLsbD c.val = true → cores.getLsbD c.val = false → k.home = some q → k.st ∈ [.running, .trapping, .held] →
          t.core c = { k with preq := true }) ∧
        (p.pcore.getLsbD c.val = false → cores.getLsbD c.val = true →
          (t.core c).eff = effPoint (if k.task.isSome then k.opc else k.eff) p.opcap)) ∧
    ((∃ c : CoreId, cores.getLsbD c.val = true ∧ ((s.core c).st = .lost ∨ ∃ r, r ≠ q ∧ (s.part r).pcore.getLsbD c.val = true)) →
      exec (.pcoreWrite q hi v) s = .next (s.cfgError 0x060)) ∧
    (jb.live = true → exec (.jcanJob q j) s = cancels true fun _ _ => true) ∧
    (jb.live = true → launches ≠ [] → exec (.jcanGraph q j g) s = cancels false fun i _ => i == g.val) ∧
    (jb.live = true → l.toNat < launches.length →
      exec (.jcanLaunch q j g l) s = cancels false (jb.inScope g.val l.toNat)) ∧
    (jb.live = false → ∀ i ∈ [Instr.jcanJob q j, .jcanGraph q j g, .jcanLaunch q j g l], exec i s = .next (s.cfgError 0x060))

/-- The key slots (R446 to R448), the event acknowledgements and deadlines (R450), the answers to a held trap (R467, R468, R472), the
rings' read indices (R469, R470), and a write of a register that only stores (R10). -/
def Obligations.KeysEventsAndRings : Prop :=
  ∀ (s : State) (k : KeySlotId) (len : BitVec 24) (h : ChaseId) (n : Word32) (c : CoreId) (r : RingId) (v : Word),
    let x := s.keys.get k
    let setK := fun y : KeySlot => { s with keys := s.keys.set k.val y k.isLt }
    let err := (.next (s.cfgError 0x060) : Res)
    let m := s.core c
    let sup := 0x060 + c.val / 8
    let g := s.ring r
    let up := s.slp = .running ∨ s.slp = .entering
    let at' := effPoint m.opc (s.corePart c).opcap
    let m1 := if at' = m.eff then m else { m with
      eff := at', stretch := false, vtrim := BitVec.ofNat 10 ([450, 480, 510, 530, 555, 575, 600, 660].getD at'.toNat 0) }
    let rix : BitVec 24 := v.extractLsb' 0 24
    (x.key = none → exec (.keyNew k) s =
      .next { setK { x with key := some s.nextKey, prev := none, gen := 0 } with nextKey := s.nextKey + 1 }) ∧
    (x.key ≠ none → exec (.keyNew k) s = err) ∧
    (x.prev = none → exec (.keyAdvance k) s =
      .next { setK { x with key := some s.nextKey, prev := x.key, gen := x.gen + 1 } with nextKey := s.nextKey + 1 }) ∧
    (x.prev ≠ none → exec (.keyAdvance k) s = err) ∧
    (x.prev ≠ none → x.busy = false → exec (.keyRekey k len) s = .next (setK { x with
      busy := true, done := 0, fails := 0, rbase := (s.krbase.extractLsb' 12 36).toNat, rlen := len.toNat })) ∧
    (x.prev = none → exec (.keyRekey k len) s = err) ∧
    (x.prev ≠ none → x.busy = true → ∃ t, exec (.rekeyComplete k) s = .next t ∧ exec (.keyRekey k len) s = exec (.keyRekey k len) t) ∧
    (x.prev = none ∨ x.busy = false → exec (.keyRetire k) s = .next (setK { x with prev := none })) ∧
    (x.prev ≠ none → x.busy = true → exec (.keyRetire k) s = err) ∧
    (x.busy = false → exec (.keyErase k) s = .next { setK { x with key := none, prev := none } with lostKeys := s.lostKeys.filter (· != k.val) }) ∧
    (x.busy = true → exec (.keyErase k) s = err) ∧
    (x.busy = true → x.rlen = 1 → ∀ old new, x.prev = some old → x.key = some new → 4096 * x.rbase < s.memTop →
      s.stale = [] → (s.tileRec x.rbase).sealPois = (s.tileRec x.rbase).poison → (s.tileRec x.rbase).sealEsc = (s.tileRec x.rbase).esc → (s.tileRec x.rbase).keygen = x.gen - 1 → (s.tileRec x.rbase).sl = .sealed old → s.recs.map (·.1) = [x.rbase] →
      exec (.rekeyComplete k) s = .next ((s.setRec x.rbase { s.tileRec x.rbase with
        sl := .sealed new, version := 0, keygen := x.gen }).setKey k { x with busy := false, done := 1, fails := 0 })) ∧
    exec (.eventAck h n) s = .next { s with unacked := s.unacked.filter fun y => !(y.1 == h && y.2.seq == n) } ∧
    (∀ pre y post, s.unacked = pre ++ y :: post → (∀ z ∈ pre ++ post, z.2.seq ≠ n) → y.2.seq = n →
      exec (.eventDeadline n) s = .next (({ s with unacked := pre ++ post, msix := s.msix + 1 } : State).post .device y.2)) ∧
    (m.st = .held → m.held ≠ none →
      (m.trcause ≠ 0x08 →
        exec (.trctlResume c) s = .next (s.setCore c { m1 with
          st := .running, held := none, wdog := if m.trcause = 0x0A then 0 else m.wdog
          preq := m.preq || s.slp == .entering, settling := false }) ∧
        exec (.trctlSave c) s = .next (s.setCore c { m with
          st := .preempting, preq := false, wdog := if m.trcause = 0x0A then 0 else m.wdog })) ∧
      (∀ i, m.task = some i → exec (.trctlEnd c) s = .next ((s.settleCore c).finishTask i (.failed m.trcause))) ∧
      (m.trcause = 0x08 → exec (.trctlResume c) s = .next (s.cfgError sup) ∧ exec (.trctlSave c) s = .next (s.cfgError sup))) ∧
    (m.held = none → ∀ i ∈ [Instr.trctlResume c, .trctlSave c, .trctlEnd c], exec i s = .next (s.cfgError sup)) ∧
    ((rix - g.rix).toNat ≤ (g.wix - g.rix).toNat → g.pend = [] → up ∨ r ≠ .device →
      exec (.ringConsume r v) s = .next (s.setRing r { g with rix := rix, ovf := g.ovf && !v.getLsbD 63 })) ∧
    ((g.wix - g.rix).toNat < (rix - g.rix).toNat → up ∨ r ≠ .device → exec (.ringConsume r v) s =
      .next (s.cfgError (match r with | .chase i => 0x060 + i.val | .device => 0x080))) ∧
    (¬ up → exec (.ringConsume .device v) s = .next { s with hostHeld := s.hostHeld ++ [.ring v] }) ∧
    (exec (.registerWrite 0x060 0x0F00_0050_0008 v) s = .next { s with krbase := v &&& 0x0000FFFFFFFFF000 }) ∧
    (exec (.registerWrite 0x060 0x0F00_00B0_0000 v) s = .next { s with spint := s.spint &&& ~~~v }) ∧
    (∀ q : PartId, exec (.registerWrite 0x060 (0x0F00_0020_0020 + 0x1000 * q.val) v) s =
      .next (s.setPart q { s.part q with gtab := v &&& 0x0000FFFFFFFFFFFF }))

/-! ## Tasks and their schedulers -/

/-- INPUT_RECHECK, AGING_EXPIRY, TASK_DISPATCH, TASK_START (R32, R366 to R368, R370, R372, R381, R472): a task moves from Pending to Ready, to
a free core, and to its first bundle, whose registers are those of R32; or it resumes from its image: the core that was saved while nothing
has written the slot's tiles since, else what the slot's bytes say (R461, R462); an image that does not read starts again from the entry
(R474; that, and what stands in Make-ready's reserved memory, are the model's reading, log entries 17 and 20). -/
def Obligations.TasksStart : Prop :=
  ∀ (s t : State) (q : PartId) (h : ChaseId) (i : Nat) (x : Task) (c : CoreId),
    let k := s.core c
    let d := x.desc
    let same := fun u : State => ∀ j, j ≠ i → u.task? j = s.task? j
    (s.tasks.filter (fun y => y.2.q == q && y.2.st == .pending) = [(i, x)] → s.task? i = some x → x.q = q → x.chase = some h →
      (∀ w ∈ x.waits, inSpad w.1 = false) → i ∉ s.lostTasks →
      (s.inputsReady x x.waits = (t, .ok true) → exec (.inputRecheck q) s = .next { t.modTask i (fun y =>
        { y with st := .ready, stamp := t.stamp, age := 0, core := none }) with stamp := t.stamp + 1 }) ∧
      (s.inputsReady x x.waits = (t, .ok false) → exec (.inputRecheck q) s = .next { t with stamp := t.stamp + 1 })) ∧
    (s.inputsReady x [] = (s, .ok true) ∧ ∀ (w : Word) rest va, x.chase = some h →
      (s.schedStalls x.q h va 8 = true → s.inputsReady x ((va, w) :: rest) = (s, .ok false)) ∧
      (s.schedStalls x.q h va 8 = false →
        (s.inputWord x va = (t, none) → s.inputsReady x ((va, w) :: rest) = (t, .error va)) ∧
        ∀ v, s.inputWord x va = (t, some v) →
          (v.toNat < w.toNat → s.inputsReady x ((va, w) :: rest) = (t, .ok false)) ∧
          (w.toNat ≤ v.toNat → s.inputsReady x ((va, w) :: rest) = t.inputsReady x rest))) ∧
    (s.task? i = some x → ∃ u, exec (.agingExpiry i) s = .next u ∧ same u ∧ u = { s with tasks := u.tasks } ∧
      u.task? i = some (if x.st = .ready then { x with age := min (x.age + 1) 4 } else x)) ∧
    (s.nextReady q h = some (i, x) → x.q = q ∧ x.st = .ready ∧ x.chase = some h ∧
      ∀ y ∈ s.readyTasks q h, listBefore y.2.rank x.rank = false) ∧
    (s.choose q h = (t, some c) → (∀ e, ∃ n : BitVec 4, n ≤ (s.core e).dr ∧ t.core e = { s.core e with dr := n }) ∧ t.tasks = s.tasks ∧ chaseOf c = h ∧
      (s.part q).pcore.getLsbD c.val = true ∧ (k.st = .free ∨ k.st = .retest) ∧
      (k.st = .retest → ∀ e, chaseOf e = h → (s.part q).pcore.getLsbD e.val = true → (s.core e).st ≠ .free)) ∧
    (s.slp = .running → s.nextReady q h = some (i, x) → s.task? i = some x → s.choose q h = (t, some c) → x.image = none →
      d.placeOk x.tilex x.tiley x.tilez x.ell = true →
      ∃ u, exec (.taskDispatch h q) s = .next u ∧ u.task? i = some { x with st := .staging, core := some c } ∧ same u ∧
        (u.core c).st = .staging ∧ (u.core c).home = some q ∧ (u.core c).task = some i ∧ (u.core c).taskid = d.taskid ∧
        (u.core c).infl = [] ∧ (u.core c).creq = false ∧ (u.core c).resLeft =
          (if d.cva = 0 ∨ (k.sideAt d.eside).tag = some d.ctag then []
            else [⟨0, .isp d.eside, 0, d.cva.toNat, d.clen, false, 0, false, []⟩]) ++
          d.ins.map (fun e => ⟨0, .lin, e.spoff, e.addr x.tilex x.tiley x.tilez, e.bytes, e.nc, 0, false, []⟩) ∧
        (∀ o ∈ d.outs, ∀ l, l ∈ linesOf o.spoff o.bytes → sget 0 (u.core c).smeta l = 0) ∧ (u.core c).spad = k.spad ∧
        ∀ e, e ≠ c → u.core e = t.core e) ∧
    (s.slp ≠ .running → exec (.taskDispatch h q) s = .next s) ∧
    (k.st = .staging → k.task = some i → s.task? i = some x → k.resStop = false → k.stores = [] → k.resLeft = [] → k.creq = false →
      (s.part x.q).pcore.getLsbD c.val = true → x.image = none →
      ∃ u, exec (.taskStart c) s = .next u ∧ u.task? i = some { x with st := .running, image := none } ∧ same u ∧
        (∀ e, e ≠ c → u.core e = s.core e) ∧
        u.core c = { (u.core c) with
          a := Vector.replicate 32 0, b := Vector.replicate 32 0, aPois := 0, bPois := 0, v := Vector.replicate 128 {}
          p := 0, pPois := 0, fsr := 0, tick := 0, infl := [], rstack := [], order := [], lc := Vector.replicate 4 {}
          w0 := {}, w1 := {}, sel := false, nsc := false, h := false, cl := Vector.replicate 4 {}, seq := {}
          taskid := d.taskid, tilex := x.tilex, tiley := x.tiley, tilez := x.tilez, thr := d.thr, opc := d.opc
          side := if x.relaunch then d.xside else d.eside
          pc := if x.relaunch then d.xoff.toNat else d.eoff.toNat
          st := .running, mark := false, wdog := 0, bubble := 0, settling := false
          cx := k.cx, gx := k.gx, spad := k.spad, smeta := k.smeta, recto := k.recto, verso := k.verso, tlb := k.tlb }) ∧
    (k.st = .staging → k.task = some i → s.task? i = some x → k.resStop = false → k.stores = [] → k.resLeft = [] → k.creq = false →
      (s.part x.q).pcore.getLsbD c.val = true → ∀ m, x.image = some m →
      (s.slotStalls x.q m.slot = true → exec (.taskStart c) s = .next s) ∧
      (s.slotStalls x.q m.slot = false →
        (∀ z, s.imageReads c x = (t, .ok (some z)) → ∃ u : State, exec (.taskStart c) s = .next (u.regionsClosed s) ∧
          u.task? i = some { x with st := .running, image := none } ∧ (u.core c).st = .running ∧ (u.core c).task = some i ∧
          ((u.core c).a, (u.core c).b, (u.core c).v, (u.core c).p, (u.core c).pc, (u.core c).side, (u.core c).tick, (u.core c).infl) =
            (z.a, z.b, z.v, z.p, z.pc, z.side, z.tick, z.infl) ∧
          ((u.core c).aPois, (u.core c).bPois, (u.core c).pPois, (u.core c).fsr, (u.core c).thr, (u.core c).lc, (u.core c).rstack) =
            (z.aPois, z.bPois, z.pPois, z.fsr, z.thr, z.lc, z.rstack) ∧
          ((u.core c).w0, (u.core c).w1, (u.core c).cl, (u.core c).seq, (u.core c).cx, (u.core c).gx, (u.core c).spad, (u.core c).smeta) =
            (z.w0, z.w1, z.cl, z.seq, z.cx, z.gx, z.spad, z.smeta)) ∧
        (s.imageReads c x = (t, .error ()) → ∃ u : State, exec (.taskStart c) s = .next (u.regionsClosed s) ∧
          u.task? i = some { x with st := .ready, core := none, image := none } ∧ (u.core c).st = .free))) ∧
    (∀ m, x.image = some m →
      (m.slot = none → s.imageReads c x = (s, .ok (some m.core))) ∧
      ∀ n, m.slot = some n →
        let da := (s.part x.q).slotBase n
        let s0 := s.recallRange da (2 ^ 21)
        (s0.readImage (chaseOf c) da 512 = (t, none) → s.imageReads c x = (t, .error ())) ∧
        ∀ img, s0.readImage (chaseOf c) da 512 = (t, some img) →
          (t.slotRecs da = m.recs → s.imageReads c x = (t, .ok (some m.core))) ∧
          (t.slotRecs da ≠ m.recs → ∃ z, s.imageReads c x = (t, .ok (some z)) ∧
            z.pc = imageNat img 0x08 8 % 2 ^ 16 ∧ z.tick = BitVec.ofNat 64 (imageNat img 0x10 8) ∧
            z.fsr = BitVec.ofNat 5 (imageNat img 0x20 8) ∧ z.p = BitVec.ofNat 12 (imageNat img 0x350 8) ∧
            (∀ r : Fin 32, r ≠ 0 → z.a.get r = BitVec.ofNat 64 (imageNat img (0x100 + 8 * r.val) 8) ∧
              z.b.get r = BitVec.ofNat 64 (imageNat img (0x200 + 8 * r.val) 8)) ∧
            (∀ v : Fin 128, ((z.v.get v).tag : BitVec 4) = BitVec.ofNat 4 (imageNat img (0x1000 + 4 * v.val) 4 / 2 ^ 16) ∧
              (z.v.get v).eb = BitVec.ofNat 16 (imageNat img (0x1000 + 4 * v.val) 4)) ∧
            ∀ off, off < 2 ^ 20 → sget 0 z.spad off = BitVec.ofNat 8 (imageNat img (0x100000 + off) 1)))

/-- AGED_PREEMPT_REQUEST, PREEMPT, DONE_PUBLISH, LAUNCH_ANSWER and HEAP_ANSWER (R275, R366, R369, R371, R373, R395 to R397, R467,
R471). -/
def Obligations.TasksYieldAndEnd : Prop :=
  ∀ (s t : State) (q : PartId) (h : ChaseId) (i : Nat) (x : Task) (c : CoreId) (e : Word) (o m : Nat),
    let k := s.core c
    let p := s.part q
    let ring := s.placeRing q h
    let word := fun v : Word => leBytes 8 v.toNat
    let hp := p.heap
    let tokens := fun l : List HeapEnt => (l.map fun y => y.t.toNat).sum
    let serves := fun (p' : Part) (off : Nat) (bs : List Byte) => ∃ spad, exec (.heapAnswer c) s =
      .next ((s.setPart q p').setCore c { k with spad := spad, ans := some .served }) ∧ storedAt (sget 0 k.spad) (sget 0 spad) off bs
    (s.nextReady q h = some (i, x) → 4 ≤ x.level.toNat + x.age → (∀ d ∈ ring, (s.core d).st ≠ .free) →
      s.preemptPending ring = false → s.freeSlot q ≠ none → c ∈ ring → k.st = .running → ∀ y, s.taskOf c = some y → y.q = q →
      (∀ d ∈ ring, ∀ z, d ≠ c → (s.core d).st = .running → s.taskOf d = some z → z.q = q →
        y.level < z.level ∨ y.level = z.level ∧ z.stamp < y.stamp) → y.stamp < 2 ^ 64 →
      exec (.agedPreemptRequest h q) s = .next (s.setCore c { k with preq := true })) ∧
    (k.task = some i → s.task? i = some x → k.st = .preempting → k.creq = false → k.commandsDone = true → k.stores = [] →
      s.freeSlot x.q ≠ none ∨ s.slp = .entering →
      (s.slotStalls x.q (s.freeSlot x.q) = true → exec (.preempt c) s = .next s) ∧
      (s.slotStalls x.q (s.freeSlot x.q) = false → k.gx.regions = [] → ∃ u y recs, exec (.preempt c) s = .next u ∧ (u.core c).st = .free ∧
        (u.core c).task = none ∧ u.task? i = some y ∧ y = { x with
          st := .ready, stamp := s.stamp, age := 0, core := none, chase := y.chase, image := some ⟨k, s.freeSlot x.q, recs⟩ } ∧
        (∀ n, s.freeSlot x.q = some n → recs = u.slotRecs ((s.part x.q).slotBase n)) ∧
        (∀ d, d ≠ c → u.core d = s.core d) ∧ ∀ j, j ≠ i → u.task? j = s.task? j)) ∧
    (k.task = some i → s.task? i = some x → k.st = .ending → k.commandsDone = true → k.resStop = false → k.stores = [] →
      k.resLeft = [] → s.linesStall c x = false → x.relaunch = false → ∀ bad,
      s.advanceLines c x.ell x.desc.outs = (t, bad) → exec (.donePublish c) s = .next (t.endPublish c i x bad)) ∧
    (∀ (mid a : Nat) (win : Word), s.hostLines = [] → s.PlainWrite mid a
        (leBytes 8 ((ofLe ((List.range 8).map fun j => sget 0 s.mem (a + j)) + 1) % 2 ^ 64)) win →
      a % 8 = 0 → s.frisk mid a 8 true true = some win → s.frisk mid a 8 true false = some win →
      ∀ (g : TlbEnt) (va : Nat), g.r = true → g.w = true → g.mtype ≠ 2 → va % 8 = 0 → g.dbase + (va - g.vbase) = a →
        ∃ u, s.addOne mid g va = (u, true) ∧
          s.Sealed u win a (leBytes 8 ((ofLe ((List.range 8).map fun j => sget 0 s.mem (a + j)) + 1) % 2 ^ 64))) ∧
    (k.wait = some .launch → k.ans = none → s.taskOf c = some x →
      (∃ dv nx ny nz dn, k.req = some (.launch dv nx ny nz dn)) →
      exec (.launchAnswer c) s = .next (s.setCore c { k with ans := some (
        if 64 ≤ (((s.job x.q x.job).graphs.getD x.gix []).filter fun l => l.parent.isSome && !l.isOver).length then .limit
        else .accepted) })) ∧
    (k.wait = some .heap → k.ans = none → s.partOf c = some q → k.stores ≠ [] ∨ k.pendingLoads ≠ [] → exec (.heapAnswer c) s = .next s) ∧
    (k.wait = some .heap → k.ans = none → s.partOf c = some q → k.stores = [] → k.pendingLoads = [] →
      (k.req = some (.push e o) → hp.length < 1024 →
        let ent : HeapEnt := ⟨e.extractLsb' 32 32, e.extractLsb' 16 16, e.extractLsb' 0 16, p.hseq⟩
        let first := fun y : HeapEnt => decide (y.d.toNat ≤ ent.d.toNat)
        serves { p with heap := hp.takeWhile first ++ ent :: hp.dropWhile first, hseq := p.hseq + 1 } o
          (word (BitVec.ofNat 64 (p.hseq % 2 ^ 48)))) ∧
      (k.req = some (.push e o) → 1024 ≤ hp.length → serves p o (word 0x4000000000000000)) ∧
      (k.req = some (.pop o m) → ∃ n, n ≤ m ∧ n ≤ hp.length ∧ (n ≤ 1 ∨ tokens (hp.take n) ≤ p.bud.toNat) ∧
        (n = m ∨ n = hp.length ∨ 0 < n ∧ p.bud.toNat < tokens (hp.take (n + 1))) ∧
        serves { p with heap := hp.drop n } o (((tokens (hp.take n) * 2 ^ 32 + n) ::
          (hp.take n).map fun y => (y.d ++ (y.t ++ y.id) : BitVec 64).toNat).flatMap (leBytes 8))))

/-! ## Power, reset and attestation -/

/-- SLEEP_REQUEST, SLEEP_ENTERED, WAKE_REQUEST and WAKE_COMPLETE (R429 to R432), VOLTAGE_TRIM and DROOP_EVENT (R372, R420, R425,
R428). -/
def Stated.PowerStates : Prop :=
  ∀ (s : State) (c : CoreId) (slack : BitVec 8) (mv : BitVec 10) (hpa off n : Nat) (bs : List Byte) (f : FuncId) (v : Word),
    let k := s.core c
    let up := s.slp = .running ∨ s.slp = .entering
    let nominal := [450, 480, 510, 530, 555, 575, 600, 660].getD k.eff.toNat 0
    let quiet := ∀ d, let z := s.core d
      z.st ∈ [CoreSt.free, .held, .retest, .lost] ∧ z.commandsDone = true ∧ z.stores = []
    (s.slp = .running → exec .sleepRequest s = .next { s with
      slp := .entering, cores := s.cores.map fun z => if z.st = .running then { z with preq := true } else z }) ∧
    (s.slp = .waking → exec .sleepRequest s = .next { s with slpNext := true }) ∧
    (s.slp = .asleep → exec .wakeRequest s = .next { s with slp := .waking }) ∧
    (s.slp = .entering → exec .wakeRequest s = .next { s with slpNext := true }) ∧
    (s.slp = .asleep ∨ s.slp = .entering → exec .sleepRequest s = .next s) ∧
    (s.slp = .running ∨ s.slp = .waking → exec .wakeRequest s = .next s) ∧
    (s.slp = .entering → quiet → ∃ t, exec .sleepEntered s = .next t ∧
      t.slp = (if s.slpNext then .waking else .asleep) ∧ t.slpNext = false ∧ (∀ h, h < 256 → s.half = false ∨ h < 128 → (t.chan h).selfRefresh = true) ∧
      t = { s with slp := t.slp, slpNext := false, chans := t.chans, engines := t.engines }) ∧
    (s.slp = .waking →
      let t := ({ (List.range 256).foldl State.refreshOut s with slp := .running, slpNext := false, hostHeld := [] } : State)
      exec .wakeComplete s = .next (State.heldAccesses (if s.slpNext then t.sleepAsk else t) s.hostHeld)) ∧
    (s.slp = .waking → s.slpNext = false → s.hostHeld = [] → s.Quiet → s.soft = [] → (∀ h, (s.chan h).queue = []) →
      ∃ t, exec .wakeComplete s = .next t ∧ t.slp = .running ∧ ∀ h, h < 256 → (t.chan h).selfRefresh = false) ∧
    (up → exec .wakeComplete s = .next (({ s with hostHeld := [] } : State).heldAccesses s.hostHeld)) ∧
    (s.heldAccesses [] = s ∧ ∀ x rest, s.heldAccesses (x :: rest) =
      (if s.accStalls x then { s with hostHeld := s.hostHeld ++ [x] } else s.accDo x).heldAccesses rest) ∧
    (up →
      let does := fun (i : Instr) (x : HostAcc) => s.accStalls x = false → exec i s = .next (s.accDo x)
      does (.hostMemRead hpa n) (.memRead hpa n) ∧ does (.hostMemWrite hpa bs) (.memWrite hpa bs) ∧
      does (.peerApertureWrite f off bs) (.peerWrite f off bs) ∧ does (.peerApertureRead f off n) (.peerRead f off n) ∧
      (off + bs.length ≤ 0x1000 → does (.commandSlotWrite f off bs) (.slotWrite f off bs)) ∧
      (∀ on, does (if on then .cwctlEnable f else .cwctlDisable f) (.window f on)) ∧ does (.ringConsume .device v) (.ring v)) ∧
    (let old := if k.vtrim = 0 then nominal else k.vtrim.toNat
      let v := if k.slktgtEn = false then nominal
        else if slack.toNat < k.slktgt.toNat then min (old + 1) (nominal + 25)
        else if k.slktgt.toNat < slack.toNat then max (old - 1) (nominal - 50) else old
      let stretch := decide (slack.toNat < k.slktgt.toNat) && (!k.slktgtEn || v == nominal + 25)
      (k.slktgtEn = true → mv.toNat ≠ v → exec (.voltageTrim c slack mv) s = .next s) ∧
      (k.slktgtEn = false ∨ mv.toNat = v → ∃ t, exec (.voltageTrim c slack mv) s = .next t ∧
        t.core c = { k with slack := slack, vtrim := BitVec.ofNat 10 v, stretch := stretch } ∧
        (∀ d, d ≠ c → t.core d = s.core d) ∧
        (stretch = false ∨ k.slktgtEn = false ∨ k.stretch = true → t.evseq = s.evseq) ∧
        (stretch = true → k.slktgtEn = true → k.stretch = false → s.RingOpen (.chase (chaseOf c)) → s.RingOpen .device →
          t.evseq = s.evseq + 1))) ∧
    (k.dr = 0 → exec (.droopEvent c) s = .next (s.setCore c { k with dr := 1 })) ∧
    (k.dr ≠ 0 → exec (.droopEvent c) s = .next { s.setCore c { k with
      dr := BitVec.ofNat 4 (min 15 ((Config.freeBits 4 s.fresh).toNat % (k.dr.toNat + 1) + 1)) } with fresh := s.fresh + 1 })

/-- POWER_UP (R510), DEVICE_RESET (R452), LOGIC_DIE_POWER_LOSS (R446), the SPDM requests and MEASUREMENT_EXTEND (R453): a power-up leaves
every tile as never sealed and poisoned, with every park row invalid; a reset loses the keys and keeps the memory dies, and starts
Make-ready only for an image whose signature and security version pass, and measures; power comes up only from a loss of it. The codes of
the answers, and their contents but for the measurements, are the model's (SPDM's; log entry 14). -/
def Stated.ResetAndAttestation : Prop :=
  ∀ (s : State) (sig : Bool) (ver : Nat) (nonce : BitVec 256) (idx : BitVec 8) (m : BitVec 384),
    let keeps := fun t : State => t.mem = s.mem ∧ t.recs = s.recs ∧ t.soft = s.soft ∧ t.secMin = s.secMin ∧
      t.poisLines = s.poisLines ∧ t.badRows = s.badRows
    let wiped := fun t : State => t.cores = Vector.replicate 96 {} ∧ t.keys = Vector.replicate 32 {} ∧ t.tasks = [] ∧
      t.friskets = [] ∧ t.stripes = [] ∧ t.chans = [] ∧ t.parts = Vector.replicate 24 {} ∧ t.slp = .running ∧ t.evseq = 0
    let answers := fun (i : Instr) (code : Nat) => ∃ x, exec i s = .next (if s.booted then
      { s with spdm := some (code, x), fresh := s.fresh + 1 } else s)
    swf {} s.engines →
    (s.off = false → exec .powerUp s = .next s) ∧
    (s.off = true → ∃ t, exec .powerUp s = .next t ∧ t.mem = [] ∧ (∀ u, t.tileRec u = {}) ∧ (t.tileRec 0).poison = true ∧
      (∀ e, t.engine e = { s.engine e with park := none, sleepRow := none }) ∧ t = { s with
        mem := [], recs := [], engines := t.engines, off := false, poisLines := [], stale := [], badRows := [], rowErrs := [] }) ∧
    (∃ t, exec (.deviceReset sig ver) s = .next t ∧ keeps t ∧ wiped t ∧
      t.meas1 = Config.digest 1 [if s.half then 1 else 0, s.secMin] ∧ t.meas2 = Config.freeBits 384 s.fresh ∧ t.meas4 = none ∧ t.idKey = Config.identityKey ∧
      t.attKey = Config.attestationKey Config.identityKey t.meas2 ∧ t.booted = (sig && decide (s.secMin ≤ ver)) ∧ t.bootFail = !(sig && decide (s.secMin ≤ ver)) ∧
      ∀ e, t.engine e = { control := (s.engine e).control, entries := (s.engine e).entries }) ∧
    (s.slp ≠ .asleep → ∃ t, exec .logicDiePowerLoss s = .next t ∧ keeps t ∧ wiped t ∧
      (∀ e, t.engine e = { s.engine e with absent := false }) ∧ t.off = true) ∧
    (s.slp = .asleep → exec .logicDiePowerLoss s = .next s) ∧
    answers .spdmGetVersion 0x04 ∧ answers .spdmGetCapabilities 0x61 ∧
    exec .spdmNegotiateAlgorithms s = .next (if s.booted then { s with spdm := some (0x63, 0x2_0000_0080) } else s) ∧
    answers .spdmGetDigests 0x01 ∧ answers .spdmGetCertificate 0x02 ∧ answers (.spdmChallenge nonce) 0x03 ∧
    (let gives := fun (n v : Nat) => s.booted = true → exec (.spdmGetMeasurements (BitVec.ofNat 8 n)) s = .next
        { s with spdm := some (0x60, v) }
      let now := Config.digest 4 s.wallImage
      gives 0 4 ∧ gives 1 s.meas1.toNat ∧ gives 2 s.meas2.toNat ∧ gives 3 (Config.digest 3 s.storeImage).toNat ∧
      (s.meas4 = none → gives 4 now.toNat) ∧ ∀ x, s.meas4 = some x → gives 4 (Config.digest 5 [now.toNat, x.toNat]).toNat) ∧
    answers (.spdmGetMeasurements 0xFF) 0x60 ∧ (5 ≤ idx.toNat → idx ≠ 0xFF → answers (.spdmGetMeasurements idx) 0x7F) ∧
    (s.booted = true →
      (s.meas4 = none → exec (.measurementExtend m) s = .next { s with meas4 := some m }) ∧
      ∀ x, s.meas4 = some x → exec (.measurementExtend m) s = .next { s with meas4 := some (Config.digest 5 [x.toNat, m.toNat]) })

/-- Power states, power-up, reset and attestation (R372, R420, R425, R428 to R432, R446, R452, R453, R510): both statements above. -/
def Obligations.PowerAndReset : Prop := Stated.PowerStates ∧ Stated.ResetAndAttestation

/-! ## Reset, encoding, and what every step keeps -/

/-- What reset leaves, where the spec gives it: tags and bounds of rows (R35), fsr (R40), timelines and issue counts (R317), striping
descriptors (R314), engines (R297), window words (R438), key slots (R447), the event registers (R449, R450), rings (R469), XLSTAT
(R255), SLPCTL (R429), SLKTGT (R428), SPINT (R353), the host port (R342), and a partition's registers (R360, R370, R375, R394, R401,
R423); the memory lists nothing, which is the canonical form. -/
def Obligations.ResetState : Prop :=
  let s := State.reset
  (∀ c, let k := s.core c
    k.fsr = 0 ∧ (∀ v, (k.row v).tag = 0 ∧ (k.row v).eb = 0) ∧ (∀ i, (k.ctx i).tl = 0 ∧ (k.ctx i).icount = 0 ∧ (k.ctx i).cmds = []) ∧
    k.gx = {} ∧ k.trseq = 0 ∧ k.trcause = 0 ∧ k.cancelled = false ∧ k.held = none ∧ k.slktgt = 0x18 ∧ k.slktgtEn = true ∧ k.task = none) ∧
  (∀ w, sget {} s.stripes w = {}) ∧
  (∀ e, let g := s.engine e
    g.buf = [] ∧ g.acc = Vector.replicate 64 0 ∧ g.eacc = 0 ∧ g.btag = 0 ∧ g.beb = 0 ∧ g.live = false ∧ g.F = 0 ∧ g.park = none) ∧
  (∀ n, sget 0 s.friskets n = 0) ∧ (∀ k, s.keys.get k = {}) ∧ s.devown = 0 ∧ s.evdl = 100 ∧ s.unacked = [] ∧
  (∀ h, s.rings.get h = {} ∧ (s.chase h).xlbusy = false) ∧ s.devRing = {} ∧ s.slp = .running ∧ s.spint = 0 ∧
  (∀ f, s.func f = {}) ∧
  (∀ q, let p := s.part q
    p.pcore = 0 ∧ p.psch = 0x05008000 ∧ p.opcap = 6 ∧ p.gtab = 0 ∧ p.ptroot = 0 ∧ p.pevown = 0 ∧ p.ctxa = 0 ∧ p.stall = 0x64 ∧
    p.mseq = Vector.replicate 16 0 ∧ p.bud = 0x200 ∧ p.heap = [] ∧ p.gp = Vector.replicate 64 0 ∧ ∀ j, (p.jobs.get j).live = false) ∧
  s.mem = [] ∧ Memory.wf s.mem

/-- The two bundles of the worked encoding of chapter 3, and one word for each further family, written from the encoding tables (R66,
R67, R75 to R89), decode to the instructions that they stand for. -/
def Obligations.DecodeWords : Prop :=
  let words : List Word32 := [0x0EE00000, 0x00050880, 0xA8040880, 0x00071802, 0x25010000, 0x00400010, 0x8A890000, 0x0062048A, 0x12345678]
  let fetch := fun off : Nat => words.getD ((off - 0x40) / 4) 0
  let c : DCtx := ⟨2, 0, 8⟩
  let is := fun (k : Slot) (w : Word32) (i : Instr) => decodeSlot c k w = .ok i
  decodeBundle fetch 0x40 = .ok { opsel := some 6, safe := false, escr := false, len := 16, lits := [], slots := [
    (.sa, .add .sa .always 5 1 2 false .i64), (.sb, .fmul .sb .always 4 1 2 .rne), (.ma, .ld .ma .always 7 3 .i64 2)] } ∧
  decodeBundle fetch 0x50 = .ok { opsel := none, safe := false, escr := false, len := 20, lits := [0x12345678], slots := [
    (.ctl, .br (.whenSet 1) 0x10), (.sb, .moviSl .sb (.whenClear 3) 9 0 false), (.vec, .vadd (.whenSet 2) 8 9 10)] } ∧
  is .sa (0b010111#6 ++ 0b10001#5 ++ 0b0100#4 ++ 0b01001#5 ++ 0b011#3 ++ 0b111111111#9) (.cmpi .sa (.whenClear 0) 4 9 .ge (-1)) ∧
  is .ctl (0b000110#6 ++ 0b00000#5 ++ 0b10#2 ++ 0b000101#6 ++ 0b0000000000011#13) (.loopi .always 2 5 3) ∧
  is .ctl (0b011000#6 ++ 0b00000#5 ++ 0b10#2 ++ 0b1#1 ++ 0b00011#5 ++ 0b00100#5 ++ 0b00001#5 ++ 0b011#3)
    (.cpLin .always 2 .b 3 4 (.lit 1) true) ∧
  is .ctl (0b100010#6 ++ 0b00000#5 ++ 0b00#2 ++ 0b0#1 ++ 0b00011#5 ++ 0b0000000000000#13) (.geFence .always .a 3) ∧
  is .mb (0b001000#6 ++ 0b00000#5 ++ 0b1111111#7 ++ 0b00010#5 ++ 0b111111110#9) (.vld .mb .always 127 2 (-2)) ∧
  is .ma (0b010000#6 ++ 0b00000#5 ++ 0b00011#5 ++ 0b00100#5 ++ 0b00101#5 ++ 0b001#3 ++ 0b00#2 ++ 0b1#1)
    (.amo .ma .always 3 4 5 .add .rlx true) ∧
  is .mat (0b000000#6 ++ 0b01100#5 ++ 0b0000000#7 ++ 0b1000000#7 ++ 0b0100000#7) (.mxMac (.whenSet 11) 0 64 32) ∧
  is .xps (0b000010#6 ++ 0b00000#5 ++ 0b0000001#7 ++ 0b0000010#7 ++ 0b1#1 ++ 0b00011#5 ++ 0b0#1) (.xpRot .always 1 2 .b 3) ∧
  is .xps (0b010010#6 ++ 0b00000#5 ++ 0b00#2 ++ 0b1#1 ++ 0b00011#5 ++ 0b0000000#7 ++ 0b001001#6) (.xsRand .always 3 9) ∧
  decodeSlot c .sa 0xC8050880 = .error .illegalInstruction

/-- Decode and encode agree, both ways (R66, R67, R74 to R91): the word of every well-formed instruction of a slot, with every operand
at every value that the encoding admits, decodes to that instruction; and a word that decodes is the word of its instruction, which
is well formed and of that slot. -/
def Obligations.DecodeEncode : Prop :=
  (∀ (i : Instr) (c : DCtx) (k : Slot) (w : Word32), i.wf = true → i.fits c = true → i.slot? = some k → encode i = some w →
    decodeSlot c k w = .ok i) ∧
  ∀ (i : Instr) (c : DCtx) (k : Slot) (w : Word32), c.litc ≤ 3 → decodeSlot c k w = .ok i →
    i.wf = true ∧ i.fits c = true ∧ i.slot? = some k ∧ encode i = some w

/-- Every step keeps the memory's one canonical form, so that equal memories are equal data, and the part that the machine is: which
stacks are populated (R2, R18) never changes. -/
def Obligations.StepKeepsMemoryForm : Prop :=
  ∀ s t : State, Memory.wf s.mem → step s = .next t → Memory.wf t.mem ∧ t.half = s.half
end

