-- ==== Sys2Proof/Laws/Mem.lean ====
section
/-! SUPPORT. What the operations over memory can do: they change the bytes and the records of processing memory and nothing else,
they leave every byte outside their tile alone, and they keep the memory's canonical form. -/

namespace Sys2Proof.Machine

/-! ### Keys of byte lists -/

/-- The keys of bytes laid out from an address on. -/
theorem addrBytes_key {a : Nat} {bs : List Byte} {x : Nat × Byte} (h : x ∈ addrBytes a bs) : a ≤ x.1 ∧ x.1 < a + bs.length := by
  induction bs generalizing a with
  | nil => cases h
  | cons b bs ih =>
    rcases List.mem_cons.1 h with rfl | h
    · simp
    · have := ih h; simp only [List.length_cons]; omega

/-- Writing bytes laid out from an address on is writing them there. -/
theorem sputAll_addrBytes (m : List (Nat × Byte)) (a : Nat) (bs : List Byte) : sputAll m (addrBytes a bs) = sputBytes m a bs := by
  induction bs generalizing m a with
  | nil => rfl
  | cons b bs ih => exact ih _ _

/-! ### Tiles between their two stored forms -/

/-- `unraw` changes memory and records only. -/
theorem State.unraw_eq (s : State) (slot t : Nat) : ∃ m r, s.unraw slot t = { s with mem := m, recs := r } := by
  unfold State.unraw; dsimp only; split <;> exact ⟨_, _, rfl⟩

/-- `toRaw` changes memory and records only. -/
theorem State.toRaw_eq (s : State) (t : Nat) : ∃ m r, s.toRaw t = { s with mem := m, recs := r } := by
  unfold State.toRaw; dsimp only; split <;> exact ⟨_, _, rfl⟩

/-- `unraw` keeps the canonical form. -/
theorem State.unraw_wf {s : State} (h : Memory.wf s.mem) (slot t : Nat) : Memory.wf (s.unraw slot t).mem := by
  unfold State.unraw; dsimp only; split
  · exact swf_sputBytes h _ _
  · exact h

/-- `toRaw` keeps the canonical form. -/
theorem State.toRaw_wf {s : State} (h : Memory.wf s.mem) (t : Nat) : Memory.wf (s.toRaw t).mem := by
  unfold State.toRaw; dsimp only; split
  · exact swf_sputBytes h _ _
  · exact h
  · exact h

/-- A tile that is not raw stays as it is. -/
theorem State.unraw_of_not_raw {s : State} {slot t : Nat} (h : ∀ g, (s.tileRec t).sl ≠ .raw g) : s.unraw slot t = s := by
  unfold State.unraw; dsimp only; split
  · rename_i g hg; exact absurd hg (h g)
  · rfl

/-! ### One seal operation -/

/-- A seal operation changes memory, records, the marks of lines and the rows known to be bad only. -/
theorem State.sealWrite_eq (s : State) (slot t : Nat) (whole : Bool) (bs : List (Nat × Byte)) (m : MetaUpd) :
    ∃ x r p b, (s.sealWrite slot t whole bs m).1 = { s with mem := x, recs := r, poisLines := p, badRows := b } := by
  obtain ⟨x, r, e⟩ := s.unraw_eq slot t
  unfold State.sealWrite
  generalize sputBytes s.mem (t * 4096) (List.replicate 4096 0) = z
  split
  · exact ⟨_, _, _, _, rfl⟩
  · dsimp only
    have h1 : ∃ y q, (if whole = true then s else match if whole = true then FillResult.clear else s.fillCheck slot t with
        | .clear => s.unraw slot t
        | _ => { s with mem := z }) = { s with mem := y, recs := q } := by
      cases whole
      · cases s.fillCheck slot t
        · exact ⟨x, r, e⟩
        all_goals exact ⟨_, _, rfl⟩
      · exact ⟨_, _, rfl⟩
    obtain ⟨y, q, h1⟩ := h1
    generalize (if whole = true then s else match if whole = true then FillResult.clear else s.fillCheck slot t with
        | .clear => s.unraw slot t
        | _ => { s with mem := z }) = s1 at h1 ⊢
    subst h1
    exact ⟨_, _, _, _, rfl⟩

/-- A seal operation keeps the canonical form. -/
theorem State.sealWrite_wf {s : State} (h : Memory.wf s.mem) (slot t : Nat) (whole : Bool) (bs : List (Nat × Byte)) (m : MetaUpd) :
    Memory.wf (s.sealWrite slot t whole bs m).1.mem := by
  unfold State.sealWrite; dsimp only
  generalize List.replicate 4096 (0 : Byte) = z
  split
  · exact h
  · apply swf_sputAll
    split
    · exact h
    · split
      · exact State.unraw_wf h _ _
      · exact swf_sputBytes h _ _

/-- What a seal operation of part of a clear tile does, under a slot that holds a key and a version that is not at its limit: the
bytes are written, and the tile takes its next version under that key (R443, R445). -/
theorem State.sealWrite_clear {s : State} {slot t key : Nat} {bs : List (Nat × Byte)} {m : MetaUpd}
    (hx : s.exhausted slot t = false) (hk : (s.keySlot slot).key = some key) (hc : s.fillCheck slot t = .clear)
    (hr : ∀ g, (s.tileRec t).sl ≠ .raw g) :
    s.sealWrite slot t false bs m = (
      let r := ({ s.tileRec t with
        sl := .sealed key
        version := if (s.tileRec t).keygen = (s.keySlot slot).gen then (s.tileRec t).version + 1 else 0
        keygen := (s.keySlot slot).gen, poison := false, rest := 0 } : TileRec).update false m
      { s with
        mem := sputAll s.mem bs, recs := sset {} s.recs t { r with sealPois := r.poison, sealEsc := r.esc }
        badRows := s.badRows.filter (· != t) }, .done) := by
  simp [State.sealWrite, hx, hk, hc, State.unraw_of_not_raw hr]

/-- A seal operation with what is merged into it changes the same. -/
theorem State.sealLate_eq (s : State) (t : Nat) (w : LateWrite) :
    ∃ x r p b, (s.sealLate t w).1 = { s with mem := x, recs := r, poisLines := p, badRows := b } := by
  obtain ⟨x, r, p, b, e⟩ := s.sealWrite_eq w.slot t w.whole w.bs w.m
  unfold State.sealLate; dsimp only; split
  · exact ⟨x, r, p, b, e⟩
  · rw [e]; exact ⟨_, _, _, _, rfl⟩

/-- It keeps the canonical form. -/
theorem State.sealLate_wf {s : State} (h : Memory.wf s.mem) (t : Nat) (w : LateWrite) : Memory.wf (s.sealLate t w).1.mem := by
  unfold State.sealLate; dsimp only; split <;> exact State.sealWrite_wf h _ _ _ _ _

/-! ### What a galley pass may still read -/

/-- Noting a write that may not have reached the memory changes nothing else. -/
theorem State.keepOld_eq (s : State) (t : Nat) (w : LateWrite) : ∃ o, s.keepOld t w = { s with stale := o } := by
  unfold State.keepOld; split <;> exact ⟨_, rfl⟩

/-- The writes of a tile that reach the memory keep the canonical form. -/
theorem State.redo_wf {s : State} (h : Memory.wf s.mem) (t : Nat) (ws : List LateWrite) : Memory.wf (s.redo t ws).mem := by
  unfold State.redo
  induction ws generalizing s with
  | nil => exact h
  | cons w ws ih => exact ih (State.sealLate_wf h t w)

/-- The tile as the memory holds it keeps the canonical form. -/
theorem State.rewind_wf {s : State} (h : Memory.wf s.mem) (x : Stale) : Memory.wf (s.rewind x).mem := by
  unfold State.rewind; dsimp only
  generalize x.tile * 4096 = a
  generalize sbytes x.cells a 4096 = bs
  exact swf_sputBytes h a bs

end Sys2Proof.Machine
end

