-- ==== Sys2Proof/Laws/Ops.lean ====
section
/-! SUPPORT. Everything that the shared operations can do, said once: reading a predicate, posting a result, delivering a record,
taking a trap, and the worst fault of a bundle. -/

namespace Sys2Proof.Machine

/-! ### The predicate field -/

/-- A slot whose predicate is true and unpoisoned has its effect. -/
theorem State.when_acts {s : State} {p : Pred} (h1 : s.iss.pre.predVal p = true) (h2 : s.iss.pre.predPois p = false) (n : Nat)
    (f : State → State) : s.when p n f = f s := by
  unfold State.when; cases p <;> simp_all [predReg?, Core.predPois]

/-- A slot whose predicate is false and unpoisoned does nothing. -/
theorem State.when_false {s : State} {p : Pred} (h1 : s.iss.pre.predVal p = false) (h2 : s.iss.pre.predPois p = false) (n : Nat)
    (f : State → State) : s.when p n f = s := by
  unfold State.when; cases p <;> simp_all [predReg?, Core.predPois, Core.predVal]

/-- A slot whose predicate is poisoned takes the deferred data trap. -/
theorem State.when_poisoned {s : State} {p : Pred} {j : PReg} (h1 : predReg? p = some j) (h2 : s.iss.pre.pPois.getLsbD j.val = true)
    (n : Nat) (f : State → State) : s.when p n f = s.deferPred n j := by
  unfold State.when; simp [h1, h2]

/-! ### Results -/

/-- Posting a result changes the in-flight results of the issuing core only. -/
theorem State.postEntry_eq (s : State) (e : Entry) :
    s.postEntry e = s.setCore s.cur { s.core s.cur with infl := (s.core s.cur).infl ++ [e] } := rfl

@[simp] theorem State.postEntry_iss (s : State) (e : Entry) : (s.postEntry e).iss = s.iss := rfl
@[simp] theorem State.postEntry_cur (s : State) (e : Entry) : (s.postEntry e).cur = s.cur := rfl
@[simp] theorem State.postEntry_mem (s : State) (e : Entry) : (s.postEntry e).mem = s.mem := rfl

/-- A result of one scalar operand. -/
theorem State.alu1_eq {s : State} {p : Pred} (h1 : s.iss.pre.predVal p = true) (h2 : s.iss.pre.predPois p = false) (sl : SSlot)
    (d a : SReg) (lat : Nat) (f : Word → Word × Flags) :
    s.alu1 sl p d a lat f =
      let x := s.opnd sl.cluster a
      s.postScalar (slotS sl) sl.cluster d lat (f x.v).1 (f x.v).2 x.pois (regKeys sl.cluster [a]) := by
  rw [State.alu1, State.when_acts h1 h2]

/-- A result of two scalar operands. -/
theorem State.alu2_eq {s : State} {p : Pred} (h1 : s.iss.pre.predVal p = true) (h2 : s.iss.pre.predPois p = false) (sl : SSlot)
    (d a b : SReg) (lat : Nat) (f : Word → Word → Word × Flags) :
    s.alu2 sl p d a b lat f =
      let x := s.opnd sl.cluster a
      let y := s.opnd sl.cluster b
      s.postScalar (slotS sl) sl.cluster d lat (f x.v y.v).1 (f x.v y.v).2 (x.pois || y.pois) (regKeys sl.cluster [a, b]) := by
  rw [State.alu2, State.when_acts h1 h2]

/-- A result of two scalar operands and the old destination. -/
theorem State.alu3_eq {s : State} {p : Pred} (h1 : s.iss.pre.predVal p = true) (h2 : s.iss.pre.predPois p = false) (sl : SSlot)
    (d a b : SReg) (lat : Nat) (f : Word → Word → Word → Word × Flags) :
    s.alu3 sl p d a b lat f =
      let x := s.opnd sl.cluster a
      let y := s.opnd sl.cluster b
      let z := s.opnd sl.cluster d
      s.postScalar (slotS sl) sl.cluster d lat (f x.v y.v z.v).1 (f x.v y.v z.v).2 (x.pois || y.pois || z.pois)
        (regKeys sl.cluster [a, b, d]) := by
  rw [State.alu3, State.when_acts h1 h2]

/-- A predicate result of two scalar operands. -/
theorem State.cmp2_eq {s : State} {p : Pred} (h1 : s.iss.pre.predVal p = true) (h2 : s.iss.pre.predPois p = false) (sl : SSlot)
    (d : PReg) (a b : SReg) (lat : Nat) (f : Word → Word → Bool × Flags) :
    s.cmp2 sl p d a b lat f =
      let x := s.opnd sl.cluster a
      let y := s.opnd sl.cluster b
      s.postPred (slotS sl) d lat (f x.v y.v).1 (f x.v y.v).2 (x.pois || y.pois) (regKeys sl.cluster [a, b]) := by
  rw [State.cmp2, State.when_acts h1 h2]

/-! ### Seal operations of part of a tile, and what the host gives up -/

/-- An ordinary seal operation changes memory, records, the marks of lines and of rows and what galley passes may still read, and nothing
else. -/
theorem State.sealPart_eq (s : State) (slot t : Nat) (bs : List (Nat × Byte)) (m : MetaUpd) (w : Bool) (ms : List MetaUpd) :
    ∃ x r p b o, (s.sealPart slot t bs m w ms).1 = { s with mem := x, recs := r, poisLines := p, badRows := b, stale := o } := by
  unfold State.sealPart; split
  · exact ⟨_, _, _, _, _, rfl⟩
  · dsimp only
    generalize ({ slot := slot, whole := w, bs := bs, m := m, more := ms, behind := s.fencesAt t } : LateWrite) = l
    obtain ⟨o, e1⟩ := s.keepOld_eq t l
    obtain ⟨x, r, p, b, e⟩ := State.sealLate_eq (s.keepOld t l) t l
    rw [e, e1]; exact ⟨_, _, _, _, _, rfl⟩

/-- It is done, if the tile has a version left and its check does not fail (R443, R445). -/
theorem State.sealPart_done {s : State} {slot t : Nat} (hx : s.exhausted slot t = false) (hc : s.fillCheck slot t ≠ .mismatch)
    (bs : List (Nat × Byte)) (m : MetaUpd) : (s.sealPart slot t bs m).2 = .done := by
  have h : ∀ l : LateWrite, l.slot = slot → l.whole = false → ((s.keepOld t l).sealLate t l).2 = .done := by
    intro l h1 h2
    obtain ⟨o, e⟩ := s.keepOld_eq t l
    have hx' : ({ s with stale := o } : State).exhausted slot t = false := hx
    have hc' : ({ s with stale := o } : State).fillCheck slot t ≠ .mismatch := hc
    rw [e]; simp [-List.reduceReplicate, State.sealLate, State.sealWrite, h1, h2, hx', hc']
  simpa [State.sealPart, hx] using h _ rfl rfl

/-- It keeps the canonical form. -/
theorem State.sealPart_wf {s : State} (h : Memory.wf s.mem) (slot t : Nat) (bs : List (Nat × Byte)) (m : MetaUpd) (w : Bool)
    (ms : List MetaUpd) : Memory.wf (s.sealPart slot t bs m w ms).1.mem := by
  unfold State.sealPart; split
  · exact h
  · dsimp only
    generalize ({ slot := slot, whole := w, bs := bs, m := m, more := ms, behind := s.fencesAt t } : LateWrite) = l
    obtain ⟨o, e1⟩ := s.keepOld_eq t l
    exact State.sealLate_wf (by rw [e1]; exact h) _ _

/-- From `s` to `t` change at most memory, records, the marks of lines and of rows, what galley passes may still read, the free-value
counter and the host's lines: what giving up lines and ordinary seal operations can change. -/
def State.Wrote (s t : State) : Prop :=
  t = { s with
    mem := t.mem, recs := t.recs, poisLines := t.poisLines, badRows := t.badRows, stale := t.stale, fresh := t.fresh
    hostLines := t.hostLines, hostVia := t.hostVia }

theorem State.Wrote.refl (s : State) : s.Wrote s := rfl

theorem State.Wrote.trans {s t u : State} (h : s.Wrote t) (h' : t.Wrote u) : s.Wrote u := by
  unfold State.Wrote at *; exact h'.trans (by rw [h])

/-- An ordinary seal operation is such a change. -/
theorem State.sealPart_wrote (s : State) (slot t : Nat) (bs : List (Nat × Byte)) (m : MetaUpd) (w : Bool) (ms : List MetaUpd) :
    s.Wrote (s.sealPart slot t bs m w ms).1 := by
  obtain ⟨x, r, p, b, o, e⟩ := s.sealPart_eq slot t bs m w ms
  rw [e]; rfl

/-- Giving up a line is such a change. -/
theorem State.recallLine_wrote (s : State) (l : Nat) : s.Wrote (s.recallLine l) := by
  unfold State.recallLine; split
  · rfl
  · dsimp only [State.takeFree]
    split
    · split
      · exact State.Wrote.trans (t := State.dropHost { s with fresh := s.fresh + 1 } l) rfl (State.sealPart_wrote _ _ _ _ _ _ _)
      · rfl
    · rfl

/-- It keeps the canonical form. -/
theorem State.recallLine_wf {s : State} (h : Memory.wf s.mem) (l : Nat) : Memory.wf (s.recallLine l).mem := by
  unfold State.recallLine; split
  · exact h
  · dsimp only [State.takeFree]
    split
    · split
      · exact State.sealPart_wf (by exact h) _ _ _ _ _ _
      · exact h
    · exact h

/-- Giving up lines one after the other changes no more than giving up one does. -/
theorem State.recallLines_wrote (s : State) (ls : List Nat) : s.Wrote (ls.foldl State.recallLine s) := by
  induction ls generalizing s with
  | nil => rfl
  | cons l ls ih => exact (s.recallLine_wrote l).trans (ih _)

/-- A range of lines is given up. -/
theorem State.recallRange_wrote (s : State) (da n : Nat) : s.Wrote (s.recallRange da n) := by
  unfold State.recallRange; split
  · rfl
  · exact s.recallLines_wrote _

/-- Giving up lines keeps the canonical form. -/
theorem State.recallLines_wf {s : State} (h : Memory.wf s.mem) (ls : List Nat) :
    Memory.wf (ls.foldl State.recallLine s).mem := by
  induction ls generalizing s with
  | nil => exact h
  | cons l ls ih => exact ih (State.recallLine_wf h l)

/-- Giving up a range keeps the canonical form. -/
theorem State.recallRange_wf {s : State} (h : Memory.wf s.mem) (da n : Nat) : Memory.wf (s.recallRange da n).mem := by
  unfold State.recallRange; split
  · exact h
  · exact State.recallLines_wf h _

/-- The host gives up nothing where it holds nothing. -/
theorem State.recallRange_none {s : State} (h : s.hostLines = []) (da n : Nat) : s.recallRange da n = s := by
  simp [State.recallRange, h]

/-- The event unit's write of a record makes no event of its own where the window table admits it, the tile has a version left, and its
check does not fail (R439, R443, R445). -/
theorem State.ringWrite_open {s : State} {da a : Nat} {w : Word} {bs : List Byte} (hl : s.hostLines = [])
    (hf : s.frisk 0x0F1 da bs.length true true = some w) (ha : s.linearOf da = some a) (hx : s.exhausted (windowSlot w) (a / 4096) = false)
    (hc : s.fillCheck (windowSlot w) (a / 4096) ≠ .mismatch) : (s.ringWrite da bs).2 = none := by
  simp [State.ringWrite, State.recallRange_none hl, hf, ha, State.sealPart_done hx hc]

/-! ### Records -/

/-- The event unit's write changes what a seal operation and the host's lines change. -/
theorem State.ringWrite_wrote (s : State) (da : Nat) (bs : List Byte) : s.Wrote (s.ringWrite da bs).1 := by
  unfold State.ringWrite; dsimp only; split
  · exact (s.recallRange_wrote _ _).trans (State.sealPart_wrote _ _ _ _ _ _ _)
  · exact s.recallRange_wrote _ _

/-- It keeps the canonical form. -/
theorem State.ringWrite_wf {s : State} (h : Memory.wf s.mem) (da : Nat) (bs : List Byte) : Memory.wf (s.ringWrite da bs).1.mem := by
  unfold State.ringWrite; dsimp only; split
  · exact State.sealPart_wf (State.recallRange_wf h _ _) _ _ _ _ _ _
  · exact State.recallRange_wf h _ _

/-- Everything that delivering a record or an event can change, from the state `s` to the state `t`: beside that, the rings and the
event numbers. -/
def State.Told (s t : State) : Prop :=
  t = { s with
    mem := t.mem, recs := t.recs, poisLines := t.poisLines, badRows := t.badRows, stale := t.stale, fresh := t.fresh
    hostLines := t.hostLines, hostVia := t.hostVia, rings := t.rings, devRing := t.devRing, evseq := t.evseq, msix := t.msix, unacked := t.unacked }

theorem State.Told.refl (s : State) : s.Told s := rfl

theorem State.Told.trans {s t u : State} (h : s.Told t) (h' : t.Told u) : s.Told u := by
  unfold State.Told at *; exact h'.trans (by rw [h])

theorem State.Wrote.told {s t : State} (h : s.Wrote t) : s.Told t := by
  unfold State.Wrote State.Told at *; exact h.trans (by rw [h])

/-- Replacing a ring tells. -/
theorem State.setRing_told (s : State) (i : RingId) (r : Ring) : s.Told (s.setRing i r) := by cases i <;> rfl

/-- Replacing a ring leaves the memory. -/
theorem State.setRing_wf {s : State} (h : Memory.wf s.mem) (i : RingId) (r : Ring) : Memory.wf (s.setRing i r).mem := by
  cases i <;> exact h

/-- Writing a record tells. -/
theorem State.ringPut_told (s : State) (i : RingId) (t : TrapRec) : s.Told (s.ringPut i t).1 :=
  (s.ringWrite_wrote _ _).told.trans (State.setRing_told _ _ _)

/-- Writing a record keeps the canonical form. -/
theorem State.ringPut_wf {s : State} (h : Memory.wf s.mem) (i : RingId) (t : TrapRec) : Memory.wf (s.ringPut i t).1.mem :=
  State.setRing_wf (State.ringWrite_wf h _ _) _ _

/-- Entering a record tells. -/
theorem State.ringEnter_told (s : State) (i : RingId) (t : TrapRec) : s.Told (s.ringEnter i t).1 := by
  unfold State.ringEnter; dsimp only; split
  · exact s.ringPut_told i t
  · exact s.setRing_told i _

/-- Delivering a record tells, without the event of a refusal. -/
theorem State.postQuiet_told (s : State) (i : RingId) (t : TrapRec) : s.Told (s.postQuiet i t) := by
  unfold State.postQuiet; dsimp only; split
  · exact s.ringEnter_told i t
  · exact s.setRing_told i _

/-- The sequence number, the message count and the unacknowledged events change nothing else. -/
theorem State.told_numbers (s : State) (q : Word32) (m : Nat) (u : List (ChaseId × TrapRec)) :
    s.Told { s with evseq := q, msix := m, unacked := u } := rfl

/-- Entering a record keeps the canonical form. -/
theorem State.ringEnter_wf {s : State} (h : Memory.wf s.mem) (i : RingId) (t : TrapRec) : Memory.wf (s.ringEnter i t).1.mem := by
  unfold State.ringEnter; dsimp only; split
  · exact State.ringPut_wf h i t
  · exact State.setRing_wf h i _

/-- So does delivering it. -/
theorem State.postQuiet_wf {s : State} (h : Memory.wf s.mem) (i : RingId) (t : TrapRec) : Memory.wf (s.postQuiet i t).mem := by
  unfold State.postQuiet; dsimp only; split
  · exact State.ringEnter_wf h i t
  · exact State.setRing_wf h i _

/-- An event of the device tells what its delivery tells. -/
theorem State.deviceEvent_told {put : State → RingId → TrapRec → State} (hp : ∀ s i t, State.Told s (put s i t)) (s : State)
    (n : Nat) (t : TrapRec) : s.Told (s.deviceEvent put n t) := by
  unfold State.deviceEvent; dsimp only; split
  · exact (s.told_numbers _ _ _).trans (hp _ _ _)
  · exact (s.told_numbers (s.evseq + 1) (s.msix + 1) s.unacked).trans (hp _ _ _)
  · exact ((s.told_numbers _ _ _).trans (hp _ _ _)).trans (State.told_numbers _ _ _ _)

/-- An event of the device keeps the canonical form when its delivery does. -/
theorem State.deviceEvent_wf {put : State → RingId → TrapRec → State}
    (hp : ∀ s i t, Memory.wf s.mem → Memory.wf (put s i t).mem) {s : State} (h : Memory.wf s.mem) (n : Nat) (t : TrapRec) :
    Memory.wf (s.deviceEvent put n t).mem := by
  unfold State.deviceEvent; dsimp only; split <;> exact hp _ _ _ h

/-- What the event unit reports of its own write tells. -/
theorem State.tellRing_told (s : State) (da : Nat) (o : Option (BitVec 8 × BitVec 8)) : s.Told (s.tellRing da o) := by
  unfold State.tellRing; split
  · rfl
  · exact State.deviceEvent_told State.postQuiet_told _ _ _

/-- It keeps the canonical form. -/
theorem State.tellRing_wf {s : State} (h : Memory.wf s.mem) (da : Nat) (o : Option (BitVec 8 × BitVec 8)) :
    Memory.wf (s.tellRing da o).mem := by
  unfold State.tellRing; split
  · exact h
  · exact State.deviceEvent_wf (fun _ i t h => State.postQuiet_wf h i t) h _ _

/-- Entering a record, with the event of a refusal, tells. -/
theorem State.ringTold_told (s : State) (i : RingId) (t : TrapRec) : s.Told (s.ringTold i t) :=
  (s.ringEnter_told i t).trans (State.tellRing_told _ _ _)

/-- It keeps the canonical form. -/
theorem State.ringTold_wf {s : State} (h : Memory.wf s.mem) (i : RingId) (t : TrapRec) : Memory.wf (s.ringTold i t).mem :=
  State.tellRing_wf (State.ringEnter_wf h i t) _ _

/-- Delivering a record changes memory, records, the host's lines, the rings, the event numbers, and nothing else. -/
theorem State.post_told (s : State) (i : RingId) (t : TrapRec) : s.Told (s.post i t) := by
  unfold State.post; dsimp only; split
  · exact s.ringTold_told i t
  · exact s.setRing_told i _

/-- Delivering a record keeps the canonical form. -/
theorem State.post_wf {s : State} (h : Memory.wf s.mem) (i : RingId) (t : TrapRec) : Memory.wf (s.post i t).mem := by
  unfold State.post; dsimp only; split
  · exact State.ringTold_wf h i t
  · exact State.setRing_wf h i _

@[simp] theorem State.post_cores (s : State) (i : RingId) (t : TrapRec) : (s.post i t).cores = s.cores := by
  rw [s.post_told i t]
@[simp] theorem State.post_tasks (s : State) (i : RingId) (t : TrapRec) : (s.post i t).tasks = s.tasks := by
  rw [s.post_told i t]
@[simp] theorem State.post_parts (s : State) (i : RingId) (t : TrapRec) : (s.post i t).parts = s.parts := by
  rw [s.post_told i t]
@[simp] theorem State.post_engines (s : State) (i : RingId) (t : TrapRec) : (s.post i t).engines = s.engines := by
  rw [s.post_told i t]
@[simp] theorem State.post_chans (s : State) (i : RingId) (t : TrapRec) : (s.post i t).chans = s.chans := by
  rw [s.post_told i t]

/-- An event changes no more than delivering its record does. -/
theorem State.eventAt_told (s : State) (h : ChaseId) (cl : EvClass) (t : TrapRec) : s.Told (s.eventAt h cl t) := by
  unfold State.eventAt State.number; dsimp only
  split
  · exact (s.told_numbers _ _ _).trans (State.post_told _ _ _)
  · exact (s.told_numbers (s.evseq + 1) (s.msix + 1) s.unacked).trans (State.post_told _ _ _)
  · exact (s.told_numbers (s.evseq + 1) s.msix _).trans (State.post_told _ _ _)

/-- An event keeps the canonical form. -/
theorem State.eventAt_wf {s : State} (hw : Memory.wf s.mem) (h : ChaseId) (cl : EvClass) (t : TrapRec) :
    Memory.wf (s.eventAt h cl t).mem := by
  unfold State.eventAt State.number; dsimp only
  split <;> exact State.post_wf (by exact hw) _ _

/-! ### Traps -/

/-- What taking a trap leaves of the core. -/
theorem State.takeTrap_core (s : State) (c : CoreId) (t : TrapRec) (b : Bool) :
    (s.takeTrap c t b).core c = { s.core c with
      st := .held, held := some ⟨s.evseq + 1, t.cause, b⟩, trap := none, trseq := s.evseq + 1, trcause := t.cause
      cancelled := false, wait := none, req := none, ans := none
      preq := (s.core c).preq && ((t.cause != 0x0A && t.cause != 0x0F) ||
        (s.post (.chase (chaseOf c)) { t with held := true, seq := s.evseq + 1 }).coreGone c) } := by
  simp [State.takeTrap, State.number, State.modCore, State.core, State.setCore, State.coreGone, State.part, vget_eq]

/-- It leaves every other core. -/
theorem State.takeTrap_core_ne (s : State) (c : CoreId) (t : TrapRec) (b : Bool) {d : CoreId} (h : d ≠ c) :
    (s.takeTrap c t b).core d = s.core d := by
  have : c.val ≠ d.val := fun e => h (Fin.ext e.symm)
  simp [State.takeTrap, State.number, State.modCore, State.core, State.setCore, vget_eq, this]

/-! ### Faults -/

/-- The worst fault of a bundle is one of its faults. -/
theorem worstFault_mem {fs : List Fault1} {f : Fault1} (h : worstFault fs = some f) : f ∈ fs := by
  induction fs generalizing f with
  | nil => simp [worstFault] at h
  | cons x xs ih =>
    simp only [worstFault] at h
    split at h
    · cases h; exact .head _
    · rename_i g hg
      split at h <;> cases h
      · exact .tail _ (ih hg)
      · exact .head _

/-- A bundle has no worst fault just when it has no fault. -/
theorem worstFault_none {fs : List Fault1} : worstFault fs = none ↔ fs = [] := by
  cases fs with
  | nil => simp [worstFault]
  | cons x xs => simp only [worstFault]; split <;> (try split) <;> simp

end Sys2Proof.Machine
end

