-- ==== Sys2Proof/Tests/Slice0.lean ====
section
/-! SUPPORT. Small tests of the model, each from a worked example or a table of the spec, and for every obligation with hypotheses a
concrete state that meets them. -/

namespace Sys2Proof.Tests

open Sys2Proof Sys2Proof.Machine

-- Checked one after another: kernel evaluations that wait side by side take too much memory together.
set_option Elab.async false

/-! ## Small states -/

/-- A core whose registers hold these values. -/
def coreOf (l : List (Cluster × SReg × Word)) : Core := l.foldl (fun k x => k.setReg x.1 x.2.1 x.2.2 false) {}

/-- Core 0 issues a bundle in this state. -/
def stOf (k : Core) : State := { (({} : State).setCore 0 k) with iss := { pre := k } }

/-- The same from register values. -/
def regs (l : List (Cluster × SReg × Word)) : State := stOf (coreOf l)

/-- Core 0 with one poisoned register, a3. -/
def poisA3 : State := stOf (({} : Core).setReg .a 3 0 true)

/-- A row of a tag, a bound and contents. -/
def rowOf (t : BitVec 4) (eb : BitVec 16) (x : Nat) : Row := ⟨BitVec.ofNat 1024 x, t, eb⟩

/-- Core 0 whose rows hold these. -/
def rowsOf (l : List (VReg × Row)) : State := stOf (l.foldl (fun k x => k.setRow x.1 x.2) {})

/-- The answer's next state, or the reset state. -/
def nextOf : Res → State
  | .next s => s
  | .fault _ => {}
  | .refused _ => {}

/-- The last result in flight of core 0, as a scalar, with its flags. -/
def scalarOf (r : Res) : Option (Word × Flags) :=
  match ((nextOf r).core 0).infl.getLast? with
  | some e => match e.pay with
    | .scalar _ _ v => some (v, e.F)
    | _ => none
  | none => none

/-- The same as a predicate. -/
def predOf (r : Res) : Option Bool :=
  match ((nextOf r).core 0).infl.getLast? with
  | some e => match e.pay with
    | .pred _ v => some v
    | _ => none
  | none => none

/-- The same as a row. -/
def rowRes (r : Res) : Option Row :=
  match ((nextOf r).core 0).infl.getLast? with
  | some e => match e.pay with
    | .row _ v => some v
    | _ => none
  | none => none

/-- The causes and details of the faults that the bundle holds. -/
def faultsOf (r : Res) : List (BitVec 8 × BitVec 8) := (nextOf r).iss.faults.map fun f => (f.cause, f.detail)

/-- An instruction with no predicate acts in every state. -/
theorem acts_always (s : State) : Acts s .always := ⟨rfl, rfl⟩

/-! ## Ill-formed instructions are refused (R77, R79, R82, R170, R176, R206, R216, R218, R386, R410, R412) -/

theorem smoke_type_of_mulh : (Instr.mulh .sa .always 1 2 3 .n64).wf = false := by decide
theorem smoke_type_of_mulhn : (Instr.mulhn .sa .always 1 2 3 .i64).wf = false := by decide
theorem smoke_type_of_shr : (Instr.shr .sa .always 1 2 3 .i64).wf = false := by decide
theorem smoke_type_of_sra : (Instr.sra .sa .always 1 2 3 .n64).wf = false := by decide
theorem smoke_type_of_shri : (Instr.shri .sa .always 1 2 .i8 3).wf = false := by decide
theorem smoke_type_of_srai : (Instr.srai .sa .always 1 2 .n8 3).wf = false := by decide
theorem smoke_type_of_min : (Instr.min .sa .always 1 2 3 .n32).wf = false ∧ (Instr.maxn .sa .always 1 2 3 .i32).wf = false := by decide
theorem smoke_type_of_clz : (Instr.clz .sa .always 1 2 .i64).wf = false := by decide
theorem smoke_wide_literal : (Instr.moviSl .sa .always 1 2 true).wf = false := by decide
theorem smoke_special_register : (Instr.rdsr .sa .always 1 0x15).wf = false ∧ (Instr.wrsr .sa .always 1 1).wf = false := by decide
theorem smoke_exact_conversion : (Instr.fcvt .sa .always 1 2 .fp32Bf16 .rtz).wf = false := by decide
theorem smoke_type_of_div : (Instr.div .always 1 2 3 .n64).wf = false ∧ (Instr.remn .always 1 2 3 .i64).wf = false := by decide
theorem smoke_loop_count : (Instr.loopi .always 0 0 4).wf = false := by decide
theorem smoke_literal_pair : (Instr.geCall .always .a 1 (.lit 2) (.reg 3)).wf = false ∧
    (Instr.geCall .always .a 1 (.reg 3) (.lit 2)).wf = false ∧ (Instr.launch .always .a 1 (.lit 2) 4).wf = false := by decide
theorem smoke_type_of_store : (Instr.st .ma .always 1 2 .n8 0).wf = false ∧ (Instr.stl .ma .always 1 2 .n8 .core 0).wf = false := by decide
theorem smoke_beat_count : (Instr.mxMac .always 0 1 65).wf = false ∧ (Instr.mxDrain .always 127 1 2).wf = false ∧
    (Instr.mxClr .always 0 0).wf = false ∧ (Instr.mxWload .always false 1 33).wf = false := by decide
theorem smoke_bound_check_fields : (Instr.vbnd .always 1 2 .chk 0).wf = false := by decide
theorem smoke_sampler_rows : (Instr.xsPenal .always 0 .a 1 127 33).wf = false ∧ (Instr.xsRand .always 31 0).wf = false ∧
    (Instr.xsVerify .always 0 0 127 1).wf = false := by decide

/-! ## Words written out from the encoding tables (R67, R74 to R89) -/

/-- A context with two literal words, at offset 0, of a 12-byte bundle. -/
def ctx : DCtx := ⟨2, 0, 12⟩

/-- What a slot's decoder reads from a word in it. -/
def reads (k : Slot) (w : Word32) : Option Instr :=
  match decodeSlot ctx k w with
  | .ok i => some i
  | .error _ => none

theorem test_decode_add : reads .sa (0b000000#6 ++ 0b00000#5 ++ 0b00101#5 ++ 0b00001#5 ++ 0b00010#5 ++ 0b001111#6) =
    some (.add .sa .always 5 1 2 true .n8) := by decide +kernel
theorem test_decode_fma : reads .sb (0b101011#6 ++ 0b00000#5 ++ 0b00001#5 ++ 0b00010#5 ++ 0b00011#5 ++ 0b000001#6) =
    some (.fma .sb .always 1 2 3 .rtz) := by decide +kernel
theorem test_decode_br : reads .ctl (0b000000#6 ++ 0b10010#5 ++ 0b0000000#7 ++ 0b00000000010000#14) =
    some (.br (.whenClear 1) 16) := by decide +kernel
theorem test_decode_loop : reads .ctl (0b000101#6 ++ 0b00000#5 ++ 0b11#2 ++ 0b1#1 ++ 0b00111#5 ++ 0b0000000000011#13) =
    some (.loop .always 3 ⟨.b, 7⟩ 3) := by decide +kernel
theorem test_decode_ge_fence : reads .ctl (0b100010#6 ++ 0b00000#5 ++ 0b00#2 ++ 0b0#1 ++ 0b00011#5 ++ 0b0000000000000#13) =
    some (.geFence .always .a 3) := by decide +kernel
theorem test_decode_ld : reads .ma (0b000000#6 ++ 0b00000#5 ++ 0b00111#5 ++ 0b00011#5 ++ 0b000#3 ++ 0b00000010#8) =
    some (.ld .ma .always 7 3 .i64 2) := by decide +kernel
theorem test_decode_vadd : reads .vec (0b000000#6 ++ 0b00011#5 ++ 0b0001000#7 ++ 0b0001001#7 ++ 0b0001010#7) =
    some (.vadd (.whenSet 2) 8 9 10) := by decide +kernel
theorem test_decode_mx_mac : reads .mat (0b000000#6 ++ 0b01100#5 ++ 0b0000000#7 ++ 0b1000000#7 ++ 0b0100000#7) =
    some (.mxMac (.whenSet 11) 0 64 32) := by decide +kernel
theorem test_decode_xp_rot : reads .xps (0b000010#6 ++ 0b00000#5 ++ 0b0000001#7 ++ 0b0000010#7 ++ 0b1#1 ++ 0b00011#5 ++ 0b0#1) =
    some (.xpRot .always 1 2 .b 3) := by decide +kernel
theorem test_decode_xs_rand : reads .xps (0b010010#6 ++ 0b00000#5 ++ 0b00#2 ++ 0b1#1 ++ 0b00011#5 ++ 0b0000000#7 ++ 0b001001#6) =
    some (.xsRand .always 3 9) := by decide +kernel
/-- Opcode 0x32 is DIV in SB and undefined in SA (R84). -/
theorem test_decode_div_only_in_sb :
    reads .sb (0b110010#6 ++ 0b00000#5 ++ 0b00001#5 ++ 0b00010#5 ++ 0b00011#5 ++ 0b000001#6) = some (.div .always 1 2 3 .i32) ∧
    reads .sa (0b110010#6 ++ 0b00000#5 ++ 0b00001#5 ++ 0b00010#5 ++ 0b00011#5 ++ 0b000001#6) = none := by
  decide +kernel
/-- The word of ADD read alone, in SB of the order of log entry 4. -/
theorem test_decode_table_word : decodeTableWord 32 0x00050880 = some (.add .sb .always 5 1 2 false .i64) := by decide +kernel

/-! ## One step from reset with a word placed -/

/-- ADD b5, b1, b2 placed at the fetch point: the step commits, and the next bundle follows its header, word and literals. -/
theorem test_step_add : ((nextOf (step (State.reset.withFetchWord 32 0x00050880))).core 0).pc = 20 ∧
    ((nextOf (step (State.reset.withFetchWord 32 0x00050880))).core 0).tick = 1 := by decide +kernel
/-- MOVI b5, 0x1234 placed so: the value has landed at the end of the step's tick (R42, R162). -/
theorem test_step_movi : ((nextOf (step (State.reset.withFetchWord 32 0x80051234))).core 0).reg .b 5 = 0x1234 := by decide +kernel

/-! ## Worked examples of the spec -/

/-- ADD.n8 of 200 and 100: 44, and 255 with .sat (R153). -/
theorem test_add_n8 : scalarOf (exec (.add .sa .always 5 1 2 false .n8) (regs [(.a, 1, 200), (.a, 2, 100)])) = some (44, 0) ∧
    scalarOf (exec (.add .sa .always 5 1 2 true .n8) (regs [(.a, 1, 200), (.a, 2, 100)])) = some (255, 0) := by decide +kernel
/-- SUB.sat.n32 of 3 and 5 (R153). -/
theorem test_sub_sat : scalarOf (exec (.sub .sa .always 5 1 2 true .n32) (regs [(.a, 1, 3), (.a, 2, 5)])) = some (0, 0) := by decide +kernel
/-- MULH.i32 of −1 and 1, MULHN.n32 of 0xFFFFFFFF and 2 (R154). -/
theorem test_mulh : scalarOf (exec (.mulh .sa .always 5 1 2 .i32) (regs [(.a, 1, 0xFFFFFFFF), (.a, 2, 1)])) = some (-1, 0) ∧
    scalarOf (exec (.mulhn .sa .always 5 1 2 .n32) (regs [(.a, 1, 0xFFFFFFFF), (.a, 2, 2)])) = some (1, 0) := by decide +kernel
/-- DIV.i32 and REM.i32 of −7 and 2 (R156). -/
theorem test_div : scalarOf (exec (.div .always 5 1 2 .i32) (regs [(.b, 1, 0xFFFFFFF9), (.b, 2, 2)])) = some (-3, 0) ∧
    scalarOf (exec (.rem .always 5 1 2 .i32) (regs [(.b, 1, 0xFFFFFFF9), (.b, 2, 2)])) = some (-1, 0) := by decide +kernel
/-- An amount of w or more (R158). -/
theorem test_shift_past_width : scalarOf (exec (.shl .sa .always 5 1 2 .i8) (regs [(.a, 1, 0xFF), (.a, 2, 8)])) = some (0, 0) ∧
    scalarOf (exec (.sra .sa .always 5 1 2 .i8) (regs [(.a, 1, 0x80), (.a, 2, 200)])) = some (-1, 0) := by decide +kernel
/-- A zero operand of CLZ and CTZ gives w (R160). -/
theorem test_clz_of_zero : scalarOf (exec (.clz .sa .always 5 1 .n16) (regs [(.a, 1, 0x10000)])) = some (16, 0) ∧
    scalarOf (exec (.ctz .sa .always 5 1 .n16) (regs [(.a, 1, 0x10000)])) = some (16, 0) := by decide +kernel
/-- The example of R161. -/
theorem test_ext : scalarOf (exec (.extn .sa .always 5 1 2) (regs [(.a, 1, 0xF70), (.a, 2, 0x0804)])) = some (0xF7, 0) ∧
    scalarOf (exec (.ext .sa .always 5 1 2) (regs [(.a, 1, 0xF70), (.a, 2, 0x0804)])) = some (0xFFFFFFFFFFFFFFF7, 0) := by decide +kernel
/-- MOVHI of the second step of R162's constant. -/
theorem test_movhi : scalarOf (exec (.movhi .sa .always 5 0x4567) (regs [(.a, 5, 0x0123)])) = some (0x01234567, 0) := by decide +kernel
/-- The address of LEA wraps (R164). -/
theorem test_lea_wraps : scalarOf (exec (.lea .sa .always 5 1 2 3 .i32) (regs [(.a, 1, 7), (.a, 2, 0xFFFFFFFF)])) =
    some (0xFFFFFFFFFFFFFFFF, 0) := by decide +kernel
/-- PSET by the table 0x4: pa AND NOT pb (R167). -/
theorem test_pset : predOf (exec (.pset .sa .always 1 2 3 4) (stOf (({} : Core).setPred 2 true false))) = some true := by decide +kernel
/-- 2^24 × 1 + 1 under RNE (R172). -/
theorem test_fma : scalarOf (exec (.fma .sa .always 3 1 2 .rne) (regs [(.a, 1, 0x4B800000), (.a, 2, 0x3F800000), (.a, 3, 0x3F800000)])) =
    some (0x4B800000, fNX) := by decide +kernel
/-- FCVT.i32.fp32.rtz of −2.75, FCVT.n32.fp32 of −1.0 (R176). -/
theorem test_fcvt : scalarOf (exec (.fcvt .sa .always 5 1 .i32Fp32 .rtz) (regs [(.a, 1, 0xC0300000)])) =
      some (0xFFFFFFFFFFFFFFFE, fNX) ∧
    scalarOf (exec (.fcvt .sa .always 5 1 .n32Fp32 .rne) (regs [(.a, 1, 0xBF800000)])) = some (0, fIV) := by decide +kernel
/-- A finite value over zero (R177). -/
theorem test_fdiv_by_zero : scalarOf (exec (.fdiv .always 5 1 2 .rne) (regs [(.b, 1, 0xBF800000)])) = some (0xFF800000, fDZ) := by
  decide +kernel
/-- An amount of 255 shifts every lane out; the low lane of two INT8 rows adds modulo 2^8 (R184, R188). -/
theorem test_vadd_wraps : (rowRes (exec (.vadd .always 3 1 2) (rowsOf [(1, rowOf 8 0 0xFF), (2, rowOf 8 0 0x101)]))).map (·.bits) =
    some (BitVec.ofNat 1024 0x100) := by decide +kernel
/-- Rows of unequal tags are a format trap of detail 1 (R181). -/
theorem test_vadd_tags : faultsOf (exec (.vadd .always 3 1 2) (rowsOf [(1, rowOf 8 0 0), (2, rowOf 7 0 0)])) = [(7, 1)] := by
  decide +kernel
/-- XP.SHUF with the first control byte 0x83 and the second 0x00 (R226). -/
theorem test_xp_shuf : (rowRes (exec (.xpShuf .always 3 1 2) (rowsOf [(1, rowOf 8 0 0x55), (2, rowOf 8 0 0x0083)]))).map
    (fun r => r.bits.extractLsb' 0 16) = some 0x5500 := by decide +kernel
/-- A load of the bytes FE 01 of the scratchpad, sign-extended from 8 bits (R281, R286). -/
theorem test_ld_sign : scalarOf (exec (.ld .ma .always 5 1 .i8 0) (stOf { coreOf [(.a, 1, 0x40)] with spad := [(0x40, 0xFE), (0x41, 1)] })) =
    some (0xFFFFFFFFFFFFFFFE, 0) := by decide +kernel
/-- A store of 16 bits is little-endian (R9, R281). -/
theorem test_st_bytes : ((nextOf (exec (.st .ma .always 2 1 .i16 0) (regs [(.a, 1, 0x40), (.a, 2, 0xBEEF)]))).core 0).spad =
    [(0x40, 0xEF), (0x41, 0xBE)] := by decide +kernel
/-- A BRI to a misaligned offset is an alignment fault (R383). -/
theorem test_bri_alignment : faultsOf (exec (.bri .always ⟨.a, 1⟩) (regs [(.a, 1, 6)])) = [(6, 0)] := by decide +kernel
/-- KCMD new on a live slot is a configuration error and changes no slot (R447). -/
theorem test_key_new_on_live : let s : State := nextOf (exec (.keyNew 3) { friskets := [(friskKey 0 0x0F1 0, 0xE0DFFFFFF8000000)] })
    (s.keys.get 3).key = some 0 ∧ ((nextOf (exec (.keyNew 3) s)).keys.get 3) = s.keys.get 3 ∧
    (nextOf (exec (.keyNew 3) s)).evseq = 1 := by decide +kernel

/-! ## States that meet the hypotheses of the obligations -/

/-- Core 0 whose predicate p2 is set. -/
def predSet : State := stOf (({} : Core).setPred 2 true false)

/-- O1. -/
theorem witness_IntegerAndLogic : Acts predSet (.whenSet 2) := by unfold Acts; decide +kernel
/-- O2. -/
theorem witness_ShiftsAndImmediates : Acts predSet (.whenClear 3) := by unfold Acts; decide +kernel
/-- O3. -/
theorem witness_BitCountsAndFields : Acts (regs [(.a, 1, 0xF70), (.a, 2, 0x0804)]) .always := acts_always _
/-- O4. -/
theorem witness_SelectsAndCompares : Acts predSet .always ∧ predSet.iss.pre.pPois.getLsbD 2 = false := ⟨acts_always _, by decide +kernel⟩
/-- O5: an unpoisoned source, and a poisoned one. -/
theorem witness_SpecialRegisters : Acts poisA3 .always ∧ poisA3.rdPois .a 1 = false ∧ poisA3.rdPois .a 3 = true :=
  ⟨acts_always _, by decide +kernel⟩
/-- O6. -/
theorem witness_FloatsAndConversions : Acts (regs [(.a, 1, 0x3F800000)]) .always := acts_always _
/-- O7: a free unit; an occupied integer divider; an occupied floating-point divider. -/
theorem witness_Divisions : (Acts {} .always ∧ ({} : State).iss.pre.idiv = 0 ∧ ({} : State).iss.pre.fdiv = 0) ∧
    (stOf { ({} : Core) with idiv := 1 }).iss.pre.idiv ≠ 0 ∧ (stOf { ({} : Core) with fdiv := 1 }).iss.pre.fdiv ≠ 0 :=
  ⟨⟨acts_always _, by decide +kernel⟩, by decide +kernel⟩
/-- O7: operands for each special case of FDIV and FSQRT (signalling, quiet, finite, zeros, infinities, negative). -/
theorem witness_Divisions_special : (fval 0x7F800001).isSig = true ∧
    ((fval 0x7FC00000).isNan && !(fval 0x7FC00000).isSig) = true ∧ ((fval 1).isFin && !(fval 1).isZero && (fval 0).isZero) = true ∧
    ((fval 0).isZero && (fval 0x80000000).isZero) = true ∧ (fval 0xFF800000).isInf = true ∧ ((fval 0x7F7FFFFF).isFin) = true ∧
    (!(fval 0x80000001).isNan && !(fval 0x80000001).isZero && (fval 0x80000001).sign) = true ∧
    ((fval 0x7F800000).isInf && !(fval 0x7F800000).sign) = true := by decide +kernel

/-- Eight return offsets. -/
def full : State := stOf { ({} : Core) with rstack := [4, 8, 12, 16, 20, 24, 28, 32] }
/-- A marked inactive side. -/
def marked : State := stOf { ({} : Core) with mark := true }
/-- O8: an aligned offset at the top of a side, one past it, a misaligned one, a poisoned register, a full and an empty return stack, a
free and a marked side. -/
theorem witness_Transfers :
    (let s := regs [(.a, 1, 0xFFFC), (.a, 2, 0x10000), (.a, 3, 2)];
      Acts s .always ∧ s.rdPois .a 1 = false ∧ (s.rd .a 1).toNat % 4 = 0 ∧ (s.rd .a 1).toNat < 2 ^ 16 ∧ 2 ^ 16 ≤ (s.rd .a 2).toNat ∧
        (s.rd .a 3).toNat % 4 ≠ 0 ∧ s.iss.pre.rstack.length ≠ 8 ∧ s.iss.pre.rstack = [] ∧ s.iss.pre.mark = false ∧
        s.iss.pre.order = []) ∧
    poisA3.rdPois .a 3 = true ∧ full.iss.pre.rstack.length = 8 ∧ full.iss.pre.rstack ≠ [] ∧ marked.iss.pre.mark = true :=
  ⟨⟨acts_always _, by decide +kernel⟩, by decide +kernel⟩
/-- O9: a loop away from its end, at its end with a count of 2 and of 1, targets at S, at E and past E; a free and an active counter;
a count of 1 and of 0. -/
theorem witness_Loops :
    (let x : LoopSt := { active := true, count := 2, s := 0x10, e := 0x20 };
      let y : LoopSt := { x with count := 1 };
      x.e.toNat ≠ 0x1C ∧ x.e.toNat = 0x20 ∧ 1 < x.count.toNat ∧ y.count.toNat ≤ 1 ∧ x.s.toNat ≤ 0x10 ∧ 0x20 ≤ x.e.toNat ∧ x.e.toNat < 0x24) ∧
    (let s := regs [(.a, 1, 0x500000001), (.a, 2, 0x500000000)];
      Acts s .always ∧ (s.iss.pre.lc.get 0).active = false ∧ s.rdPois .a 1 = false ∧ (s.rd .a 1).extractLsb' 0 32 ≠ 0 ∧
        (s.rd .a 2).extractLsb' 0 32 = 0) ∧
    ((stOf { ({} : Core) with lc := Vector.replicate 4 { active := true } }).iss.pre.lc.get 0).active = true ∧ poisA3.rdPois .a 3 = true :=
  ⟨by decide +kernel, ⟨acts_always _, by decide +kernel⟩, by decide +kernel⟩

/-- A result in flight. -/
def inflight (r : Nat) (l : Late) : Entry := ⟨.scalar .a 5 7, false, r, 1, 1, 0, l, 0, {}⟩
/-- A store of no byte. -/
def noStore : PendStore := { va := 0, bytes := [], md := none, release := false, fenced := false, dev := false }
/-- O10: nothing in flight, something in flight, pending deferred traps of which the second is the earliest. -/
theorem witness_TaskEnds : (Acts {} .always ∧ ({} : State).iss.pre.porig = [] ∧ ({} : State).iss.pre.infl = [] ∧
      ({} : State).iss.pre.seq.kind = .idle) ∧
    (stOf { ({} : Core) with infl := [inflight 1 .no] }).iss.pre.infl ≠ [] ∧
    (stOf { ({} : Core) with porig := [(3, 0x20000), (5, 0), (7, 0)] }).iss.pre.porig = [(3, 0x20000)] ++ (5, 0) :: [(7, 0)] ∧
    (∀ x ∈ [(3, 0x20000)], 0 / 2 ^ 17 < x.2 / 2 ^ 17) ∧ (∀ x ∈ [(7, 0)], 0 / 2 ^ 17 ≤ x.2 / 2 ^ 17) := ⟨⟨acts_always _, by decide +kernel⟩, by decide +kernel⟩

/-- A core with an issue count of 2 and one CP.ISP in context 0. -/
def issuing : State := stOf { coreOf [(.a, 1, 2), (.a, 2, 3)] with
  cx := Vector.replicate 4 { icount := 2, tl := 1, cmds := [⟨2, .isp true, 0, 0, 4, false, 0, false, []⟩] } }
/-- O11: a value reached, one at the issue count and not reached, one above it; with and without a CP.ISP. -/
theorem witness_Waits : (Acts issuing .always ∧ issuing.rdPois .a 1 = false ∧ (issuing.rd .a 0).toNat ≤ (issuing.iss.pre.cx.get 0).tl ∧
      (issuing.rd .a 1).toNat ≤ (issuing.iss.pre.cx.get 0).icount ∧ (issuing.iss.pre.cx.get 0).tl < (issuing.rd .a 1).toNat ∧
      (issuing.iss.pre.cx.get 0).icount < (issuing.rd .a 2).toNat) ∧
    (∃ i : Fin 4, ∃ c ∈ (issuing.iss.pre.cx.get i).cmds, ∃ side, c.kind = .isp side) ∧
    ¬ ∃ i : Fin 4, ∃ c ∈ (({} : State).iss.pre.cx.get i).cmds, ∃ side, c.kind = .isp side :=
  ⟨⟨acts_always _, by decide +kernel⟩, ⟨0, ⟨2, .isp true, 0, 0, 4, false, 0, false, []⟩, by decide +kernel, true, rfl⟩, by decide +kernel⟩

/-- Operands of BAR and MASKW: a1 barrier 15 of 8 cores, a2 none, a4 mask 15 with value 0, a5 with value 1, a6 out of range. -/
def waiters : State := regs [(.a, 1, 0x080F), (.a, 2, 0x090F), (.a, 4, 0xF), (.a, 5, 0x10000000F), (.a, 6, 0x10)]
/-- O12: each range of the operands at its ends, no answer and an answer, no store and a store. -/
theorem witness_Barriers : (Acts waiters .always ∧ waiters.rdPois .a 1 = false ∧ waiters.iss.pre.req = none ∧
      waiters.iss.pre.ans = none ∧ waiters.iss.pre.stores = [] ∧ waiters.iss.pre.pendingLoads = [] ∧
      (let x := waiters.rd .a 1; let n := (x.extractLsb' 8 8).toNat; x.extractLsb' 32 32 = 0 ∧ x.extractLsb' 4 4 = 0 ∧ 1 ≤ n ∧ n ≤ 8) ∧
      ¬ ((waiters.rd .a 2).extractLsb' 8 8).toNat ≤ 8 ∧ (waiters.rd .a 4).extractLsb' 4 12 = 0 ∧ (waiters.rd .a 6).extractLsb' 4 12 ≠ 0 ∧
      ((waiters.rd .a 4).extractLsb' 32 32).toNat ≤ ((waiters.corePart 0).mseq.get 15).toNat ∧
      ((waiters.corePart 0).mseq.get 15).toNat < ((waiters.rd .a 5).extractLsb' 32 32).toNat) ∧
    (stOf { ({} : Core) with ans := some (.flag true) }).iss.pre.ans = some (.flag true) ∧
    (stOf { ({} : Core) with stores := [noStore] }).iss.pre.stores ≠ [] :=
  ⟨⟨acts_always _, by decide +kernel⟩, by decide +kernel⟩
/-- O12: an idle barrier, one with two arrivals of three. -/
theorem witness_Barriers_arrival : (sget {} ({} : State).bars (({} : State).barOf 2 1)).arrived = [] ∧
    (let s : State := { ({} : State) with bars := [(({} : State).barOf 2 1, { n := 3, arrived := [0, 1] })] };
      let b := sget {} s.bars (s.barOf 2 1);
      b.arrived ≠ [] ∧ b.n = 3 ∧ b.n ≠ 2 ∧ b.arrived.length + 1 = 3) ∧
    (let s : State := { ({} : State) with bars := [(({} : State).barOf 2 1, { n := 3, arrived := [0] })] };
      let b := sget {} s.bars (s.barOf 2 1);
      b.arrived ≠ [] ∧ b.n = 3 ∧ b.arrived.length + 1 ≠ 3) := by decide +kernel

/-- Operands of LAUNCH (a1 to a3), HEAP.PUSH (a4, a5) and HEAP.POP (a6, a7). -/
def work : State := regs [(.a, 1, 0x1000400), (.a, 2, 0x000101000100), (.a, 3, 0x2008), (.a, 4, 0x10000), (.a, 5, 0xFFFF8),
  (.a, 6, 0xFFDF8), (.a, 7, 64)]
/-- O13. -/
theorem witness_WorkRequests : Acts work .always ∧ work.rdPois .a 1 = false ∧ work.rdPois .a 2 = false ∧ work.rdPois .a 3 = false ∧
    work.iss.pre.req = none ∧ work.iss.pre.ans = none ∧
    (let desc := work.rd .a 1; let dims := work.rd .a 2; let fin := work.rd .a 3;
      let nx := (dims.extractLsb' 0 16).toNat; let ny := (dims.extractLsb' 16 16).toNat; let nz := (dims.extractLsb' 32 16).toNat;
      desc.toNat % 1024 = 0 ∧ fin.toNat % 8 = 0 ∧ desc.toNat < 2 ^ 48 ∧ dims.toNat < 2 ^ 48 ∧ nx ≠ 0 ∧ ny ≠ 0 ∧ nz ≠ 0 ∧
        nx * ny * nz ≤ 2 ^ 24) ∧
    ((work.rd .a 4).extractLsb' 16 16).toNat ≠ 0 ∧ (work.rd .a 5).toNat % 8 = 0 ∧ (work.rd .a 5).toNat + 8 ≤ 2 ^ 20 ∧
    (work.rd .a 7).toNat ≤ 64 ∧ (work.rd .a 6).toNat % 8 = 0 ∧ (work.rd .a 6).toNat + 8 * (1 + (work.rd .a 7).toNat) ≤ 2 ^ 20 ∧
    (stOf { ({} : Core) with ans := some .accepted }).iss.pre.ans = some .accepted ∧
    (stOf { ({} : Core) with ans := some .limit }).iss.pre.ans = some .limit ∧
    (stOf { ({} : Core) with ans := some .served }).iss.pre.ans = some .served := ⟨acts_always _, by decide +kernel⟩
/-- O14: a predicate that reads false, and a poisoned one. -/
theorem witness_PredicateField : (let i := Instr.add .sa (.whenSet 1) 5 1 2 false .i64; i.slot? = some .sa ∧
      encode i = some 0x00450880 ∧ (0x00450880#32).extractLsb' 21 5 = (Pred.whenSet 1).code ∧
      predSet.iss.pre.predPois (.whenSet 1) = false ∧ predSet.iss.pre.predVal (.whenSet 1) = false) ∧
    predReg? (.whenSet 1) = some 1 ∧ (stOf (({} : Core).setPred 1 false true)).iss.pre.pPois.getLsbD 1 = true := by decide +kernel
/-- O15: an instruction of each slot answers a next state. -/
theorem witness_ComputeFormsFrame : (Instr.add .sa .always 5 1 2 false .i64).slot? = some .sa ∧
    (Instr.vadd .always 1 2 3).slot? = some .vec ∧ (Instr.xsClr .always 0).slot? = some .xps ∧ (Instr.mxClr .always 0 1).slot? = some .mat ∧
    (∃ t, exec (.add .sa .always 5 1 2 false .i64) (regs []) = .next t) ∧ ∃ t, exec (.mxClr .always 0 1) (regs []) = .next t :=
  ⟨rfl, rfl, rfl, rfl, ⟨_, rfl⟩, ⟨_, rfl⟩⟩
/-- O16. -/
theorem witness_ControlFormsFrame : ∃ t, exec (.br .always 4) (regs []) = .next t := ⟨_, rfl⟩
/-- O17: each kind of result in its last tick, and one before it. -/
theorem witness_ResultsLand :
    (∀ p ∈ [Payload.scalar .a 5 7, .pred 1 true, .row 3 {}, .list 2 {}],
      let k : Core := { ({} : Core) with infl := [{ inflight 1 .no with pay := p }] };
      k.seq.kind = .idle ∧ k.infl = [{ inflight 1 .no with pay := p }]) ∧
    2 ≤ (inflight 2 .no).r ∧ (inflight 1 .no).r = 1 := by decide +kernel
/-- O18: an alignment fault, and a failed bound check. -/
theorem witness_FaultsOfABundle : (let s : State := { ({} : State) with iss := { faults := [⟨8, 5, 7, 1, 0, 0⟩, ⟨7, 3, 6, 0, 0, 0⟩] } };
      worstFault s.iss.faultsNow = some ⟨7, 3, 6, 0, 0, 0⟩ ∧ (6 : BitVec 8) ≠ 9 ∧ (s.core 0).creq = false ∧ (s.core 0).dataHere = true) ∧
    ({ ({} : Core) with infl := [inflight 3 .mem] } : Core).dataHere = false ∧
    worstFault [⟨9, 6, 9, 0, 0, 0⟩] = some ⟨9, 6, 9, 0, 0, 0⟩ := by decide +kernel
/-- O19: a bundle that commits and one that freezes, from reset. -/
theorem witness_HowABundleEnds : (let s : State := {};
      s.iss.faults = [] ∧ (s.core 0).req = none ∧ s.iss.fin = none ∧ s.iss.hold = none ∧ (s.core 0).creq = false ∧ (s.core 0).preq = false ∧
      s.iss.opsel = none ∧ s.iss.wfsr = none ∧ s.iss.wpfile = none ∧ s.iss.clrMark = false) ∧
    (({} : State).holdFor .drain).iss.hold = some .drain ∧ (({} : State).holdFor .drain).iss.newReq = none := by decide +kernel
/-- Core 0 at the end of a marked bundle, with a cancel or a pre-emption that waits, or neither. -/
def ending (creq preq : Bool) (fin : Option TaskEnd) : State :=
  { (({} : State).setCore 0 { ({} : Core) with st := .running, task := some 4, creq := creq, preq := preq }) with iss := { safe := true, fin := fin } }
/-- O19: a cancel, a pre-emption with a slot, DONE, ABORT and TRAP at a marked bundle; TRAP before a load's data has come. -/
theorem witness_HowABundleEnds_ends :
    (let k := fun s : State => s.iss.commits 0 (s.corePart 0).opcap (s.core 0);
      (k (ending true false none)).creq = true ∧
      (let s := ending false true none; s.iss.fin = none ∧ s.iss.safe = true ∧ (k s).creq = false ∧ (k s).preq = true ∧ (s.setCore 0 (k s)).slotReserved 0 = true) ∧
      (∀ f ∈ [TaskEnd.done, .abort 9, .trap 7], (ending false false (some f)).iss.fin = some f ∧ (k (ending false false (some f))).creq = false ∧
        (k (ending false false (some f))).dataHere = true) ∧
      (({ (k (ending false false none)) with infl := [inflight 3 .mem] } : Core).dataHere = false)) := by decide +kernel
/-- O19: a word of no instruction in the CTL slot. -/
theorem witness_HowABundleEnds_illegal : (let k := (State.reset.withFetchWord 32 0xF8000000).core 0;
      k.awaitsData = false ∧ k.bubble = 0 ∧ k.waitc = none ∧ k.wdog < 65536 ∧ k.dataHere = true) ∧
    ∃ e, decodeBundle ((State.reset.withFetchWord 32 0xF8000000).core 0).fetchWord 0 = .error e := ⟨by decide +kernel, ⟨_, rfl⟩⟩
/-- O20: a core that has the turn, with a bundle of one slot. -/
theorem witness_StepRuns : (let s := State.reset.withFetchWord 32 0x80051234; let k := s.core s.turn;
      s.soft = [] ∧ s.agenda = [] ∧ k.st = .running ∧ k.wait = none ∧ k.awaitsData = false ∧ k.bubble = 0 ∧ k.waitc = none ∧
      k.wdog < 65536 ∧ k.settling = false ∧ k.tick.toNat % 64 ≠ 63 ∧
      decodeBundle k.fetchWord k.pc = .ok ⟨none, false, false, 20, [(.sb, .movi .sb .always 5 0x1234)], [0, 0, 0]⟩) ∧
    (Instr.coreRetest 3).isEvent = true ∧ ({ ({} : State) with booted := true } : State).happens (.coreRetest 3) = true ∧
    ({ ({} : State) with booted := true, slp := .asleep } : State).happens (.coreRetest 3) = false ∧
    ({} : State).happens (.coreRetest 3) = false ∧ ({} : State).booted = false ∧ ({ ({} : State) with off := true } : State).off = true ∧
    ({} : State).off = false ∧ ({ ({} : State) with booted := true } : State).booted = true ∧ ({} : State).slp = .running ∧
    ∃ t, exec (.coreRetest 3) { ({} : State) with agenda := [], iss := {} } = .next t :=
  ⟨by and_intros <;> first | rfl | decide +kernel, rfl, by decide +kernel, by decide +kernel, by decide +kernel, rfl, rfl, rfl, rfl, rfl, ⟨_, rfl⟩⟩

/-- Rows of each class: v1, v2 and v3 FP32, v4 and v5 INT8, v6 and v7 Index, v8 and v9 lane masks, v10 INT4, v11 TF6, v12 Poison, v13
of a reserved tag, v14 BF16, v15 past the bound of thr. -/
def mixed : State := rowsOf [(1, rowOf 1 0 0x3F800000), (2, rowOf 1 0 0x40000000), (3, rowOf 1 0 0), (4, rowOf 8 0 0x0102), (5, rowOf 8 0 0xFF),
  (6, rowOf 13 0 3), (7, rowOf 13 0 5), (8, rowOf 12 0 1), (9, rowOf 12 0 2), (10, rowOf 9 0 0x81), (11, rowOf 5 0 7),
  (12, rowOf 14 0x7C00 0), (13, rowOf 11 0 0), (14, rowOf 2 0 0x3F80), (15, rowOf 1 0x7C00 0x3F800000)]
/-- O22. -/
theorem witness_RowFloatArithmetic : Acts mixed .always ∧ tagFmt (mixed.rowRd 1).tag = some .fp32 ∧
    (mixed.rowRd 2).tag = (mixed.rowRd 1).tag ∧ (mixed.rowRd 3).tag = (mixed.rowRd 1).tag := ⟨acts_always _, by decide +kernel⟩
/-- O23: rows of an integer tag, of Index, of a floating tag and lane masks. -/
theorem witness_RowIntegerLogicShift : Acts mixed .always ∧ (mixed.rowRd 4).tag = 8 ∧ (mixed.rowRd 5).tag = 8 ∧ (mixed.rowRd 6).tag = 13 ∧
    (mixed.rowRd 7).tag = 13 ∧ tagFmt (mixed.rowRd 11).tag = some .tf6 ∧ (mixed.rowRd 8).tag = 12 ∧ (mixed.rowRd 9).tag = 12 ∧
    (mixed.rowRd 10).tag = 9 := ⟨acts_always _, by decide +kernel⟩
/-- O24: operands of each instruction, the last lane of a row, and a bound that passes and one that fails. -/
theorem witness_RowMovesAndMetadata : Acts mixed .always ∧ (mixed.rowRd 1).tag = 1 ∧ (mixed.rowRd 2).tag = 1 ∧ (mixed.rowRd 8).tag = 12 ∧
    (mixed.rowRd 9).tag = 12 ∧ mixed.rdPois .a 1 = false ∧ (31 : BitVec 7).toNat < tagLanes 1 ∧ (127 : BitVec 7).toNat < tagLanes 9 ∧
    127 < 1024 / 8 ∧ (mixed.rowRd 5).tag = 8 ∧ (mixed.rowRd 10).tag = 9 ∧ (mixed.rowRd 1).boundFails mixed.iss.pre.thr = false ∧
    (mixed.rowRd 15).boundFails mixed.iss.pre.thr = true := ⟨acts_always _, by decide +kernel⟩
/-- O25. -/
theorem witness_RowFunctionsAndReductions : Acts mixed .always ∧ tagFmt (mixed.rowRd 1).tag = some .fp32 ∧ tagF (mixed.rowRd 1).tag = true ∧
    tagI (mixed.rowRd 4).tag = true ∧ (mixed.rowRd 6).tag = 13 := ⟨acts_always _, by decide +kernel⟩
/-- O26: the last part of a widening and of a narrowing, and the parameters of VQUANT into TF8 and INT4 rows. -/
theorem witness_RowConversions : Acts mixed .always ∧ (mixed.rowRd 4).tag = 8 ∧
    3 < max (tagLanes 8) (tagLanes 1) / min (tagLanes 8) (tagLanes 1) ∧ 1 < max (tagLanes 1) (tagLanes 2) / min (tagLanes 1) (tagLanes 2) ∧
    tagFmt (mixed.rowRd 1).tag = some .fp32 ∧ mixed.rdPois .a 1 = false ∧
    (let v : Word := 0x1C43F800000; v.extractLsb' 32 4 = 4 ∧ (v.extractLsb' 38 3).toNat = 7 ∧
      ¬ 7 < max (tagLanes 1) (tagLanes 4) / min (tagLanes 1) (tagLanes 4)) ∧
    (let v : Word := 0xC43F800000; v.extractLsb' 32 4 = 4 ∧ (v.extractLsb' 38 3).toNat < max (tagLanes 1) (tagLanes 4) / min (tagLanes 1) (tagLanes 4)) :=
  ⟨acts_always _, by decide +kernel⟩
/-- O27: a reserved tag, unequal tags, a tag that is not accepted, and a Poison row beside a good one. -/
theorem witness_RowTagChecks : Acts mixed .always ∧ (mixed.rowRd 13).tag = 11 ∧ (mixed.rowRd 1).tag ≠ (mixed.rowRd 4).tag ∧
    (mixed.rowRd 8).tag = 12 ∧ (mixed.rowRd 12).tag = 14 := ⟨acts_always _, by decide +kernel⟩

/-- Core 0 with BF16 rows v0 to v3, FP32 rows v4 to v7 and one v8 past the bound, and a busy weight bank w1. -/
def matrix : State := stOf { ((List.range 4).foldl (fun (k : Core) i =>
  (k.setRow (BitVec.ofNat 7 i) (rowOf 2 0 0x3F80)).setRow (BitVec.ofNat 7 (4 + i)) (rowOf 1 0 0)) {}).setRow 8 (rowOf 1 0x7C00 0x3F800000) with
  infl := [{ inflight 3 .no with pay := .beat 9 false (Vector.replicate 32 0) 0 0 true, slot := 6 }] }
/-- O28. -/
theorem witness_MatrixInstructions : (Acts matrix .always ∧ matrix.iss.pre.seq.kind = .idle ∧
      (∀ r ∈ matrix.rowsRd 0 4, r.tag = 2 ∨ r.tag = 14) ∧ (2 : BitVec 4) ∈ [(2 : BitVec 4), 3, 4, 5, 8] ∧ bankTag matrix.iss.pre.w0.fmt = 0 ∧
      (∀ i, i < 4 → matrix.iss.pre.beatPending (BitVec.ofNat 7 (4 + i)) = false ∧ (matrix.rowRd (BitVec.ofNat 7 (4 + i))).tag = 1) ∧
      matrix.iss.pre.bankBusy false = false ∧ matrix.iss.pre.bankBusy true = true ∧
      (∀ r ∈ matrix.rowsRd 4 4, (r.tag = 1 ∨ r.tag = 14) ∧ r.boundFails matrix.iss.pre.thr = false) ∧
      (∀ r ∈ matrix.rowsRd 7 2, r.tag = 1 ∨ r.tag = 14) ∧ (∃ r ∈ matrix.rowsRd 7 2, r.boundFails matrix.iss.pre.thr = true) ∧
      matrix.rdPois .a 1 = false) ∧
    (stOf { ({} : Core) with seq := { kind := .clr, n := 2 } }).iss.pre.seq.kind ≠ .idle := ⟨⟨acts_always _, by decide +kernel⟩, by decide +kernel⟩
/-- A core with a BF16 activation row in v1, a Poison row in v2 and a BF16 weight bank. -/
def beaten : Core := { ((({} : Core).setRow 1 (rowOf 2 0 0x3F80)).setRow 2 ⟨0, 14, 0x7C00⟩) with w0 := { ({} : Bank) with fmt := tagBank 2 } }
/-- O29: each kind of sequence, the last weight row and one before it, and a row that a beat may be added to. -/
theorem witness_MatrixBeats : (∀ x ∈ [SeqKind.idle, .mac, .maca, .drain, .clr, .wload], ∃ k : Core, k.seq.kind = x) ∧
    (let q : Seq := { kind := .wload, n := 2, next := 0 }; q.next + 1 < q.n) ∧
    (let q : Seq := { kind := .wload, n := 2, next := 1 }; q.n ≤ q.next + 1) ∧ (rowOf 1 0 0).tag ≠ 14 ∧
    (let k := beaten; ¬ ((k.v.toList.getD 1 {}).tag = 14 ∨ k.w0.fmt = .poison) ∧ (k.v.toList.getD 1 {}).tag = 2 ∧ bankTag k.w0.fmt = 2 ∧
      (k.v.toList.getD 2 {}).tag = 14) :=
  ⟨fun x _ => ⟨{ ({} : Core) with seq := { kind := x } }, rfl⟩, by decide +kernel⟩

/-- Control bytes 0, 1, 2, … 127. -/
def ascending : Row := rowOf 8 0 ((List.range 128).foldr (fun i a => a * 256 + i) 0)
/-- Core 0 with an INT8 row, an FP32 row and the ascending control row, and amounts 127 and 31. -/
def crossing : State := stOf ((((({} : Core).setRow 1 (rowOf 8 0 5)).setRow 2 ascending).setReg .a 2 127 false).setReg .a 1 31 false)
/-- O30: a control row that is a permutation of the lanes; one that names a lane too many for 32 lanes; one with a collision; the last
lane of an INT8 row and of an FP32 row, and an amount past it. -/
theorem witness_CrossbarMoves : Acts crossing .always ∧ (crossing.rowRd 1).tag = 8 ∧ (crossing.rowRd 2).tag = 8 ∧
    (∀ i, i < 128 → laneAt (crossing.rowRd 2).bits 8 i = i) ∧ laneAt ascending.bits 8 32 = 32 ∧
    laneAt (rowOf 8 0 0).bits 8 0 = laneAt (rowOf 8 0 0).bits 8 1 ∧ crossing.rdPois .a 2 = false ∧
    (crossing.rd .a 2).toNat < tagLanes 8 ∧ (crossing.rd .a 1).toNat < tagLanes 1 ∧ tagLanes 1 ≤ (crossing.rd .a 2).toNat :=
  ⟨acts_always _, by decide +kernel⟩

/-- Core 0 with an FP32 row and an Index row, two candidates in list 0, and in its scratchpad a sampling record at 0 (seed 1,
temperature 1, top-p 1), a penalty record at 64 (one entry), and a mask image at 128 (V = 16). -/
def sampling : State := stOf { (((({} : Core).setRow 1 (rowOf 1 0 0x3F800000)).setRow 2 (rowOf 13 0 3)).setRow 3 (rowOf 1 0 0x3F800000)).setReg .b 2 0x500000000 false with
  cl := Vector.ofFn fun i => if i = 0 then ⟨[⟨0x40000000, 7⟩, ⟨0x3F800000, 9⟩], false⟩ else ⟨[], i == 3⟩
  spad := [(0, 1), (10, 0x80), (11, 0x3F), (14, 0x80), (15, 0x3F), (64, 1), (70, 0x80), (71, 0x3F), (80, 7), (84, 1), (128, 16), (136, 0x80)] }
/-- What a record reads as, where it reads well. -/
def okRec {α : Type} : RecRead α → Option α
  | .ok x => some x
  | .bad _ => none
  | .poison => none
/-- O31. -/
theorem witness_ListsAndSampler : Acts sampling .always ∧ (sampling.rowRd 1).tag = 1 ∧ (sampling.rowRd 2).tag = 13 ∧
    sampling.rdPois .a 1 = false ∧ (sampling.rd .a 1).toNat < 2 ^ 20 ∧ (okRec (sampling.iss.pre.penRec 64)).isSome ∧
    (okRec (sampling.iss.pre.maskImage 128)).isSome ∧ (okRec (sampling.iss.pre.sampRec 0)).isSome ∧
    sampling.rdPois .b 2 = false ∧ sampling.rdPois .b 3 = false ∧ (sampling.rd .b 2).extractLsb' 28 4 = 0#4 ∧
    (sampling.rd .b 2).extractLsb' 0 20 = 0#20 ∧ (sampling.rd .b 2).extractLsb' 20 12 = 0#12 ∧
    (sampling.iss.pre.cl.get 0).ents ≠ [] ∧ (sampling.iss.pre.cl.get 0).poison = false ∧ (sampling.iss.pre.cl.get 1).ents = [] ∧
    (sampling.iss.pre.cl.get 3).poison = true ∧ (sampling.rowRd (2 + 1)).tag = 1 ∧
    unitRange (value .fp32 (laneAt (sampling.rowRd 3).bits 32 0)) = true :=
  ⟨acts_always _, by decide +kernel⟩

/-- A window of everything, readable and writable, sealed under key slot 1. -/
def window : Word := 0xE0DFFFFFF8000000
/-- Masters with an open entry at target 0; key slot 1 holds key 7 of generation 3; tile 5 is sealed under it and holds bytes. -/
def opened (mids : List Nat) : State := { ({} : State) with
  friskets := mids.foldl (fun m i => sset 0 m (friskKey 0 i 0) window) []
  keys := (({} : State).keys).set 1 { key := some 7, gen := 3 }
  recs := [(5, { sl := .sealed 7, keygen := 3, poison := false, version := 5 })]
  mem := [(0x5010, 1), (0x5011, 2)] }
/-- A page of 1 MiB from 2^20 on at the bottom of processing memory. -/
def map1M : TlbEnt := { part := 0, vbase := 2 ^ 20, size := 2 ^ 20, dbase := 0, mtype := 0, r := true, w := true }
/-- A core of partition 0 whose TLB maps that page. -/
def mapped (l : List (Cluster × SReg × Word)) : Core := { coreOf l with tlb := [map1M], st := .running }
/-- That core, issuing, over the open memory. -/
def nearSt (l : List (Cluster × SReg × Word)) : State := { ((opened [0]).setCore 0 (mapped l)) with
  iss := { pre := mapped l }, parts := (({} : State).parts).set 0 { pcore := 1 } }

/-- Scratchpad lines: 0 FP32, 1 Poison, 2 TF6; registers at the last 8 bytes, the last line, line 1 and the last metadata line; an
Index row with one lane and one with none. -/
def padded : State := stOf { ((coreOf [(.a, 1, 0xFFFF8), (.a, 2, 0xFFF80), (.a, 3, 0x80), (.a, 4, 0xFFFFF), (.a, 5, 0x100), (.a, 6, 0xFFFA0)]).setRow 1
    (rowOf 13 0 (2 ^ 1024 - 2 ^ 32))).setRow 2 (rowOf 13 0 (2 ^ 1024 - 1)) with
  smeta := [(0, 0x10005), (1, 0xE0000), (2, 0x50001)] }
/-- O32: the last aligned word, line and byte; a Poison line; a TF6 line; strides of zero; a gather of one lane and of none. -/
theorem witness_ScratchpadLoads : Acts padded .always ∧ padded.rdPois .a 1 = false ∧ (padded.rd .a 1).toNat % 8 = 0 ∧
    (padded.rd .a 1).toNat + 8 ≤ 2 ^ 20 ∧ (padded.rd .a 4).toNat < 2 ^ 20 ∧ (padded.rd .a 2).toNat % 128 = 0 ∧
    (padded.rd .a 2).toNat + 128 ≤ 2 ^ 20 ∧ metaTag (padded.padMeta 0xFFF80) ∉ [5, 10, 11, 15] ∧
    padded.padPois 0x80 1 = true ∧ metaTag (padded.padMeta 0x100) = 5 ∧ (padded.rd .a 5).toNat % 32 = 0 ∧
    (padded.rd .a 5).toNat + 96 ≤ 2 ^ 20 ∧ (padded.rowRd 1).tag = 13 ∧ (∀ j, j < 32 → laneAddr 0 (padded.rowRd 2) 1 j = none) ∧
    laneAddr 0xFFFFC (padded.rowRd 1) 1 0 = some 0xFFFFC ∧ (∀ j, j < 32 → 0 < j → laneAddr 0xFFFFC (padded.rowRd 1) 1 j = none) :=
  ⟨acts_always _, by decide +kernel⟩
/-- Rows to store: v3 INT32, v4 TF6; v5 an Index row of 32 empty lanes but lane 0. -/
def storing : State := stOf (((((coreOf [(.a, 1, 0xFFFF8), (.a, 2, 0xFFF80), (.a, 3, 0xFFFA0), (.a, 4, 5), (.a, 5, 0)]).setRow 3 (rowOf 6 0 7)).setRow 4
  (rowOf 5 0 3)).setRow 5 (rowOf 13 0 (2 ^ 1024 - 2 ^ 32))))
/-- O33. -/
theorem witness_ScratchpadStores : Acts storing .always ∧ storing.rdPois .a 1 = false ∧ storing.rdPois .a 4 = false ∧
    (storing.rd .a 1).toNat % 8 = 0 ∧ (storing.rd .a 1).toNat + 8 ≤ 2 ^ 20 ∧ (storing.rowRd 3).tag ∉ [5, 10, 11, 14, 15] ∧
    (storing.rowRd 3).boundFails storing.iss.pre.thr = false ∧ (storing.rd .a 2).toNat % 128 = 0 ∧ (storing.rd .a 2).toNat + 128 ≤ 2 ^ 20 ∧
    (storing.rowRd 4).tag = 5 ∧ (∀ j, j < 128 → laneAt (storing.rowRd 4).bits 8 j < 64) ∧ (storing.rd .a 3).toNat % 32 = 0 ∧
    (storing.rd .a 3).toNat + 96 ≤ 2 ^ 20 ∧ (storing.rowRd 5).tag = 13 ∧ laneAddr 0xFFFFC (storing.rowRd 5) 0 0 = some 0xFFFFC ∧
    (∀ j, j < 32 → 0 < j → laneAddr 0xFFFFC (storing.rowRd 5) 0 j = none) ∧ storing.padPois 0xFFFF8 8 = false ∧
    BitVec.ofNat 64 (storing.padNat 0xFFFF8 8) = storing.rd .a 5 ∧ BitVec.ofNat 64 (storing.padNat 0xFFFF8 8) ≠ storing.rd .a 4 ∧
    padded.padPois 0x80 8 = true := ⟨acts_always _, by decide +kernel⟩

/-- A line is in clear under a key, from tests. -/
theorem clear_of {s : State} {win : Word} {a : Nat} (key : Nat) (h : (let r := s.tileRec (a / 4096); r.poison = false ∧ r.sealPois = false ∧
    r.sealEsc = r.esc ∧ s.poisLines.contains (a / 64) = false ∧ r.sl = .sealed key ∧ (s.keySlot (windowSlot win)).keyFor r.keygen = some key)) : s.ClearFor win a :=
  ⟨h.1, h.2.1, h.2.2.1, h.2.2.2.1, key, h.2.2.2.2⟩

/-- An address of tile 5 that core 0 may read and write. -/
def nearA : State := nearSt [(.a, 1, 0x105010), (.a, 2, 0x0201), (.a, 3, 9)]
/-- The access of its eight bytes neither faults nor waits. -/
theorem near_a (r w : Bool) : nearA.Near 0x105010 0x5010 8 r w := by
  refine ⟨⟨⟨map1M, ?_⟩, ?_⟩, ?_⟩ <;> and_intros <;> first | exact fun _ _ _ => rfl | exact fun _ => ⟨rfl, rfl⟩ | exact fun _ => by decide +kernel | decide +kernel
/-- Tile 5 is delivered in clear. -/
theorem clear_a : nearA.ClearFor window 0x5010 := clear_of 7 (by decide +kernel)
/-- O34. -/
theorem witness_ProcessingMemoryAccess : Acts nearA .always ∧ nearA.rdPois .a 1 = false ∧ (nearA.rd .a 1).toNat = 0x105010 ∧
    nearA.Near 0x105010 0x5010 8 true true ∧ nearA.Calm ∧ nearA.ClearFor window 0x5010 ∧ nearA.frisk 0 0x5010 8 true false = some window ∧
    nearA.frisk 0 0x5010 1 true true = some window ∧ (nearA.keySlot (windowSlot window)).key.isSome ∧
    nearA.exhausted (windowSlot window) 5 = false ∧ nearA.rdPois .a 2 = false ∧
    BitVec.ofNat 64 (ofLe ((List.range 8).map fun i => sget 0 nearA.mem (0x5010 + i))) = nearA.rd .a 2 ∧
    BitVec.ofNat 64 (ofLe ((List.range 8).map fun i => sget 0 nearA.mem (0x5010 + i))) ≠ nearA.rd .a 3 :=
  ⟨acts_always _, by decide +kernel, by decide +kernel, near_a _ _, by unfold State.Calm; decide +kernel, clear_a, by decide +kernel⟩
/-- The same with a load of the host window pending that later loads await (`true`), or a store to another tile. -/
def heldA (ld : Bool) : State :=
  let k := nearA.core 0
  let m : Core := if ld then { k with infl := [{ inflight 3 (.host none) with mark := { thenLoads := true } }] }
    else { k with stores := [{ noStore with bytes := [(0x6010, 1)], thenLoads := true }] }
  { nearA.setCore 0 m with iss := { pre := m } }
/-- O34: accesses that wait for a marked load, and for a marked store. -/
theorem witness_ProcessingMemoryAccess_held : (heldA true).Near 0x105010 0x5010 8 true false ∧ (heldA false).Near 0x105010 0x5010 8 true false ∧
    (∃ x ∈ (heldA true).iss.pre.pendingLoads, x.mark.thenLoads = true) ∧ (heldA false).iss.pre.pendingLoads = [] ∧
    (∃ x ∈ (heldA false).iss.pre.stores, x.thenLoads = true) ∧ (heldA false).iss.fences = [] ∧ (heldA false).newStores = [] ∧
    ∀ x ∈ (heldA false).iss.pre.stores, ∀ b ∈ x.bytes, ∃ a, (heldA false).linearOf b.1 = some a ∧ a / 4096 ≠ 0x5010 / 4096 := by
  refine ⟨⟨⟨⟨map1M, ?_⟩, ?_⟩, ?_⟩, ⟨⟨⟨map1M, ?_⟩, ?_⟩, ?_⟩, ?_, ?_, ?_, ?_, ?_, ?_⟩
  iterate 6 and_intros <;> first | exact fun _ _ _ => rfl | exact fun _ => ⟨rfl, rfl⟩ | exact fun _ => by decide +kernel | decide +kernel
  iterate 5 decide +kernel
  exact fun x hx b hb => ⟨0x6010, by simp_all [heldA, noStore]; decide +kernel⟩
/-- The address of tile 5's first line, and rows to store. -/
def nearR : State := nearSt [(.a, 1, 0x105000)]
/-- The two lines of a row there are near. -/
theorem near_row (r w : Bool) : nearR.NearUnits [(0x105000, 128)] [0x5000, 0x5040] r w := by
  refine ⟨by decide, fun x hx => ?_⟩
  have h : x = ((0x105000, 64), 0x5000) ∨ x = ((0x105040, 64), 0x5040) := by simpa [show lineCuts [(0x105000, 128)] = [(0x105000, 64), (0x105040, 64)] by decide] using hx
  rcases h with rfl | rfl <;> refine ⟨⟨map1M, ?_⟩, ?_⟩ <;> and_intros <;>
    first | exact fun _ _ _ => rfl | exact fun _ => ⟨rfl, rfl⟩ | exact fun _ => by decide +kernel | decide +kernel
/-- And in clear. -/
theorem clear_row : nearR.ClearUnits [(0x105000, 128)] [0x5000, 0x5040] := by
  intro x hx
  have h : x = ((0x105000, 64), 0x5000) ∨ x = ((0x105040, 64), 0x5040) := by simpa [show lineCuts [(0x105000, 128)] = [(0x105000, 64), (0x105040, 64)] by decide] using hx
  rcases h with rfl | rfl <;> exact ⟨window, by decide +kernel, clear_of 7 (by decide +kernel)⟩
/-- O34: a row of a tile, its record, and a row to store. -/
theorem witness_ProcessingMemoryAccess_rows : Acts nearR .always ∧ nearR.rdPois .a 1 = false ∧
    (nearR.NearUnits [(0x105000, 128)] [0x5000, 0x5040] true false ∧ nearR.ClearUnits [(0x105000, 128)] [0x5000, 0x5040]) ∧ nearR.Calm ∧
    nearR.NearUnits [(0x105000, 128)] [0x5000, 0x5040] false true ∧ nearR.NearLine 0x105000 0x5000 1 true false ∧
    (nearR.rd .a 1).toNat % 128 = 0 ∧ (nearR.tileRec 5).ftag ∉ [5, 10, 11, 14, 15] ∧ (nearR.rowRd 0).tag ∉ [5, 10, 11, 14, 15] ∧
    (nearR.rowRd 0).boundFails nearR.iss.pre.thr = false := by
  refine ⟨acts_always _, by decide +kernel, ⟨near_row _ _, clear_row⟩, by unfold State.Calm; decide +kernel, near_row _ _, ⟨⟨map1M, ?_⟩, ?_⟩, by decide +kernel⟩ <;>
    and_intros <;> first | exact fun _ => ⟨rfl, rfl⟩ | exact fun _ => by decide +kernel | decide +kernel | (intro a h1 h2; rfl)
/-- One pending store of core 0. -/
def waitingStore : State := stOf { ({} : Core) with stores := [noStore] }
/-- O35: no store and one; a poisoned and a clean base; a misaligned offset; an address from 2^48 on; a Poison row. -/
theorem witness_MemoryOrderAndFaults : (Acts padded .always ∧ padded.iss.pre.stores = [] ∧ padded.iss.pre.pendingLoads = [] ∧ padded.rdPois .a 1 = false ∧
      ((regs [(.a, 1, 0xFFFF7)]).rd .a 1).toNat % 8 ≠ 0 ∧ ((regs [(.a, 1, 0xFFFF7)]).rd .a 1).toNat + 8 ≤ 2 ^ 20) ∧
    waitingStore.iss.pre.stores ≠ [] ∧ ({ ({} : Core) with infl := [inflight 3 (.host none)] } : Core).pendingLoads ≠ [] ∧
    poisA3.rdPois .a 3 = true ∧ 2 ^ 48 ≤ ((regs [(.a, 1, 0x1000000000000)]).rd .a 1).toNat ∧
    ((regs [(.a, 1, 0x1000000000000)]).rd .a 1).toNat % 8 = 0 ∧ (mixed.rowRd 12).tag = 14 :=
  ⟨⟨acts_always _, by decide +kernel⟩, by decide +kernel⟩
/-- O36. -/
theorem witness_MemoryFormsFrame : (Instr.st .ma .always 4 1 .i64 0).slot? = some .ma ∧ (Instr.vld .mb .always 4 1 0).slot? = some .mb ∧
    (∃ t, exec (.st .ma .always 4 1 .i64 0) storing = .next t) ∧ ∃ t, exec (.vld .mb .always 4 1 0) storing = .next t :=
  ⟨rfl, rfl, ⟨_, rfl⟩, ⟨_, rfl⟩⟩
/-- A record of event 1 that waits in every ring. -/
def blocked : State := { nearA with
  rings := Vector.replicate 12 { pend := [{ cause := 1 }] }, devRing := { pend := [{ cause := 1 }] } }
/-- O37. -/
theorem witness_StoresAndCommandsFrame : blocked.NoRecords ∧ (blocked.core 0).stores = blocked.iss.pre.stores ∧
    (∃ t, exec (.amo .ma .always 2 1 3 .add .rlx false) blocked = .next t) ∧ ∃ t, exec (.cpFill .always 0 .a 1 2 3 false) blocked = .next t :=
  ⟨⟨rfl, fun r => by cases r with
    | chase h => revert h; decide +kernel
    | device => decide +kernel⟩, by decide +kernel, ⟨_, rfl⟩, ⟨_, rfl⟩⟩

/-- From a statement about offsets to one about addresses. -/
theorem over_range {P : Nat → Prop} {a n : Nat} (h : ∀ d, d < n → P (a + d)) (b : Nat) (h1 : a ≤ b) (h2 : b < a + n) : P b := by
  have := h (b - a) (by omega)
  rwa [Nat.add_sub_cancel' h1] at this

/-- A copy descriptor: 4-byte elements, 4 by 3, with strides of 0x100 and 0x40. -/
def descriptor : List Byte := [2, 2] ++ leBytes 6 0 ++ leBytes 4 4 ++ leBytes 4 3 ++ leBytes 16 0 ++ leBytes 8 0x100 ++ leBytes 32 0 ++
  leBytes 8 0x40 ++ leBytes 48 0
/-- Operands of the copy commands, and of one into mapped memory (a7). -/
def copying : State := stOf { coreOf [(.a, 1, 0xFFF80), (.a, 2, 0x2000), (.a, 3, 0x80), (.a, 4, 0xD00000080), (.a, 5, 0xFFFC), (.a, 6, 4),
  (.a, 8, 0x800)] with spad := sputBytes [] 0x800 descriptor, sov := true }
/-- O38: copies at the end of the scratchpad and of a side, and from a readable byte of memory; a full context. -/
theorem witness_EngineCommands_copies : (Acts copying .always ∧ copying.rdPois .a 1 = false ∧ copying.rdPois .a 2 = false ∧
      copying.rdPois .a 3 = false ∧ (copying.rd .a 3).toNat % 8 = 0 ∧ (copying.rd .a 3).toNat ≤ 0xFFFFFFF8 ∧
      (copying.rd .a 1).toNat % 8 = 0 ∧ withinSpace (copying.rd .a 1).toNat 0x80 ∧ withinSpace (copying.rd .a 2).toNat 0x80 ∧
      copying.firstOk 0x2000 false false ∧ copying.firstOk 0xFFF80 true true ∧ (copying.iss.pre.ctx 2).cmds.length < 16) ∧
    ((copying.rd .a 8).toNat % 128 = 0 ∧ (copying.rd .a 8).toNat + 128 ≤ 2 ^ 20 ∧
      (match parseTensor (copying.iss.pre.spadRead 0x800 128) with
        | some d => d.operandOk 0x2000 d.runs.1 d.ss && d.operandOk 0x1000 d.runs.2 d.ds
        | none => false) = true) ∧
    ((copying.rd .a 4).extractLsb' 36 28 = 0 ∧ (copying.rd .a 4).extractLsb' 32 4 = 13) ∧
    (copying.iss.pre.sov = true ∧ (copying.rd .a 5).toNat % 4 = 0 ∧ 4 ≤ (copying.rd .a 6).toNat ∧
      (copying.rd .a 5).toNat + (copying.rd .a 6).toNat ≤ 2 ^ 16) ∧
    nearA.firstOk 0x105010 false false ∧
    16 ≤ ((stOf (({} : Core).setCtx 2 { icount := 16, cmds := List.replicate 16 ⟨1, .lin, 0, 0, 0, false, 0, false, []⟩ })).iss.pre.ctx 2).cmds.length :=
  by
  refine ⟨⟨acts_always _, ?_⟩, ?_, ?_, ?_, .inr ⟨by decide, map1M, ?_⟩, ?_⟩
  · unfold withinSpace State.firstOk; and_intros <;> first | exact .inl (by decide +kernel) | decide +kernel
  all_goals decide +kernel
/-- Group words of three engines and of engine 1023 with the highest landing base; operands of GE.BCAST at their ends. -/
def calling : State := regs [(.a, 1, 0x300020005), (.a, 2, 0xFF000), (.a, 3, 0xD00001000), (.a, 4, 0xFFE90001000003FF), (.a, 5, 0x1000), (.a, 6, 0xFFFF8)]
/-- O38. -/
theorem witness_EngineCommands_galley : (Acts calling .always ∧ calling.rdPois .a 1 = false ∧ calling.rdPois .a 2 = false ∧
      calling.rdPois .a 3 = false ∧ calling.iss.pre.gx.cmds.length < 16) ∧
    (let u := calling.rd .a 1; u.extractLsb' 10 6 = 0 ∧ u.extractLsb' 26 6 = 0 ∧ u.extractLsb' 43 1 = 0 ∧ u.extractLsb' 44 20 = 0 ∧
      (u.extractLsb' 32 11).toNat = 3 ∧ (u.extractLsb' 16 10).toNat = 2 ∧ ∀ j, j < 3 → calling.noEngine (5 + j * 2) = false) ∧
    (let w := calling.rd .a 3; w.extractLsb' 36 28 = 0 ∧ w.extractLsb' 28 4 = 0 ∧ w.extractLsb' 13 3 = 0 ∧ (w.extractLsb' 0 13).toNat = 4096 ∧
      w.extractLsb' 32 4 = 13 ∧ (calling.rd .a 2).toNat + 4096 ≤ 2 ^ 20) ∧
    (let u := calling.rd .a 4; (u.extractLsb' 0 10).toNat = 1023 ∧ (u.extractLsb' 32 11).toNat = 1 ∧ u.extractLsb' 43 1 = 0 ∧
      256 * (u.extractLsb' 52 12).toNat + 256 * 1 + 8 * (1 + (1 + 63) / 64) ≤ 2 ^ 20) ∧
    ((calling.rd .a 5).toNat % 4096 = 0 ∧ (calling.rd .a 6).toNat % 8 = 0 ∧ (calling.rd .a 6).toNat + 8 ≤ 2 ^ 20) :=
  ⟨⟨acts_always _, by decide +kernel⟩, by decide +kernel⟩

/-- A walk that succeeds, from a test of its answer. -/
theorem ok_of {α ε β : Type} (r : α × Except ε β) (h : (match r.2 with | .ok _ => true | .error _ => false) = true) : ∃ t e, r = (t, .ok e) := by
  obtain ⟨t, _ | e⟩ := r
  · simp at h
  · exact ⟨t, e, rfl⟩

/-- A read that succeeds, from a test of its answer. -/
theorem some_of {α β : Type} (r : α × Option β) (h : r.2.isSome = true) : ∃ t e, r = (t, some e) := by
  obtain ⟨t, _ | e⟩ := r
  · simp at h
  · exact ⟨t, e, rfl⟩

/-- A page table at 0x5000 whose entry 0 points to itself and whose entry 1 maps a 4 KiB page, for partition 0. -/
def tabled : State := { ((opened [0x06C]).setCore 0 {}) with
  mem := [(0x5000, 1), (0x5001, 0x50), (0x5008, 0xF)], parts := (({} : State).parts).set 0 { pcore := 1, ptroot := 0x5000 } }
/-- O39: each wait, each kind of late load, a TLB that holds the page and one that does not and whose walk succeeds. -/
theorem witness_WaitsAndWalksEnd :
    (let k : Core := { ({} : Core) with wait := some .maskw, req := some (.maskw 3 7) };
      k.wait = some .maskw ∧ k.req = some (.maskw (3 : Fin 16).val 7) ∧ k.ans = none) ∧
    (let k : Core := { ({} : Core) with wait := some .bar, req := some (.bar 1 2 3) };
      k.wait = some .bar ∧ k.req = some (.bar 1 2 3) ∧ k.ans = none) ∧
    (let k : Core := { ({} : Core) with infl := [inflight 2 .no, inflight 3 (.host (some .i8))] };
      k.infl = [inflight 2 .no] ++ inflight 3 (.host (some .i8)) :: [] ∧ (∀ x ∈ [inflight 2 .no], k.arrivable x = false) ∧
        k.arrivable (inflight 3 (.host (some .i8))) = true ∧ (∀ t da, (inflight 3 (.host (some .i8))).late ≠ .conf t da) ∧
        (inflight 3 (.host (some .i8))).mark.kids = [] ∧ k.st ∉ [.settling, .lost, .trapping] ∧ (inflight 3 (.host (some .i8))).late ≠ .mem) ∧
    ((nearA.core 0).tlbFind (nearA.partNum 0) 0x105010).isSome ∧ (tabled.core 0).tlbFind (tabled.partNum 0) 0x1000 = none ∧
    (tlbHit (({} : State).setChase 0 { tlb2 := [map1M] } |>.chase 0).tlb2 0 0x105010).isSome ∧ tlbHit (tabled.chase 0).tlb2 (tabled.partNum 0) 0x1000 = none ∧
    ∃ t e, tabled.walk (0x06C + 0) 0x1000 (4096 * ((tabled.corePart 0).ptroot.extractLsb' 12 36).toNat) (tabled.partNum 0) 4 = (t, .ok e) := by
  and_intros <;> first | exact ok_of _ (by decide +kernel) | exact fun _ _ h => by simp [inflight] at h | decide +kernel
/-- O39: a table in no open region that is read, and one in an open region; entries of each class: not valid, of a bad layout, a 4 KiB page, a page at a wrong level, a pointer
with a size code, a pointer. -/
theorem witness_WaitsAndWalksEnd_level : (∃ t bs, (tabled.recallRange 0x5008 8).readMem 0x06C 0x5008 8 = (t, some bs)) ∧ tabled.anyRegion 0x5008 = false ∧
    0x5008 = 0x5000 + 8 * (0x1000 / 2 ^ (12 + 9 * 0) % 512) ∧ ((tabled.setCore 0 { ({} : Core) with gx := { regions := [(0x5000, 0x1000)] } })).anyRegion 0x5008 = true ∧
    0x5000 < tabled.memTop ∧ tabled.memTop ≤ 2 ^ 40 ∧
    (let ok := fun e : Word => e.extractLsb' 60 4 = 0 ∧ e.extractLsb' 48 8 = 0 ∧ e.extractLsb' 6 6 = 0 ∧ e.extractLsb' 4 2 ≠ 3;
      (0 : Word).getLsbD 0 = false ∧ (0x31 : Word).getLsbD 0 = true ∧ ¬ ok 0x31 ∧ ok 0xF ∧ (0xF : Word).getLsbD 1 = true ∧
      ((0xF : Word).extractLsb' 56 4).toNat ≤ 8 ∧ ok 0x0F0000000000000F ∧ ((0x0F0000000000000F : Word).extractLsb' 56 4).toNat = 15 ∧
      ok 0x0100000000005001 ∧ (0x0100000000005001 : Word).getLsbD 1 = false ∧ ((0x0100000000005001 : Word).extractLsb' 56 4).toNat ≠ 0 ∧
      ok 0x5001 ∧ ((0x5001 : Word).extractLsb' 56 4).toNat = 0) :=
  ⟨some_of _ (by decide +kernel), by decide +kernel⟩

/-- A task of the first launch of job 0 of partition 0, Ready on chase 0, with one escalation relaunch. -/
def taskT : Task := ⟨0, 0, 0, 0, 0, 1, 2, 3, ⟨9, false, 0x40, true, true, 0x80, true, 5, 0x4000, 0x40000, 64, 77,
  [], []⟩, .ready, [], 1, 0, 0, some 0, false, none, none⟩
/-- O40: a ring with room, one without; a core past the watchdog; a stalled wait; an escalation that relaunches and one that ends. -/
theorem witness_CoreTrapsAndRecords :
    (let g : Ring := { lsz := 1 }; g.pend = [] ∧ g.room = true) ∧ (let g : Ring := { lsz := 1, wix := 32 }; g.pend = [] ∧ g.room = false) ∧
    (let k : Core := { ({} : Core) with st := .running, wdog := 65536 };
      k.st = .running ∧ k.awaitsData = false ∧ k.bubble = 0 ∧ k.waitc = none ∧ 65536 ≤ k.wdog ∧ k.markedNext = false ∧ k.creq = false ∧
      k.dataHere = true ∧ ({ k with infl := [inflight 3 .mem] } : Core).dataHere = false) ∧
    (let k : Core := { ({} : Core) with st := .running, wait := some .ifence };
      Wait.ifence ∈ [Wait.waittl, .wait, .ifence, .region, .drain] ∧ k.wait = some .ifence ∧ k.st = .running) ∧
    (let k : Core := { ({} : Core) with st := .escalating, task := some 4, escRec := some { cause := 9 } };
      let s : State := { (({} : State).setCore 0 k) with tasks := [(4, taskT)] };
      k.commandsDone = true ∧ k.stores = [] ∧ k.creq = false ∧ s.task? 4 = some taskT ∧ taskT.desc.esc = true ∧ k.relaunch = false ∧
      ({ cause := 9 } : TrapRec).region = false) ∧
    (let k : Core := { ({} : Core) with relaunch := true }; k.relaunch = true) := by decide +kernel

/-- Nothing waits at reset. -/
theorem quiet_reset : ({} : State).Quiet :=
  ⟨by intro q j; revert q j; decide +kernel, by intro i; cases i <;> first | rfl | (rename_i x; revert x; decide +kernel), rfl⟩
/-- The event unit over an open tile, which holds the ring of chase 0 and the device's. -/
def ringed : State := { opened [0x0F1] with rings := ({} : State).rings.set 0 { base := 0x5000 }, devRing := { base := 0x5800 } }
/-- A record's writing there makes no event. -/
theorem ring_open (i : RingId) (h : i = .chase 0 ∨ i = .device) : ringed.RingOpen i := by
  intro n m bs hb
  have h1 : ({ ringed with evseq := n, msix := m } : State).frisk = ringed.frisk := rfl
  have h2 : ({ ringed with evseq := n, msix := m } : State).linearOf = ringed.linearOf := rfl
  have h3 : ({ ringed with evseq := n, msix := m } : State).exhausted = ringed.exhausted := rfl
  have h4 : ({ ringed with evseq := n, msix := m } : State).fillCheck = ringed.fillCheck := rfl
  have h5 : ∃ a, (ringed.ring i).place = a ∧ ringed.frisk 0x0F1 a 64 true true = some window ∧ ringed.linearOf a = some a ∧
      ringed.exhausted (windowSlot window) (a / 4096) = false ∧ ringed.fillCheck (windowSlot window) (a / 4096) ≠ .mismatch := by
    rcases h with rfl | rfl
    · exact ⟨0x5000, by decide +kernel⟩
    · exact ⟨0x5800, by decide +kernel⟩
  obtain ⟨a, ha, h6, h7, h8, h9⟩ := h5
  rw [ha]
  exact State.ringWrite_open rfl (by rw [hb, h1]; exact h6) (by rw [h2]; exact h7) (by rw [h3]; exact h8) (by rw [h4]; exact h9)
/-- A plain store of core 0. -/
def plainStore : PendStore := { noStore with va := 0x105010, bytes := addrBytes 0x5010 [7] }
/-- Core 0 holds stores over the open memory. -/
def storesOf (l : List PendStore) : State := (opened [0]).setCore 0 { ({} : Core) with stores := l }
/-- Such a store is a plain write of its tile. -/
theorem plain_write : (storesOf [plainStore]).PlainWrite 0 0x5010 [7] window :=
  by refine ⟨?_, ?_, ?_, ?_, clear_of 7 ?_, ?_, ?_, ?_⟩ <;> decide +kernel
/-- O41: a store that can be performed; one behind a fenced store; a release behind another store; one into a line that the host holds. -/
theorem witness_StoresPerform : ((storesOf [plainStore]).core 0).stores[0]? = some plainStore ∧
    (storesOf [plainStore]).PlainStore 0 plainStore 0x5010 [7] window ∧
    (storesOf [plainStore]).waiting 5 = [(0, [plainStore])] ∧
    (∃ y ∈ [{ plainStore with fenced := true }], y.fenced = true) ∧ ({ plainStore with release := true } : PendStore).release = true ∧
    (∃ b ∈ plainStore.bytes, ∃ l, (storesOf [plainStore]).linearOf b.1 = some l ∧ l / 64 ∈ [0x140]) ∧
    (let e := { inflight 3 (.host none) with slot := 3, mark := { thenStores := true } }; e ∈ ({ ({} : Core) with infl := [e] } : Core).pendingLoads ∧
      e.before { plainStore with slot := 4 } = true ∧ e.mark.thenStores = true) := by
  refine ⟨?_, ⟨plain_write, ?_⟩, ?_, ?_, ?_, ⟨(0x5010, 7), ?_, 0x5010, ?_⟩, ?_⟩
  · decide +kernel
  · and_intros <;> first | exact fun _ _ _ => rfl | decide +kernel
  all_goals decide +kernel

/-- Core 3 with a fill in context 2, and with a copy into an unmapped address. -/
def copier (x : CopyCmd) : State := ({} : State).setCore 3 (({} : Core).setCtx 2 { icount := 3, cmds := [x] })
/-- O42: a copy that runs, one that a fault stops, a CP.ISP. -/
theorem witness_CopiesRun : (∀ x ∈ [(⟨3, .fill 5 4, 0xFFF80, 0, 0x80, false, 0, false, []⟩ : CopyCmd), ⟨3, .isp true, 0xFFFC, 0xFFFFC, 4, false, 0, false, []⟩],
      (((copier x).core 3).ctx 2).cmds = [x] ∧ x.stopped = false ∧ (copier x).copyStalls 3 x = false ∧ ((copier x).core 3).st ≠ .settling ∧
      ((copier x).copyRun 3 x).2.1 = none) ∧
    (let x : CopyCmd := ⟨3, .lin, 0x200000, 0, 64, false, 0, false, []⟩;
      (copier x).copyStalls 3 x = false ∧ ((copier x).copyRun 3 x).2.1.isSome) := by decide +kernel
/-- O42: ranges at the ends of the scratchpad and of a side, which do not meet. -/
theorem witness_CopiesRun_contents : 0x80 % 8 = 0 ∧ 0xFFF80 % 8 = 0 ∧ 0xFFF80 + 0x80 ≤ 2 ^ 20 ∧ 0xFFF00 + 0x80 ≤ 0xFFF80 ∧ 4 ≤ 4 ∧
    0xFFFC + 4 ≤ 2 ^ 16 ∧ 0xFFFFC + 4 ≤ 2 ^ 20 := by decide

/-- A descriptor of a tensor copy: two runs of 4 elements of 8 bytes (`pk` 0), or of bytes that it unpacks (1) or packs (2). -/
def tensorOf (pk : Nat) : List Byte := [BitVec.ofNat 8 ((if pk = 0 then 3 else 0) + 16 * pk), 2] ++ List.replicate 6 0 ++
  (leBytes 4 4 ++ leBytes 4 2 ++ List.replicate 16 0) ++ (leBytes 8 64 ++ List.replicate 32 0) ++ (leBytes 8 128 ++ List.replicate 32 0) ++ List.replicate 16 0
/-- O42: tensor copies of each kind, whose runs do not meet. -/
theorem witness_CopiesRun_tensor : ∀ pk ∈ [0, 1, 2], ∃ d, parseTensor (tensorOf pk) = some d ∧ d.pk = pk ∧
    (let x : CopyCmd := ⟨3, .tensor (tensorOf pk), 0x10000, 0x400, 0, false, 0, false, []⟩;
      x.count = 2 ∧ (∀ e, e < x.count → (x.elem e).2.1 + d.runs.2 ≤ 2 ^ 20 ∧ (x.elem e).1 + d.runs.1 ≤ 2 ^ 20) ∧
      (∀ e, e < x.count → ∀ f, f < x.count → (e = f ∨ (x.elem e).2.1 + d.runs.2 ≤ (x.elem f).2.1 ∨ (x.elem f).2.1 + d.runs.2 ≤ (x.elem e).2.1) ∧
        ((x.elem e).2.1 + d.runs.2 ≤ (x.elem f).1 ∨ (x.elem f).1 + d.runs.1 ≤ (x.elem e).2.1))) := by
  intro pk h
  simp only [List.mem_cons, List.not_mem_nil, or_false] at h
  rcases h with rfl | rfl | rfl <;> exact ⟨_, rfl, rfl, by decide +kernel⟩

/-- A group of engines 0 and 1. -/
def pair : Group := ⟨0, 2, 1⟩
/-- Core 0 whose galley context holds these commands. -/
def galley (l : List GCmd) : State := ({} : State).setCore 0 { ({} : Core) with gx := { icount := 3, cmds := l } }
/-- O43: a command to dispatch, the work of an engine, a fence in a channel, a region to open that meets none, one to close. -/
theorem witness_GalleyCommandsRun :
    (let x : GCmd := { num := 3, grp := pair, kind := .bcast 0x40 0x80 0 4 }; let s := galley [x];
      (s.core 0).gx.cmds = [] ++ x :: [] ∧ x.dispatched = false ∧ (∀ h ∈ x.grp.channels, (s.chan h).queue = [])) ∧
    (let x : GCmd := { num := 3, grp := pair, kind := .bcast 0x40 0x80 0 4, dispatched := true };
      let s := { galley [x] with chans := [(0, { queue := [.work 0 3 1] })] };
      (s.chan 0).queue = [.work 0 3 1] ∧ (s.chan 0).selfRefresh = false ∧ (s.engine 1).testing = false ∧ (s.core 0).gcmd? 3 = some x ∧
      (s.core 0).st ≠ .settling ∧ (s.core 0).st ≠ .lost) ∧
    (let x : GCmd := { num := 3, grp := pair, kind := .fence, dispatched := true };
      let s := { galley [x] with chans := [(0, { queue := [.fence 0 3] })] };
      (s.chan 0).queue = [.fence 0 3] ∧ (s.chan 0).selfRefresh = false ∧ (s.core 0).gcmd? 3 = some x) ∧
    (let x : GCmd := { num := 3, grp := ⟨0, 0, 0⟩, kind := .opn 0x1000 0x1000 0x40, dispatched := true }; let s := galley [x];
      (s.core 0).gx.cmds = x :: [] ∧ s.regionRange 0x1000 0x1000 = true ∧ s.recalled 0 0x1000 0x1000 = true ∧ x.grp.engines = []) ∧
    (let x : GCmd := { num := 3, grp := ⟨0, 0, 0⟩, kind := .cls 0x1000 0x40, dispatched := true };
      ((galley [x]).core 0).gx.cmds = x :: [] ∧ x.dispatched = true) := by decide +kernel
/-- O43: an open region that meets no other: status 0. -/
theorem witness_GalleyCommandsRun_open : (let s := opened [0]; s.frisk 0 0x1000 0x1000 false true = some window) := by decide +kernel

/-- Engine 1 meets the call of FILL of core 0. -/
def callFill : GCmd := { num := 3, grp := pair, kind := .call 0 0 1 0 4 0x40, dispatched := true }
/-- Its state; and the state in which the engine's restore failed. -/
def meeting (bad : Bool) : State := { galley [callFill] with
  chans := [(0, { queue := [.work 0 3 1] })], engines := if bad then [(1, { badPark := true })] else [] }
/-- O44. -/
theorem witness_EngineCallsRun : (∃ x, (meeting false).nextCall 1 = some x ∧ x.entry = 0 ∧ x.core = 0 ∧ x.num = 3 ∧ x.j = 1) ∧
    (meeting false).OneWork 1 0 3 ∧ (meeting false).soft = [] ∧ ((meeting false).engine 1).badPark = false ∧
    ((meeting false).engine 1).absent = false ∧ ((meeting true).engine 1).absent = false ∧ ((meeting false).engine 1).control = [] ∧ ((meeting true).engine 1).badPark = true ∧ ((meeting false).core 0).works ∧
    ((meeting false).core 0).gcmd? 3 = some callFill ∧ callFill.ends.length + 1 < callFill.parts ∧ callFill.mute = false :=
  by and_intros <;> first | exact ⟨_, rfl, rfl, rfl, rfl, rfl⟩ | (unfold Core.works; decide +kernel) | decide +kernel

/-- A park row sealed under a key. -/
def parked (key : Option Nat) : ParkRow := ⟨[], 0, 0, Vector.replicate 64 0, 0, 0, key, 0, 0⟩
/-- Core 0 has a region open over tiles 0 to 15 and galley rights there; tiles 0 and 8, the first two of engine 0, are sealed in clear;
the buffer of engine 0 holds tag INT8. -/
def bankGroup (btag : BitVec 4) : State := { (({} : State).setCore 0 { ({} : Core) with gx := { regions := [(0, 0x10000)] } }) with
  friskets := [(friskKey 1 0 0, window)]
  keys := ((({} : State).keys).set 1 { key := some 7, gen := 3 }).set 24 { key := some 4 }
  recs := [(0, { sl := .sealed 7, keygen := 3, poison := false }), (8, { sl := .sealed 7, keygen := 3, poison := false })]
  engines := [(0, { btag := btag, park := some (parked (some 4)) })] }
/-- A call of engine 0. -/
def callOf (entry a0 a1 a2 a3 : Nat) : Call := ⟨0, 3, entry, a0, a1, a2, a3, 0, 0, 0⟩
/-- Tile i of the first two may be filled and passed. -/
theorem may_fill (i : Nat) (h : i < 2) : (bankGroup 8).MayFill (callOf 0 0 2 5 4) (0 + 4096 * i) window := by
  have : i = 0 ∨ i = 1 := by omega
  rcases this with rfl | rfl <;> unfold State.MayFill <;> decide +kernel
/-- The first tile may be passed. -/
theorem may_pass (x : Call) (h : x = callOf 1 0 4096 1 0 ∨ x = callOf 2 0 1 0 0) : (bankGroup 8).MayPass x 0 := by
  rcases h with rfl | rfl <;> exact ⟨rfl, by decide +kernel, nofun, nofun, window, by decide +kernel, clear_of 7 (by decide +kernel)⟩
/-- O45: FILL of two tiles; COPY from the first to the second; CSUM of the first; KVAPP of a block of it; PARK, UNPARK. -/
theorem witness_EntriesMoveData : (∀ i, i < 2 → ∃ win, (bankGroup 8).MayFill (callOf 0 0 2 5 4) (0 + 4096 * i) win) ∧
    (bankGroup 8).MayPass (callOf 1 0 4096 1 0) 0 ∧ (bankGroup 8).MayPass (callOf 2 0 1 0 0) 0 ∧
    ((bankGroup 8).MayFill (callOf 1 0 4096 1 0) 4096 window ∧ 0 + 4096 * 1 ≤ 4096) ∧
    (let x := callOf 8 64 1 2 0; let s := bankGroup 8;
      x.a0 % 64 = 0 ∧ 1 ≤ x.a2 ∧ x.a2 ≤ 64 ∧ (s.engine 0).btag ≠ 14 ∧ s.ownRegion 0 (4096 * engineTile 0 192) = true ∧
      s.galleyFrisk 0 (engineTile 0 192) true true = some window ∧ (s.keySlot (windowSlot window)).key = some 7 ∧
      s.exhausted (windowSlot window) (engineTile 0 192) = false) ∧
    (bankGroup 8).MayPass (callOf 8 64 1 2 0) 192 ∧ (bankGroup 8).ClearFor window (4096 * engineTile 0 192) ∧
    ((bankGroup 8).engine 0).park = some (parked (some 4)) ∧ (parked (some 4)).key = some 4 ∧
    ((bankGroup 8).keys.get 24).keyFor 0 = some 4 ∧ (({} : State).engine 0).park = none :=
  ⟨fun i h => ⟨_, may_fill i h⟩, may_pass _ (.inl rfl), may_pass _ (.inr rfl), by unfold State.MayFill; decide +kernel, by decide +kernel,
    ⟨rfl, by decide +kernel, nofun, nofun, window, by decide +kernel, clear_of 7 (by decide +kernel)⟩, clear_of 7 (by decide +kernel), by decide +kernel⟩
/-- O46: GEMV.I8 of one row of 128, QK and AV of one row of 64: their arguments, and rows that are read. -/
theorem witness_EntriesCompute :
    (let a1 := 3 * 2 ^ 16; a1 / 2 ^ 29 % 4 = 0 ∧ a1 / 2 ^ 6 % 2 ^ 10 = 0 ∧ 64 * (a1 / 2 ^ 16 % 2 ^ 13) = 192 ∧ a1 % 64 + 1 = 1 ∧
      (128 % 128 = 0) ∧ 128 + 2 * 1 ≤ 192 ∧ 0 + (1 - 1) * 192 + 130 ≤ 2 ^ 30) ∧
    (∃ t y, (bankGroup 8).readRows (callOf 3 0 0x30000 128 0) 130 [0] = (t, .ok y)) ∧ ((bankGroup 8).engine 0).btag = 8 ∧
    (∃ t y, (bankGroup 2).readRows (callOf 9 0 0x30000 64 0) 128 [0] = (t, .ok y)) ∧ ((bankGroup 2).engine 0).btag ∈ [(2 : BitVec 4), 4, 8] ∧
    (∃ t y, (bankGroup 1).readRows (callOf 10 0 0x30000 64 2) 128 [0] = (t, .ok y)) ∧ ((bankGroup 1).engine 0).btag = 1 :=
  ⟨by decide, ok_of _ (by decide +kernel), by decide +kernel, ok_of _ (by decide +kernel), by decide +kernel, ok_of _ (by decide +kernel),
    by decide +kernel⟩

/-- O47: a channel out of and in self-refresh, a live engine that the entry saved, under a key that stands and one that is lost; a core free
and in retest; an idle engine and one under test; a running core with a task, with and without a spare of its chase; a bank with spare
rows and without; each kind of error standing, in a free core's storage, at the threshold of its count and below. -/
theorem witness_RefreshAndRepair :
    (({} : State).chan 3).selfRefresh = false ∧
    (let s : State := { ({} : State) with chans := [(3, { selfRefresh := true })], engines := [(12, { live := true, sleepRow := some (parked (some 4)), testing := true })], keys := (({} : State).keys).set 24 { key := some 4 } };
      (s.chan 3).selfRefresh = true ∧ (s.chan 3).queue = [] ∧ (s.engine 12).live = true ∧ (s.engine 12).sleepRow = some (parked (some 4)) ∧
      (parked (some 4)).key.isSome = true ∧ (s.keys.get 24).keyFor 0 = (parked (some 4)).key ∧ (s.engine 12).testing = true ∧ s.hasEngine 12 = true ∧
      ((({} : State).keys.get 24).keyFor 0) ≠ some 4) ∧
    0x5010 < ({} : State).memTop ∧ ({} : State).soft = [] ∧ (({} : State).core 5).st = .free ∧
    (({} : State).setCore 5 { ({} : Core) with st := .retest }).core 5 = { ({} : Core) with st := .retest } ∧
    (sget 0x1FBF#14 ({} : State).ccol 5).extractLsb' 0 6 = 0x3F ∧ (0#14 ++ 0x1F85#14).extractLsb' 0 6 ≠ (0x3F : BitVec 6) ∧
    (0x1F85#14).extractLsb' 7 6 = (0x3F : BitVec 6) ∧ (({} : State).engine 12).absent = false ∧ (({} : State).engine 12).live = false ∧
    (let k : Core := { ({} : Core) with st := .running, task := some 4, home := some 0 };
      let s : State := { (({} : State).setCore 0 k) with tasks := [(4, taskT)] };
      k.stores = [] ∧ k.gx.cmds = [] ∧ k.req = none ∧ k.st = .running ∧ k.owes = none ∧ k.escRec = none ∧ s.task? 4 = some taskT ∧
      k.creq = false ∧ (s.chase 0).sparePos.isSome ∧ ({ s.chase 0 with crepRet := 0x100 } : Chase).sparePos = none) ∧
    ({} : State).tileWaits 5 = false ∧ sget 0 ({} : State).rowSpares (tileBank 5) = 0 ∧
    sget 0 ({ ({} : State) with rowSpares := [(tileBank 5, 4)] } : State).rowSpares (tileBank 5) = 4 ∧
    sget 0 ({ ({} : State) with rowErrs := [(5, 2)] } : State).rowErrs 5 = 2 ∧
    (∀ x ∈ [SoftErr.line 5 7, .list 5 0, .bank 5 true, .special 5 2, .side 5 true, .window 0x1081, .weakCore 5, .weakTable],
      let s : State := { ({} : State) with soft := [x], corr := [(0x1006, 16)] };
      s.soft = [x] ∧ (s.core 5).st ≠ .running ∧ sget 0 s.corr 0x1005 ≠ 16 ∧ sget 0 s.corr 0x1006 = 16) ∧
    (0x1081 : Nat) / 8 = 1 * 512 + 0x10 := by decide +kernel

/-- R474, R438: a window word found unreadable admits nothing, and a write of it brings it back. -/
theorem test_window_word_lost : let s : State := { opened [0x063] with lostWords := [friskKey 0 0x063 0] };
    s.frisk 0x063 0x5000 8 true false = none ∧ (s.friskSet 0x060 0 0x063 0 window).lostWords = [] ∧
    ((s.friskSet 0x060 0 0x063 0 window).frisk 0x063 0x5000 8 true false).isSome = true := by decide +kernel

/-- R474, R475: a candidate list that an error has struck is poisoned before the next step. -/
theorem test_list_struck : let s := ({ ({} : State) with soft := [.list 5 2] } : State).checked;
    ((s.core 5).cl.get 2).poison = true ∧ ((s.core 5).cl.get 1).poison = false ∧ s.soft = [] := by decide +kernel

/-- R478, R483: a call that waits at an index which became absent ends with cause 0xB. -/
theorem test_absent_index_ends_call : let s := nextOf (exec (.fill 1) { meeting false with engines := [(1, { absent := true })] });
    (s.chan 0).queue = [] ∧ (∃ x ∈ (s.core 0).gx.cmds, x.ends.any fun e => e.cause == 0xB) := by decide +kernel

/-- Memory that the host, function 0's master, the SSD and a supervisor may use, with tile 5 in clear. -/
def ported : State := { opened [0x080, 0x063] with
  hdm := (({} : State).hdm.set 0 { v := true, hpa := 0x40000000, len := 2 ^ 40 }).set 1 { v := true, hpa := 2 ^ 45, da := 0x0F0000300000, len := 4096 }
  hostLines := [0x141], friskets := sset 0 (opened [0x080, 0x063]).friskets (friskKey 2 0x0F0 0) window }
/-- Tile 5 is in clear there. -/
theorem clear_ported : ported.ClearFor window 0x5010 := clear_of 7 (by decide +kernel)
/-- A write of part of it is a plain write. -/
theorem plain_ported (m : Nat) (h : m = 0x080 ∨ m = 0x0F0 ∨ m = 0x063) (bs : List Byte) (hb : bs.length = 8) : ported.PlainWrite m 0x5010 bs window := by
  refine ⟨by rintro rfl; simp at hb, ?_⟩
  rw [hb]
  rcases h with rfl | rfl | rfl <;> refine ⟨?_, ?_, ?_, clear_ported, ?_, ?_, ?_⟩ <;> decide +kernel
/-- Nor a write of a line of it. -/
theorem plain_line : ported.PlainWrite 0x080 (64 * 0x141) (List.replicate 64 3) window := by
  refine ⟨?_, ?_, ?_, ?_, clear_of 7 ?_, ?_, ?_, ?_⟩ <;> decide +kernel
/-- O48: an admitted read and write, a refused one, a poisoned tile, a poisoned line, a sleeping device, an address that no decoder maps, a
line that the host holds and one it does not, one that it holds under another view, and one in an open region. -/
theorem witness_HostMemory : ported.slp = .running ∧ ported.hostDa 0x40005010 8 = some 0x5010 ∧ barAt 0x40005010 8 = none ∧
    ported.rangeStalls 0x5010 8 = false ∧ (∀ l ∈ ported.hostLines, ported.heldAt l = 64 * l) ∧
    ported.frisk 0x080 (64 * (0x5010 / 64)) 64 true false = some window ∧
    (let s : State := { ported with hostLines := [0x5010 / 64], hostVia := [(0x5010 / 64, 0x8050)] };
      0x5010 / 64 ∈ s.hostLines ∧ s.heldAt (0x5010 / 64) ≠ 64 * (0x5010 / 64)) ∧
    ported.hostDa (2 ^ 45) 8 = some 0x0F00_0030_0000 ∧
    (ported.setCore 0 { ({} : Core) with gx := { regions := [(0x5000, 0x1000)] } }).rangeStalls (64 * 0x141) 64 = true ∧ 0x5010 % 64 + 8 ≤ 64 ∧ 0x5010 + 8 ≤ ported.memTop ∧
    ported.soft = [] ∧ ported.frisk 0x080 0x5010 8 true false = some window ∧ ported.ClearFor window 0x5010 ∧
    ported.PlainWrite 0x080 0x5010 (leBytes 8 1) window ∧ ported.PlainWrite 0x080 (64 * 0x141) (List.replicate 64 3) window ∧
    ({ ported with friskets := [] } : State).frisk 0x080 0x5010 8 true false = none ∧ ({} : State).hostDa 0x5010 8 = none ∧ barAt 0x5010 8 = none ∧
    ({ ported with poisLines := [0x5010 / 64] } : State).fillCheck (windowSlot window) (0x5010 / 4096) = .clear ∧
    ({ ported with recs := [] } : State).frisk 0x080 0x5010 8 true false = some window ∧
    (({ ported with recs := [] } : State).tileRec 5).poison = true ∧ ({ ported with slp := .asleep } : State).slp = .asleep ∧
    0x141 ∈ ported.hostLines ∧ 8 ∉ ported.hostLines := by
  refine ⟨?_, ?_, ?_, ?_, ?_, ?_, ?_, ?_, ?_, ?_, ?_, ?_, ?_, clear_ported, plain_ported _ (.inl rfl) _ rfl, plain_line, ?_⟩ <;> decide +kernel
/-- The words of a command slot of a kind; the publishing one is 1. -/
def slotBody (kind : Nat) : List Nat := [kind, 77] ++ List.replicate 13 0 ++ [1]
/-- Function 0 with its window at 0x5000 and a slot of a kind in its first place. -/
def windowed (kind : Nat) : State := { opened [0x080] with
  mem := sputBytes [] 0x5000 ((slotBody kind).flatMap (leBytes 4))
  funcs := [(0, { cwbase := 0x5000, cqbase := 0x5800, part := some 0, en := true, rdy := true, e := 1, ph := true, pacfg := 1 })] }
/-- O49: disabled and enabled functions; slots of each kind, none of a bad layout; one of it; a poisoned slot; the peer aperture on and off. -/
theorem witness_CommandWindows : (({} : State).func 0).en = false ∧ (∀ k ∈ [0, 1, 2, 3], ((windowed k).func 0).en = true ∧ (windowed k).slotReady 0 = true ∧
      ((windowed k).takeSlot 0).2.2 = some (slotBody k) ∧ slotKind (slotBody k) = k ∧ (windowed k).jobsFull 0 (slotBody k) = false) ∧
    slotInvalid (slotBody 0) = false ∧ slotInvalid (slotBody 1) = false ∧ slotInvalid (slotBody 3) = false ∧ slotInvalid (slotBody 4) = true ∧
    ({} : State).slotReady 0 = false ∧ ((windowed 0).func 0).pacfg.getLsbD 0 = true ∧ (({} : State).func 0).pacfg.getLsbD 0 = false ∧
    (windowed 0).rangeStalls 0x5010 8 = false ∧ (windowed 0).rangeHeld 0x5010 8 = false ∧ (windowed 0).frisk 0x080 0x5010 8 true false = some window ∧
    barAt (2 ^ 52 + 0x10) 8 = some (0, 0x10) ∧ barAt (2 ^ 52 + 0x1000) 8 = some (0, 0x1000) ∧ barAt (2 ^ 52 + 0x1008) 8 = some (0, 0x1008) := by
  decide +kernel
/-- O49: a slot of the function's window is in clear, and a write of it is plain. -/
theorem witness_CommandWindows_slot : (windowed 0).ClearFor window 0x5010 ∧ (windowed 0).PlainWrite 0x080 0x5010 (leBytes 8 1) window :=
  ⟨clear_of 7 (by decide +kernel), by refine ⟨?_, ?_, ?_, ?_, clear_of 7 ?_, ?_, ?_, ?_⟩ <;> decide +kernel⟩
/-- O49: a slot that may not be read, whose publishing word the host has written; a RUN while every job slot is live. -/
theorem witness_CommandWindows_held :
    (let s := { windowed 0 with friskets := [], funcs := [(0, ((windowed 0).func 0).publish [(0, 1)])] };
      s.slotReady 0 = true ∧ (s.takeSlot 0).2.2 = none) ∧
    (let s := { windowed 1 with parts := (({} : State).parts).set 0 { ({} : Part) with gtab := 1, jobs := Vector.replicate 16 { live := true } } };
      s.slotReady 0 = true ∧ s.jobsFull 0 (slotBody 1) = true) := by decide +kernel
/-- O50: late loads of the host and of the storage window, and stores to them; a device that did not boot; the SSD and a supervisor over open memory; a paging window over an unsealed tile. -/
theorem witness_StorageAndSupervisors :
    (let k : Core := { ({} : Core) with infl := [inflight 2 (.host none), inflight 2 (.stor none)] };
      k.infl = [] ++ inflight 2 (.host none) :: [inflight 2 (.stor none)] ∧ k.infl = [inflight 2 (.host none)] ++ inflight 2 (.stor none) :: [] ∧
      k.arrivable (inflight 2 (.host none)) = true ∧ k.arrivable (inflight 2 (.stor none)) = true ∧ (inflight 2 (.stor none)).mark.kids = [] ∧
      k.st ∉ [.settling, .lost, .trapping]) ∧
    (∀ a ∈ [(0x8000_0000_0000, Target.host), (0x0800_0000_0000, .storage)], targetOf a.1 = a.2 ∧ noStore.kids = [] ∧
      ({ noStore with bytes := [(a.1, 1)] } : PendStore).bytes ≠ []) ∧ ({} : State).booted = false ∧ ({ ported with booted := true } : State).booted = true ∧
    (ported.rangeStalls 0x5010 8 = false ∧ ported.rangeHeld 0x5010 8 = false ∧ windowPaging window = false ∧
      ported.frisk 0x0F0 0x5010 8 true false = some window ∧ ported.frisk 0x0F0 0x5010 8 true true = some window ∧
      ported.frisk 0x0F0 0x5010 8 false true = some window ∧ ported.frisk 0x063 0x5010 8 true false = some window ∧
      ported.frisk 0x063 0x5010 8 true true = some window ∧ ({} : State).frisk 0x063 0x5010 8 true false = none) ∧
    ported.PlainWrite 0x0F0 0x5010 (leBytes 8 1) window ∧ ported.PlainWrite 0x063 0x5010 (leBytes 8 1) window ∧
    (let w := window ||| 0x1000000000000000;
      let s : State := { ({} : State) with friskets := [(friskKey 2 0x0F0 0, w)], recs := [(5, { sl := .raw 3 })] };
      targetOf (0x0200_0000_0000 + 5 * 32) = .aperture ∧ 4096 * 5 < s.memTop ∧ s.anyRegion (4096 * 5) = false ∧ windowPaging w = true ∧
      s.frisk 0x0F0 (4096 * 5) 4096 true false = some w ∧ s.frisk 0x0F0 (4096 * 5) 4096 false true = some w ∧
      s.tileWaits 5 = false ∧ 5 ∉ s.badRows ∧ (s.setCore 0 { ({} : Core) with gx := { regions := [(0x5000, 0x1000)] } }).anyRegion (4096 * 5) = true) :=
  ⟨by decide +kernel, by decide +kernel, by decide +kernel, rfl, by decide +kernel, plain_ported _ (.inr (.inl rfl)) _ rfl, plain_ported _ (.inr (.inr rfl)) _ rfl, by decide +kernel⟩
/-- O50: no late load waits for the storage link at reset. -/
theorem witness_StorageAndSupervisors_link : ∀ d, ∀ e ∈ (({} : State).core d).infl, ∀ x, e.late ≠ .stor x := by
  intro d e h
  have : (({} : State).core d).infl = [] := by clear h; revert d; decide +kernel
  rw [this] at h
  cases h

/-- A striping window of four engines, one 64-byte row each, written but not valid; and valid, with a teardown waiting. -/
def striped (on : Bool) : State := { ({} : State) with stripes := [(7, {
  w0 := (if on then 0x8000000000000000 else 0) ||| (1#64 <<< 32) ||| (1#64 <<< 16), w1 := (4#64 <<< 16) ||| 1, w2 := 16
  pend := if on then some 0 else none })] }
/-- A stopped copy, and a core that holds it in a context and as a residency copy. -/
def stopCopy : CopyCmd := ⟨3, .lin, 0, 0, 8, false, 0, true, []⟩
/-- That core. -/
def stopCore : Core := { (({} : Core).setCtx 2 { cmds := [stopCopy] }) with resStop := true, resLeft := [stopCopy] }
/-- O51: partition numbers at both ends, a free and a busy chase, a stopped copy and residency copy, a striping window, an idle engine and
one of an open region, a window word by a supervisor and by another master. -/
theorem witness_TranslationAndTables : (23 : BitVec 5).toNat < 24 ∧ 24 ≤ (24 : BitVec 5).toNat ∧ (({} : State).chase 0).xlbusy = false ∧
    ({} : State).xlwait = [] ∧ chaseOf 3 = 0 ∧ chaseOf 8 ≠ 0 ∧ (({} : State).setChase 0 { xlbusy := true }).chase 0 = { xlbusy := true } ∧
    (stopCore.ctx 2).cmds = stopCopy :: [] ∧ stopCopy.stopped = true ∧ stopCore.resStop = true ∧ stopCore.resLeft = stopCopy :: [] ∧
    (sget {} (striped false).stripes 7).valid = false ∧ ({ sget {} (striped false).stripes 7 with w0 := 0x8000000100010000 } : Stripe).ok 1023 = true ∧
    ((0x100010000 : Word) ||| 0x8000000000000000) &&& w0Mask = 0x8000000100010000 ∧
    (sget {} (striped true).stripes 7).valid = true ∧ (sget {} (striped true).stripes 7).pend = some 0 ∧
    ({ ({} : Stripe) with w0 := 0x8000000000000000 } : Stripe).ok 1023 = false ∧
    ({} : State).groupBusy 0 = false ∧ ({} : State).groupOpen 0 = false ∧ (bankGroup 8).groupOpen 0 = true ∧ (galley [callFill]).groupBusy 3 = true ∧
    ({} : State).hasEngine 0 = true ∧ ({ ({} : State) with half := true } : State).hasEngine 512 = false ∧ isMaster 0x080 = true ∧ isMaster 0x07F = false ∧
    ({} : State).friskBad 0 0 window = false ∧ ({} : State).friskBad 0 0 (window ||| 0x4000000) = true ∧
    0x060 ≤ (0x06B : BitVec 9).toNat ∧ (0x06B : BitVec 9).toNat ≤ 0x06B ∧ 0x06B < (0x06C : BitVec 9).toNat := by decide +kernel
/-- A live job 0 of partition 0 with one graph of one launch. -/
def jobbed : State := { ({} : State) with parts := (({} : State).parts).set 0 { ({} : Part) with
  pcore := 3, jobs := (({} : Part).jobs).set 0 { live := true, graphs := [[{ dva := 0, nx := 1, ny := 1, nz := 1, preds := 0 }]] } } }
/-- O52: a budget, none; cores that are free for a partition, one of another partition; a live job with a graph and a launch, and one that
is not live. -/
theorem witness_PartitionRegisters : (0x200 : Word).extractLsb' 0 16 ≠ (0 : BitVec 16) ∧ (0x10000 : Word).extractLsb' 0 16 = (0 : BitVec 16) ∧
    (∀ c : CoreId, (5 : BitVec 96).getLsbD c.val = true → (({} : State).core c).st ≠ .lost ∧ ∀ r : PartId, r ≠ 1 → (({} : State).part r).pcore.getLsbD c.val = false) ∧
    (∃ c : CoreId, (2 : BitVec 96).getLsbD c.val = true ∧ ∃ r : PartId, r ≠ 1 ∧ (jobbed.part r).pcore.getLsbD c.val = true) ∧
    (jobbed.job 0 0).live = true ∧ (jobbed.job 0 0).graphs.getD 0 [] ≠ [] ∧ (0 : BitVec 6).toNat < ((jobbed.job 0 0).graphs.getD 0 []).length ∧
    (jobbed.job 0 1).live = false ∧
    (let k : Core := { ({} : Core) with home := some 0, task := some 4, wait := some .maskw, req := some (.maskw 3 7) };
      let s := { jobbed.setCore 0 k with tasks := [(4, taskT)] };
      k.req = some (.maskw 3 7) ∧ (7 : Word32).toNat ≤ ((9 : Word).setWidth 32 : Word32).toNat ∧ ((6 : Word).setWidth 32 : Word32).toNat < (7 : Word32).toNat ∧
      k.wait = some .maskw ∧ k.ans = none ∧ s.partOf 0 = some 0 ∧ s.partOf 1 = some 0) ∧
    ({} : State).partOf 0 = none :=
  ⟨by decide +kernel, by decide +kernel, by decide +kernel, ⟨1, by decide +kernel, 0, by decide, by decide +kernel⟩, by decide +kernel⟩
/-- O53: key slots in each state; a re-key of one tile; a record to acknowledge; held traps of cause 1 and 8; read indices on both sides of
the write index. -/
theorem witness_KeysEventsAndRings : (({} : State).keys.get 3).key = none ∧ (({} : State).keys.get 3).prev = none ∧ (({} : State).keys.get 3).busy = false ∧
    ((opened []).keys.get 1).key ≠ none ∧
    (let x : KeySlot := { key := some 8, prev := some 7, gen := 4, busy := true, rbase := 5, rlen := 1 }; let s : State := { opened [] with keys := (({} : State).keys).set 1 x };
      (s.keys.get 1).busy = true ∧ x.rbase < 2 ^ 28 ∧ 4096 * 5 < s.memTop ∧ s.stale = [] ∧
      (s.tileRec 5).sealPois = (s.tileRec 5).poison ∧ (s.tileRec 5).keygen = x.gen - 1 ∧ (s.tileRec 5).sl = .sealed 7 ∧ s.recs.map (·.1) = [5]) ∧
    (let r : TrapRec := { cause := 1, seq := 6 }; let s : State := { ({} : State) with unacked := [(0, r)] };
      s.unacked = [] ++ (0, r) :: [] ∧ r.seq = 6) ∧
    (let m : Core := { ({} : Core) with st := .held, held := some ⟨1, 1, true⟩, trcause := 1, task := some 4 };
      m.st = .held ∧ m.held ≠ none ∧ m.trcause ≠ 0x08 ∧ m.task = some 4) ∧
    (let m : Core := { ({} : Core) with st := .held, held := some ⟨1, 8, false⟩, trcause := 8 }; m.trcause = 0x08 ∧ m.held ≠ none) ∧
    (({} : State).core 0).held = none ∧
    (let g : Ring := { lsz := 1, wix := 5, rix := 3 }; (5 - g.rix : BitVec 24).toNat ≤ (g.wix - g.rix).toNat ∧ g.pend = [] ∧
      (g.wix - g.rix).toNat < (6 - g.rix : BitVec 24).toNat) := by decide +kernel

/-- A scheduler's choice, from a test of it. -/
theorem chosen_of {α β : Type} (r : α × Option β) (c : β) (h : r.2 = some c) : ∃ t, r = (t, some c) := by
  obtain ⟨t, e⟩ := r
  exact ⟨t, by simp_all⟩

/-- Partition 0 has core 0 and one context slot; core 0 in this state; these tasks. -/
def sched (k : Core) (l : List (Nat × Task)) : State := { (({} : State).setCore 0 k) with
  tasks := l, parts := (({} : State).parts).set 0 { ({} : Part) with pcore := 1, ctxa := 1 } }
/-- A core in a state with task 4. -/
def coreIn (st : CoreSt) : Core := { ({} : Core) with st := st, task := some 4, home := some 0 }
/-- A pending task whose input word is at an address of the mapped page, to reach 1. -/
def pendingT : Task := { taskT with st := .pending, waits := [(0x100010, 1)] }
/-- Its state: a page table for the scheduler's walks, and the word 0 or 2. -/
def inputs (v : Byte) : State := { sched {} [(4, pendingT)] with
  friskets := [0x06C, 0x0E4].foldl (fun m i => sset 0 m (friskKey 0 i 0) window) []
  keys := (({} : State).keys).set 1 { key := some 7, gen := 3 }
  recs := [(0, { sl := .sealed 7, keygen := 3, poison := false }), (5, { sl := .sealed 7, keygen := 3, poison := false })]
  mem := (if v = 0 then [] else [(0x10, v)]) ++ [(0x5000, 1), (0x5001, 0x50), (0x5800, 0xF)]
  parts := (({} : State).parts).set 0 { ({} : Part) with pcore := 1, ptroot := 0x5000 } }
/-- O54: a pending task without inputs; a Ready task and a free core, also one in retest; a staged task. -/
theorem witness_TasksStart :
    (let x := { pendingT with waits := [] }; let s := sched {} [(4, x)];
      s.tasks.filter (fun y => y.2.q == 0 && y.2.st == .pending) = [(4, x)] ∧ s.task? 4 = some x ∧ x.chase = some 0) ∧ (∀ w ∈ pendingT.waits, inSpad w.1 = false) ∧ (sched {} [(4, taskT)]).lostTasks = [] ∧
    (let s := sched {} [(4, taskT)]; s.slp = .running ∧ s.nextReady 0 0 = some (4, taskT) ∧ s.task? 4 = some taskT ∧ taskT.image = none ∧
      taskT.desc.placeOk taskT.tilex taskT.tiley taskT.tilez taskT.ell = true) ∧
    (∃ t, (sched {} [(4, taskT)]).choose 0 0 = (t, some 0)) ∧ (∃ t, (sched (coreIn .retest) []).choose 0 0 = (t, some 0)) ∧
    (let s := sched (coreIn .staging) [(4, taskT)]; let k := s.core 0;
      k.st = .staging ∧ k.task = some 4 ∧ s.task? 4 = some taskT ∧ k.resStop = false ∧ k.stores = [] ∧ k.resLeft = [] ∧ k.creq = false ∧
      (s.part 0).pcore.getLsbD 0 = true) :=
  ⟨by decide +kernel, by decide +kernel, by decide +kernel, by decide +kernel, chosen_of _ _ (by decide +kernel), chosen_of _ _ (by decide +kernel), by decide +kernel⟩
/-- O54: an input word that is read, below its value and at or above it; one whose table is in an open region. -/
theorem witness_TasksStart_inputs : (inputs 0).schedStalls 0 0 0x100010 8 = false ∧
    ((inputs 0).setCore 0 { ({} : Core) with gx := { regions := [(0x5000, 0x1000)] } }).schedStalls 0 0 0x100010 8 = true ∧ ((inputs 0).inputWord pendingT 0x100010).2 = some 0 ∧ ((inputs 2).inputWord pendingT 0x100010).2 = some 2 := by
  decide +kernel
/-- A running task of the level below. -/
def lowT : Task := { taskT with st := .running, level := 0, core := some 0, stamp := 5 }
/-- O55: an aged head, one running task of a lower level, no free core, a free context slot; a core to pre-empt; a task that ends. -/
theorem witness_TasksYieldAndEnd :
    (let x := { taskT with age := 4 }; let s := sched { coreIn .running with task := some 5 } [(4, x), (5, lowT)];
      s.nextReady 0 0 = some (4, x) ∧ 4 ≤ x.level.toNat + x.age ∧ s.placeRing 0 0 = [0] ∧ (s.core 0).st = .running ∧
      s.preemptPending [0] = false ∧ s.freeSlot 0 ≠ none ∧ s.taskOf 0 = some lowT ∧ lowT.q = 0 ∧ lowT.stamp < 2 ^ 64) ∧
    (let s := sched (coreIn .preempting) [(4, lowT)]; let k := s.core 0;
      k.task = some 4 ∧ s.task? 4 = some lowT ∧ k.st = .preempting ∧ k.creq = false ∧ k.commandsDone = true ∧ k.stores = [] ∧
      s.freeSlot 0 ≠ none) ∧
    (let x := { lowT with st := .ending }; let s := sched (coreIn .ending) [(4, x)]; let k := s.core 0;
      k.task = some 4 ∧ s.task? 4 = some x ∧ k.st = .ending ∧ k.commandsDone = true ∧ k.resStop = false ∧ k.stores = [] ∧ k.resLeft = [] ∧
      s.linesStall 0 x = false ∧ x.relaunch = false ∧ (s.advanceLines 0 x.ell x.desc.outs).2 = none) ∧
    (let k : Core := { coreIn .running with wait := some .launch, req := some (.launch 0 1 1 1 0) }; let s := sched k [(4, lowT)];
      k.wait = some .launch ∧ k.ans = none ∧ s.taskOf 0 = some lowT ∧ k.req = some (.launch 0 1 1 1 0)) ∧
    (let k : Core := { coreIn .running with wait := some .heap, req := some (.pop 0x40 2) }; let s := sched k [(4, lowT)];
      k.wait = some .heap ∧ k.ans = none ∧ s.partOf 0 = some 0 ∧ k.stores = [] ∧ k.req = some (.pop 0x40 2)) := by decide +kernel
/-- O55: a timeline word in clear that core 0 may advance. -/
theorem witness_TasksYieldAndEnd_word : (opened [0]).PlainWrite 0 0x5010 (leBytes 8 ((ofLe ((List.range 8).map fun j => sget 0 (opened [0]).mem (0x5010 + j)) + 1) % 2 ^ 64)) window ∧
    (opened [0]).hostLines = [] ∧ 0x5010 % 8 = 0 ∧ (opened [0]).frisk 0 0x5010 8 true true = some window ∧
    (opened [0]).frisk 0 0x5010 8 true false = some window ∧
    (map1M.r = true ∧ map1M.w = true ∧ map1M.mtype ≠ 2 ∧ 0x105010 % 8 = 0 ∧ map1M.dbase + (0x105010 - map1M.vbase) = 0x5010) := by
  refine ⟨⟨?_, ?_, ?_, ?_, clear_of 7 ?_, ?_, ?_, ?_⟩, ?_⟩ <;> decide +kernel
/-- O56: each state of sleep, a quiet device, trims at both ends; the engines' canonical form at reset. -/
theorem witness_PowerAndReset : ({} : State).slp = .running ∧ (∀ z ∈ [Slp.asleep, .entering, .waking], ({ ({} : State) with slp := z } : State).slp = z) ∧
    (∀ d : CoreId, (({} : State).core d).st = .free ∧ (({} : State).core d).commandsDone = true ∧ (({} : State).core d).stores = []) ∧
    swf {} ({} : State).engines ∧ ({} : State).slpNext = false ∧ ({} : State).hostHeld = [] ∧ ({} : State).off = false ∧
    ({ ({} : State) with hostHeld := [.memRead 0x5010 8] } : State).hostHeld = .memRead 0x5010 8 :: [] ∧ ({} : State).accStalls (.memRead 0x5010 8) = false ∧
    ({ ({} : State) with off := true } : State).off = true ∧ ({ ({} : State) with booted := true } : State).booted = true ∧
    ({} : Core).dr = 0 ∧ ({ ({} : Core) with dr := 15 } : Core).dr ≠ 0 ∧ (5 : BitVec 8).toNat = 5 ∧ (0xFE : BitVec 8) ≠ 0xFF := by decide +kernel
/-- O56: slack below, at and above the target, with and without control by slack. -/
theorem witness_PowerAndReset_trim : ({} : Core).slktgt.toNat = 0x18 ∧ ({} : Core).slktgtEn = true ∧ ({} : Core).stretch = false ∧
    ({ ({} : Core) with slktgtEn := false } : Core).slktgtEn = false ∧ (0x17 : BitVec 8).toNat < 0x18 ∧ 0x18 < (0x19 : BitVec 8).toNat ∧
    (451 : BitVec 10).toNat = min (450 + 1) (450 + 25) := by decide +kernel
/-- O59: an instruction at the ends of its fields, with literals that its bundle holds. -/
theorem witness_DecodeEncode : (let i := Instr.cpLin (.whenClear 11) 3 .b 31 30 (.lit 1) true;
      i.wf = true ∧ i.fits ctx = true ∧ i.slot? = some .ctl ∧ ∃ w, encode i = some w ∧ reads .ctl w = some i) ∧ ctx.litc ≤ 3 :=
  ⟨⟨by decide, by decide +kernel, rfl, _, rfl, by decide +kernel⟩, by decide⟩
/-- O60: memory at reset, and a step from reset with a word placed. -/
theorem witness_StepKeepsMemoryForm : Memory.wf (State.reset.withFetchWord 32 0x80051234).mem ∧
    ∃ t, step (State.reset.withFetchWord 32 0x80051234) = .next t := ⟨by decide +kernel, ⟨_, rfl⟩⟩
end Sys2Proof.Tests
end

/-!
# The canonical form of memory, and the part, across a step

`State.Formed` puts the two facts of the statement in one predicate. Each operation of the state, each instruction,
each event and each move of a core has one lemma, named as the operation is, that says it keeps the predicate; a proof
about an operation is then the chain of the lemmas of what it calls. The operations that change the bytes, the tags or
the seals rest on the model's own laws of memory; all others leave the memory and the part as they are.
-/

namespace Sys2Proof.Machine

-- Elaborated one after another: so many short proofs side by side ask for more threads than the memory limit allows.
set_option Elab.async false

/-! ### The canonical form of memory and the part, as one predicate -/

/-- The memory is in its canonical form, and the part is the given one. -/
def State.Formed (s : State) (b : Bool) : Prop := Memory.wf s.mem ∧ s.half = b

/-- A result whose next state, if it answers one, is formed. -/
def ResFormed (r : Res) (b : Bool) : Prop :=
  match r with
  | .next t => t.Formed b
  | .fault _ => True
  | .refused _ => True

theorem ResFormed.of_next {r : Res} {b : Bool} {t : State} (h : ResFormed r b) (e : r = .next t) : t.Formed b := by
  subst e; exact h

namespace State.Formed
variable {s t : State} {b : Bool}

/-! ### Control flow -/

/-- Of a pair that is taken apart, the state is formed when the pair's is. -/
theorem of_eq {α : Type} {p : State × α} {x : α} (h : p.1.Formed b) (e : p = (t, x)) : t.Formed b := by
  subst e; exact h

/-- A state with the same memory and of the same part is formed as well. -/
theorem same (h : s.Formed b) (hm : t.mem = s.mem := by rfl) (hh : t.half = s.half := by rfl) : t.Formed b :=
  ⟨hm ▸ h.1, hh.trans h.2⟩

theorem branch {c : Prop} [Decidable c] (h : s.Formed b) (h' : t.Formed b) : (if c then s else t).Formed b := by
  split
  · exact h
  · exact h'

theorem foldl {α : Type} {f : State → α → State} (h : s.Formed b) (l : List α)
    (hf : ∀ s x, s.Formed b → (f s x).Formed b) :
    (l.foldl f s).Formed b := by
  induction l generalizing s with
  | nil => exact h
  | cons x l ih => exact ih (hf s x h)

/-! ### Updates of the state -/

theorem fault (h : s.Formed b) {slot f addr} : (s.fault slot f addr).Formed b := h
theorem deferPred (h : s.Formed b) {slot p} : (s.deferPred slot p).Formed b := h
theorem deferReg (h : s.Formed b) {slot detail c r} : (s.deferReg slot detail c r).Formed b := h
theorem deferRow (h : s.Formed b) {slot detail v} : (s.deferRow slot detail v).Formed b := h
theorem modCore (h : s.Formed b) {c f} : (s.modCore c f).Formed b := h
theorem modMe (h : s.Formed b) {f} : (s.modMe f).Formed b := h
theorem setChase (h : s.Formed b) {ch x} : (s.setChase ch x).Formed b := h
theorem modChase (h : s.Formed b) {ch f} : (s.modChase ch f).Formed b := h
theorem setPart (h : s.Formed b) {q x} : (s.setPart q x).Formed b := h
theorem modPart (h : s.Formed b) {q f} : (s.modPart q f).Formed b := h
theorem postScalar (h : s.Formed b) {slot c d lat v F pois keys late mark} :
    (s.postScalar slot c d lat v F pois keys late mark).Formed b :=
  h
theorem postPred (h : s.Formed b) {slot d lat v F pois keys} : (s.postPred slot d lat v F pois keys).Formed b := h
theorem postRow (h : s.Formed b) {slot d lat x F keys late mark} :
    (s.postRow slot d lat x F keys late mark).Formed b :=
  h
theorem postList (h : s.Formed b) {slot l lat x F keys} : (s.postList slot l lat x F keys).Formed b := h
theorem transferTo (h : s.Formed b) {x} : (s.transferTo x).Formed b := h
theorem finish (h : s.Formed b) {f} : (s.finish f).Formed b := h
theorem escalate (h : s.Formed b) {slot detail} : (s.escalate slot detail).Formed b := h
theorem number (h : s.Formed b) (r : TrapRec) : (s.number r).1.Formed b := h
theorem takeFree (h : s.Formed b) (w : Nat) : (s.takeFree w).1.Formed b := h
theorem dropHost (h : s.Formed b) {l} : (s.dropHost l).Formed b := h
theorem setRec (h : s.Formed b) {t r} : (s.setRec t r).Formed b := h
theorem setStale (h : s.Formed b) {x} : (s.setStale x).Formed b := h
theorem dropStale (h : s.Formed b) {t} : (s.dropStale t).Formed b := h
theorem poisonTile (h : s.Formed b) {t} : (s.poisonTile t).Formed b := h

/-! ### Seal operations, lines of the host, and records -/

theorem unraw (h : s.Formed b) {slot t} : (s.unraw slot t).Formed b := by
  obtain ⟨m, r, e⟩ := s.unraw_eq slot t
  exact ⟨State.unraw_wf h.1 _ _, by rw [e]; exact h.2⟩

theorem toRaw (h : s.Formed b) {t} : (s.toRaw t).Formed b := by
  obtain ⟨m, r, e⟩ := s.toRaw_eq t
  exact ⟨State.toRaw_wf h.1 _, by rw [e]; exact h.2⟩

theorem sealWrite (h : s.Formed b) {slot t whole bs m} : (s.sealWrite slot t whole bs m).1.Formed b := by
  obtain ⟨m, r, p, q, e⟩ := s.sealWrite_eq slot t whole bs m
  exact ⟨State.sealWrite_wf h.1 _ _ _ _ _, by rw [e]; exact h.2⟩

theorem sealLate (h : s.Formed b) {t w} : (s.sealLate t w).1.Formed b := by
  obtain ⟨m, r, p, q, e⟩ := s.sealLate_eq t w
  exact ⟨State.sealLate_wf h.1 _ _, by rw [e]; exact h.2⟩

theorem redo (h : s.Formed b) {t ws} : (s.redo t ws).Formed b := h.foldl ws fun _ _ h => h.sealLate

theorem rewind (h : s.Formed b) {x} : (s.rewind x).Formed b :=
  ⟨State.rewind_wf h.1 x, by unfold State.rewind; exact h.2⟩

/-- A change that tells, and keeps the canonical form, keeps the part. -/
theorem told (h : s.Formed b) (w : Memory.wf t.mem) (e : s.Told t) : t.Formed b :=
  ⟨w, (congrArg State.half e).trans h.2⟩

theorem sealPart (h : s.Formed b) {slot t bs m whole more} :
    (s.sealPart slot t bs m whole more).1.Formed b :=
  h.told (State.sealPart_wf h.1 _ _ _ _ _ _) (s.sealPart_wrote _ _ _ _ _ _).told

theorem recallLine (h : s.Formed b) {l} : (s.recallLine l).Formed b :=
  h.told (State.recallLine_wf h.1 _) (s.recallLine_wrote _).told

theorem recallRange (h : s.Formed b) {da n} : (s.recallRange da n).Formed b :=
  h.told (State.recallRange_wf h.1 _ _) (s.recallRange_wrote _ _).told

theorem setRing (h : s.Formed b) {i r} : (s.setRing i r).Formed b :=
  h.told (State.setRing_wf h.1 _ _) (s.setRing_told _ _)

theorem ringPut (h : s.Formed b) {i t} : (s.ringPut i t).1.Formed b :=
  h.told (State.ringPut_wf h.1 _ _) (s.ringPut_told _ _)

theorem tellRing (h : s.Formed b) {da rb} : (s.tellRing da rb).Formed b :=
  h.told (State.tellRing_wf h.1 _ _) (s.tellRing_told _ _)

theorem ringTold (h : s.Formed b) {i t} : (s.ringTold i t).Formed b :=
  h.told (State.ringTold_wf h.1 _ _) (s.ringTold_told _ _)

theorem post (h : s.Formed b) {i t} : (s.post i t).Formed b := h.told (State.post_wf h.1 _ _) (s.post_told _ _)

theorem eventAt (h : s.Formed b) {ch cl t} : (s.eventAt ch cl t).Formed b :=
  h.told (State.eventAt_wf h.1 _ _ _) (s.eventAt_told _ _ _)

theorem event (h : s.Formed b) {cl t} : (s.event cl t).Formed b := h.eventAt
theorem permEvent (h : s.Formed b) {mid da} : (s.permEvent mid da).Formed b := h.event
theorem memEvent (h : s.Formed b) {detail addr unit} : (s.memEvent detail addr unit).Formed b := h.event
theorem sealEvent (h : s.Formed b) {mid da detail} : (s.sealEvent mid da detail).Formed b := h.event
theorem storEvent (h : s.Formed b) {mid} : (s.storEvent mid).Formed b := h.event
theorem hportEvent (h : s.Formed b) {mid} : (s.hportEvent mid).Formed b := h.event
theorem cfgError (h : s.Formed b) {mid} : (s.cfgError mid).Formed b := h.event
theorem engEvent (h : s.Formed b) {detail e} : (s.engEvent detail e).Formed b := h.event
theorem engineEvent (h : s.Formed b) {c e entry n x} : (s.engineEvent c e entry n x).Formed b := h.event
theorem coreEvent (h : s.Formed b) {detail addr c} : (s.coreEvent detail addr c).Formed b := h.eventAt
theorem inform (h : s.Formed b) {ch t} : (s.inform ch t).Formed b := (h.number t).post

theorem countCorrected (h : s.Formed b) {unit tell} (ht : ∀ s, s.Formed b → (tell s).Formed b) :
    (s.countCorrected unit tell).Formed b :=
  branch (ht _ h) h

/-! ### Reads of processing memory -/

theorem rowRead (h : s.Formed b) {t} : (s.rowRead t).Formed b := by
  unfold State.rowRead; dsimp only; split
  · exact memEvent h.same
  · split
    · exact memEvent h.same
    · split
      · exact countCorrected h.same fun _ h => memEvent h.same
      · exact h

theorem tagFailed (h : s.Formed b) {mid t} : (s.tagFailed mid t).Formed b := h.poisonTile.sealEvent

theorem fillAs (h : s.Formed b) {mid slot da n} : (s.fillAs mid slot da n).1.Formed b := by
  unfold State.fillAs; dsimp only; split
  · exact h
  · split
    · exact h.rowRead
    · exact h.rowRead.tagFailed
    · exact h.rowRead

theorem readPieces (h : s.Formed b) {mid slot xs} : (s.readPieces mid slot xs).1.Formed b := by
  induction xs generalizing s with
  | nil => exact h
  | cons x l ih => exact ih h.fillAs

theorem readMem (h : s.Formed b) {mid da n} : (s.readMem mid da n).1.Formed b := by
  unfold State.readMem; split
  · split
    · exact h.permEvent
    · exact h
  · exact h.readPieces

/-! ### Translation -/

theorem walk (h : s.Formed b) {mid va ta part fuel} : (s.walk mid va ta part fuel).1.Formed b := by
  induction fuel generalizing s ta with
  | zero => exact h
  | succ n ih =>
    unfold State.walk; dsimp only
    have h1 : ∀ a, ((s.recallRange a 8).readMem mid a 8).1.Formed b := fun _ => h.recallRange.readMem
    split
    · exact h
    · split
      · exact h
      · split
        · exact h1 _
        · split
          · exact h1 _
          · split
            · exact h1 _
            · split
              · split <;> exact h1 _
              · split
                · exact h1 _
                · exact ih (h1 _)

theorem walkFor (h : s.Formed b) {ch root part va} : (s.walkFor ch root part va).1.Formed b := by
  unfold State.walkFor; dsimp only; split
  · exact h
  · split
    · exact h.walk
    · exact h.walk.modChase

theorem translate (h : s.Formed b) {c va} : (s.translate c va).1.Formed b := by
  unfold State.translate; dsimp only; split
  · exact h
  · split
    · exact h
    · split
      · exact h.walkFor
      · exact h.walkFor.modCore

theorem copyPiece (h : s.Formed b) {c va n w part} : (s.copyPiece c va n w part).1.Formed b := by
  unfold State.copyPiece; dsimp only; split
  · exact h.translate
  · split <;> exact h.translate

theorem checkPieces (h : s.Formed b) {c u r w xs} : (s.checkPieces c u r w xs).1.Formed b := by
  induction xs generalizing s with
  | nil => exact h
  | cons p l ih =>
    unfold State.checkPieces; dsimp only; split
    · exact h.translate
    · split
      · exact h.translate
      · split <;> exact ih h.translate

theorem checkEach (h : s.Formed b) {c u r w xs} : (s.checkEach c u r w xs).1.Formed b := by
  induction xs generalizing s with
  | nil => exact h
  | cons p l ih =>
    unfold State.checkEach; dsimp only
    split <;> exact ih h.checkPieces

/-! ### What a slot does with its faults, holds and registers -/

theorem holdFor (h : s.Formed b) {w} : (s.holdFor w).Formed b := by
  unfold State.holdFor; split <;> exact h

theorem ask (h : s.Formed b) {w r} : (s.ask w r).Formed b := branch h.holdFor h.holdFor

theorem when {f : State → State} (h : s.Formed b) {p n} (hf : ∀ s, s.Formed b → (f s).Formed b) :
    (s.when p n f).Formed b := by
  unfold State.when; split
  · exact hf s h
  · exact branch h.deferPred (branch (hf s h) h)

theorem withRegs {f : State → State} (h : s.Formed b) {c rs} (hf : ∀ s, s.Formed b → (f s).Formed b) :
    (s.withRegs c rs f).Formed b := by
  unfold State.withRegs; split
  · exact h.deferReg
  · exact hf s h

theorem memRegs {f : State → State} (h : s.Formed b) {sl rs} (hf : ∀ s, s.Formed b → (f s).Formed b) :
    (s.memRegs sl rs f).Formed b := by
  unfold State.memRegs; split
  · exact h.deferReg
  · exact hf s h

theorem onGroup {f : State → Group → State} (h : s.Formed b) {w call} (hf : ∀ s g, s.Formed b → (f s g).Formed b) :
    (s.onGroup w call f).Formed b := by
  have h1 : (if groupBad w call then s.fault ctlSlot (formatFault 3) else s).Formed b := branch h.fault h
  have h2 := branch (c := (groupOf w).engines.any fun e => decide (e < Config.engines) && s.noEngine e)
    (fault h1 (slot := ctlSlot) (f := permFault 3) (addr := 0)) h1
  exact branch h2 (hf _ _ h2)

theorem withIndex {f : State → Row → State} (h : s.Formed b) {n i} (hf : ∀ s x, s.Formed b → (f s x).Formed b) :
    (s.withIndex n i f).Formed b := by
  unfold State.withIndex; dsimp only; split
  · exact h.deferRow
  · split
    · exact h.fault
    · exact hf s _ h

theorem checkBound (h : s.Formed b) {slot x} : (s.checkBound slot x).Formed b := branch h.escalate h

theorem rowStored {f : State → Row → State} (h : s.Formed b) {n v} (hf : ∀ s x, s.Formed b → (f s x).Formed b) :
    (s.rowStored n v f).Formed b :=
  branch h.deferRow (branch (hf _ _ h.fault) (hf _ _ h.checkBound))

/-! ### Scalar, vector, matrix and permute operations -/

theorem alu1 (h : s.Formed b) {sl p d a lat f} : (s.alu1 sl p d a lat f).Formed b := h.when fun _ h => h.postScalar
theorem alu2 (h : s.Formed b) {sl p d a rb lat f} : (s.alu2 sl p d a rb lat f).Formed b :=
  h.when fun _ h => h.postScalar
theorem alu3 (h : s.Formed b) {sl p d a rb lat f} : (s.alu3 sl p d a rb lat f).Formed b :=
  h.when fun _ h => h.postScalar
theorem cmp2 (h : s.Formed b) {sl p d a rb lat f} : (s.cmp2 sl p d a rb lat f).Formed b :=
  h.when fun _ h => h.postPred
theorem intDivide (h : s.Formed b) {p d a rb f} : (s.intDivide p d a rb f).Formed b :=
  h.when fun _ h => branch h.fault h.modMe.postScalar
theorem fpDivide (h : s.Formed b) {p d a rb f} : (s.fpDivide p d a rb f).Formed b :=
  h.when fun _ h => branch h.fault h.modMe.postScalar
theorem activateLoop (h : s.Formed b) {l n e} : (s.activateLoop l n e).Formed b :=
  branch h.fault (branch h.transferTo h.modMe)

theorem rowInstr (h : s.Formed b) {slot p d src ok lat f} : (s.rowInstr slot p d src ok lat f).Formed b :=
  h.when fun s h => by
  dsimp only; split
  · exact h.fault
  · exact branch h.postRow h.postRow

theorem rowScalarInstr (h : s.Formed b) {slot p d a c r ok lat f} :
    (s.rowScalarInstr slot p d a c r ok lat f).Formed b :=
  h.when fun s h => by
  dsimp only; split
  · exact h.fault
  · exact branch h.postRow h.postRow

theorem matInstr {f : State → State} (h : s.Formed b) {p} (hf : ∀ s, s.Formed b → (f s).Formed b) :
    (s.matInstr p f).Formed b :=
  h.when fun _ h => hf _ (branch h.fault h)

theorem matMac (h : s.Formed b) {p d v n acc} : (s.matMac p d v n acc).Formed b := h.matInstr fun s h => by
  dsimp only; split
  · exact h.fault
  · exact h.modMe

theorem crossMove (h : s.Formed b) {p d a rb coll f} : (s.crossMove p d a rb coll f).Formed b := h.when fun s h => by
  dsimp only; split
  · exact h.fault
  · exact branch h.postRow (branch (fault (branch h.fault h)) (postRow (branch h.fault h)))

theorem poisonList (h : s.Formed b) {l keys} : (s.poisonList l keys).Formed b := h
theorem zeroField (h : s.Formed b) {bad} : (s.zeroField bad).Formed b := branch h.fault h
theorem recFault (h : s.Formed b) {f off} : (s.recFault f off).Formed b := h

/-! ### Copies and engine commands, as the control slot queues them -/

theorem firstByte (h : s.Formed b) {va w part} : (s.firstByte va w part).Formed b := by
  unfold State.firstByte; dsimp only; split
  · exact h
  · split
    · exact branch h.copyPiece.holdFor h.copyPiece.fault
    · exact h.copyPiece

theorem enqueueCopy (h : s.Formed b) {k kind dst src len nc} : (s.enqueueCopy k kind dst src len nc).Formed b :=
  branch h.holdFor h.modMe
theorem enqueueGalley (h : s.Formed b) {g kind} : (s.enqueueGalley g kind).Formed b := branch h.holdFor h.modMe

theorem addChild (h : s.Formed b) {c desc nx ny nz done} : (s.addChild c desc nx ny nz done).Formed b := by
  unfold State.addChild; split <;> exact h

/-! ### Accesses of the memory slots -/

theorem access (h : s.Formed b) {slot u r w units bad} : (s.access slot u r w units bad).1.Formed b := by
  unfold State.access; dsimp only
  have h0 := h.checkEach (c := s.cur) (u := u) (r := r) (w := w) (xs := units.flatMap farPieces)
  generalize s.checkEach s.cur u r w (units.flatMap farPieces) = x at h0 ⊢
  have h1 := foldl (f := fun t (f : AccFault × Nat) => t.fault slot f.1 f.2)
    (branch (c := x.2.1.any (·.1.stalls)) (h0.holdFor (w := .region)) h0)
    (x.2.1.filter fun f => !f.1.stalls) fun _ _ h => h.fault
  split
  · exact h1.fault
  · exact h1

theorem admitted (h : s.Formed b) {mid xs} : (s.admitted mid xs).1.Formed b := by
  induction xs generalizing s with
  | nil => exact h
  | cons x l ih =>
    unfold State.admitted; split
    · exact ih h.permEvent
    · exact ih h

theorem rowWritten (h : s.Formed b) {t} : (s.rowWritten t).Formed b := by
  unfold State.rowWritten; split
  · exact memEvent h.same
  · exact h

theorem sealParts (h : s.Formed b) {mid xs m ts} : (s.sealParts mid xs m ts).Formed b := by
  induction ts generalizing s with
  | nil => exact h
  | cons x l ih =>
    unfold State.sealParts; dsimp only
    have h1 : ∀ bs, ((s.rowRead x.2).sealPart x.1 x.2 bs m).1.Formed b := fun _ => h.rowRead.sealPart
    refine ih ?_
    split
    · exact (h1 _).rowWritten
    · exact (h1 _).sealEvent.rowWritten
    · exact (h1 _).sealEvent

theorem writeMem (h : s.Formed b) {mid bs m} : (s.writeMem mid bs m).Formed b := h.admitted.sealParts
theorem performMem (h : s.Formed b) {c st} : (s.performMem c st).Formed b := h.writeMem

theorem aliasFirst (h : s.Formed b) : s.aliasFirst.Formed b := modMe (h.foldl s.newStores fun _ _ h => h.performMem)

theorem settleAccess (h : s.Formed b) {slot units ps write} : (s.settleAccess slot units ps write).1.Formed b := by
  unfold State.settleAccess; split
  · exact h.holdFor
  · split
    · split
      · exact h.aliasFirst
      · exact h.holdFor
    · exact h

theorem droopNow (h : s.Formed b) {c} : (s.droopNow c).Formed b := branch h h

theorem regView (h : s.Formed b) {o} : (s.regView o).Formed b := by
  unfold State.regView; split
  · exact h.droopNow
  · exact h

/- An address less the base of configuration space is a subtraction of a large numeral, which the kernel must not
evaluate: the definition is unfolded as a function, and the offset is a variable of its own. -/
theorem configRead (h : s.Formed b) {addr n} : (s.configRead addr n).1.Formed b := by
  generalize ef : @State.configRead = f
  delta State.configRead at ef
  obtain ⟨o, ho⟩ : ∃ o, o = addr - configBase := ⟨_, rfl⟩
  rw [← congrFun (congrFun (congrFun ef s) addr) n, ← ho]
  dsimp only
  split
  · exact h.regView
  · split
    · exact h.regView
    · exact h.regView.takeFree 64

theorem configLoad (h : s.Formed b) {mid da n} : (s.configLoad mid da n).1.Formed b := by
  unfold State.configLoad; split
  · split
    next e => exact h.configRead.of_eq e
  · exact h.permEvent

theorem pieceRead (h : s.Formed b) {c p t after} : (s.pieceRead c p t after).1.Formed b := by
  unfold State.pieceRead; split
  · exact h.readMem
  · exact h.readMem
  · split
    · exact h
    · exact h.configLoad
  · split
    · exact h.permEvent
    · exact h.takeFree 1024
  · split
    · exact h.permEvent
    · split
      · exact h.storEvent
      · exact h.takeFree 1024
  · exact h

theorem piecesRead (h : s.Formed b) {c t after xs} : (s.piecesRead c t after xs).1.Formed b := by
  induction xs generalizing s with
  | nil => exact h
  | cons p l ih => exact ih h.pieceRead

theorem load (h : s.Formed b) {slot u units bad t} : (s.load slot u units bad t).1.Formed b := by
  unfold State.load; dsimp only; split
  · exact h.access
  · split
    · exact h.access
    · split
      · exact h.access.settleAccess.piecesRead
      · exact h.access.settleAccess

theorem scalarLoad (h : s.Formed b) {sl p r rb t disp acquire} : (s.scalarLoad sl p r rb t disp acquire).Formed b :=
  h.when fun _ h => h.memRegs fun s h => by
  dsimp only; split
  · exact h.load
  · exact h.load.postScalar

theorem noteStore (h : s.Formed b) {slot units} : (s.noteStore slot units).Formed b := branch h h

theorem store (h : s.Formed b) {slot u units bad md release} : (s.store slot u units bad md release).Formed b := by
  unfold State.store; dsimp only; split
  · exact h.access
  · split
    · exact h.access.noteStore.modMe
    · split
      · exact h.access.holdFor
      · exact h.access.noteStore.modMe

theorem scalarStore (h : s.Formed b) {sl p r rb t disp release} :
    (s.scalarStore sl p r rb t disp release).Formed b :=
  h.when fun _ h => h.memRegs fun _ h => branch h.deferReg h.store

theorem storeFirst (h : s.Formed b) {slot va} : (s.storeFirst slot va).1.Formed b := by
  unfold State.storeFirst; dsimp only; split
  · exact h
  · split
    · exact h
    · split
      · exact h.access.holdFor
      · split
        all_goals
          split
          · split
            · exact h.access.aliasFirst
            · exact h.access.holdFor
          · exact h

theorem tagAt (h : s.Formed b) {slot va} : (s.tagAt slot va).1.Formed b := by
  unfold State.tagAt; split
  · exact h
  · exact h.access

theorem cacheOp (h : s.Formed b) {sl p rb g d} : (s.cacheOp sl p rb g d).Formed b :=
  h.when fun _ h => h.memRegs fun s h => by
  dsimp only; split
  · exact h.access
  · exact branch h.access.holdFor (branch h.access h.access.modMe)

theorem atomic (h : s.Formed b) {sl p r rb data rel f} : (s.atomic sl p r rb data rel f).Formed b :=
  h.when fun _ h => h.memRegs fun s h => by
  dsimp only; split
  · exact h.deferReg
  · split
    · exact h.access
    · split
      · refine branch h.access.postScalar (postScalar ?_)
        split
        · exact h.access.modMe
        · exact h.access
      · refine branch h.access.holdFor (branch h.access.holdFor (branch h.access.settleAccess ?_))
        refine branch h.access.settleAccess.piecesRead.postScalar (postScalar ?_)
        split
        · exact h.access.settleAccess.piecesRead.writeMem
        · exact h.access.settleAccess.piecesRead

/-! ### Rings, jobs and tasks -/

theorem ringFlush (h : s.Formed b) {i fuel} : (s.ringFlush i fuel).Formed b := by
  induction fuel generalizing s with
  | zero => exact h
  | succ n ih =>
    unfold State.ringFlush; dsimp only; split
    · exact h
    · split
      · exact h
      · exact ih h.setRing.ringPut.tellRing

theorem partWalk (h : s.Formed b) {q ch va} : (s.partWalk q ch va).1.Formed b := by
  unfold State.partWalk; split
  · exact h
  · split
    · exact h
    · exact h.walkFor

theorem addOne (h : s.Formed b) {mid e va} : (s.addOne mid e va).1.Formed b := by
  unfold State.addOne; dsimp only; split
  · exact h
  · split
    · split
      · exact h.recallRange.readMem.sealEvent
      · exact h.recallRange.readMem.writeMem
    · exact h.recallRange.readMem

theorem setJob (h : s.Formed b) {q j x} : (s.setJob q j x).Formed b := h
theorem modJob (h : s.Formed b) {q j f} : (s.modJob q j f).Formed b := h
theorem countTask (h : s.Formed b) {i t} : (s.countTask i t).Formed b := h
theorem spoilTask (h : s.Formed b) {i t} : (s.spoilTask i t).Formed b := h
theorem withdraw (h : s.Formed b) {c id} : (s.withdraw c id).Formed b := h

theorem leaveBar (h : s.Formed b) {c} : (s.leaveBar c).Formed b := by
  unfold State.leaveBar; split
  · exact h.withdraw
  · exact h

theorem settleCheck (h : s.Formed b) {c} : (s.settleCheck c).Formed b := branch h.modCore h

theorem settleCore (h : s.Formed b) {c} : (s.settleCore c).Formed b :=
  settleCheck (modCore ((leaveBar h (c := c)).takeFree 20))

theorem stopTask (h : s.Formed b) {i t} : (s.stopTask i t).Formed b := by
  unfold State.stopTask; dsimp only
  have ended : ∀ {s : State}, s.Formed b →
      ((s.modJob t.q t.job fun j => { j with wasCancelled := true }).spoilTask i t).Formed b := fun h => h.same
  split
  · exact h
  · exact ended h
  · exact ended h
  all_goals
    split
    · exact h
    · split
      · exact ended h.settleCore.modCore
      · exact ended h.settleCore.modCore
      · split
        · exact branch (ended h.settleCore) h.modCore
        · exact h.modCore
      · exact branch (ended h.settleCore) h.modCore
      · exact h.modCore

theorem stopTasks (h : s.Formed b) {sel xs} : (s.stopTasks sel xs).Formed b := by
  induction xs generalizing s with
  | nil => exact h
  | cons i l ih =>
    unfold State.stopTasks; split
    · exact branch (ih h.stopTask) (ih h)
    · exact ih h

theorem cancelScope (h : s.Formed b) {q j sel} : (s.cancelScope q j sel).Formed b := h.modJob.stopTasks

theorem childDone (h : s.Formed b) {q j x} : (s.childDone q j x).Formed b := by
  unfold State.childDone; dsimp only; split
  · exact h
  · split
    · exact branch h.partWalk.addOne h.partWalk.addOne.modJob.cancelScope
    · exact branch h.partWalk h.partWalk.modJob.cancelScope

theorem schedRead (h : s.Formed b) {q ch va n} : (s.schedRead q ch va n).1.Formed b := by
  unfold State.schedRead; dsimp only; split
  · exact h.partWalk
  · split
    · exact h.partWalk.recallRange.readMem
    · exact h.partWalk

theorem modTask (h : s.Formed b) {i f} : (s.modTask i f).Formed b := h

theorem assign (h : s.Formed b) {i q} : (s.assign i q).Formed b := by
  unfold State.assign; split <;> exact h.same

theorem enterTasks (h : s.Formed b) {xs} : (s.enterTasks xs).Formed b := by
  induction xs generalizing s with
  | nil => exact h
  | cons t l ih => exact ih (assign h.same)

theorem endTask (h : s.Formed b) {i o} : (s.endTask i o).Formed b := by
  unfold State.endTask; split
  · exact h
  · split
    · exact h.countTask
    · exact h.spoilTask.modJob
    · exact h.spoilTask.modJob.cancelScope

theorem failUnplaced (h : s.Formed b) {i cause addr} : (s.failUnplaced i cause addr).Formed b := by
  unfold State.failUnplaced; split
  · exact h
  · exact h.inform.endTask

theorem release (h : s.Formed b) {q j g l} : (s.release q j g l).Formed b := by
  unfold State.release; dsimp only; split
  · exact h.modJob.schedRead.enterTasks
  · exact failUnplaced (assign (same h.modJob.schedRead))

theorem setFunc (h : s.Formed b) {f x} : (s.setFunc f x).Formed b := h

theorem deviceWrite (h : s.Formed b) {mid da bs} : (s.deviceWrite mid da bs).Formed b :=
  branch h.recallRange.writeMem h.permEvent

theorem writeRecord (h : s.Formed b) {f ch bs} : (s.writeRecord f ch bs).Formed b := h.deviceWrite.deviceWrite.setFunc

theorem putRecord (h : s.Formed b) {f ch utag seq taskid cause status phase} :
    (s.putRecord f ch utag seq taskid cause status phase).Formed b := by
  unfold State.putRecord; dsimp only; split
  · exact h.same
  · exact writeRecord (h.takeFree 64)

theorem answerFences (h : s.Formed b) {f fuel} : (s.answerFences f fuel).Formed b := by
  induction fuel generalizing s with
  | zero => exact h
  | succ n ih =>
    unfold State.answerFences; split
    · exact ih h.setFunc.putRecord
    · exact h

theorem record (h : s.Formed b) {f ch utag seq taskid cause status phase} :
    (s.record f ch utag seq taskid cause status phase).Formed b :=
  h.putRecord.answerFences

theorem endJob (h : s.Formed b) {q j} : (s.endJob q j).Formed b := by
  unfold State.endJob; dsimp only; split <;> exact h.setJob.record

theorem progress (h : s.Formed b) {q j fuel} : (s.progress q j fuel).Formed b := by
  induction fuel generalizing s with
  | zero => exact h
  | succ n ih =>
    unfold State.progress; dsimp only; split
    · exact h
    · split
      · exact ih h.modJob.childDone
      · exact ih h.modJob
      · exact ih h.release
      · exact branch h.endJob h

theorem advance (h : s.Formed b) {q j} : (s.advance q j).Formed b := h.progress

theorem advanceAll (h : s.Formed b) : s.advanceAll.Formed b := h.foldl _ fun _ _ h => h.foldl _ fun _ _ h => h.advance

theorem flushAll (h : s.Formed b) {xs} : (s.flushAll xs).Formed b := by
  induction xs generalizing s with
  | nil => exact h
  | cons x l ih => exact ih (branch h.same h.writeRecord.answerFences)

theorem flushRecords (h : s.Formed b) : s.flushRecords.Formed b := flushAll h.same

theorem unstall (h : s.Formed b) : s.unstall.Formed b :=
  (flushRecords (h.foldl _ fun _ _ h => h.ringFlush)).advanceAll

theorem regionsClosed (h : s.Formed b) {s0} : (s.regionsClosed s0).Formed b := branch h.unstall h

theorem finishTask (h : s.Formed b) {i o} : (s.finishTask i o).Formed b := by
  unfold State.finishTask; split
  · exact h
  · exact h.endTask.advance.regionsClosed

theorem escalated (h : s.Formed b) {c k i t r} : (s.escalated c k i t r).Formed b := by
  unfold State.escalated
  exact branch (branch h.finishTask h.modTask) h.inform.finishTask

theorem releaseCore (h : s.Formed b) {c} : (s.releaseCore c).Formed b := branch h.modCore h.modCore.unstall

theorem afterEscalation (h : s.Formed b) {c i t r} : (s.afterEscalation c i t r).Formed b := h.releaseCore.escalated

/-! ### Traps -/

theorem takeTrap (h : s.Formed b) {c t reissue} : (s.takeTrap c t reissue).Formed b :=
  modCore (post (h.number { t with held := true }))

theorem cancelHere (h : s.Formed b) {c} : (s.cancelHere c).Formed b := by
  unfold State.cancelHere; dsimp only; split
  · exact finishTask (regionsClosed (branch h.settleCore.modCore h.settleCore))
  · exact regionsClosed (branch h.settleCore.modCore h.settleCore)

theorem trapNow (h : s.Formed b) {c r reissue} : (s.trapNow c r reissue).Formed b :=
  branch h.takeTrap.cancelHere h.takeTrap

theorem trapCore (h : s.Formed b) {c r reissue} : (s.trapCore c r reissue).Formed b := branch h.trapNow h.modCore

theorem watchdogTrap (h : s.Formed b) {c} : (s.watchdogTrap c).Formed b := h.trapCore

theorem answer (h : s.Formed b) {cs r} : (s.answer cs r).Formed b := h.foldl _ fun _ _ h => h.modCore

theorem trapReady (h : s.Formed b) {c} : (s.trapReady c).Formed b := by
  unfold State.trapReady; split
  · exact branch h.trapNow h
  · exact h

theorem returnTask (h : s.Formed b) {c k} : (s.returnTask c k).Formed b := by
  unfold State.returnTask; split
  · exact h
  · split
    · exact h
    · exact h.escalated
    · exact branch h.finishTask h.modTask

theorem settled (h : s.Formed b) {c} : (s.settled c).Formed b := by
  unfold State.settled; dsimp only; split
  · exact h
  · split
    · exact advance (returnTask (branch h.modCore h.modCore.unstall))
    · exact returnTask (branch h.modCore h.modCore.unstall)

theorem afterAccess (h : s.Formed b) {c kids} : (s.afterAccess c kids).Formed b :=
  (settled (branch h h.advanceAll)).trapReady

theorem arrivalValue (h : s.Formed b) {c e v} : (s.arrivalValue c e v).1.Formed b := by
  unfold State.arrivalValue; split
  · exact h.configLoad
  · exact h

theorem kidsFreed (h : s.Formed b) {k} : (s.kidsFreed k).Formed b := branch h.advanceAll h

theorem loseCore (h : s.Formed b) {c} : (s.loseCore c).Formed b := h.leaveBar.modCore.kidsFreed.settled

theorem failHere (h : s.Formed b) {c cause} : (s.failHere c cause).Formed b := by
  unfold State.failHere; dsimp only; split
  · exact h.settleCore.finishTask
  · exact h.settleCore

/-! ### The turn of a core that issues -/

theorem freeze (h : s.Formed b) {c w slot} : (s.freeze c w slot).Formed b := by
  unfold State.freeze
  exact branch h.modCore.cancelHere (branch h.modCore.modCore h.modCore)

theorem abandon (h : s.Formed b) {c r} : (s.abandon c r).Formed b := h.modCore.kidsFreed

theorem nullify (h : s.Formed b) {t c f} : (s.nullify t c f).Formed b := by
  unfold State.nullify
  exact branch (abandon (leaveBar h.same)) (trapCore (leaveBar h.same))

theorem startIssue (h : s.Formed b) {c bundle} : (s.startIssue c bundle).Formed b := h

theorem arrive (h : s.Formed b) {c id n} : (s.arrive c id n).Formed b := by
  unfold State.arrive; dsimp only
  exact branch (branch h.answer h.same) (branch h.answer (branch (answer h.same) h.same))

theorem request (h : s.Formed b) {c r} : (s.request c r).Formed b := by
  unfold State.request; split
  · exact h
  · dsimp only; split
    · exact h.modCore.arrive
    · exact h.modCore

theorem holdBundle (h : s.Formed b) {t c w} : (s.holdBundle t c w).Formed b :=
  freeze (request h.same)

theorem beginEnding (h : s.Formed b) {c} : (s.beginEnding c).Formed b := by
  unfold State.beginEnding; dsimp only; split
  · exact h.modCore.modTask
  · exact h.modCore

theorem failTask (h : s.Formed b) {c r} : (s.failTask c r).Formed b := by
  unfold State.failTask; dsimp only; split
  · exact h.inform.settleCore.regionsClosed.finishTask
  · exact h.inform.settleCore.regionsClosed

theorem afterCommit (h : s.Formed b) {r c} : (State.afterCommit r s c).Formed b := by
  unfold State.afterCommit; dsimp only; split
  · exact h.cancelHere
  · split
    · exact h.beginEnding
    · exact h.failTask
    · exact h.trapCore
    · exact branch h.modCore h

theorem launched (h : s.Formed b) {r c} : (State.launched r s c).Formed b := by
  unfold State.launched; split
  · exact h.modCore.advance
  · exact h

theorem commitCore (h : s.Formed b) {c} : (s.commitCore c).Formed b := h.modCore

theorem finishIssue (h : s.Formed b) (ht : t.Formed b) {c} : (s.finishIssue t c).Formed b := by
  unfold State.finishIssue; split
  · exact h.nullify
  · split
    · exact h.holdBundle
    · exact same ht.commitCore.launched.afterCommit

/-! ### Registers of configuration space -/

theorem bySup {f : State → State} (h : s.Formed b) {mid} (hf : ∀ s, s.Formed b → (f s).Formed b) :
    (s.bySup mid f).Formed b :=
  branch (hf s h) h.cfgError

theorem stripeOn (h : s.Formed b) {w mid v} : (s.stripeOn w mid v).Formed b := branch h.cfgError h.same

theorem stripeOff (h : s.Formed b) {w v} : (s.stripeOff w v).Formed b := h.same

theorem stripeW0 (h : s.Formed b) {w mid v} : (s.stripeW0 w mid v).Formed b :=
  h.bySup fun _ h => branch h.stripeOn h.stripeOff

theorem stripeW12 (h : s.Formed b) {w mid second v} : (s.stripeW12 w mid second v).Formed b :=
  branch h.cfgError h.same

theorem pcore (h : s.Formed b) {q mid hi v} : (s.pcore q mid hi v).Formed b := by
  unfold State.pcore; dsimp only
  exact branch h.cfgError (h.modPart.foldl _ fun _ _ h => branch h.modCore (branch h.modCore h))

theorem psch (h : s.Formed b) {q mid v} : (s.psch q mid v).Formed b := branch h.cfgError h.modPart

theorem setCap (h : s.Formed b) {q v} : (s.setCap q v).Formed b := h.modPart.foldl _ fun _ _ h => branch h.modCore h

theorem setPevown (h : s.Formed b) {q mid v} : (s.setPevown q mid v).Formed b :=
  branch h.cfgError (branch h.modPart.cfgError h.modPart)

theorem setStall (h : s.Formed b) {q mid v} : (s.setStall q mid v).Formed b := branch h.cfgError h.modPart

theorem cancel (h : s.Formed b) {q j whole sel} : (s.cancel q j whole sel).Formed b :=
  branch h.modJob.cancelScope.advance.regionsClosed h

theorem cancelJob (h : s.Formed b) {q mid j} : (s.cancelJob q mid j).Formed b := branch h.cancel h.cfgError
theorem cancelGraph (h : s.Formed b) {q mid j gix} : (s.cancelGraph q mid j gix).Formed b :=
  branch h.cancel h.cfgError
theorem cancelLaunch (h : s.Formed b) {q mid j gix lix} : (s.cancelLaunch q mid j gix lix).Formed b :=
  branch h.cancel h.cfgError

theorem jcan (h : s.Formed b) {q mid v} : (s.jcan q mid v).Formed b := by
  unfold State.jcan; dsimp only; split
  · exact h.cfgError
  · split
    · exact h.cancelJob
    · exact h.cancelGraph
    · exact h.cancelLaunch
    · exact h.cfgError

theorem setMseq (h : s.Formed b) {q m v} : (s.setMseq q m v).Formed b := h.modPart.answer
theorem setBud (h : s.Formed b) {q mid v} : (s.setBud q mid v).Formed b := branch h.cfgError h.modPart
theorem setGp (h : s.Formed b) {q n v} : (s.setGp q n v).Formed b := h.modPart

theorem partSet (h : s.Formed b) {q mid o v} : (s.partSet q mid o v).Formed b := by
  unfold State.partSet
  exact branch h.pcore <| branch h.pcore <| branch h.psch <| branch h.setCap <| branch h.modPart <|
    branch (h.bySup fun _ h => h.modPart) <| branch h.setPevown <| branch h.modPart <| branch h.setStall <| branch h.jcan <|
    branch (h.bySup fun _ h => h.setMseq) <| branch (h.bySup fun _ h => h.setBud) <| branch (h.bySup fun _ h => h.setGp) h

theorem sleepAsk (h : s.Formed b) : s.sleepAsk.Formed b := by
  unfold State.sleepAsk; split <;> exact h.same

theorem wakeAsk (h : s.Formed b) : s.wakeAsk.Formed b := by
  unfold State.wakeAsk; split <;> exact h.same

theorem slpctl (h : s.Formed b) {v} : (s.slpctl v).Formed b :=
  branch (wakeAsk (branch h.sleepAsk h)) (branch h.sleepAsk h)

theorem setKey (h : s.Formed b) {k x} : (s.setKey k x).Formed b := h

theorem keyFresh (h : s.Formed b) {mid k} : (s.keyFresh mid k).Formed b := branch h.cfgError h.same
theorem keyNext (h : s.Formed b) {mid k} : (s.keyNext mid k).Formed b := branch h.cfgError h.same

theorem rekeyTile (h : s.Formed b) {k t} : (s.rekeyTile k t).1.Formed b := by
  unfold State.rekeyTile; dsimp only; split
  · exact h
  · split
    · exact h
    · split
      all_goals
        split
        · exact h.unraw.dropStale.setRec
        · exact h

theorem rekeyTiles (h : s.Formed b) {k xs} : (s.rekeyTiles k xs).1.Formed b := by
  induction xs generalizing s with
  | nil => exact h
  | cons t l ih =>
    unfold State.rekeyTiles; dsimp only
    split <;> exact ih h.rekeyTile

theorem rekeyEnd (h : s.Formed b) {k} : (s.rekeyEnd k).Formed b := by
  unfold State.rekeyEnd; dsimp only; split
  · exact h
  · exact h.rekeyTiles.setKey

theorem rekeyStart (h : s.Formed b) {mid k n} : (s.rekeyStart mid k n).Formed b := branch h.cfgError h.rekeyEnd.setKey
theorem keyDrop (h : s.Formed b) {mid k} : (s.keyDrop mid k).Formed b := branch h.cfgError h.setKey
theorem keyWipe (h : s.Formed b) {mid k} : (s.keyWipe mid k).Formed b := branch h.cfgError h.same

theorem kcmd (h : s.Formed b) {mid v} : (s.kcmd mid v).Formed b := by
  unfold State.kcmd; dsimp only; split
  · exact h.cfgError
  · split
    · exact h
    · exact h.keyFresh
    · exact h.keyNext
    · exact h.rekeyStart
    · exact h.keyDrop
    · exact h.keyWipe
    · exact h.cfgError

theorem setDevown (h : s.Formed b) {mid v} : (s.setDevown mid v).Formed b := by
  unfold State.setDevown
  exact branch h.cfgError (branch (cfgError h.same) h.same)

theorem setEvdl (h : s.Formed b) {mid v} : (s.setEvdl mid v).Formed b := branch h.cfgError h.same
theorem evack (h : s.Formed b) {ch seq} : (s.evack ch seq).Formed b := h.same
theorem setRgbase (h : s.Formed b) {i mid v} : (s.setRgbase i mid v).Formed b := branch h.cfgError h.setRing

theorem ringDrain (h : s.Formed b) {i fuel} : (s.ringDrain i fuel).Formed b := by
  induction fuel generalizing s with
  | zero => exact h
  | succ n ih =>
    unfold State.ringDrain; dsimp only; split
    · exact h
    · exact branch (ih h.setRing.ringTold) h

theorem setRgidx (h : s.Formed b) {i mid v} : (s.setRgidx i mid v).Formed b := branch h.cfgError h.setRing.ringDrain

theorem resumeTrap (h : s.Formed b) {c} : (s.resumeTrap c).Formed b := h.modCore
theorem trResume (h : s.Formed b) {mid c} : (s.trResume mid c).Formed b := branch h.cfgError h.resumeTrap
theorem trSave (h : s.Formed b) {mid c} : (s.trSave mid c).Formed b := branch h.cfgError h.modCore
theorem trEnd (h : s.Formed b) {mid c} : (s.trEnd mid c).Formed b := branch h.cfgError h.failHere

theorem trctl (h : s.Formed b) {mid c v} : (s.trctl mid c v).Formed b := by
  unfold State.trctl; split
  · exact h.trResume
  · exact h.trSave
  · exact h.trEnd
  · exact h.cfgError

theorem xlinvStart (h : s.Formed b) {ch v} : (s.xlinvStart ch v).Formed b := h.same
theorem xlinv (h : s.Formed b) {ch mid v} : (s.xlinv ch mid v).Formed b :=
  branch h.cfgError (branch h.same h.xlinvStart)

theorem cxres (h : s.Formed b) {ch mid v} : (s.cxres ch mid v).Formed b := by
  unfold State.cxres; split
  · exact h.cfgError
  · exact branch h.modCore h.modCore

theorem raiseMin (h : s.Formed b) {mid v} : (s.raiseMin mid v).Formed b := h.bySup fun _ h => h.same

theorem setFuncPart (h : s.Formed b) {mid f v} : (s.setFuncPart mid f v).Formed b := h.bySup fun _ h => by
  split
  · exact h.setFunc
  · split
    · exact branch h.cfgError h.setFunc
    · exact h.cfgError

theorem setHdm (h : s.Formed b) {mid i n v} : (s.setHdm mid i n v).Formed b :=
  h.bySup fun _ h => branch h.cfgError h.same

theorem setEngine (h : s.Formed b) {e x} : (s.setEngine e x).Formed b := h

theorem inStore (h : s.Formed b) {mid e f} : (s.inStore mid e f).Formed b := branch h.cfgError (branch h.setEngine h)
theorem entryStore (h : s.Formed b) {mid e n v} : (s.entryStore mid e n v).Formed b := h.inStore
theorem friskSet (h : s.Formed b) {writer t mid n w} : (s.friskSet writer t mid n w).Formed b :=
  branch h.cfgError h.same

theorem regSet (h : s.Formed b) {mid o v} : (s.regSet mid o v).Formed b := by
  unfold State.regSet
  refine branch ?_ <| branch h.partSet <| branch h.slpctl <| branch (branch h.modCore h) <| branch h.kcmd <| branch h.same <|
    branch h.setDevown <| branch h.setEvdl <| branch h.evack <| branch h.setRgbase <| branch h.setRgidx <| branch ?_ <|
    branch (branch h.trctl h) <| branch ?_ <| branch ?_ <| branch h.same <| branch h.raiseMin <| branch h.setFuncPart <|
    branch h.setHdm <| branch h.entryStore <| branch h.friskSet h
  · dsimp only; split
    · exact h.stripeW0
    · exact h.stripeW12
    · exact h.stripeW12
    · exact h
  · dsimp only; split
    · exact h.setRgbase
    · exact h.setRgidx
    · exact h
  · dsimp only; split
    · exact h.xlinv
    · exact h.cxres
    · exact h
  · dsimp only; split
    · exact h.setFunc
    · exact h.setFunc
    · exact h.bySup fun _ h => h.setFunc
    · exact h

theorem storeWrite (h : s.Formed b) {mid o bs} : (s.storeWrite mid o bs).1.Formed b := by
  unfold State.storeWrite; dsimp only; split
  · split
    · exact h.modCore
    · exact h
  · split
    · exact h.setChase
    · exact h

theorem configWrite (h : s.Formed b) {mid addr bs} : (s.configWrite mid addr bs).1.Formed b := by
  generalize ef : @State.configWrite = f
  delta State.configWrite at ef
  obtain ⟨o, ho⟩ : ∃ o, o = addr - configBase := ⟨_, rfl⟩
  rw [← congrFun (congrFun (congrFun (congrFun ef s) mid) addr) bs, ← ho]
  dsimp only
  split
  · exact h.storeWrite
  · split
    · exact h.regSet
    · exact h

theorem configStore (h : s.Formed b) {mid addr bs} : (s.configStore mid addr bs).Formed b := by
  generalize ef : @State.configStore = f
  delta State.configStore at ef
  rw [← congrFun (congrFun (congrFun (congrFun ef s) mid) addr) bs]
  split
  next e => exact branch (h.configWrite.of_eq e) h.permEvent

/-! ### Performing stores -/

theorem performRun (h : s.Formed b) {c r} : (s.performRun c r).Formed b := by
  unfold State.performRun; split
  · exact h.configStore
  · exact branch h.same h.permEvent
  · exact branch h.permEvent (branch h.storEvent h.same)
  · exact h

theorem grantLine (h : s.Formed b) {l da} : (s.grantLine l da).Formed b := by
  unfold State.grantLine; split
  · exact branch h h.same
  · exact h

theorem cleanLine (h : s.Formed b) {l} : (s.cleanLine l).Formed b := branch h.recallLine.grantLine h

theorem performAt (h : s.Formed b) {c x} : (s.performAt c x).Formed b :=
  foldl (foldl h.performMem _ fun _ _ h => h.cleanLine) _ fun _ _ h => h.performRun

theorem performStore (h : s.Formed b) {c k} : (s.performStore c k).Formed b := by
  unfold State.performStore; split
  · split
    · exact h.modCore.performAt.afterAccess
    · exact h
  · exact h

theorem sealMerged (h : s.Formed b) {t} : (s.sealMerged t).Formed b := by
  unfold State.sealMerged; dsimp only; split
  · exact h
  · split
    · exact h
    · split
      · refine foldl ?_ _ fun _ _ h => h.afterAccess
        have h1 : ∀ ws : List (CoreId × List PendStore),
            (ws.foldl (fun s w => s.modCore w.1 fun m => { m with stores := m.stores.drop w.2.length }) s).Formed b :=
          fun ws => h.foldl ws fun _ _ h => h.modCore
        split
        · exact (h1 _).rowRead.sealPart.rowWritten
        · exact (h1 _).rowRead.sealPart.sealEvent.rowWritten
        · exact (h1 _).rowRead.sealPart.foldl _ fun _ _ h => h.sealEvent
      · exact h

/-! ### Copies -/

theorem copySpot (h : s.Formed b) {c va n w part} : (s.copySpot c va n w part).1.Formed b := by
  unfold State.copySpot; dsimp only; split
  · exact h.copyPiece
  · split
    · exact h.copyPiece
    · exact h.copyPiece.permEvent

theorem inTime (h : s.Formed b) : s.inTime.1.Formed b := h.takeFree 1
theorem freeBytes (h : s.Formed b) (n : Nat) : (s.freeBytes n).1.Formed b := h.takeFree (8 * n)

theorem readPage (h : s.Formed b) {c p} : (s.readPage c p).1.Formed b := by
  unfold State.readPage; split
  · exact h.readMem
  · exact h.readMem
  · dsimp only
    exact freeBytes (branch h.inTime h.inTime.hportEvent) p.n

theorem readPages (h : s.Formed b) {c xs} : (s.readPages c xs).1.Formed b := by
  induction xs generalizing s with
  | nil => exact h
  | cons x l ih =>
    unfold State.readPages; dsimp only; split
    · exact h.copySpot
    · split <;> exact ih h.copySpot.readPage

theorem readSrc (h : s.Formed b) {c va n} : (s.readSrc c va n).1.Formed b := by
  unfold State.readSrc; split
  · exact h
  · exact h.readPages

theorem partData (h : s.Formed b) {c x p} : (s.partData c x p).1.Formed b := by
  unfold State.partData; split
  · exact h
  · dsimp only; split
    · exact h.readSrc
    · split
      · exact h.readSrc
      · split <;> exact h.readSrc
      · exact h.readSrc

theorem dstSpot (h : s.Formed b) {c x e p} : (s.dstSpot c x e p).1.Formed b := by
  unfold State.dstSpot; split
  · exact h
  · dsimp only; split
    · exact h.copySpot
    · split
      · split <;> exact h.copySpot
      · exact h.copySpot

theorem partWrites (h : s.Formed b) {c x e xs} : (s.partWrites c x e xs).1.Formed b := by
  induction xs generalizing s with
  | nil => exact h
  | cons p l ih =>
    unfold State.partWrites; dsimp only; split
    · exact h.partData
    · split
      · exact h.partData.dstSpot
      · split <;> exact ih h.partData.dstSpot

theorem elemWrites (h : s.Formed b) {c x i fuel} : (s.elemWrites c x i fuel).1.Formed b := by
  induction fuel generalizing s i with
  | zero => exact h
  | succ n ih =>
    unfold State.elemWrites; dsimp only; split
    · exact h.partWrites
    · exact ih h.partWrites

theorem writePlain (h : s.Formed b) {c x w} : (s.writePlain c x w).Formed b := by
  unfold State.writePlain; split
  · exact h.modCore
  · dsimp only; split
    · exact branch h.inTime.same h.inTime.hportEvent
    · exact h

theorem writeTile (h : s.Formed b) {c x t slot whole k ws} : (s.writeTile c x t slot whole k ws).Formed b := by
  unfold State.writeTile; split
  · exact h.permEvent
  · dsimp only; split
    · exact h.rowRead.sealPart.rowWritten
    · exact h.rowRead.sealPart.sealEvent.rowWritten
    · exact h.rowRead.sealPart.sealEvent

theorem writeUnits (h : s.Formed b) {c x n esc ws old xs} : (s.writeUnits c x n esc ws old xs).Formed b := by
  induction xs generalizing s with
  | nil => exact h
  | cons u l ih =>
    unfold State.writeUnits; dsimp only; split
    · exact ih h.modCore
    · exact ih (h.foldl _ fun _ _ h => h.writeTile)

theorem copyRun (h : s.Formed b) {c x esc} : (s.copyRun c x esc).1.Formed b := by
  have h1 := h.elemWrites (c := c) (x := x) (i := x.start) (fuel := x.count - x.start)
  unfold State.copyRun; split
  next s1 ws stop e =>
  rw [e] at h1
  dsimp only; split <;> exact writeUnits (foldl h1 _ fun _ _ h => branch h.writePlain h)

theorem copyFinish (h : s.Formed b) {c k isp} : (s.copyFinish c k isp).Formed b := by
  unfold State.copyFinish; split
  · exact h
  · split
    · exact h
    · split
      next e =>
      split
      · exact h
      · exact (h.copyRun.of_eq e).modCore.settled

theorem copyRecord (h : s.Formed b) {c ctx x f} : (s.copyRecord c ctx x f).Formed b := h.inform

theorem residency (h : s.Formed b) {c tag esc xs} : (s.residency c tag esc xs).1.Formed b := by
  induction xs generalizing s with
  | nil => exact h.modCore
  | cons x l ih =>
    unfold State.residency; split
    · exact h.modCore
    · split
      next e =>
      have h1 := h.copyRun.of_eq e
      split
      · exact ih h1.modCore
      · exact h1.copyRecord.modCore

/-! ### Channels, calls and galley commands -/

theorem setChan (h : s.Formed b) {ch x} : (s.setChan ch x).Formed b := h
theorem pushChan (h : s.Formed b) {ch x} : (s.pushChan ch x).Formed b := h

theorem pushWork (h : s.Formed b) {c x} : (s.pushWork c x).Formed b := by
  unfold State.pushWork; split
  · exact h.foldl _ fun _ _ h => h.pushChan
  · exact h.foldl _ fun _ _ h => h.pushChan
  · exact h.foldl _ fun _ _ h => h.pushChan
  · exact h
  · exact h

theorem galleySettle (h : s.Formed b) {c} : (s.galleySettle c).Formed b := h.modCore.settled

theorem callStatus (h : s.Formed b) {c n} : (s.callStatus c n).Formed b := by
  unfold State.callStatus; split
  · split
    · exact branch h.modCore h
    · exact h
  · exact h

theorem endPart (h : s.Formed b) {c n y} : (s.endPart c n y).Formed b := h.modCore.callStatus.galleySettle

theorem endCall (h : s.Formed b) {x r} : (s.endCall x r).Formed b := by
  unfold State.endCall; dsimp only; split
  · exact endPart (branch h.setEngine.modCore h.setEngine)
  · exact endPart (engineEvent (branch h.setEngine.modCore h.setEngine))

theorem takeWork (h : s.Formed b) {e} : (s.takeWork e).Formed b := h

theorem endUnknown (h : s.Formed b) {e fuel} : (s.endUnknown e fuel).Formed b := by
  induction fuel generalizing s with
  | zero => exact h
  | succ n ih =>
    unfold State.endUnknown; dsimp only; split
    · exact branch h (ih h.takeWork.setEngine.endCall)
    · exact h

theorem endUnknowns (h : s.Formed b) {ch} : (s.endUnknowns ch).Formed b := h.foldl _ fun _ _ h => h.endUnknown

theorem land (h : s.Formed b) {x now later} : (s.land x now later).1.Formed b ∧ (s.land x now later).2.Formed b := by
  unfold State.land; split
  · exact ⟨h.dropStale, h.dropStale⟩
  · exact ⟨h.setStale, h.rewind.redo⟩

theorem fenceStale (h : s.Formed b) {ch} : (s.fenceStale ch).Formed b := h.foldl _ fun _ _ h => h.land.1

theorem sendStale (h : s.Formed b) {sel} : (s.sendStale sel).Formed b := h.same

theorem retireEngine (h : s.Formed b) {e} : (s.retireEngine e).Formed b := by
  unfold State.retireEngine; dsimp only; split
  · exact h.setEngine.setChan.engEvent
  · exact h.setEngine.setChan.engEvent

theorem controlTested (h : s.Formed b) {e} : (s.controlTested e).Formed b := branch (retireEngine h.same) h

theorem reservedWord (h : s.Formed b) {x} : (s.reservedWord x).1.Formed b := by
  unfold State.reservedWord; dsimp only; split
  · exact h.takeFree 2
  · exact h

/-! ### The entries of the engines -/

/-- An entry that leaves the state formed, whatever it ends with. -/
def KeepsForm (run : State → Call → State × Except GStop GDone) (b : Bool) : Prop :=
  ∀ s x, s.Formed b → (run s x).1.Formed b

theorem runCall (h : s.Formed b) {x run} (hr : KeepsForm run b) : (s.runCall x run).1.Formed b := by
  unfold State.runCall; dsimp only; split
  · exact h.setEngine
  · split
    · exact hr _ _ h.reservedWord
    · exact h.reservedWord
    · exact hr _ _ h.reservedWord

theorem engineCall (h : s.Formed b) {e entry run} (hr : KeepsForm run b) : (s.engineCall e entry run).Formed b := by
  unfold State.engineCall; dsimp only; split
  · exact h
  · have h1 := h.controlTested (e := e.val)
    refine branch h (branch (endUnknowns (endCall h1.same)) (branch ?_ (endUnknowns (endCall (runCall h1.same hr)))))
    exact endUnknowns (retireEngine (endCall h1.same))

theorem needArg {k : State × Except GStop GDone} (h : s.Formed b) (hk : k.1.Formed b) {ok} :
    (needArg s ok k).1.Formed b := by
  unfold Machine.needArg; split
  · exact hk
  · exact h

theorem needBuf {k : State × Except GStop GDone} (h : s.Formed b) (hk : k.1.Formed b) {g ok} :
    (needBuf s g ok k).1.Formed b := by
  unfold Machine.needBuf; split
  · exact h
  · exact h.needArg hk

theorem doneOr {p : State × Option GStop} (h : p.1.Formed b) {e} : (doneOr e p).1.Formed b := by
  unfold Machine.doneOr; split <;> exact h

theorem passTile (h : s.Formed b) {t} : (s.passTile t).1.Formed b ∧ (s.passTile t).2.Formed b := by
  unfold State.passTile; split
  · exact ⟨h, h⟩
  · exact land h.same

theorem engineSeal (h : s.Formed b) {slot t bs m whole old} : (s.engineSeal slot t bs m whole old).1.Formed b := by
  unfold State.engineSeal; dsimp only; split
  · exact branch h.sealWrite.setRec h.sealWrite
  · split
    · exact h
    · exact setStale (redo (branch h.rewind.sealWrite.setRec h.rewind.sealWrite))

theorem writeLocal (h : s.Formed b) {x L bs m old} : (s.writeLocal x L bs m old).1.Formed b := by
  unfold State.writeLocal; dsimp only; split
  · exact h.permEvent
  · split
    · split
      · exact h.passTile.1.engineSeal
      · exact h.passTile.1.engineSeal.rowWritten
    · split
      · exact h.engineSeal
      · exact h.engineSeal.rowWritten

theorem fillTiles (h : s.Formed b) {x bs tag L fuel} : (s.fillTiles x bs tag L fuel).1.Formed b := by
  induction fuel generalizing s L with
  | zero => exact h
  | succ n ih =>
    unfold State.fillTiles; dsimp only; split
    · exact h.writeLocal
    · exact ih h.writeLocal

theorem tilePass (h : s.Formed b) {x L} : (s.tilePass x L).1.Formed b := by
  unfold State.tilePass; dsimp only; split
  · exact h.permEvent
  · split
    · exact h.rowRead
    · split
      · exact h.rowRead.passTile.1
      · exact h.rowRead.passTile.1.poisonTile
      · split <;> exact h.rowRead.passTile.1

theorem copyTiles (h : s.Formed b) {x src dst fuel} : (s.copyTiles x src dst fuel).1.Formed b := by
  induction fuel generalizing s src dst with
  | zero => exact h
  | succ n ih =>
    unfold State.copyTiles; dsimp only; split
    · exact h.tilePass
    · split
      · exact h.tilePass.writeLocal
      · exact ih h.tilePass.writeLocal

theorem sumTiles (h : s.Formed b) {x L acc fuel} : (s.sumTiles x L acc fuel).1.Formed b := by
  induction fuel generalizing s L acc with
  | zero => exact h
  | succ n ih =>
    unfold State.sumTiles; dsimp only; split
    · exact h.tilePass
    · exact ih h.tilePass

theorem passSpan (h : s.Formed b) {x xs} : (s.passSpan x xs).1.Formed b := by
  induction xs generalizing s with
  | nil => exact h
  | cons y l ih =>
    unfold State.passSpan; dsimp only; split
    · exact h.tilePass
    · split <;> exact ih h.tilePass

theorem readLocal (h : s.Formed b) {x L n} : (s.readLocal x L n).1.Formed b := h.passSpan

theorem readRows (h : s.Formed b) {x n xs} : (s.readRows x n xs).1.Formed b := by
  induction xs generalizing s with
  | nil => exact h
  | cons y l ih =>
    unfold State.readRows; dsimp only; split
    · exact h.readLocal
    · split <;> exact ih h.readLocal

theorem appendRow (h : s.Formed b) {x g bs xs} : (s.appendRow x g bs xs).1.Formed b := by
  induction xs generalizing s bs with
  | nil => exact h
  | cons y l ih =>
    unfold State.appendRow; split
    next s1 r e =>
    have h1 : s1.Formed b := by
      refine of_eq ?_ e
      split
      · exact h
      · exact h.tilePass
    split
    · exact h1
    · dsimp only; split
      · exact h1.writeLocal
      · exact ih h1.writeLocal

theorem entryFill : KeepsForm entryFill b := fun s x h => by
  refine h.needArg ?_
  split
  · exact h
  · exact h.fillTiles.doneOr

theorem entryCopy : KeepsForm entryCopy b := fun s x h => by
  refine h.needArg ?_
  split
  · exact h
  · exact h.copyTiles.doneOr

theorem entryCsum : KeepsForm entryCsum b := fun s x h => by
  refine h.needArg ?_
  dsimp only; split <;> exact h.sumTiles

theorem entryGemv {k : GemvKind} : KeepsForm (entryGemv k) b := fun s x h => by
  refine h.needArg (h.needBuf ?_)
  dsimp only; split <;> exact h.readRows

theorem entryKvapp : KeepsForm entryKvapp b := fun s x h => by
  refine h.needArg (h.needBuf ?_)
  split
  · exact h
  · exact h.appendRow.doneOr

theorem entryQk : KeepsForm entryQk b := fun s x h => by
  refine h.needArg (h.needBuf (h.needArg ?_))
  dsimp only; split <;> exact h.readRows

theorem entryAv : KeepsForm entryAv b := fun s x h => by
  refine h.needArg (h.needBuf ?_)
  dsimp only; split <;> exact h.readRows

theorem entryPark : KeepsForm entryPark b := fun _ _ h => h.needArg h

theorem parkRead (h : s.Formed b) {e} : (s.parkRead e).Formed b := branch (memEvent h.same) h

theorem entryUnpark : KeepsForm entryUnpark b := fun s x h => by
  refine h.needArg ?_
  split
  · split
    · exact h
    · exact h.parkRead
  · exact h

/-! ### Self-refresh, repair and retest -/

theorem parkLive (h : s.Formed b) {e} : (s.parkLive e).Formed b := branch h.setEngine h

theorem refreshIn (h : s.Formed b) {ch} : (s.refreshIn ch).Formed b :=
  branch h (setChan (foldl h _ fun _ _ h => h.parkLive))

theorem unparkLive (h : s.Formed b) {e} : (s.unparkLive e).Formed b := by
  unfold State.unparkLive; dsimp only; split
  · exact branch h.setEngine h.parkRead.setEngine
  · exact h

theorem refreshOut (h : s.Formed b) {ch} : (s.refreshOut ch).Formed b :=
  branch (unstall (endUnknowns (setChan (foldl h _ fun _ _ h => h.unparkLive)))) h

theorem failRow (h : s.Formed b) {t} : (s.failRow t).Formed b := branch h h.same

theorem retireCore (h : s.Formed b) {c} : (s.retireCore c).Formed b := by
  unfold State.retireCore
  extract_lets s1 i x
  have h1 : s1.Formed b := h.loseCore
  clear_value s1
  split
  · exact coreEvent (same h1)
  · exact coreEvent (settled (same h1))

/-! ### Accesses of masters and of the host -/

theorem masterRead (h : s.Formed b) {mid da n} : (s.masterRead mid da n).1.Formed b := by
  unfold State.masterRead; split
  · split
    · exact h.readMem
    · exact h.permEvent
  · split
    · exact h.readMem
    · exact h.permEvent
  · split
    · split
      next e => exact h.configRead.of_eq e
    · exact h.permEvent
  · dsimp only; split
    · exact h.permEvent
    · split
      · exact h.inTime.storEvent
      · exact h.inTime.freeBytes n
  · dsimp only; split
    · exact h.permEvent
    · split
      · exact h.inTime.hportEvent
      · exact h.inTime.freeBytes n
  · exact h.permEvent

theorem toHost (h : s.Formed b) {x} : (s.toHost x).Formed b := h

theorem barRead (h : s.Formed b) {f off n} : (s.barRead f off n).Formed b := by
  unfold State.barRead; dsimp only
  exact branch h.recallRange.masterRead.toHost (branch h.toHost (h.freeBytes n).toHost)

theorem otherView (h : s.Formed b) {da n} : (s.otherView da n).Formed b :=
  h.foldl _ fun _ _ h => branch h h.recallLine

theorem hostRead (h : s.Formed b) {da n} : (s.hostRead da n).Formed b := by
  unfold State.hostRead; dsimp only
  exact branch (h.otherView.masterRead.toHost.foldl _ fun _ _ h => h.grantLine) h.otherView.masterRead.toHost

theorem masterWrite (h : s.Formed b) {mid da bs} : (s.masterWrite mid da bs).Formed b := by
  unfold State.masterWrite; split
  · exact branch h.writeMem h.permEvent
  · exact branch h.writeMem h.permEvent
  · exact branch h.configStore h.permEvent
  · dsimp only
    exact branch h.permEvent (branch h.inTime.storEvent h.inTime.same)
  · dsimp only
    exact branch h.permEvent (branch h.inTime.same h.inTime.hportEvent)
  · exact h.permEvent

theorem hostWrite (h : s.Formed b) {da bs} : (s.hostWrite da bs).Formed b := h.otherView.masterWrite

theorem windowOn (h : s.Formed b) {f} : (s.windowOn f).Formed b := branch h h.setFunc.deviceWrite.setFunc

theorem windowOff (h : s.Formed b) {f} : (s.windowOff f).Formed b := branch h.setFunc h

theorem slotWrite (h : s.Formed b) {f off bs} : (s.slotWrite f off bs).Formed b := by
  unfold State.slotWrite; dsimp only; split
  · split
    · exact branch h.windowOn h.windowOff
    · exact h
  · exact h.setFunc.recallRange.masterWrite

theorem peerWrite (h : s.Formed b) {f off bs} : (s.peerWrite f off bs).Formed b := by
  unfold State.peerWrite; split
  · exact h.permEvent
  · exact h.recallRange.masterWrite

theorem peerRead (h : s.Formed b) {f off n} : (s.peerRead f off n).Formed b := by
  unfold State.peerRead; split
  · exact h.permEvent.toHost
  · exact h.recallRange.masterRead.toHost

theorem accDo (h : s.Formed b) {a} : (s.accDo a).Formed b := by
  cases a with
  | memRead hpa n =>
    unfold State.accDo; dsimp only; split
    · exact h.barRead
    · exact h.hostRead
    · exact h
  | memWrite hpa bs =>
    unfold State.accDo; dsimp only; split
    · exact h.hostWrite
    · exact h
  | slotWrite f off bs => exact h.slotWrite
  | window f on => exact branch h.windowOn h.windowOff
  | peerWrite f off bs => exact h.peerWrite
  | peerRead f off n => exact h.peerRead
  | ring v => exact h.setRgidx
  | reg mid addr v => unfold State.accDo; exact h.configStore

theorem holdHost (h : s.Formed b) {i wakes} : (s.holdHost i wakes).Formed b := same (branch h.wakeAsk h)

theorem hostAccess (h : s.Formed b) {x} : (s.hostAccess x).Formed b :=
  branch (branch h.accDo.wakeAsk h.holdHost) (branch h h.accDo)

/-! ### Command slots and placement -/

theorem readSlot (h : s.Formed b) {f} : (s.readSlot f).1.Formed b := h.recallRange.readMem

theorem takeSlot (h : s.Formed b) {f} : (s.takeSlot f).1.Formed b := h.readSlot.setFunc

theorem readGraph (h : s.Formed b) {q g} : (s.readGraph q g).1.Formed b := by
  unfold State.readGraph; split
  · exact h
  · exact h.recallRange.readMem

theorem later (h : s.Formed b) : s.later.Formed b := h

theorem failPlace (h : s.Formed b) {i t} : (s.failPlace i t).Formed b := h.failUnplaced.advance.regionsClosed

theorem inputWord (h : s.Formed b) {t va} : (s.inputWord t va).1.Formed b := h.schedRead

theorem inputsReady (h : s.Formed b) {t xs} : (s.inputsReady t xs).1.Formed b := by
  induction xs generalizing s with
  | nil => exact h
  | cons y l ih =>
    unfold State.inputsReady; dsimp only; split
    · exact h
    · split
      · exact h.inputWord
      · split
        · exact h.inputWord
        · exact ih h.inputWord

theorem makeReady (h : s.Formed b) {i} : (s.makeReady i).Formed b := h.modTask

theorem recheckTask (h : s.Formed b) {i} : (s.recheckTask i).Formed b := by
  unfold State.recheckTask; split
  · exact h
  · split
    · exact h
    · extract_lets s0 t1
      have h0 : s0.Formed b := branch h.assign h
      split
      · exact h0
      · split
        · exact h0.failPlace
        · split
          next s1 x e =>
          have h1 := h0.inputsReady.of_eq e
          split
          · exact h1.failUnplaced.advance.regionsClosed
          · exact h1.makeReady
          · exact h1

theorem recheck (h : s.Formed b) {q} : (s.recheck q).Formed b := by
  unfold State.recheck; split
  · exact h
  · exact later (foldl h _ fun _ _ h => h.recheckTask)

theorem recheckOf (h : s.Formed b) {f} : (s.recheckOf f).Formed b := by
  unfold State.recheckOf; split
  · exact h.recheck
  · exact h

theorem slotRecord (h : s.Formed b) {f u status} : (s.slotRecord f u status).Formed b := h.record

theorem readComps (h : s.Formed b) {q xs} : (s.readComps q xs).1.Formed b := by
  induction xs generalizing s with
  | nil => exact h
  | cons g l ih =>
    cases g with
    | none => exact ih h
    | some g => exact ih h.readGraph

theorem jobGraphs (h : s.Formed b) {q g} : (s.jobGraphs q g).1.Formed b := by
  unfold State.jobGraphs; dsimp only; split
  · exact h.readGraph.readComps
  · exact h.readGraph

theorem patch (h : s.Formed b) {q w} : (s.patch q w).Formed b := h.foldl _ fun _ _ h => h.setGp

theorem runSlot (h : s.Formed b) {f u w} : (s.runSlot f u w).Formed b := by
  unfold State.runSlot; split
  · exact h.slotRecord
  · split
    · dsimp only; split
      · exact h.patch.jobGraphs.slotRecord
      · exact h.patch.jobGraphs.setJob.advance
    · exact h.slotRecord

theorem cancelSlot (h : s.Formed b) {f u w} : (s.cancelSlot f u w).Formed b := by
  unfold State.cancelSlot; split
  · exact h.slotRecord
  · split
    · exact h.slotRecord
    · exact branch h.modJob.cancel.slotRecord h.slotRecord

theorem consume (h : s.Formed b) {f u w} : (s.consume f u w).Formed b := by
  unfold State.consume; split
  · exact h.slotRecord
  · split
    · exact h.slotRecord
    · split
      · exact h.runSlot
      · exact h.cancelSlot
      · exact h.slotRecord

/-! ### Timeouts, the SSD, and translation caches -/

theorem failLoad {tell : State → State} (h : s.Formed b) (ht : ∀ s, s.Formed b → (tell s).Formed b) {c sel}
    (e : s.failLoad c sel tell = some t) : t.Formed b := by
  unfold State.failLoad at e; dsimp only at e; split at e
  · cases e
  · cases e; exact (ht _ h.modCore).afterAccess

theorem failStore {tell : State → State} (h : s.Formed b) (ht : ∀ s, s.Formed b → (tell s).Formed b) {c t} :
    (s.failStore c t tell).Formed b := by
  unfold State.failStore; dsimp only; split
  · exact h
  · split
    · exact h
    · exact (ht _ h.modCore).afterAccess

theorem windowTimeout {tell : State → State} (h : s.Formed b) (ht : ∀ s, s.Formed b → (tell s).Formed b) {c sel t} :
    (s.windowTimeout c sel t tell).Formed b := by
  unfold State.windowTimeout
  cases e : s.failLoad c sel tell with
  | none => exact h.failStore ht
  | some u => exact h.failLoad ht e

theorem fill (h : s.Formed b) {mid da n} : (s.fill mid da n).1.Formed b := by
  unfold State.fill; split
  · exact h
  · exact h.permEvent
  · exact h.fillAs

theorem ssdRefused (h : s.Formed b) {da} : (s.ssdRefused da).Formed b := h.permEvent.storEvent

theorem ssdPiece (h : s.Formed b) {da n} : (s.ssdPiece da n).1.Formed b := by
  unfold State.ssdPiece; split
  · split
    · exact h.rowRead.dropStale.toRaw
    · exact h.fill
  · exact h.ssdRefused

theorem ssdPieces (h : s.Formed b) {xs} : (s.ssdPieces xs).1.Formed b := by
  induction xs generalizing s with
  | nil => exact h
  | cons y l ih => exact ih h.ssdPiece

theorem ssdPut (h : s.Formed b) {da bs} : (s.ssdPut da bs).Formed b := by
  unfold State.ssdPut; split
  · refine branch ?_ (branch h.writeMem h.ssdRefused)
    extract_lets t s1
    have h1 : s1.Formed b := h.rowRead.dropStale.toRaw
    clear_value s1
    refine rowWritten ?_
    exact ⟨swf_sputBytes h1.1 _ _, h1.2⟩
  · exact h.ssdRefused

theorem ssdPuts (h : s.Formed b) {xs ds} : (s.ssdPuts xs ds).Formed b := by
  induction xs generalizing s ds with
  | nil => exact h
  | cons y l ih => exact ih h.ssdPut

theorem dropStorage (h : s.Formed b) {c fuel} : (s.dropStorage c fuel).Formed b := by
  induction fuel generalizing s with
  | zero => exact h
  | succ n ih =>
    unfold State.dropStorage; split
    next e => exact ih (h.failLoad (fun _ h => h.storEvent) e)
    next => exact h

theorem xlinvNext (h : s.Formed b) {xs} : (s.xlinvNext xs).Formed b := by
  induction xs generalizing s with
  | nil => exact h
  | cons y l ih => exact ih (branch h.same h.xlinvStart)

theorem stripeDone (h : s.Formed b) {w} : (s.stripeDone w).Formed b := by
  unfold State.stripeDone; dsimp only; split
  · exact h
  · exact branch h h.same

theorem controlStore (h : s.Formed b) {e i w} : (s.controlStore e i w).Formed b := h.inStore

theorem heldAccesses (h : s.Formed b) {xs} : (s.heldAccesses xs).Formed b := by
  induction xs generalizing s with
  | nil => exact h
  | cons y l ih => exact ih (branch h.same h.accDo)

theorem wakeUp (h : s.Formed b) : s.wakeUp.Formed b := by
  unfold State.wakeUp
  have h1 := h.foldl (List.range Config.channels) (f := State.refreshOut) fun _ _ h => h.refreshOut
  generalize (List.range Config.channels).foldl State.refreshOut s = u at h1 ⊢
  exact branch (sleepAsk h1.same) h1.same

theorem evDeadline (h : s.Formed b) {seq} : (s.evDeadline seq).Formed b := by
  unfold State.evDeadline; split
  · exact h
  · exact post h.same

/-! ### Dispatch, start and end of tasks -/

theorem weights (h : s.Formed b) {xs} : (s.weights xs).1.Formed b := by
  induction xs generalizing s with
  | nil => exact h
  | cons c l ih => exact ih (h.droopNow.takeFree 8)

theorem choose (h : s.Formed b) {q ch} : (s.choose q ch).1.Formed b := by
  unfold State.choose; dsimp only; split
  · exact h
  · exact h.weights.modPart

theorem dispatch (h : s.Formed b) {ch q} : (s.dispatch ch q).Formed b := by
  unfold State.dispatch; split
  · exact h
  · split
    · exact h
    · split
      · exact h
      next e => exact branch (h.choose.of_eq e).modCore.modTask h.failPlace

theorem backToReady (h : s.Formed b) {c i f} : (s.backToReady c i f).Formed b := h.modCore.modTask

theorem readImage (h : s.Formed b) {ch da fuel} : (s.readImage ch da fuel).1.Formed b := by
  induction fuel generalizing s with
  | zero => exact h
  | succ n ih => exact (ih h).recallRange.readMem

theorem imageReads (h : s.Formed b) {c t} : (s.imageReads c t).1.Formed b := by
  unfold State.imageReads; split
  · exact h
  · split
    · exact h
    · extract_lets da
      split
      next e =>
      have h1 := h.recallRange.readImage.of_eq e
      split <;> exact h1

theorem startTask (h : s.Formed b) {c i t} : (s.startTask c i t).Formed b := by
  unfold State.startTask; split
  · exact h.cancelHere
  · split
    · exact h.backToReady
    · split
      next e =>
      have h1 := h.imageReads.of_eq e
      split
      · exact branch h1.modCore.modTask.regionsClosed h1.modCore.modTask
      · exact h1.backToReady.regionsClosed

theorem tileWrite (h : s.Formed b) {mid da bs} : (s.tileWrite mid da bs).Formed b := by
  unfold State.tileWrite; split
  · dsimp only
    exact branch h.recallRange.sealPart.sealEvent h.recallRange.sealPart.rowWritten
  · exact h.permEvent

theorem writeImage (h : s.Formed b) {ch da k d full children} : (s.writeImage ch da k d full children).Formed b :=
  h.foldl _ fun _ _ h => h.tileWrite

theorem saveTask (h : s.Formed b) {c i t slot} : (s.saveTask c i t slot).Formed b := by
  unfold State.saveTask; dsimp only; split
  · exact h.writeImage.modTask.releaseCore.makeReady.later.assign
  · exact h.modTask.releaseCore.makeReady.later.assign

theorem incOutput (h : s.Formed b) {c va} : (s.incOutput c va).1.Formed b := by
  unfold State.incOutput; dsimp only; split
  · exact h.translate
  · split
    all_goals
      split
      · exact h.translate
      · exact h.translate.addOne

theorem advanceLines (h : s.Formed b) {c ell xs} : (s.advanceLines c ell xs).1.Formed b := by
  induction xs generalizing s with
  | nil => exact h
  | cons e l ih =>
    unfold State.advanceLines; dsimp only; split
    · exact ih h
    · split
      · exact ih h.incOutput
      · exact h.incOutput

theorem markTile (h : s.Formed b) {c da n} : (s.markTile c da n).Formed b := by
  unfold State.markTile; split
  · exact h
  · split
    · exact h
    · split
      · exact h.permEvent
      · dsimp only; split
        · exact h.rowRead.sealPart
        · exact h.rowRead.sealPart.sealEvent
        · exact h.rowRead.sealPart.sealEvent

theorem markEscalated (h : s.Formed b) {c t} : (s.markEscalated c t).Formed b :=
  branch (h.foldl _ fun _ _ h => h.markTile) h

theorem endPublish (h : s.Formed b) {c i t bad} : (s.endPublish c i t bad).Formed b := by
  unfold State.endPublish; split
  · exact h.releaseCore.finishTask.recheck
  · exact h.inform.releaseCore.finishTask.recheck

/-! ### Reset, SPDM and the supervisors -/

theorem afterReset (h : s.Formed b) : s.afterReset.Formed b := ⟨h.1, h.2⟩

theorem spdmAnswer (h : s.Formed b) {code} : (s.spdmAnswer code).Formed b := branch h.same h
theorem measured (h : s.Formed b) {v} : (s.measured v).Formed b := h.same

theorem supGive (h : s.Formed b) {ch v} : (s.supGive ch v).Formed b := h
theorem supTrap (h : s.Formed b) {ch} : (s.supTrap ch).Formed b := h

theorem supLoad (h : s.Formed b) {ch da n} : (s.supLoad ch da n).Formed b := by
  unfold State.supLoad
  extract_lets low
  split
  · split
    · split
      next e => exact (h.configRead.of_eq e).supGive
    · exact h.permEvent.supTrap
  · dsimp only; split
    · exact h.masterRead.supGive
    · exact h.masterRead.supTrap

theorem supStore (h : s.Formed b) {ch da bs} : (s.supStore ch da bs).Formed b := by
  unfold State.supStore; split
  · split
    next e =>
    exact branch (h.configWrite.of_eq e).supGive (branch h.permEvent.supTrap h.permEvent.supGive)
  · exact h.masterWrite.supGive

theorem supAmo (h : s.Formed b) {ch o da v} : (s.supAmo ch o da v).Formed b := by
  unfold State.supAmo; dsimp only; split
  · exact h.permEvent.supTrap
  · split
    · exact h.readMem.masterWrite.supGive
    · exact h.readMem.supTrap

/-! ### Errors that checks meet -/

theorem meetError (h : s.Formed b) {x} : (s.meetError x).Formed b := by
  cases x with
  | list c l => exact h.modCore.coreEvent
  | bank c v => exact h.modCore.coreEvent
  | weakCore c => exact h.countCorrected fun _ h => h.coreEvent
  | weakTable => exact h.countCorrected fun _ h => h.memEvent
  | special c n => exact h.modCore.coreEvent
  | weakEngine e => exact h.countCorrected fun _ h => h.engEvent
  | window n => exact memEvent h.same
  | keySlot k => exact memEvent h.same
  | task i => exact memEvent h.same
  | line c l => exact h.modCore.coreEvent
  | reg c key => exact coreEvent (modCore (h.takeFree 48))
  | side c v => exact h.modCore.coreEvent.loseCore
  | dram | burst | wburst | weak | engine | control | park => exact h

theorem meetErrors (h : s.Formed b) : s.meetErrors.Formed b := foldl h.same _ fun _ _ h => h.meetError

theorem checked (h : s.Formed b) : s.checked.Formed b := by
  unfold State.checked; split
  · exact h
  · exact h.meetErrors

/-! ### Instructions of the slots: scalar and control -/

theorem execSel (h : s.Formed b) {sl p d a rb ps} : ResFormed (execSel sl p d a rb ps s) b :=
  h.when fun _ h => branch h.deferPred h.postScalar

theorem execWrsr (h : s.Formed b) {sl p a n} : ResFormed (execWrsr sl p a n s) b :=
  h.when fun _ h => branch h.deferReg (branch h.same (branch h.same h.same))

theorem execBri (h : s.Formed b) {p r} : ResFormed (execBri p r s) b :=
  h.when fun _ h => branch h.deferReg (branch h.fault h.transferTo)
theorem execCall (h : s.Formed b) {p t} : ResFormed (execCall p t s) b :=
  h.when fun _ h => branch h.fault h.transferTo
theorem execRet (h : s.Formed b) {p} : ResFormed (execRet p s) b := h.when fun _ h => branch h.fault h.transferTo
theorem execBrSide (h : s.Formed b) {p t} : ResFormed (execBrSide p t s) b :=
  h.when fun _ h => branch h.fault h.transferTo
theorem execLoop (h : s.Formed b) {p l r e} : ResFormed (execLoop p l r e s) b :=
  h.when fun _ h => branch h.deferReg h.activateLoop
theorem execLoopi (h : s.Formed b) {p l n e} : ResFormed (execLoopi p l n e s) b := h.when fun _ h => h.activateLoop

theorem execDone (h : s.Formed b) {p} : ResFormed (execDone p s) b := h.when fun s h => by
  split
  · exact h.fault
  · exact branch h.fault h.finish

theorem execWaittl (h : s.Formed b) {p r t} : ResFormed (execWaittl p r t s) b :=
  h.when fun _ h => branch h.deferReg (branch h.fault (branch h.holdFor h))
theorem execIfence (h : s.Formed b) {p} : ResFormed (execIfence p s) b := h.when fun _ h => branch h.holdFor h.same

theorem execBar (h : s.Formed b) {p r d} : ResFormed (execBar p r d s) b := h.when fun s h => by
  refine branch h.deferReg (branch h.fault ?_)
  split
  · exact h.postPred
  · exact branch h.ask h.holdFor

theorem execMaskw (h : s.Formed b) {p r d} : ResFormed (execMaskw p r d s) b := h.when fun s h => by
  refine branch h.deferReg (branch h.fault ?_)
  split
  · exact h.postPred
  · exact branch h.postPred h.ask

/-! ### Copies, engine commands, launches and the heap -/

theorem execCpLin (h : s.Formed b) {p k c x y z nc} : ResFormed (execCpLin p k c x y z nc s) b :=
  h.when fun _ h => h.withRegs fun s h => by
  refine branch (fault ?_) (enqueueCopy ?_) <;> exact branch h h.firstByte.firstByte

theorem execCpTensor (h : s.Formed b) {p k c x y z nc} : ResFormed (execCpTensor p k c x y z nc s) b :=
  h.when fun _ h => h.withRegs fun s h => by
  refine branch h.firstByte.firstByte.fault ?_
  dsimp only; split
  · exact branch h.firstByte.firstByte.fault.fault h.firstByte.firstByte.fault
  · exact branch h.firstByte.firstByte.fault h.firstByte.firstByte.enqueueCopy

theorem execCpFill (h : s.Formed b) {p k c x y z nc} : ResFormed (execCpFill p k c x y z nc s) b :=
  h.when fun _ h => h.withRegs fun s h => by
  refine branch (fault ?_) (enqueueCopy ?_) <;> exact branch (fault (branch h h.firstByte)) (branch h h.firstByte)

theorem execCpIsp (h : s.Formed b) {p k c x y z} : ResFormed (execCpIsp p k c x y z s) b :=
  h.when fun _ h => h.withRegs fun s h => by
  refine branch (fault ?_) (branch (holdFor ?_) (enqueueCopy (modMe ?_))) <;> exact branch h.firstByte h.firstByte.fault

theorem execGeBcast (h : s.Formed b) {p c x y z} : ResFormed (execGeBcast p c x y z s) b :=
  h.when fun _ h => h.withRegs fun _ h =>
  onGroup (branch (fault (branch h.fault h)) (branch h.fault h)) fun _ _ h => h.enqueueGalley

theorem execGeCall (h : s.Formed b) {p c x y z} : ResFormed (execGeCall p c x y z s) b :=
  h.when fun _ h => h.withRegs fun _ h =>
  onGroup (branch h.fault h) fun _ _ h => branch h h.enqueueGalley

theorem execGeFence (h : s.Formed b) {p c x} :
    ResFormed (execGeFence p c x s) b :=
  h.when fun _ h => h.withRegs fun _ h => h.onGroup fun _ _ h => h.enqueueGalley
theorem execGeOpen (h : s.Formed b) {p c x y z} : ResFormed (execGeOpen p c x y z s) b :=
  h.when fun _ h => h.withRegs fun _ h => branch h.fault h.enqueueGalley
theorem execGeClose (h : s.Formed b) {p c x z} : ResFormed (execGeClose p c x z s) b :=
  h.when fun _ h => h.withRegs fun _ h => branch h.fault h.enqueueGalley

theorem execLaunch (h : s.Formed b) {p c x y z} : ResFormed (execLaunch p c x y z s) b :=
  h.when fun _ h => h.withRegs fun s h => by
  refine branch (fault (branch h.fault h)) (branch (branch h.fault h) ?_)
  split
  · exact h.addChild
  · exact h.fault
  · exact h.ask

theorem execHeapPush (h : s.Formed b) {p c x y} : ResFormed (execHeapPush p c x y s) b :=
  h.when fun _ h => h.withRegs fun s h => by
  refine branch (fault (branch h.fault h)) (branch (branch h.fault h) ?_)
  split
  · exact h
  · exact h.ask

theorem execHeapPop (h : s.Formed b) {p c x y} : ResFormed (execHeapPop p c x y s) b :=
  h.when fun _ h => h.withRegs fun s h => by
  refine branch (fault (branch h.fault h)) (branch (branch h.fault h) ?_)
  split
  · exact h
  · exact h.ask

/-! ### Instructions of the memory slots -/

theorem execLdm (h : s.Formed b) {sl p r rb d} : ResFormed (execLdm sl p r rb d s) b :=
  h.when fun _ h => h.memRegs fun s h => by
  dsimp only; split
  · exact h.access
  · refine branch h.access.postScalar (branch h.access.holdFor ?_)
    exact branch h.access.settleAccess.postScalar h.access.settleAccess

theorem execVld (h : s.Formed b) {sl p v rb d} : ResFormed (execVld sl p v rb d s) b :=
  h.when fun _ h => h.memRegs fun s h => by
  extract_lets ea
  split
  next s0 go e =>
  have h0 := h.storeFirst.of_eq e
  split
  next s1 tg e1 =>
  have h1 : s1.Formed b := by
    refine of_eq ?_ e1
    split
    · exact h0.tagAt
    · exact h0
  split
  next => exact h1
  next t _ =>
    extract_lets s2
    have h2 : s2.Formed b := branch h0.fault h0
    clear_value s2
    dsimp only; split
    · exact h2.load
    · exact h2.load.postRow

theorem execVst (h : s.Formed b) {sl p v rb d} :
    ResFormed (execVst sl p v rb d s) b :=
  h.when fun _ h => h.memRegs fun _ h => h.rowStored fun _ _ h => branch (store (branch h.fault h)) h.store

theorem execVlds (h : s.Formed b) {sl p v rb sr f} : ResFormed (execVlds sl p v rb sr f s) b :=
  h.when fun _ h => h.memRegs fun s h => by
  dsimp only; split
  · exact h.load
  · exact h.load.postRow

theorem execVgath (h : s.Formed b) {sl p v rb i f} : ResFormed (execVgath sl p v rb i f s) b :=
  h.when fun _ h => h.memRegs fun _ h => h.withIndex fun s _ h => by
  dsimp only; split
  · exact h.postRow
  · split
    · exact h.load
    · exact branch h.load.fault h.load.postRow

theorem execVscat (h : s.Formed b) {sl p v rb i f} :
    ResFormed (execVscat sl p v rb i f s) b :=
  h.when fun _ h => h.memRegs fun _ h => h.rowStored fun _ _ h => h.withIndex fun s _ h => by
  dsimp only; split
  · exact branch h.fault h
  · exact store (branch h.fault h)

theorem execDrain (h : s.Formed b) {sl p _sc} : ResFormed (execDrain sl p _sc s) b :=
  h.when fun _ h => branch h h.holdFor

/-! ### Instructions of the vector, matrix and permute slots -/

theorem execVsel (h : s.Formed b) {p d a rb} : ResFormed (execVsel p d a rb s) b := h.when fun s h => by
  dsimp only; split
  · exact h.fault
  · exact branch h.postRow h.postRow

theorem execVbcast (h : s.Formed b) {p d t c r} : ResFormed (execVbcast p d t c r s) b :=
  h.when fun _ h => branch h.postRow h.postRow

theorem execVext (h : s.Formed b) {p d a j} : ResFormed (execVext p d a j s) b := h.when fun s h => by
  dsimp only; split
  · exact h.fault
  · exact branch h.postScalar (branch h.fault h.postScalar)

theorem execVins (h : s.Formed b) {p d j c r} : ResFormed (execVins p d j c r s) b := h.when fun s h => by
  dsimp only; split
  · exact h.fault
  · exact branch h.fault (branch h.postRow h.postRow)

theorem execVcvt (h : s.Formed b) {p d a part m t} : ResFormed (execVcvt p d a part m t s) b := h.when fun s h => by
  dsimp only; split
  · exact h.fault
  · exact branch h.postRow (branch h.fault h.postRow)

theorem execVquant (h : s.Formed b) {p d a c r} : ResFormed (execVquant p d a c r s) b := h.when fun s h => by
  dsimp only; split
  · exact h.fault
  · exact branch h.postRow (branch h.fault (branch h.postRow (branch h.fault h.postRow)))

theorem execVbperm (h : s.Formed b) {p d a rb} : ResFormed (execVbperm p d a rb s) b := h.when fun s h => by
  dsimp only; split
  · exact h.fault
  · exact branch h.postRow h.postRow

theorem execVbnd (h : s.Formed b) {p d a o k} : ResFormed (execVbnd p d a o k s) b := by
  cases o with
  | set => exact h.rowInstr
  | add => exact h.rowInstr
  | chk =>
    refine h.when (f := _) fun s h => ?_
    split
    · exact h.fault
    · exact h.checkBound

theorem execMxWload (h : s.Formed b) {p rb v n} : ResFormed (execMxWload p rb v n s) b := h.matInstr fun s h => by
  dsimp only; split
  · exact fault (branch h.fault h)
  · exact modMe (branch h.fault h)

theorem execMxDrain (h : s.Formed b) {p d v n} : ResFormed (execMxDrain p d v n s) b := h.matInstr fun s h => by
  dsimp only; split
  · exact h.fault
  · exact modMe (branch h.escalate h)

theorem execMxSscale (h : s.Formed b) {p v} : ResFormed (execMxSscale p v s) b := h.matInstr fun s h => by
  refine branch h.deferRow ?_
  split
  · exact h.fault
  · exact h.modMe

theorem execMxSscaleB (h : s.Formed b) {p a} : ResFormed (execMxSscaleB p a s) b :=
  h.matInstr fun _ h => branch h.deferReg h.modMe
theorem execMxWscale (h : s.Formed b) {p rb a} :
    ResFormed (execMxWscale p rb a s) b :=
  h.matInstr fun _ h => branch (deferReg (branch h.fault h)) (modMe (branch h.fault h))

theorem execXpSplat (h : s.Formed b) {p d a c r} : ResFormed (execXpSplat p d a c r s) b := h.when fun s h => by
  dsimp only; split
  · exact h.fault
  · exact branch h.postRow (branch h.fault h.postRow)

theorem execXsSort (h : s.Formed b) {p d a rb} : ResFormed (execXsSort p d a rb s) b := h.when fun s h => by
  dsimp only; split
  · exact h.fault
  · exact branch h.postRow h.postRow

theorem execXsMerge (h : s.Formed b) {p l c r a} : ResFormed (execXsMerge p l c r a s) b := h.when fun s h => by
  dsimp only; split
  · exact h.fault
  · exact branch h.postList h.postList

theorem execXsKth (h : s.Formed b) {p d a k} : ResFormed (execXsKth p d a k s) b := h.when fun s h => by
  dsimp only; split
  · exact h.fault
  · exact branch h.postScalar h.postScalar

theorem execXsPenal (h : s.Formed b) {p l c r a n} : ResFormed (execXsPenal p l c r a n s) b := h.when fun s h => by
  extract_lets y rows old s1 keys s2
  have h1 : s1.Formed b := by
    unfold s1; split
    · exact h.fault
    · exact h
  have h2 : s2.Formed b := h1.zeroField
  clear_value s1 s2
  refine branch h1.poisonList ?_
  split
  · exact h2.recFault
  · exact h2.poisonList
  · exact branch h2.poisonList h2.postList

theorem execXsMask (h : s.Formed b) {p l c r} : ResFormed (execXsMask p l c r s) b := h.when fun s h => by
  refine branch h.poisonList ?_
  dsimp only; split
  · exact h.zeroField.recFault
  · exact h.zeroField.poisonList
  · exact branch h.zeroField.poisonList h.zeroField.postList

theorem execXsRand (h : s.Formed b) {p d k} : ResFormed (execXsRand p d k s) b :=
  h.when fun _ h => postScalar (branch h h.zeroField)

theorem execXsPick (h : s.Formed b) {p d l} : ResFormed (execXsPick p d l s) b := h.when fun s h => by
  refine branch h.postScalar ?_
  dsimp only; split
  · exact h.zeroField.recFault
  · exact h.zeroField.postScalar
  · exact branch h.zeroField.postScalar (branch h.zeroField.postScalar h.zeroField.postScalar)

theorem execXsVerify (h : s.Formed b) {p d l a m} : ResFormed (execXsVerify p d l a m s) b := h.when fun s h => by
  extract_lets y src x z poisoned qs s1 s2
  have h1 : s1.Formed b := by
    unfold s1; split
    · exact h.fault
    · exact h
  have h2 : s2.Formed b := h1.zeroField
  clear_value s1 s2
  refine branch h1.postScalar ?_
  split
  · exact h2.recFault
  · exact h2.postScalar
  · exact branch h2.postScalar h2.postScalar

/-! ### Events of the cores -/

theorem execEscalationRelaunch (h : s.Formed b) {c} : ResFormed (execEscalationRelaunch c s) b := by
  refine branch (c := (s.core c).st = .escalating ∧ (s.core c).commandsDone ∧ (s.core c).stores.isEmpty) ?_ h
  split
  · exact h.afterEscalation
  · exact h.releaseCore

theorem execWatchdogTrap (h : s.Formed b) {c} : ResFormed (execWatchdogTrap c s) b := branch h.watchdogTrap h

theorem execStalledWait (h : s.Formed b) {c} : ResFormed (execStalledWait c s) b := by
  unfold Machine.execStalledWait ResFormed; dsimp only; split
  · split
    · exact branch h.trapCore h
    · exact h
  · exact h

theorem execBarTimeout (h : s.Formed b) {c} : ResFormed (execBarTimeout c s) b := by
  unfold Machine.execBarTimeout ResFormed; dsimp only; split
  · exact h.withdraw.answer
  · exact h

theorem execMaskwTimeout (h : s.Formed b) {c} : ResFormed (execMaskwTimeout c s) b := by
  unfold Machine.execMaskwTimeout ResFormed; dsimp only; split
  · exact h.answer
  · exact h

theorem execLoadDataArrival (h : s.Formed b) {c v poison} : ResFormed (execLoadDataArrival c v poison s) b := by
  unfold Machine.execLoadDataArrival ResFormed; dsimp only; split
  · exact h
  · split
    · exact h
    · exact afterAccess (branch h.arrivalValue.modCore.coreEvent h.arrivalValue.modCore)

theorem execCopyStop (h : s.Formed b) {c k} : ResFormed (execCopyStop c k s) b := by
  unfold Machine.execCopyStop ResFormed; dsimp only; split
  · exact h
  · split
    · exact h
    · exact branch h.copyRun.copyRecord.modCore.settled h.copyRun.copyRecord.modCore

/-! ### Events of the engines, of repair and of the host -/

theorem execGalleyDispatch (h : s.Formed b) {c} : ResFormed (execGalleyDispatch c s) b := by
  unfold Machine.execGalleyDispatch ResFormed; dsimp only; split
  · exact h
  · exact h.modCore.pushWork.foldl _ fun _ _ h => h.endUnknowns

theorem execGeBcastWrite (h : s.Formed b) {e} : ResFormed (execGeBcastWrite e s) b := by
  unfold Machine.execGeBcastWrite ResFormed; dsimp only; split
  · split
    · exact h.takeWork.setEngine.endPart.endUnknowns
    · exact h
  · exact h

theorem execGeFencePass (h : s.Formed b) {ch} : ResFormed (execGeFencePass ch s) b := by
  unfold Machine.execGeFencePass ResFormed; dsimp only; split
  · exact branch h h.fenceStale.setChan.endPart.endUnknowns.unstall
  · exact h

theorem execGeOpenComplete (h : s.Formed b) {c} : ResFormed (execGeOpenComplete c s) b := by
  unfold Machine.execGeOpenComplete ResFormed; dsimp only; split
  · split
    · refine branch h (endPart (modCore ?_))
      exact branch (sendStale (branch h.permEvent h)) (branch h.permEvent h)
    · exact h
  · exact h

theorem execGeCloseComplete (h : s.Formed b) {c} : ResFormed (execGeCloseComplete c s) b := by
  unfold Machine.execGeCloseComplete ResFormed; dsimp only; split
  · split
    · exact branch h h.modCore.endPart.unstall
    · exact h
  · exact h

theorem execRowRepair (h : s.Formed b) {da readable due} : ResFormed (execRowRepair da readable due s) b := by
  refine branch h ?_
  have h1 : ∀ t, ((if readable then s else s.failRow t).rowRead t).Formed b := fun _ => rowRead (branch h h.failRow)
  exact branch (memEvent (same (h1 _))) (h1 _).memEvent

theorem execPatrolScrub (h : s.Formed b) {da uncorrectable} : ResFormed (execPatrolScrub da uncorrectable s) b :=
  branch h (rowRead (branch h.failRow h))
theorem execCoreRetest (h : s.Formed b) {c} : ResFormed (execCoreRetest c s) b := branch h.modCore h
theorem execEngineRetest (h : s.Formed b) {ch g} : ResFormed (execEngineRetest ch g s) b := branch h h.setEngine
theorem execCoreRetire (h : s.Formed b) {c} : ResFormed (execCoreRetire c s) b := branch h h.retireCore
theorem execHostMemRead (h : s.Formed b) {da size} : ResFormed (execHostMemRead da size s) b := branch h h.hostAccess
theorem execHostMemWrite (h : s.Formed b) {da bytes} : ResFormed (execHostMemWrite da bytes s) b :=
  branch h h.hostAccess

theorem execBiSnoopResponse (h : s.Formed b) {line dirty} : ResFormed (execBiSnoopResponse line dirty s) b := by
  refine branch ?_ h
  split
  · exact h.dropHost.writeMem
  · exact h.dropHost

theorem execHostSnoopTimeout (h : s.Formed b) {line} : ResFormed (execHostSnoopTimeout line s) b :=
  branch (event h.same) h
theorem execCommandSlotWrite (h : s.Formed b) {f off bytes} : ResFormed (execCommandSlotWrite f off bytes s) b :=
  branch h h.hostAccess

theorem execSlotConsume (h : s.Formed b) {f} : ResFormed (execSlotConsume f s) b := by
  refine branch ?_ h
  split
  next e => exact branch h (h.takeSlot.of_eq e).consume.recheckOf

theorem execSlotFence (h : s.Formed b) {f} : ResFormed (execSlotFence f s) b := by
  refine branch ?_ h
  split
  next e => exact branch (h.takeSlot.of_eq e).setFunc.answerFences.recheckOf h

theorem execSsdMemRead (h : s.Formed b) {da size} : ResFormed (execSsdMemRead da size s) b :=
  branch h h.ssdPieces.same
theorem execSsdMemWrite (h : s.Formed b) {da bytes} : ResFormed (execSsdMemWrite da bytes s) b := branch h h.ssdPuts

theorem execSsdMetadataAccess (h : s.Formed b) {da write} : ResFormed (execSsdMetadataAccess da write s) b := by
  refine branch h (branch (branch h ?_) ?_)
  · dsimp only; split
    · exact h.rowRead.dropStale.toRaw.same
    · exact branch h.rowRead.dropStale.toRaw.setRec h
  · dsimp only; split
    · exact h.permEvent.same
    · exact h.permEvent

theorem execStorageLinkDown (h : s.Formed b) : ResFormed (execStorageLinkDown s) b :=
  foldl h.same _ fun _ _ h => h.dropStorage

/-! ### Events of registers, keys and power -/

theorem execXlinvComplete (h : s.Formed b) : ResFormed (execXlinvComplete s) b := xlinvNext h.same
theorem execFriskWrite (h : s.Formed b) {by_ t mid n word} : ResFormed (execFriskWrite by_ t mid n word s) b :=
  branch h.friskSet h

theorem execSleepEntered (h : s.Formed b) : ResFormed (execSleepEntered s) b := by
  have h1 := h.foldl (List.range Config.channels) (f := State.refreshIn) fun _ _ h => h.refreshIn
  unfold Machine.execSleepEntered
  generalize (List.range Config.channels).foldl State.refreshIn s = u at h1 ⊢
  exact branch h1.same h

theorem execWakeComplete (h : s.Formed b) : ResFormed (execWakeComplete s) b :=
  branch h.wakeUp.heldAccesses (branch (heldAccesses h.same) h)

theorem execRingConsume (h : s.Formed b) {r v} : ResFormed (execRingConsume r v s) b := branch h.holdHost h.setRgidx
theorem execRegisterWrite (h : s.Formed b) {mid addr v} : ResFormed (execRegisterWrite mid addr v s) b := by
  unfold Machine.execRegisterWrite
  exact branch (branch h.holdHost h.configStore) h

theorem execVoltageTrim (h : s.Formed b) {c slack mv} : ResFormed (execVoltageTrim c slack mv s) b :=
  branch h (branch h.modCore.event h.modCore)

theorem execPowerUp (h : s.Formed b) : ResFormed (execPowerUp s) b :=
  branch h ⟨⟨List.Pairwise.nil, fun _ hx => nomatch hx⟩, h.2⟩

theorem execDeviceReset (h : s.Formed b) {sigOk secVer} : ResFormed (execDeviceReset sigOk secVer s) b :=
  same h.afterReset
theorem execSpdmNegotiateAlgorithms (h : s.Formed b) : ResFormed (execSpdmNegotiateAlgorithms s) b := branch h.same h

theorem execSpdmGetMeasurements (h : s.Formed b) {idx} : ResFormed (execSpdmGetMeasurements idx s) b := by
  refine branch h ?_
  split
  · exact h.measured
  · exact h.measured
  · exact h.measured
  · exact h.measured
  · exact h.measured
  · exact h.spdmAnswer
  · exact h.spdmAnswer

theorem execMeasurementExtend (h : s.Formed b) {v} : ResFormed (execMeasurementExtend v s) b := branch h.same h
theorem execLogicDiePowerLoss (h : s.Formed b) : ResFormed (execLogicDiePowerLoss s) b := branch h h.afterReset.same

/-! ### Events of the scheduler and of the supervisors -/

theorem execTaskStart (h : s.Formed b) {c} : ResFormed (execTaskStart c s) b := by
  unfold Machine.execTaskStart ResFormed; dsimp only; split
  · split
    · exact branch h.residency.startTask (branch h.residency.cancelHere h.residency)
    · exact h
  · exact h

theorem execAgedPreemptRequest (h : s.Formed b) {ch q} : ResFormed (execAgedPreemptRequest ch q s) b := by
  unfold Machine.execAgedPreemptRequest ResFormed; dsimp only; split
  · split
    · split
      · exact h.modCore
      · exact h
    · exact h
  · exact h

theorem execPreempt (h : s.Formed b) {c} : ResFormed (execPreempt c s) b := by
  unfold Machine.execPreempt ResFormed; dsimp only; split
  · exact branch h.cancelHere (branch h.saveTask h)
  · exact h

theorem execDonePublish (h : s.Formed b) {c} : ResFormed (execDonePublish c s) b := by
  unfold Machine.execDonePublish ResFormed; dsimp only; split
  · split
    · exact branch h.residency.markEscalated.advanceLines.endPublish h.residency
    · exact h
  · exact h

theorem execLaunchAnswer (h : s.Formed b) {c} : ResFormed (execLaunchAnswer c s) b := by
  unfold Machine.execLaunchAnswer ResFormed; dsimp only; split
  · exact h.modCore
  · exact h

theorem execHeapAnswer (h : s.Formed b) {c} : ResFormed (execHeapAnswer c s) b := by
  unfold Machine.execHeapAnswer ResFormed; dsimp only; split
  · split
    · split
      · exact h.setPart.modCore
      · exact h
    · exact h
  · exact h

theorem execSupervisorAccess (h : s.Formed b) {ch op} : ResFormed (execSupervisorAccess ch op s) b := by
  refine branch h ?_
  dsimp only; split
  · exact h.recallRange.supLoad
  · exact h.recallRange.supStore
  · exact h.recallRange.supAmo
  · exact h.recallRange

theorem execCoreRetestEnd (h : s.Formed b) {c badCols} : ResFormed (execCoreRetestEnd c badCols s) b := by
  refine branch h ?_
  dsimp only; split
  · exact h.same
  · exact retireCore h.same

theorem execEngineRetestEnd (h : s.Formed b) {e failed} : ResFormed (execEngineRetestEnd e failed s) b :=
  branch (endUnknowns (branch (retireEngine h.same) h.same)) h

/-! ### Every instruction and every event of the device -/

theorem exec (i : Instr) (h : s.Formed b) : ResFormed (Machine.exec i s) b := by
  cases i with
  | add | sub | mul | mulh | mulhn | and | or | xor | andn | shl | shr | sra | min | max | minn | maxn | ext |
  extn | lea | fadd | fsub | fmul | fmin | fmax | fsgn => exact h.alu2
  | addi | andi | ori | xori | shli | shri | srai | clz | ctz | popc | movhi | fcvt => exact h.alu1
  | ins | fma | fnma => exact h.alu3
  | cmp | fcmp => exact h.cmp2
  | div | divn | rem | remn => exact h.intDivide
  | fdiv | fsqrt => exact h.fpDivide
  | movi | moviSl | cmv | rdsr | xsRdc => exact h.when fun _ h => h.postScalar
  | cmpi | pset => exact h.when fun _ h => h.postPred
  | br => exact h.when fun _ h => h.transferTo
  | abort | trap => exact h.when fun _ h => h.finish
  | escal => exact h.when fun _ h => h.escalate
  | wait | fence => exact h.when fun _ h => h.modMe
  | pref => exact h.when fun _ h => h
  | ld | lda => exact h.scalarLoad
  | st | stl => exact h.scalarStore
  | amo | cas => exact h.atomic
  | clean | inval => exact h.cacheOp
  | vadd | vsub | vmul | vfma | vfms | vmin | vmax | vabs | vneg | vand | vor | vxor | vnot | vshl | vshr |
  vsra | vcmp | vexp2 | vlog2 | vrcp | vrsq | vtanh | vrsum | vrmax | vrmin | vnib | vtag => exact h.rowInstr
  | vscale | xpRot | xpSlide => exact h.rowScalarInstr
  | mxMac | mxMaca => exact h.matMac
  | mxWswap | mxClr | mxMode => exact h.matInstr fun _ h => h.modMe
  | xpPerm | xpShuf => exact h.crossMove
  | xsMergeL | xsClr => exact h.when fun _ h => h.postList
  | pause => exact h
  | opsel | storageLinkUp | correctedCountRestart => exact h.same
  | settlingComplete => exact h.modCore
  | pageWalkComplete => exact h.translate
  | storePerform => exact h.performStore
  | sealWrite => exact branch h.sealMerged h
  | copyComplete | cpIspComplete => exact h.copyFinish
  | fill => exact h.engineCall entryFill
  | copy => exact h.engineCall entryCopy
  | csum => exact h.engineCall entryCsum
  | gemvI8 | gemvI4 | gemvTf8 => exact h.engineCall entryGemv
  | kvapp => exact h.engineCall entryKvapp
  | qk => exact h.engineCall entryQk
  | av => exact h.engineCall entryAv
  | park => exact h.engineCall entryPark
  | unpark => exact h.engineCall entryUnpark
  | selfRefreshEntry => exact h.refreshIn
  | selfRefreshExit => exact h.refreshOut
  | cwctlEnable | cwctlDisable | peerApertureWrite | peerApertureRead => exact h.hostAccess
  | xlinvPartition | xlinvPage | xlinvAll => exact h.xlinv
  | cxresContext | cxresResidency => exact h.cxres
  | stripeEnable => exact h.stripeOn
  | stripeTeardown => exact h.stripeOff
  | stripeTeardownComplete => exact h.stripeDone
  | controlStoreWrite => exact h.controlStore
  | jcanJob => exact h.cancelJob
  | jcanGraph => exact h.cancelGraph
  | jcanLaunch => exact h.cancelLaunch
  | pcoreWrite => exact h.pcore
  | gpregWrite => exact h.setGp
  | mseqWrite => exact h.setMseq
  | hbudWrite => exact h.setBud
  | opcapWrite => exact h.setCap
  | sleepRequest => exact h.sleepAsk
  | wakeRequest => exact h.wakeAsk
  | keyNew => exact h.keyFresh
  | keyAdvance => exact h.keyNext
  | keyRekey => exact h.rekeyStart
  | rekeyComplete => exact h.rekeyEnd
  | keyRetire => exact h.keyDrop
  | keyErase => exact h.keyWipe
  | eventAck => exact h.evack
  | eventDeadline => exact h.evDeadline
  | trctlResume => exact h.trResume
  | trctlSave => exact h.trSave
  | trctlEnd => exact h.trEnd
  | inputRecheck => exact h.recheck
  | taskDispatch => exact h.dispatch
  | agingExpiry => exact h.modTask
  | spdmGetVersion | spdmGetCapabilities | spdmGetDigests | spdmGetCertificate | spdmChallenge => exact h.spdmAnswer
  | droopEvent => exact h.droopNow.modCore
  | hostWindowTimeout => exact h.windowTimeout fun _ h => h.hportEvent
  | storageTimeout => exact h.windowTimeout fun _ h => h.storEvent
  | ssdMsix => exact storEvent h.same
  | sel => exact h.execSel
  | wrsr => exact h.execWrsr
  | bri => exact h.execBri
  | call => exact h.execCall
  | ret => exact h.execRet
  | brSide => exact h.execBrSide
  | loop => exact h.execLoop
  | loopi => exact h.execLoopi
  | done => exact h.execDone
  | waittl => exact h.execWaittl
  | ifence => exact h.execIfence
  | bar => exact h.execBar
  | maskw => exact h.execMaskw
  | cpLin => exact h.execCpLin
  | cpTensor => exact h.execCpTensor
  | cpFill => exact h.execCpFill
  | cpIsp => exact h.execCpIsp
  | geBcast => exact h.execGeBcast
  | geCall => exact h.execGeCall
  | geFence => exact h.execGeFence
  | geOpen => exact h.execGeOpen
  | geClose => exact h.execGeClose
  | launch => exact h.execLaunch
  | heapPush => exact h.execHeapPush
  | heapPop => exact h.execHeapPop
  | ldm => exact h.execLdm
  | vld => exact h.execVld
  | vst => exact h.execVst
  | vlds => exact h.execVlds
  | vgath => exact h.execVgath
  | vscat => exact h.execVscat
  | drain sl p sc => exact h.execDrain (_sc := sc)
  | vsel => exact h.execVsel
  | vbcast => exact h.execVbcast
  | vext => exact h.execVext
  | vins => exact h.execVins
  | vcvt => exact h.execVcvt
  | vquant => exact h.execVquant
  | vbperm => exact h.execVbperm
  | vbnd => exact h.execVbnd
  | mxWload => exact h.execMxWload
  | mxDrain => exact h.execMxDrain
  | mxSscale => exact h.execMxSscale
  | mxSscaleB => exact h.execMxSscaleB
  | mxWscale => exact h.execMxWscale
  | xpSplat => exact h.execXpSplat
  | xsSort => exact h.execXsSort
  | xsMerge => exact h.execXsMerge
  | xsKth => exact h.execXsKth
  | xsPenal => exact h.execXsPenal
  | xsMask => exact h.execXsMask
  | xsRand => exact h.execXsRand
  | xsPick => exact h.execXsPick
  | xsVerify => exact h.execXsVerify
  | escalationRelaunch => exact h.execEscalationRelaunch
  | watchdogTrap => exact h.execWatchdogTrap
  | stalledWait => exact h.execStalledWait
  | barTimeout => exact h.execBarTimeout
  | maskwTimeout => exact h.execMaskwTimeout
  | loadDataArrival => exact h.execLoadDataArrival
  | copyStop => exact h.execCopyStop
  | galleyDispatch => exact h.execGalleyDispatch
  | geBcastWrite => exact h.execGeBcastWrite
  | geFencePass => exact h.execGeFencePass
  | geOpenComplete => exact h.execGeOpenComplete
  | geCloseComplete => exact h.execGeCloseComplete
  | rowRepair => exact h.execRowRepair
  | patrolScrub => exact h.execPatrolScrub
  | coreRetest => exact h.execCoreRetest
  | engineRetest => exact h.execEngineRetest
  | coreRetire => exact h.execCoreRetire
  | hostMemRead => exact h.execHostMemRead
  | hostMemWrite => exact h.execHostMemWrite
  | biSnoopResponse => exact h.execBiSnoopResponse
  | hostSnoopTimeout => exact h.execHostSnoopTimeout
  | commandSlotWrite => exact h.execCommandSlotWrite
  | slotConsume => exact h.execSlotConsume
  | slotFence => exact h.execSlotFence
  | ssdMemRead => exact h.execSsdMemRead
  | ssdMemWrite => exact h.execSsdMemWrite
  | ssdMetadataAccess => exact h.execSsdMetadataAccess
  | storageLinkDown => exact h.execStorageLinkDown
  | xlinvComplete => exact h.execXlinvComplete
  | friskWrite => exact h.execFriskWrite
  | sleepEntered => exact h.execSleepEntered
  | wakeComplete => exact h.execWakeComplete
  | ringConsume => exact h.execRingConsume
  | registerWrite => exact h.execRegisterWrite
  | taskStart => exact h.execTaskStart
  | agedPreemptRequest => exact h.execAgedPreemptRequest
  | preempt => exact h.execPreempt
  | donePublish => exact h.execDonePublish
  | launchAnswer => exact h.execLaunchAnswer
  | heapAnswer => exact h.execHeapAnswer
  | voltageTrim => exact h.execVoltageTrim
  | powerUp => exact h.execPowerUp
  | deviceReset => exact h.execDeviceReset
  | spdmNegotiateAlgorithms => exact h.execSpdmNegotiateAlgorithms
  | spdmGetMeasurements => exact h.execSpdmGetMeasurements
  | measurementExtend => exact h.execMeasurementExtend
  | logicDiePowerLoss => exact h.execLogicDiePowerLoss
  | supervisorAccess => exact h.execSupervisorAccess
  | coreRetestEnd => exact h.execCoreRetestEnd
  | engineRetestEnd => exact h.execEngineRetestEnd

end State.Formed

/-! ### One turn of a core, and one step

A turn takes what runs an instruction as a parameter; it keeps the form when that does. -/

/-- What runs an instruction keeps the form. -/
def KeepsRun (run : Instr → State → Res) (b : Bool) : Prop :=
  ∀ (i : Instr) (s : State), s.Formed b → ResFormed (run i s) b

theorem keepsRun_exec (b : Bool) : KeepsRun exec b := fun i _ h => h.exec i

namespace ResFormed
variable {r r' : Res} {b : Bool}

theorem branch {c : Prop} [Decidable c] (h : ResFormed r b) (h' : ResFormed r' b) :
    ResFormed (if c then r else r') b := by
  split
  · exact h
  · exact h'

theorem afterEvent (h : ResFormed r b) : ResFormed (afterEvent r) b := by
  cases r with
  | next s => exact State.Formed.same h
  | fault f => trivial
  | refused x => trivial

end ResFormed

namespace State.Formed
variable {s t : State} {b : Bool} {run : Instr → State → Res}

theorem runSlots (hr : KeepsRun run b) {l : List (Nat × Instr)} (h : s.Formed b) :
    ResFormed (runSlots run l s) b := by
  induction l generalizing s with
  | nil => exact h
  | cons x l ih =>
    dsimp only [Machine.runSlots]
    split
    next t e => exact ih ((hr _ _ h.same).of_next e)
    · trivial
    · trivial

theorem issue (hr : KeepsRun run b) {c : CoreId} (h : s.Formed b) : ResFormed (s.issue run c) b := by
  refine ResFormed.branch h.watchdogTrap ?_
  split
  · exact h.nullify
  · refine ResFormed.branch h.freeze ?_
    extract_lets s1
    have h1 : s1.Formed b := h.startIssue
    split
    next t e => exact h.finishIssue ((runSlots hr h1.same).of_next e)
    · trivial
    · trivial

theorem tickCore (hr : KeepsRun run b) {c : CoreId} (h : s.Formed b) : ResFormed (s.tickCore run c) b := by
  refine ResFormed.branch h.freeze (ResFormed.branch h.modCore ?_)
  split
  · exact h.issue hr
  · exact ResFormed.branch h.modCore (ResFormed.branch h.freeze (h.modCore.issue hr))

theorem engineStep {e : EngineId} (h : s.Formed b) : ResFormed (s.engineStep e) b := by
  unfold State.engineStep
  split
  · exact h
  · split
    · exact h.execGeBcastWrite
    · split
      · exact h.exec (.fill e)
      · exact h.exec (.copy e)
      · exact h.exec (.csum e)
      · exact h.exec (.gemvI8 e)
      · exact h.exec (.gemvI4 e)
      · exact h.exec (.gemvTf8 e)
      · exact h.exec (.kvapp e)
      · exact h.exec (.qk e)
      · exact h.exec (.av e)
      · exact h.exec (.park e)
      · exact h.exec (.unpark e)
      · exact h.endUnknown
    · exact h

theorem channelStep (h : s.Formed b) {e} : ResFormed (s.channelStep e) b :=
  ResFormed.branch h.execGeFencePass h.engineStep

theorem galleyStep (h : s.Formed b) {c} : ResFormed (s.galleyStep c) b := by
  unfold State.galleyStep
  split
  · exact h.execGalleyDispatch
  · split
    · exact h
    · split
      · exact h.execGeOpenComplete
      · exact h.execGeCloseComplete
      all_goals
        split
        · exact h.channelStep
        · exact h

theorem engineMove (h : s.Formed b) {c} : ResFormed (s.engineMove c) b := by
  unfold State.engineMove
  split
  · exact h.galleyStep
  · split
    · exact h
    · exact ResFormed.branch h.execCopyStop (ResFormed.branch h.copyFinish h.copyFinish)

theorem storeMove (h : s.Formed b) {c} : ResFormed (s.storeMove c) b := by
  unfold State.storeMove
  split
  · exact h.engineMove
  · refine ResFormed.branch h.performStore ?_
    split
    · exact h.execBiSnoopResponse
    · exact h.engineMove

theorem accessMove (h : s.Formed b) {c} : ResFormed (s.accessMove c) b :=
  ResFormed.branch (h.takeFree 64).execLoadDataArrival h.storeMove

theorem lateMove (h : s.Formed b) {c} : ResFormed (s.lateMove c) b := by
  refine ResFormed.branch h.accessMove ?_
  split
  · exact h.execBiSnoopResponse
  · exact h.engineMove

theorem waitMove {c : CoreId} {w : Wait} (h : s.Formed b) : ResFormed (s.waitMove c w) b := by
  cases w with
  | late => exact h.lateMove
  | settle => exact h.modCore
  | launch => exact h.execLaunchAnswer
  | heap => exact ResFormed.branch h.execHeapAnswer h.accessMove
  | bar | maskw | region | waittl | wait | ifence | ctxFull | drain | store => exact h.accessMove

theorem afterWork {c : CoreId} {ev : State → Res} (h : s.Formed b) (hv : ResFormed (ev s) b) :
    ResFormed (s.afterWork c ev) b :=
  ResFormed.branch hv h.storeMove

theorem freeMove (h : s.Formed b) {c} : ResFormed (s.freeMove c) b := by
  unfold State.freeMove
  split
  · exact h
  · exact ResFormed.branch h.dispatch h.recheck

theorem issueMove (hr : KeepsRun run b) {c : CoreId} (h : s.Formed b) : ResFormed (s.issueMove run c) b := by
  unfold State.issueMove
  split
  next t e =>
    have ht : t.Formed b := (h.tickCore hr).of_next e
    exact ResFormed.branch ht.storeMove ht
  · trivial
  · trivial

theorem runMove (hr : KeepsRun run b) {c : CoreId} (h : s.Formed b) : ResFormed (s.runMove run c) b := by
  unfold State.runMove
  split
  · exact h.issueMove hr
  · split
    next t e =>
      have ht : t.Formed b := (h.tickCore hr).of_next e
      exact ResFormed.branch ht.waitMove ht
    · trivial
    · trivial

theorem runCore (hr : KeepsRun run b) {c : CoreId} (h : s.Formed b) : ResFormed (s.runCore run c) b := by
  unfold State.runCore
  split
  · exact h.runMove hr
  · exact ResFormed.branch h.execTaskStart h.storeMove
  · exact h.afterWork h.execDonePublish
  · exact h.afterWork h.execPreempt
  · exact h.afterWork h.execEscalationRelaunch
  · exact h.accessMove
  · exact h.storeMove
  · exact h.storeMove
  · exact h.storeMove
  · exact ResFormed.branch h.freeMove h.storeMove
  · exact h

theorem runAct {a : Act} (h : s.Formed b) : ResFormed (runAct a s) b := by
  cases a with
  | ev i => exact ResFormed.branch (exec i h.same).afterEvent h
  | core c => exact h.runCore (keepsRun_exec b)

theorem runNext (h : s.Formed b) : ResFormed (runNext s) b := by
  unfold Machine.runNext
  split
  · exact runAct h.same
  · exact runCore (keepsRun_exec b) h.same

theorem step (h : s.Formed b) : ResFormed (step s) b := runNext h.checked

end State.Formed

/-- Settles O60: a state meets the predicate for its own part, and a step keeps it. -/
theorem stepKeepsMemoryForm : Obligations.StepKeepsMemoryForm := by
  intro s t hw e
  exact (State.Formed.step ⟨hw, rfl⟩).of_next e

end Sys2Proof.Machine

/-!
# The integer, bit, select and compare forms of SA and SB

A slot instruction of one of the operand forms (`State.alu1`, `alu2`, `alu3`, `cmp2`) whose predicate lets it act puts one
result in flight and changes nothing else: said once per form, over `exec`. What each instruction computes is then a fact
about its value function alone.
-/

namespace Sys2Proof.Machine

/-! ### One result in flight, by operand form (R42, R49, R152) -/

section Forms
variable {i : Instr} {s : State} {sl : SSlot} {p : Pred} {d a b : SReg} {q : PReg} {lat slot : Nat} {c : Cluster}
variable {v : Word} {t : Bool} {F : Flags} {pois : Bool} {keys : List Nat}

/-- An instruction that posts a scalar result gives it. -/
theorem givesScalar_of_post (he : exec i s = .next (s.postScalar slot c d lat v F pois keys)) :
    GivesScalar i s slot c d lat v F pois := ⟨_, he⟩

/-- An instruction that posts a predicate result gives it. -/
theorem givesPred_of_post (he : exec i s = .next (s.postPred slot q lat t F pois keys)) :
    GivesPred i s slot q lat t F pois := ⟨_, he⟩

/-- Under a true, unpoisoned predicate, an instruction whose effect posts a scalar result gives it. -/
theorem Acts.givesScalar_when {f : State → State} (h : Acts s p) (he : exec i s = .next (s.when p slot f))
    (hf : f s = s.postScalar slot c d lat v F pois keys) : GivesScalar i s slot c d lat v F pois :=
  givesScalar_of_post (by rw [he, State.when_acts h.1 h.2, hf])

/-- Under a true, unpoisoned predicate, an instruction whose effect posts a predicate result gives it. -/
theorem Acts.givesPred_when {f : State → State} {u : Bool} (h : Acts s p) (he : exec i s = .next (s.when p slot f))
    (hf : f s = s.postPred slot q lat u F pois keys) (hu : u = t) : GivesPred i s slot q lat t F pois :=
  givesPred_of_post (by rw [he, State.when_acts h.1 h.2, hf, hu])

theorem Acts.givesScalar_alu1 {f : Word → Word × Flags} (h : Acts s p) (he : exec i s = .next (s.alu1 sl p d a lat f))
    (hf : f (s.rd sl.cluster a) = (v, F)) : GivesScalar i s (slotS sl) sl.cluster d lat v F (s.rdPois sl.cluster a) := by
  rw [State.alu1_eq h.1 h.2] at he
  simpa only [State.opnd, hf] using givesScalar_of_post he

theorem Acts.givesScalar_alu2 {f : Word → Word → Word × Flags} (h : Acts s p)
    (he : exec i s = .next (s.alu2 sl p d a b lat f)) (hf : f (s.rd sl.cluster a) (s.rd sl.cluster b) = (v, F)) :
    GivesScalar i s (slotS sl) sl.cluster d lat v F (s.rdPois sl.cluster a || s.rdPois sl.cluster b) := by
  rw [State.alu2_eq h.1 h.2] at he
  simpa only [State.opnd, hf] using givesScalar_of_post he

theorem Acts.givesScalar_alu3 {f : Word → Word → Word → Word × Flags} (h : Acts s p)
    (he : exec i s = .next (s.alu3 sl p d a b lat f))
    (hf : f (s.rd sl.cluster a) (s.rd sl.cluster b) (s.rd sl.cluster d) = (v, F)) :
    GivesScalar i s (slotS sl) sl.cluster d lat v F
      (s.rdPois sl.cluster a || s.rdPois sl.cluster b || s.rdPois sl.cluster d) := by
  rw [State.alu3_eq h.1 h.2] at he
  simpa only [State.opnd, hf] using givesScalar_of_post he

theorem Acts.givesPred_cmp2 {f : Word → Word → Bool × Flags} (h : Acts s p)
    (he : exec i s = .next (s.cmp2 sl p q a b lat f)) (hf : f (s.rd sl.cluster a) (s.rd sl.cluster b) = (t, F)) :
    GivesPred i s (slotS sl) q lat t F (s.rdPois sl.cluster a || s.rdPois sl.cluster b) := by
  rw [State.cmp2_eq h.1 h.2] at he
  simpa only [State.opnd, hf] using givesPred_of_post he

end Forms

/-! ### Bit counts (R160) -/

theorem clzFrom_le (x : Word) (w : Nat) : clzFrom x w ≤ w := by
  fun_induction clzFrom x w <;> omega

/-- The bits that CLZ counts are zero. -/
theorem getLsbD_of_lt_clzFrom {x : Word} {w i : Nat} (h : i < clzFrom x w) : x.getLsbD (w - 1 - i) = false := by
  induction w generalizing i with
  | zero => simp [clzFrom] at h
  | succ w ih =>
    rw [clzFrom] at h
    split at h
    · omega
    next hw =>
      cases i with
      | zero => simpa using hw
      | succ i =>
        rw [show w + 1 - 1 - (i + 1) = w - 1 - i by omega]
        exact ih (by omega)

/-- CLZ stops at a one. -/
theorem getLsbD_clzFrom {x : Word} {w : Nat} (h : clzFrom x w < w) : x.getLsbD (w - 1 - clzFrom x w) = true := by
  induction w with
  | zero => omega
  | succ w ih =>
    rw [clzFrom] at h ⊢
    split at h
    next hw => simp [hw]
    next hw =>
      rw [if_neg hw, show w + 1 - 1 - (clzFrom x w + 1) = w - 1 - clzFrom x w by omega]
      exact ih (by omega)

theorem ctzFrom_le (x : Word) (i n : Nat) : ctzFrom x i n ≤ n := by
  fun_induction ctzFrom x i n <;> omega

/-- The bits that CTZ counts are zero. -/
theorem getLsbD_of_lt_ctzFrom {x : Word} {i n j : Nat} (h : j < ctzFrom x i n) : x.getLsbD (i + j) = false := by
  induction n generalizing i j with
  | zero => simp [ctzFrom] at h
  | succ n ih =>
    rw [ctzFrom] at h
    split at h
    · omega
    next hi =>
      cases j with
      | zero => simpa using hi
      | succ j =>
        rw [show i + (j + 1) = i + 1 + j by omega]
        exact ih (by omega)

/-- CTZ stops at a one. -/
theorem getLsbD_ctzFrom {x : Word} {i n : Nat} (h : ctzFrom x i n < n) : x.getLsbD (i + ctzFrom x i n) = true := by
  induction n generalizing i with
  | zero => omega
  | succ n ih =>
    rw [ctzFrom] at h ⊢
    split at h
    next hi => simp [hi]
    next hi =>
      rw [if_neg hi, show i + (ctzFrom x (i + 1) n + 1) = i + 1 + ctzFrom x (i + 1) n by omega]
      exact ih (by omega)

theorem popFrom_eq_length_filter (x : Word) (w : Nat) :
    popFrom x w = ((List.range w).filter fun i => x.getLsbD i).length := by
  induction w with
  | zero => rfl
  | succ w ih =>
    rw [popFrom, List.range_succ, List.filter_append, List.length_append, ih,
      List.filter_cons, List.filter_nil]
    cases x.getLsbD w <;> rfl

theorem bitCounts : Stated.BitCounts := by
  intro s sl p d a t h
  exact ⟨⟨_, clzFrom_le _ _, fun _ => getLsbD_of_lt_clzFrom, getLsbD_clzFrom, h.givesScalar_alu1 rfl rfl⟩,
    ⟨_, ctzFrom_le _ 0 _, fun i hi => by simpa using getLsbD_of_lt_ctzFrom hi,
      fun hn => by simpa using getLsbD_ctzFrom hn, h.givesScalar_alu1 rfl rfl⟩,
    h.givesScalar_alu1 rfl (by rw [popFrom_eq_length_filter]; rfl)⟩

/-! ### Bit fields (R161) -/

theorem fieldPos_eq (y : Word) : fieldPos y = (y.extractLsb' 0 6).toNat := by
  simp [fieldPos, BitVec.extractLsb'_toNat]

theorem fieldLen_eq (y : Word) :
    fieldLen y = if y.extractLsb' 8 6 = 0#6 then 64 else (y.extractLsb' 8 6).toNat := by
  simp [fieldLen, ← BitVec.toNat_inj, BitVec.extractLsb'_toNat, Nat.shiftRight_eq_div_pow]

/-- INS puts the low bits of x at the field, and keeps the other bits of z. -/
theorem getLsbD_insertField (x y z : Word) {i : Nat} (hi : i < 64) :
    (insertField x y z).getLsbD i =
      if fieldPos y ≤ i ∧ i < fieldPos y + fieldLen y then x.getLsbD (i - fieldPos y) else z.getLsbD i := by
  have hmask : (BitVec.ofNat 64 (2 ^ fieldLen y - 1) <<< fieldPos y).getLsbD i =
      decide (fieldPos y ≤ i ∧ i < fieldPos y + fieldLen y) := by
    rw [BitVec.getLsbD_shiftLeft, BitVec.getLsbD_ofNat, Nat.testBit_two_pow_sub_one, Bool.eq_iff_iff]
    simp only [Bool.and_eq_true, Bool.not_eq_true', decide_eq_true_eq, decide_eq_false_iff_not]
    omega
  simp only [insertField, BitVec.getLsbD_or, BitVec.getLsbD_and, BitVec.getLsbD_not, BitVec.getLsbD_shiftLeft, hmask]
  split
  next hf => simp [hf, hi, Nat.not_lt.mpr hf.1, -BitVec.getLsbD_eq_getElem]
  next hf => simp [hf, hi]

theorem bitFields : Stated.BitFields := by
  intro s sl p d a b h
  dsimp only
  rw [← fieldPos_eq, ← fieldLen_eq]
  exact ⟨h.givesScalar_alu2 rfl rfl, h.givesScalar_alu2 rfl rfl,
    _, fun i => getLsbD_insertField _ _ _, h.givesScalar_alu3 rfl rfl⟩

/-- Settles O3: the counting functions by induction on the bits that remain, INS bit by bit through its mask. -/
theorem bitCountsAndFields : Obligations.BitCountsAndFields := ⟨bitCounts, bitFields⟩

/-! ### Integer arithmetic and logic (R153, R154, R157, R159) -/

/-- Each form's value function is the statement's value by definition. -/
theorem integerArithmetic : Stated.IntegerArithmetic := by
  intro s sl p d a b sat t h
  refine ⟨?_, ?_, ?_, ?_, ?_⟩ <;> exact h.givesScalar_alu2 rfl rfl

theorem logicAndExtremes : Stated.LogicAndExtremes := by
  intro s sl p d a b t h
  refine ⟨?_, ?_, ?_, ?_, ?_, ?_, ?_, ?_⟩ <;> exact h.givesScalar_alu2 rfl rfl

/-- Settles O1: every one of these is a two-operand form. -/
theorem integerAndLogic : Obligations.IntegerAndLogic := ⟨integerArithmetic, logicAndExtremes⟩

/-! ### Select, address and move (R163 to R165) -/

/-- LEA's index, as the integer that its type reads (R164). -/
theorem leaIndex_eq_ofInt (t : LeaTy) (y : Word) : leaIndex t y = BitVec.ofInt 64 (match t with
    | .i64 => y.toInt
    | .i32 => (y.extractLsb' 0 32).toInt
    | .n32 => (y.extractLsb' 0 32).toNat) := by
  cases t with
  | i64 => simp [leaIndex]
  | i32 => simp [leaIndex, BitVec.signExtend, BitVec.setWidth_eq_extractLsb']
  | n32 => rw [leaIndex, BitVec.ofInt_natCast, BitVec.ofNat_toNat, @BitVec.setWidth_eq_extractLsb' 64 y 32 (by decide)]

/-- LEA's sum wraps as the integers do modulo 2^64 (R164). -/
theorem add_shiftLeft_eq_ofInt (x : Word) (z : Int) (n : Nat) :
    x + (BitVec.ofInt 64 z <<< n) = BitVec.ofInt 64 (x.toNat + z * 2 ^ n) := by
  have hpow : BitVec.ofInt 64 (2 ^ n) = BitVec.twoPow 64 n := by
    have hcast : (2 ^ n : Int) = (2 ^ n : Nat) := by simp
    rw [hcast, BitVec.ofInt_natCast, ← BitVec.toNat_inj, BitVec.toNat_twoPow, BitVec.toNat_ofNat]
  rw [BitVec.ofInt_add, BitVec.ofInt_mul, BitVec.ofInt_natCast, BitVec.ofNat_toNat, BitVec.setWidth_eq, hpow,
    BitVec.shiftLeft_eq_mul_twoPow]

theorem selectAddressMove : Stated.SelectAddressMove := by
  intro s sl p d a b ps sh t h
  refine ⟨fun hps => ?sel, ?lea, ?cmv⟩
  case sel => exact h.givesScalar_when rfl (if_neg (by rw [hps]; exact Bool.false_ne_true))
  case lea =>
    refine h.givesScalar_alu2 rfl ?_
    rw [leaIndex_eq_ofInt, add_shiftLeft_eq_ofInt]
    rfl
  case cmv => cases sl <;> exact h.givesScalar_when rfl rfl

/-! ### Compares (R166, R167, R174) -/

/-- A number has a one among its low bits when it is no multiple of 2^w. -/
theorem mod_two_pow_ne_zero_iff (n w : Nat) : n % 2 ^ w ≠ 0 ↔ ∃ q, q < w ∧ n.testBit q := by
  have hbit (q : Nat) : (n % 2 ^ w).testBit q = true ↔ q < w ∧ n.testBit q := by simp [Nat.testBit_mod_two_pow]
  simp only [← hbit]
  exact ⟨Nat.exists_testBit_of_ne_zero, fun ⟨q, hq⟩ h => by simp [h] at hq⟩

/-- CMP's conditions, TST as a one that both operands have below the width (R166). -/
theorem condHolds_eq (k : Cond) (t : ITy) (u v : Word) : condHolds k t u v = match k with
    | .eq => decide (tval t u = tval t v) | .ne => decide (tval t u ≠ tval t v)
    | .lt => decide (tval t u < tval t v) | .ge => decide (tval t u ≥ tval t v)
    | .gt => decide (tval t u > tval t v) | .le => decide (tval t u ≤ tval t v)
    | .tst => decide (∃ q, q < t.width ∧ u.getLsbD q ∧ v.getLsbD q) := by
  cases k with
  | tst => simp only [condHolds, mod_two_pow_ne_zero_iff, BitVec.testBit_toNat, BitVec.getLsbD_and, Bool.and_eq_true]
  | ne => exact decide_not.symm
  | _ => rfl

/-- CMPI's conditions; LT and GE read signed, LTN and GEN unsigned (R166). -/
theorem condIHolds_eq (k : CondI) (u j : Word) : condIHolds k u j = match k with
    | .eq => decide (u = j) | .ne => decide (u ≠ j) | .lt => decide (u.toInt < j.toInt) | .ge => decide (u.toInt ≥ j.toInt)
    | .ltn => decide (u.toNat < j.toNat) | .gen => decide (u.toNat ≥ j.toNat) | .tst => decide (u &&& j ≠ 0) := by
  cases k with
  | ne | tst => exact decide_not.symm
  | _ => rfl

/-- FCMP's conditions (R174): of a NaN only NE and UN hold; two values that are no NaN are compared. -/
theorem fcondHolds_value (k : FCond) (m n : Num) : (fcondHolds k m n).1 =
    if m.isNan || n.isNan then decide (k = .ne ∨ k = .un) else match k with
      | .eq => decide (ncmp m n = .eq) | .ne => decide (ncmp m n ≠ .eq) | .lt => decide (ncmp m n = .lt)
      | .ge => decide (ncmp m n ≠ .lt) | .gt => decide (ncmp m n = .gt) | .le => decide (ncmp m n ≠ .gt) | .un => false := by
  split
  next h => cases k <;> simp only [fcondHolds, h] <;> rfl
  next h => cases k <;> simp only [fcondHolds, h] <;> cases ncmp m n <;> rfl

/-- FCMP raises IV for a signalling NaN, and for any NaN under an ordering condition (R174). -/
theorem fcondHolds_flag (k : FCond) (m n : Num) : (fcondHolds k m n).2 =
    if m.isSig || n.isSig || (m.isNan || n.isNan) && decide (k = .lt ∨ k = .ge ∨ k = .gt ∨ k = .le) then fIV else 0 := by
  cases k <;> rfl

/-- The weight of PSET's first predicate in the index of its table (R167). -/
theorem two_mul_ite (c : Prop) [Decidable c] : 2 * (if c then 1 else 0) = if c then 2 else 0 := by
  split <;> rfl

theorem compares : Stated.Compares := by
  intro s sl p d pa pb a b k t ki i fk tt h
  refine ⟨?cmp, ?cmpi, ?pset, ?fcmp⟩
  case cmp => exact h.givesPred_cmp2 rfl (by rw [condHolds_eq]; rfl)
  case cmpi => exact h.givesPred_when rfl rfl (condIHolds_eq ..)
  case pset => exact h.givesPred_when rfl rfl (congrArg (fun n => tt.getLsbD (n + _)) (two_mul_ite _).symm)
  case fcmp => exact h.givesPred_cmp2 rfl (Prod.ext (fcondHolds_value ..) (fcondHolds_flag ..))

/-- Settles O4: LEA's index and sum as integers modulo 2^64, and each compare condition by condition. -/
theorem selectsAndCompares : Obligations.SelectsAndCompares := ⟨selectAddressMove, compares⟩

end Sys2Proof.Machine
